-- ==== Sys2Proof/Word.lean ====
section
/-! DEFINITION. The words of the UV2310: bytes, 32-bit counters, chords and texts (spec 00, R1).
A quantity is a bit vector where the spec adds it modulo a power of two or carries it as a set of
bits; every other quantity is a Nat. -/

namespace Sys2Proof

/-- One byte on a port or in dictionary memory, and one character code of a text (R1). -/
abbrev Byte := BitVec 8

/-- A 32-bit counter that wraps: sequence numbers, journal positions, lengths, lost counts (R22, R115). -/
abbrev Word := BitVec 32

/-- A value of the local tick counter, one 4,096th of a second per step, wrapping at 2^32 (R38). -/
abbrev Tick := BitVec 32

/-- A set of the 23 steno keys: bit i is the key of index i, so that the value as a number is the
chord code (R1). -/
abbrev Chord := BitVec 23

/-- A sequence of 8-bit character codes; lengths count characters (R1). -/
abbrev Text := List Byte

end Sys2Proof
end

