-- ==== Sys2Proof/Syntax.lean ====
section
/-! DEFINITION. The commands of the UV2310: one constructor of Instr per row of the operation table,
with the operands of the row's rule. A request carries the port it is taken on, since permission, the
port's own reader, listener and hold, and its answer queue depend on it (R171). A number is a Nat
here; the range its field can carry on a port is what WellFormed checks. -/

namespace Sys2Proof

/-- The three message ports (R168). -/
inductive Port where
  | machine | station | feed
  deriving DecidableEq, Repr

/-- The function LINE SET gives a line; the key index of a STENO line is a field of its own (R6). -/
inductive LineFunction where
  | steno | mark | hold | unused
  deriving DecidableEq, Repr

/-- Where STROKES ON starts delivery (R30). -/
inductive StartPoint where
  | head | oldest | sequence
  deriving DecidableEq, Repr

/-- How SYNC_ERRORS counts a frame with a sync error (R41, R57). -/
inductive SyncErrorMode where
  | pattern | cell
  deriving DecidableEq, Repr

/-- The view a listener follows (R120). -/
inductive ViewMode where
  | live | settled | off
  deriving DecidableEq, Repr

/-- The flags of a dictionary entry (R75). -/
structure EntryFlags where
  attachBefore : Bool
  attachAfter : Bool
  capNext : Bool
  lowerNext : Bool
  glue : Bool
  deriving DecidableEq, Repr

/-- The command of a dictionary entry; a SPEAKER command names a slot (R75). -/
inductive Command where
  | none
  | newParagraph
  | speaker (slot : Nat)
  | feedHold
  | feedResume
  deriving DecidableEq, Repr

/-- A dictionary entry as R75 lists it. It is well formed when it meets that rule's ranges, which
DEFINE and the search of the main layer check. -/
structure Entry where
  text : Text
  flags : EntryFlags
  condition : Nat
  alternate : Option Text
  command : Command
  deriving DecidableEq, Repr

/-- A set of notice kinds: bit c is the kind of code c, of TIME, HOLD, POWER, LOSS, DICT, SNAP and
SATURATE (R168, R181, R183). -/
abbrev NoticeSet := BitVec 7

/-- The commands: events and requests, one constructor per row of the table (95). -/
inductive Instr where
  /-- RESET (R147): power-on reset or the reset input. -/
  | reset
  /-- SCAN (R4): one scan, with the depth of each of L0 to L31. -/
  | scan (depths : List Byte)
  /-- STROKE_LIMIT_EXPIRY (R14). -/
  | strokeLimitExpiry
  /-- LINE_SET (R6). -/
  | lineSet (port : Port) (line : Nat) (function : LineFunction) (key press release : Option Nat)
  /-- LINE_TOGGLE (R8): bit n of the set is line n. -/
  | lineToggle (port : Port) (lines : BitVec 32)
  /-- CAPTURE_SET (R9): scan interval in µs, debounce count, stroke limit in ms. -/
  | captureSet (port : Port) (interval debounce limit : Option Nat)
  /-- JOB_OPEN (R27). -/
  | jobOpen (port : Port) (job : Nat) (keep : Bool)
  /-- JOB_CLOSE (R28). -/
  | jobClose (port : Port)
  /-- STROKES_ON (R30). -/
  | strokesOn (port : Port) (start : StartPoint) (sequence : Option Nat)
  /-- STROKES_OFF (R31). -/
  | strokesOff (port : Port)
  /-- FRAME_COMPLETION (R39). -/
  | frameCompletion
  /-- SILENCE_TIMER_EXPIRY (R38). -/
  | silenceTimerExpiry
  /-- BLOCK_LIMIT_EXPIRY (R45). -/
  | blockLimitExpiry
  /-- COAST_LIMIT_PASSED (R55). -/
  | coastLimitPassed
  /-- REFERENCE_REBASE (R56). -/
  | referenceRebase
  /-- TIME_SET (R57). -/
  | timeSet (port : Port) (rate coast threshold : Option Nat) (reframe : Option Bool) (mode : Option SyncErrorMode)
  /-- LOAD_BEGIN (R66). -/
  | loadBegin (port : Port) (total : Nat)
  /-- LOAD_DATA (R67). -/
  | loadData (port : Port) (offset : Nat) (data : List Byte)
  /-- LOAD_END (R69). -/
  | loadEnd (port : Port)
  /-- LOAD_ABORT (R72). -/
  | loadAbort (port : Port)
  /-- INACTIVITY_TIMEOUT (R68). -/
  | inactivityTimeout
  /-- CHECK_COMPLETION (R71). -/
  | checkCompletion
  /-- DEFINE (R77): key, entry and retranslate count. -/
  | define (port : Port) (key : List Nat) (entry : Entry) (retranslate : Nat)
  /-- UNDEFINE (R79). -/
  | undefine (port : Port) (key : List Nat)
  /-- FOLD_SET (R81). -/
  | foldSet (port : Port) (rule : Nat) (inUse : Bool) (key : Option Nat) (suffix : Option Text)
  /-- SPEAKER_SET (R82). -/
  | speakerSet (port : Port) (slot : Nat) (label : Text)
  /-- TRANSLATOR_TAKE (R85). -/
  | translatorTake
  /-- SETTLE_TIMER_EXPIRY (R106). -/
  | settleTimerExpiry
  /-- TRANSLATE_SET (R113). -/
  | translateSet (port : Port) (delay chord : Option Nat)
  /-- REPAINT (R129). -/
  | repaint (port : Port)
  /-- VIEW_SET (R130). -/
  | viewSet (port : Port) (mode : Option ViewMode) (obeys : Option Bool)
  /-- HOLD (R137). -/
  | hold (port : Port)
  /-- UNHOLD (R138). -/
  | unhold (port : Port)
  /-- HOLD_LIMIT_EXPIRY (R142): of the open hold of this id. -/
  | holdLimitExpiry (id : Nat)
  /-- HOLD_LIMIT_SET (R143), in minutes. -/
  | holdLimitSet (port : Port) (minutes : Nat)
  /-- IDLE_TIMER_EXPIRY (R148). -/
  | idleTimerExpiry
  /-- IDLE_SET (R148), in minutes. -/
  | idleSet (port : Port) (minutes : Nat)
  /-- DOZE (R149). -/
  | doze (port : Port)
  /-- GAP_TIMER_EXPIRY (R155). -/
  | gapTimerExpiry
  /-- WAKE (R156). -/
  | wake (port : Port)
  /-- WAKE_CAUSES_CLEAR (R157). -/
  | wakeCausesClear (port : Port) (clearOnDoze : Option Bool)
  /-- WAKE_SET (R158): chord code, count N and gap in ms. -/
  | wakeSet (port : Port) (chord count gap : Option Nat)
  /-- INTERVAL_EXPIRY (R163). -/
  | intervalExpiry
  /-- COUNTERS_SNAP (R165). -/
  | countersSnap (port : Port)
  /-- COUNTERS_AUTO (R166). -/
  | countersAuto (port : Port) (auto : Bool)
  /-- COUNTERS_READ (R167). -/
  | countersRead (port : Port)
  /-- RECEIVE_BYTE (R169). -/
  | receiveByte (port : Port) (byte : Byte)
  /-- UNKNOWN_KIND (R171): a request whose kind byte names none. -/
  | unknownKind (port : Port) (kind : Byte)
  /-- TRANSMIT_BEGIN (R174). -/
  | transmitBegin (port : Port)
  /-- NOTICES_SET (R177). -/
  | noticesSet (port : Port) (kinds : NoticeSet)
  /-- FEED_SET (R178). -/
  | feedSet (port : Port) (address channel : Option Nat)
  /-- FEED_QUERY (R179): the fields of the body after the address. -/
  | feedQuery (port : Port) (fields : List Byte)
  /-- STATUS (R180). -/
  | status (port : Port)
  /-- CELL_DECODED (R36): the binary digit of the cell. -/
  | cellDecoded (digit : Bool)
  /-- FRAME_SENT (R174). -/
  | frameSent (port : Port)
  deriving DecidableEq, Repr

end Sys2Proof
end

