-- ==== Sys2Proof/Decode.lean ====
section
/-! DEFINITION. The reading of words. No row of the operation table has bits: the commands reach the
part as frames of bytes on its ports (RECEIVE_BYTE, Machine/Receive.lean) or as events, so no word
spells a command. -/

namespace Sys2Proof

/-- The command a word spells by the table's bits: none, since no row has bits. -/
def decodeTableWord (_nbits _w : Nat) : Option Instr := none

end Sys2Proof
end

