-- ==== Sys2Proof/Config.lean ====
section
/-! DEFINITION. The sizes the manual fixes. The spec leaves no result of any command undefined, so
this file holds no free value. -/

namespace Sys2Proof.Config

/-- Records the Stroke Log holds at most (R22). -/
def logCapacity : Nat := 4096

/-- Entries the Text Journal holds at most (R115). -/
def journalCapacity : Nat := 1024

/-- Characters a tail holds at most (R119). -/
def tailCapacity : Nat := 2048

/-- Characters of one part of a repaint run (R128). -/
def repaintPart : Nat := 200

/-- Strokes of the Translator's window at most (R83). -/
def windowCapacity : Nat := 8

/-- Units of the undo history at most (R83). -/
def undoCapacity : Nat := 32

/-- Slots of the Job table (R76). -/
def jobCapacity : Nat := 1024

/-- Bytes of dictionary memory: 64 MiB (R59). -/
def dictionaryBytes : Nat := 67108864

/-- Open holds at most (R133). -/
def holdCapacity : Nat := 8

/-- Answers waiting on a port at most (R168). -/
def answerCapacity : Nat := 4

/-- Notices waiting on a port at most (R168). -/
def noticeCapacity : Nat := 8

/-- The value at which a running count stops (R161). -/
def countCeiling : Nat := 65535

/-- Milliseconds of a day: stamps are taken modulo this (R49). -/
def dayMs : Nat := 86400000

/-- Ticks in one second (R38). -/
def ticksPerSecond : Nat := 4096

/-- The value at which ages stop, and the tick difference of a re-base (R54, R56). -/
def ageCeiling : Nat := 2147483648

end Sys2Proof.Config
end

