-- ==== Sys2Proof/Machine/State.lean ====
section
/-! DEFINITION. The state of the UV2310, block by block, as plain data, and its value after reset.
Each structure names the rule that gives its fields; INVENTORY.md lists every field with its reset
value. The fields of the model's own are marked MODEL, with the log entry that declares them. -/

namespace Sys2Proof.Machine

/-- The spec names no event that stops the part (INVENTORY.md, Faults), so there is no fault: safe. -/
inductive Fault where
  deriving DecidableEq, Repr

/-- The reasons for which a command has no meaning. -/
inductive Refusal where
  /-- Raised by exec's arm for a command the model does not reach yet; no arm does so. Safe: the
  model stops where the part goes on. -/
  | notModelled (mnemonic : String)
  deriving DecidableEq, Repr

/-! ### Stamps -/

/-- How far a stamp can be trusted (R55). -/
inductive Quality where
  | locked | unchecked | coast | free
  deriving DecidableEq, Repr

/-- A time of day in ms with its quality (R49, R55). -/
structure Stamp where
  ms : Nat
  quality : Quality
  deriving DecidableEq, Repr

/-! ### Sense Scanner and Stroke Assembler -/

/-- The function of a sense line, with the key index of a STENO line (R2). -/
inductive LineRole where
  | steno (key : Nat) | mark | hold | unused
  deriving DecidableEq, Repr

/-- One sense line: its configuration record and its acceptance record (R2). -/
structure Line where
  role : LineRole
  press : Nat
  release : Nat
  enabled : Bool
  pressed : Bool
  count : Nat
  deriving DecidableEq, Repr

/-- The states of the Stroke Assembler (R10); OPEN is `gathering`. -/
inductive AssemblerState where
  | idle | gathering | drain
  deriving DecidableEq, Repr

/-- Where a stroke goes at its close (R10). -/
inductive Destination where
  | log | wake
  deriving DecidableEq, Repr

/-- The Stroke Assembler's state (R10). -/
structure Assembler where
  state : AssemblerState
  chord : Chord
  openTick : Tick
  stamp : Option Stamp
  limit : Nat
  destination : Destination
  deriving DecidableEq, Repr

/-- Sense Scanner and Stroke Assembler (R2, R9, R10, R20). -/
structure Capture where
  lines : List Line
  interval : Nat
  debounce : Nat
  strokeLimit : Nat
  holdGranted : Bool
  assembler : Assembler
  deriving DecidableEq, Repr

/-! ### Stroke Log -/

/-- What ended a doze (R156). -/
inductive WakeCause where
  | pattern | machine | station
  deriving DecidableEq, Repr

/-- The six kinds of record with their fields (R23). -/
inductive RecordBody where
  | stroke (chord : Chord) (stamp : Stamp) (duration : Nat) (held : Bool)
  | mark (stamp : Stamp)
  | job (opened closed : Nat) (keep : Bool) (stamp : Stamp)
  | wake (cause : WakeCause) (stamp : Stamp)
  | timestep (old new : Nat) (quality : Quality)
  | take (old : Option Nat) (new : Nat) (stamp : Stamp)
  deriving DecidableEq, Repr

/-- A record with its sequence number (R23). -/
structure LogRecord where
  seq : Word
  body : RecordBody
  deriving DecidableEq, Repr

/-- The three readers (R29). -/
inductive ReaderName where
  | translator | machine | station
  deriving DecidableEq, Repr

/-- A reader's state (R29), with the net records passed of its history (R33, log entry 8). -/
structure Reader where
  on : Bool
  cursor : Word
  lost : Word
  sinceTaken : Nat
  inRun : Bool
  passed : Word
  deriving DecidableEq, Repr

/-- The Stroke Log (R22). -/
structure StrokeLog where
  records : List LogRecord
  head : Word
  wrapped : Bool
  job : Nat
  translator : Reader
  machine : Reader
  station : Reader
  deriving DecidableEq, Repr

/-! ### Time Follower -/

/-- The follower states (R39). -/
inductive FollowerState where
  | search | frame | block | frameOnly
  deriving DecidableEq, Repr

/-- An alignment being confirmed, with the syncs seen there (R39, R40). -/
structure Candidate where
  position : BitVec 6
  count : Nat
  deriving DecidableEq, Repr

/-- The alternate search: inactive, or running with its candidate if any (R39, R44). -/
inductive Alternate where
  | inactive
  | searching (candidate : Option Candidate)
  deriving DecidableEq, Repr

/-- What the block check keeps of a completed frame: its sync, its position, its sum (R37, R47). -/
structure FrameSummary where
  goodSync : Bool
  position : Nat
  sum : Nat
  deriving DecidableEq, Repr

/-- The Time Follower (R36, R38, R39, R57). -/
structure TimeFollower where
  tick : Tick
  cellCounter : BitVec 6
  state : FollowerState
  candidate : Option Candidate
  alignment : BitVec 6
  previousLock : Option (BitVec 6)
  syncRun : Nat
  window : Nat
  blockRun : Option Nat
  alternate : Alternate
  blockLimit : Option Tick
  silence : Option Tick
  expected : Nat
  history : List Bool
  tref : Nat
  lref : Tick
  present : Bool
  age : Nat
  step : Option (Nat × Tick)
  take : Option Nat
  pendingTake : Option Nat
  quality : Quality
  rate : Nat
  coast : Nat
  threshold : Nat
  reframe : Bool
  mode : SyncErrorMode
  /-- MODEL (log entry 20): the last 64 cells decoded, newest last. -/
  cells : List Bool
  /-- The frame tick of the frame in progress (R38; reset value: log entry 20). -/
  frameTick : Tick
  /-- MODEL (log entry 20): a 64th cell has ended a frame whose completion has not been taken. -/
  frameDue : Bool
  /-- MODEL (log entry 20): the frame in progress is window frame 1. -/
  lockFrame : Bool
  /-- MODEL (log entry 20): the last 8 completed frames, newest last. -/
  lastFrames : List FrameSummary
  deriving DecidableEq, Repr

/-! ### Dictionary Store -/

/-- The states of the main layer (R65). -/
inductive LayerState where
  | empty | loading | checking | valid | failed
  deriving DecidableEq, Repr

/-- The outcome of the most recent check (R59, R69). -/
inductive CheckResult where
  | none | passed | incomplete | format | range | length | layout | crc
  deriving DecidableEq, Repr

/-- The loader claim (R59). -/
inductive Claim where
  | none | machine | station
  deriving DecidableEq, Repr

/-- The header fields kept for lookups (R59, R61). -/
structure ImageHeader where
  exponent : Nat
  seed : Nat
  probe : Nat
  deriving DecidableEq, Repr

/-- A Job table slot in use: real when it holds an entry, prefix-only when it holds none (R76). -/
structure JobSlot where
  key : List Chord
  entry : Option Entry
  extensions : Nat
  deriving DecidableEq, Repr

/-- A fold rule (R81). -/
structure FoldRule where
  inUse : Bool
  key : Nat
  suffix : Text
  deriving DecidableEq, Repr

/-- The Dictionary Store (R59). -/
structure Dictionary where
  layer : LayerState
  result : CheckResult
  claim : Claim
  total : Nat
  received : Nat
  inactivity : Option Tick
  header : Option ImageHeader
  /-- Dictionary memory in canonical form (R59; log entry 17). -/
  memory : List Host.Cell
  job : List JobSlot
  folds : List FoldRule
  speakers : List Text
  deriving DecidableEq, Repr

/-! ### Translator -/

/-- A stroke of the window (R83). -/
structure WindowStroke where
  chord : Chord
  seq : Word
  stamp : Stamp
  deriving DecidableEq, Repr

/-- The format state: a set of six flags (R94). -/
structure FormatState where
  line : Bool
  cap : Bool
  low : Bool
  att : Bool
  num : Bool
  glu : Bool
  deriving DecidableEq, Repr

/-- How a unit was made (R84). -/
inductive UnitKind where
  | entry | number | fold | raw | command
  deriving DecidableEq, Repr

/-- The layer that gave an entry (R60, R84). -/
inductive Layer where
  | job | main
  deriving DecidableEq, Repr

/-- The entry a unit came from, its layer and, for FOLD, the rule number (R84). -/
structure Source where
  layer : Layer
  entry : Entry
  rule : Option Nat
  deriving DecidableEq, Repr

/-- A unit, provisional or settled (R84). Its command is that of its source entry. -/
structure TextUnit where
  id : Word
  kind : UnitKind
  strokes : List WindowStroke
  source : Option Source
  text : Text
  before : FormatState
  after : FormatState
  holdId : Option Nat
  deriving DecidableEq, Repr

/-- The Translator (R83). -/
structure Translator where
  window : List WindowStroke
  base : FormatState
  provisional : List TextUnit
  undo : List TextUnit
  settleTimer : Option Tick
  settleDelay : Nat
  deleteChord : Chord
  idCounter : Word
  recomputePending : Bool
  settleAll : Bool
  deriving DecidableEq, Repr

/-! ### Text Journal and Distributor -/

/-- What opened a hold (R133). -/
inductive HoldSource where
  | line | machine | station | command
  deriving DecidableEq, Repr

/-- The nine kinds of entry with their fields (R116). -/
inductive EntryBody where
  | put (id : Word) (first : Word) (text : Text)
  | take (count : Nat)
  | fix (id : Word) (text : Text) (stamp : Stamp)
  | unfix (id : Word) (count : Nat)
  | mark (seq : Word) (ms : Nat)
  | gap (count : Nat)
  | job (closed opened : Nat)
  | hold (id : Nat) (source : HoldSource)
  | release (id : Nat)
  deriving DecidableEq, Repr

/-- A journal entry with its position (R116). -/
structure JournalEntry where
  position : Word
  body : EntryBody
  deriving DecidableEq, Repr

/-- An owed note (R120, R123). -/
inductive Note where
  | paused (id : Nat) (source : HoldSource)
  | resumed (id : Nat)
  deriving DecidableEq, Repr

/-- A repaint run (R120, R127, R128): whether its view is the settled text, the copy of the tail, the
view length and journal position it was taken at, and the part to send next. -/
structure RepaintRun where
  settled : Bool
  copy : Text
  viewLength : Word
  position : Word
  next : Nat
  deriving DecidableEq, Repr

/-- A listener's state (R120). -/
structure Listener where
  mode : ViewMode
  obeys : Bool
  cursor : Word
  paused : Option Nat
  repaintPending : Bool
  notes : List Note
  run : Option RepaintRun
  deriving DecidableEq, Repr

/-- The Text Journal and Distributor (R115, R120). -/
structure Journal where
  entries : List JournalEntry
  head : Word
  liveLength : Word
  settledLength : Word
  liveTail : Text
  settledTail : Text
  lastFix : Option Nat
  machine : Listener
  station : Listener
  feed : Listener
  deriving DecidableEq, Repr

/-! ### Hold Table -/

/-- An open hold (R133), with its age in ticks. -/
structure OpenHold where
  id : Nat
  source : HoldSource
  owner : Option Word
  position : Word
  openTick : Tick
  age : Nat
  deriving DecidableEq, Repr

/-- The Hold Table: the open holds, oldest opening first (R133). -/
structure HoldTable where
  holds : List OpenHold
  nextId : Nat
  limit : Nat
  deriving DecidableEq, Repr

/-! ### Power Control and Wake Detector -/

/-- The part states (R147). -/
inductive PartState where
  | ready | settling | doze
  deriving DecidableEq, Repr

/-- What began the present SETTLING or DOZE (R147). -/
inductive DozeReason where
  | none | idle | request
  deriving DecidableEq, Repr

/-- The set of wake causes (R157). -/
structure WakeCauses where
  pattern : Bool
  machine : Bool
  station : Bool
  deriving DecidableEq, Repr

/-- Power Control (R147). -/
structure Power where
  part : PartState
  reason : DozeReason
  idleDelay : Nat
  idleTimer : Option Tick
  causes : WakeCauses
  clearOnDoze : Bool
  deriving DecidableEq, Repr

/-- The Wake Detector (R153). -/
structure WakeDetector where
  count : Nat
  lastMatch : Tick
  gapTimer : Bool
  heldOver : Bool
  chord : Chord
  needed : Nat
  gap : Nat
  deriving DecidableEq, Repr

/-! ### Quality Counters -/

/-- A count and its mark (R160). -/
structure Tally where
  value : Nat
  mark : Bool
  deriving DecidableEq, Repr

/-- What took a snapshot (R160). -/
inductive SnapCause where
  | none | timer | machine | station | feed
  deriving DecidableEq, Repr

/-- The Quality Counters (R160): 13 running and 13 snapshot tallies in the order of the numbers. -/
structure Counters where
  running : List Tally
  intervalStart : Tick
  intervalAge : Nat
  auto : Bool
  snapshot : List Tally
  snapInterval : Nat
  snapNumber : Word
  snapCause : SnapCause
  deriving DecidableEq, Repr

/-! ### Port Controllers -/

/-- The receive assembler's state; BODY holds the bytes received after the start code, the length
first (R168, R169). -/
inductive Receive where
  | hunt
  | length
  | body (held : List Byte)
  deriving DecidableEq, Repr

/-- The statuses of an answer (R172). -/
inductive Status where
  | ok | adjusted | busy | notFromPort | wrongState | outOfRange | full | outOfOrder | unknownKind
  deriving DecidableEq, Repr

/-- What waits in an answer queue: an ANSWER message, or the STATUS REPLY to a FEED QUERY (R171,
R172, R179), its returned fields encoded by R181. -/
inductive Reply where
  | answer (kind : Byte) (status : Status) (fields : List Byte)
  | statusReply (fields : List Byte)
  deriving DecidableEq, Repr

/-- The notice kinds (R176). -/
inductive NoticeKind where
  | time | hold | power | loss | dict | snap | saturate
  deriving DecidableEq, Repr

/-- A notice waiting, its fields fixed at the event and encoded by R181 (R176). -/
structure Notice where
  kind : NoticeKind
  fields : List Byte
  deriving DecidableEq, Repr

/-- The stream source that goes next (R168, R174). -/
inductive StreamTurn where
  | stroke | listener
  deriving DecidableEq, Repr

/-- The frame being sent, with the number of its bytes sent (R168). -/
structure Sending where
  frame : List Byte
  sent : Nat
  deriving DecidableEq, Repr

/-- The state each Port Controller holds (R168). -/
structure PortState where
  receive : Receive
  answers : List Reply
  notices : List Notice
  enables : NoticeSet
  noticesMissed : Bool
  requestsDropped : Bool
  turn : StreamTurn
  sending : Option Sending
  deriving DecidableEq, Repr

/-- The three Port Controllers, the attention output, the feed address and the court channel (R168). -/
structure Ports where
  machine : PortState
  station : PortState
  feed : PortState
  attention : Bool
  feedAddress : Nat
  courtChannel : Nat
  /-- MODEL (log entry 20): the byte the Machine port sent at the latest exchange (R175). -/
  lastOut : Byte
  deriving DecidableEq, Repr

/-! ### The part -/

/-- The whole part, and the queue of commands that are waiting, first in first out. -/
structure State where
  capture : Capture
  log : StrokeLog
  time : TimeFollower
  dict : Dictionary
  trans : Translator
  journal : Journal
  holds : HoldTable
  power : Power
  wake : WakeDetector
  counters : Counters
  ports : Ports
  pending : List Instr
  deriving DecidableEq, Repr

/-! ### Reset values -/

/-- The function map after reset (R2). -/
def resetRole (n : Nat) : LineRole :=
  if n ≤ 22 then .steno n else if n = 24 then .mark else if n = 25 then .hold else .unused

/-- A sense line after reset (R2). -/
def Line.atReset (n : Nat) : Line :=
  { role := resetRole n, press := 128, release := 96, enabled := true, pressed := false, count := 0 }

/-- The Stroke Assembler after reset (R10). -/
def Assembler.atReset : Assembler :=
  { state := .idle, chord := 0, openTick := 0, stamp := none, limit := 1500, destination := .log }

/-- Sensing and assembly after reset (R2, R9, R10, R20). -/
def Capture.atReset : Capture :=
  { lines := (List.range 32).map Line.atReset, interval := 1000, debounce := 2, strokeLimit := 1500,
    holdGranted := false, assembler := Assembler.atReset }

/-- A reader after reset (R29). -/
def Reader.atReset (on : Bool) : Reader :=
  { on := on, cursor := 0, lost := 0, sinceTaken := 0, inRun := false, passed := 0 }

/-- The Stroke Log after reset (R22, R29). -/
def StrokeLog.atReset : StrokeLog :=
  { records := [], head := 0, wrapped := false, job := 0, translator := Reader.atReset true,
    machine := Reader.atReset false, station := Reader.atReset false }

/-- The Time Follower after reset (R36, R38, R39, R57). -/
def TimeFollower.atReset : TimeFollower :=
  { tick := 0, cellCounter := 0, state := .search, candidate := none, alignment := 0,
    previousLock := none, syncRun := 0, window := 0, blockRun := none, alternate := .inactive,
    blockLimit := none, silence := none, expected := 0, history := [], tref := 0, lref := 0,
    present := false, age := 0, step := none, take := none, pendingTake := none, quality := .free,
    rate := 30, coast := 10, threshold := 100, reframe := false, mode := .pattern, cells := [],
    frameTick := 0, frameDue := false, lockFrame := false, lastFrames := [] }

/-- A fold rule not in use (R81). -/
def FoldRule.unused : FoldRule := { inUse := false, key := 0, suffix := [] }

/-- The Dictionary Store after reset (R59). -/
def Dictionary.atReset : Dictionary :=
  { layer := .empty, result := .none, claim := .none, total := 0, received := 0, inactivity := none,
    header := none, memory := [], job := [], folds := List.replicate 4 FoldRule.unused,
    speakers := List.replicate 16 [] }

/-- The format state LINE and CAP (R83, R88, R97). -/
def FormatState.lineCap : FormatState :=
  { line := true, cap := true, low := false, att := false, num := false, glu := false }

/-- The Translator after reset (R83). -/
def Translator.atReset : Translator :=
  { window := [], base := FormatState.lineCap, provisional := [], undo := [], settleTimer := none,
    settleDelay := 1500, deleteChord := 1024, idCounter := 0, recomputePending := false,
    settleAll := false }

/-- A listener after reset (R120). -/
def Listener.atReset (mode : ViewMode) (obeys : Bool) : Listener :=
  { mode := mode, obeys := obeys, cursor := 0, paused := none, repaintPending := false, notes := [],
    run := none }

/-- The Text Journal and Distributor after reset (R115, R120). -/
def Journal.atReset : Journal :=
  { entries := [], head := 0, liveLength := 0, settledLength := 0, liveTail := [], settledTail := [],
    lastFix := none, machine := Listener.atReset .live false, station := Listener.atReset .live false,
    feed := Listener.atReset .settled true }

/-- The Hold Table after reset (R133). -/
def HoldTable.atReset : HoldTable := { holds := [], nextId := 1, limit := 0 }

/-- The empty set of wake causes (R157). -/
def WakeCauses.none : WakeCauses := { pattern := false, machine := false, station := false }

/-- Power Control after reset (R147): the idle timer runs from the tick at the end of reset. -/
def Power.atReset : Power :=
  { part := .ready, reason := .none, idleDelay := 30, idleTimer := some 0, causes := WakeCauses.none,
    clearOnDoze := true }

/-- The Wake Detector after reset (R153). -/
def WakeDetector.atReset : WakeDetector :=
  { count := 0, lastMatch := 0, gapTimer := false, heldOver := false, chord := 254, needed := 3,
    gap := 1000 }

/-- A count of 0 with its mark clear (R160). -/
def Tally.zero : Tally := { value := 0, mark := false }

/-- The Quality Counters after reset (R160). -/
def Counters.atReset : Counters :=
  { running := List.replicate 13 Tally.zero, intervalStart := 0, intervalAge := 0, auto := true,
    snapshot := List.replicate 13 Tally.zero, snapInterval := 0, snapNumber := 0, snapCause := .none }

/-- A Port Controller after reset (R168). -/
def PortState.atReset : PortState :=
  { receive := .hunt, answers := [], notices := [], enables := 0, noticesMissed := false,
    requestsDropped := false, turn := .stroke, sending := none }

/-- The Port Controllers after reset (R168). -/
def Ports.atReset : Ports :=
  { machine := PortState.atReset, station := PortState.atReset, feed := PortState.atReset,
    attention := false, feedAddress := 1, courtChannel := 0, lastOut := 0 }

/-- The part right after reset, with no command waiting (R147). -/
def State.reset : State :=
  { capture := Capture.atReset, log := StrokeLog.atReset, time := TimeFollower.atReset,
    dict := Dictionary.atReset, trans := Translator.atReset, journal := Journal.atReset,
    holds := HoldTable.atReset, power := Power.atReset, wake := WakeDetector.atReset,
    counters := Counters.atReset, ports := Ports.atReset, pending := [] }

end Sys2Proof.Machine
end

