-- ==== Sys2Proof/Machine/Ops.lean ====
section
/-! DEFINITION. The named operations the meanings share: elapsed time and stamps, the accessors of the
three ports, listeners and readers, dictionary memory, and the set of pressed steno keys. -/

namespace Sys2Proof.Machine

/-! ### Time -/

/-- Ticks from one tick to a later one, modulo 2^32 (R15, R49). -/
def ticksSince (start now : Tick) : Nat := (now - start).toNat

/-- Ticks as milliseconds, rounded to the nearest with halves up (R15, R49, R164). -/
def ticksToMs (ticks : Nat) : Nat := (ticks * 1000 + 2048) / 4096

/-- The ticks elapsed since `start`, times 1,000, have reached `ms` times 4,096 (R14, R148, R153; log
entry 24). -/
def elapsed (start now : Tick) (ms : Nat) : Bool := decide (ms * 4096 ≤ ticksSince start now * 1000)

/-- A running timer has reached `ms`; a stopped one never has. -/
def timerDue (timer : Option Tick) (now : Tick) (ms : Nat) : Bool :=
  match timer with
  | none => false
  | some start => elapsed start now ms

/-- The stamp of a tick against the current reference (R49). -/
def stampMs (t : TimeFollower) (l : Tick) : Nat :=
  (t.tref + ticksToMs (ticksSince t.lref l)) % Config.dayMs

/-- The stamp of a tick, with the quality current now (R49). -/
def stampAt (t : TimeFollower) (l : Tick) : Stamp := { ms := stampMs t l, quality := t.quality }

/-- The stamp of the present tick. -/
def stampNow (s : State) : Stamp := stampAt s.time s.time.tick

/-- A difference of two times of day, normalised to −43,200,000 to 43,199,999 (R50). -/
def normalised (d : Int) : Int :=
  if d < -43200000 then d + 86400000 else if 43199999 < d then d - 86400000 else d

/-! ### Ports, listeners and readers -/

/-- The Port Controller of a port. -/
def Ports.get (p : Ports) (port : Port) : PortState :=
  match port with
  | .machine => p.machine
  | .station => p.station
  | .feed => p.feed

/-- Replaces the state of one Port Controller. -/
def Ports.set (p : Ports) (port : Port) (v : PortState) : Ports :=
  match port with
  | .machine => { p with machine := v }
  | .station => { p with station := v }
  | .feed => { p with feed := v }

/-- The Port Controller of a port. -/
def State.port (s : State) (port : Port) : PortState := s.ports.get port

/-- Replaces the state of one Port Controller. -/
def State.setPort (s : State) (port : Port) (v : PortState) : State :=
  { s with ports := s.ports.set port v }

/-- The listener of a port (R120). -/
def Journal.listener (j : Journal) (port : Port) : Listener :=
  match port with
  | .machine => j.machine
  | .station => j.station
  | .feed => j.feed

/-- Replaces the listener of a port. -/
def Journal.setListener (j : Journal) (port : Port) (l : Listener) : Journal :=
  match port with
  | .machine => { j with machine := l }
  | .station => { j with station := l }
  | .feed => { j with feed := l }

/-- The listener of a port (R120). -/
def State.listener (s : State) (port : Port) : Listener := s.journal.listener port

/-- Replaces the listener of a port. -/
def State.setListener (s : State) (port : Port) (l : Listener) : State :=
  { s with journal := s.journal.setListener port l }

/-- The reader of a name (R29). -/
def StrokeLog.reader (g : StrokeLog) (name : ReaderName) : Reader :=
  match name with
  | .translator => g.translator
  | .machine => g.machine
  | .station => g.station

/-- Replaces a reader. -/
def StrokeLog.setReader (g : StrokeLog) (name : ReaderName) (r : Reader) : StrokeLog :=
  match name with
  | .translator => { g with translator := r }
  | .machine => { g with machine := r }
  | .station => { g with station := r }

/-- Replaces a reader. -/
def State.setReader (s : State) (name : ReaderName) (r : Reader) : State :=
  { s with log := s.log.setReader name r }

/-- A port's own reader: none on the Feed port (10, R168). -/
def ownReader (port : Port) : Option ReaderName :=
  match port with
  | .machine => some .machine
  | .station => some .station
  | .feed => none

/-- A reader's own port: none for TRANSLATOR (R26). -/
def readerPort (name : ReaderName) : Option Port :=
  match name with
  | .translator => none
  | .machine => some .machine
  | .station => some .station

/-- The hold source of a port: none on the Feed port (R137). -/
def ownSource (port : Port) : Option HoldSource :=
  match port with
  | .machine => some .machine
  | .station => some .station
  | .feed => none

/-- The loader claim a port can hold (R66). -/
def ownClaim (port : Port) : Claim :=
  match port with
  | .machine => .machine
  | .station => .station
  | .feed => .none

/-! ### Dictionary memory -/

/-- The byte an unlisted address of dictionary memory reads as (log entry 17). -/
def unlistedByte : Byte := 0

/-- Reads one byte of dictionary memory. -/
def readByte : List Host.Cell → Nat → Byte
  | [], _ => unlistedByte
  | (a, b) :: rest, n => if a = n then b else readByte rest n

/-- Writes one byte of dictionary memory, keeping addresses rising and listing no byte that an
unlisted address reads as. -/
def writeByte : List Host.Cell → Nat → Byte → List Host.Cell
  | [], n, v => if v = unlistedByte then [] else [(n, v)]
  | (a, b) :: rest, n, v =>
    if n < a then (if v = unlistedByte then (a, b) :: rest else (n, v) :: (a, b) :: rest)
    else if n = a then (if v = unlistedByte then rest else (a, v) :: rest)
    else (a, b) :: writeByte rest n v

/-- Writes bytes at rising addresses from `n` (R67). -/
def writeBytes : List Host.Cell → Nat → List Byte → List Host.Cell
  | m, _, [] => m
  | m, n, v :: rest => writeBytes (writeByte m n v) (n + 1) rest

/-- Reads `count` bytes from `n`. -/
def readBytes (m : List Host.Cell) (n : Nat) : Nat → List Byte
  | 0 => []
  | count + 1 => readByte m n :: readBytes m (n + 1) count

/-- Every address of a list is above `bound`, the addresses rise, and no unlisted byte is listed. -/
def risingFrom : Nat → List Host.Cell → Bool
  | _, [] => true
  | bound, (a, b) :: rest => decide (bound ≤ a) && (b != unlistedByte) && risingFrom (a + 1) rest

/-- The canonical form of dictionary memory. -/
def memoryWf (m : List Host.Cell) : Bool := risingFrom 0 m

/-- A number held in bytes, least significant first (R181, R183). -/
def littleEndian : List Byte → Nat
  | [] => 0
  | b :: rest => b.toNat + 256 * littleEndian rest

/-- A number of `width` bytes read from dictionary memory (R183). -/
def readNumber (m : List Host.Cell) (n width : Nat) : Nat := littleEndian (readBytes m n width)

/-! ### Sense lines -/

/-- The chord of one key. -/
def keyChord (key : Nat) : Chord := 1#23 <<< key

/-- What a line adds to the set of pressed steno keys (R2). -/
def lineChord (l : Line) : Chord :=
  match l.role with
  | .steno k => if l.enabled && l.pressed then keyChord k else 0
  | _ => 0

/-- The set of pressed steno keys (R2). -/
def pressedKeys (lines : List Line) : Chord := lines.foldl (fun c l => c ||| lineChord l) 0

/-- Some HOLD line is accepted PRESSED (R20). -/
def holdPressed (lines : List Line) : Bool := lines.any (fun l => l.role == .hold && l.pressed)

/-- The line of a number; a number of no line reads as an unused line. -/
def lineAt (lines : List Line) (n : Nat) : Line := lines.getD n (Line.atReset 31)

/-! ### Characters -/

/-- A code a text may hold (R1, R62, R75). -/
def textCode (c : Byte) : Bool :=
  c == 0x0A || (decide (0x20 ≤ c.toNat) && decide (c.toNat ≤ 0x7E)) || decide (0x80 ≤ c.toNat)

/-- A code a suffix or a label may hold: no line break (R81, R82). -/
def lineCode (c : Byte) : Bool :=
  (decide (0x20 ≤ c.toNat) && decide (c.toNat ≤ 0x7E)) || decide (0x80 ≤ c.toNat)

end Sys2Proof.Machine
end

