-- ==== Sys2Proof/Machine/Operands.lean ====
section
/-! DEFINITION. Operand forms: the encoding of every field the part reads and sends (R181), the codes
of kinds and named values, and the bodies and frames built from them (R183). -/

namespace Sys2Proof.Machine

/-! ### Requests and their kinds -/

/-- The request kinds (R183). -/
inductive RequestKind where
  | status | countersRead | countersSnap | repaint | viewSet | noticesSet | hold | unhold | strokesOn
  | strokesOff | jobOpen | jobClose | loadBegin | loadData | loadEnd | loadAbort | wake | lineSet
  | lineToggle | captureSet | wakeSet | idleSet | doze | wakeCausesClear | timeSet | feedSet
  | holdLimitSet | countersAuto | define | undefine | speakerSet | foldSet | translateSet | feedQuery
  deriving DecidableEq, Repr

/-- The kind codes of the requests (R183). -/
def kindCode (k : RequestKind) : Byte :=
  match k with
  | .status => 1 | .countersRead => 2 | .countersSnap => 3 | .repaint => 4 | .viewSet => 5
  | .noticesSet => 6 | .hold => 7 | .unhold => 8 | .strokesOn => 9 | .strokesOff => 10
  | .jobOpen => 11 | .jobClose => 12 | .loadBegin => 13 | .loadData => 14 | .loadEnd => 15
  | .loadAbort => 16 | .wake => 17 | .lineSet => 18 | .lineToggle => 19 | .captureSet => 20
  | .wakeSet => 21 | .idleSet => 22 | .doze => 23 | .wakeCausesClear => 24 | .timeSet => 25
  | .feedSet => 26 | .holdLimitSet => 27 | .countersAuto => 28 | .define => 29 | .undefine => 30
  | .speakerSet => 31 | .foldSet => 32 | .translateSet => 33 | .feedQuery => 34

/-- The request kinds in the order of their codes. -/
def requestKinds : List RequestKind :=
  [.status, .countersRead, .countersSnap, .repaint, .viewSet, .noticesSet, .hold, .unhold, .strokesOn,
   .strokesOff, .jobOpen, .jobClose, .loadBegin, .loadData, .loadEnd, .loadAbort, .wake, .lineSet,
   .lineToggle, .captureSet, .wakeSet, .idleSet, .doze, .wakeCausesClear, .timeSet, .feedSet,
   .holdLimitSet, .countersAuto, .define, .undefine, .speakerSet, .foldSet, .translateSet, .feedQuery]

/-- The request a kind byte names, if any (R171). -/
def kindOf (b : Byte) : Option RequestKind := requestKinds.find? (fun k => kindCode k == b)

/-- The ports a request is permitted on (R171). -/
def permitted (k : RequestKind) (port : Port) : Bool :=
  match k with
  | .status | .countersRead | .countersSnap | .repaint | .viewSet | .noticesSet => true
  | .hold | .unhold | .strokesOn | .strokesOff | .jobOpen | .jobClose | .loadBegin | .loadData
  | .loadEnd | .loadAbort | .wake => port != .feed
  | .lineSet | .lineToggle | .captureSet | .wakeSet | .idleSet | .doze | .wakeCausesClear | .timeSet
  | .feedSet | .holdLimitSet | .countersAuto => port == .machine
  | .define | .undefine | .speakerSet | .foldSet | .translateSet => port == .station
  | .feedQuery => port == .feed

/-! ### Fields sent (R181) -/

/-- A number in `width` bytes, least significant first. -/
def num : Nat → Nat → List Byte
  | 0, _ => []
  | width + 1, v => BitVec.ofNat 8 v :: num width (v / 256)

/-- One byte. -/
def byte (v : Nat) : List Byte := [BitVec.ofNat 8 v]

/-- A yes/no field. -/
def yesNo (b : Bool) : List Byte := [if b then 1 else 0]

/-- An optional field: a presence byte, then the field when present. -/
def opt {α : Type} (f : α → List Byte) (o : Option α) : List Byte :=
  match o with
  | none => [0]
  | some x => 1 :: f x

/-- A text: its length, then its characters. -/
def txt (t : Text) : List Byte := BitVec.ofNat 8 t.length :: t

/-- A set of flags as one byte, the first flag in bit 0. -/
def bits : List Bool → Nat
  | [] => 0
  | b :: rest => (if b then 1 else 0) + 2 * bits rest

/-! ### Codes of named values (R183) -/

/-- Status codes. -/
def statusCode (x : Status) : Nat :=
  match x with
  | .ok => 0 | .adjusted => 1 | .busy => 2 | .notFromPort => 3 | .wrongState => 4 | .outOfRange => 5
  | .full => 6 | .outOfOrder => 7 | .unknownKind => 8

/-- Quality codes. -/
def qualityCode (x : Quality) : Nat :=
  match x with | .locked => 0 | .unchecked => 1 | .coast => 2 | .free => 3

/-- Follower state codes. -/
def followerCode (x : FollowerState) : Nat :=
  match x with | .search => 0 | .frame => 1 | .block => 2 | .frameOnly => 3

/-- Part state codes. -/
def partCode (x : PartState) : Nat :=
  match x with | .ready => 0 | .settling => 1 | .doze => 2

/-- Doze reason codes. -/
def reasonCode (x : DozeReason) : Nat :=
  match x with | .none => 0 | .idle => 1 | .request => 2

/-- Layer state codes. -/
def layerCode (x : LayerState) : Nat :=
  match x with | .empty => 0 | .loading => 1 | .checking => 2 | .valid => 3 | .failed => 4

/-- Check result codes. -/
def resultCode (x : CheckResult) : Nat :=
  match x with
  | .none => 0 | .passed => 1 | .incomplete => 2 | .format => 3 | .range => 4 | .length => 5
  | .layout => 6 | .crc => 7

/-- Loader claim codes. -/
def claimCode (x : Claim) : Nat :=
  match x with | .none => 0 | .machine => 1 | .station => 2

/-- Reader codes. -/
def readerCode (x : ReaderName) : Nat :=
  match x with | .translator => 0 | .machine => 1 | .station => 2

/-- Listener mode codes. -/
def modeCode (x : ViewMode) : Nat :=
  match x with | .live => 0 | .settled => 1 | .off => 2

/-- Hold source codes. -/
def sourceCode (x : HoldSource) : Nat :=
  match x with | .line => 0 | .machine => 1 | .station => 2 | .command => 3

/-- Wake cause codes. -/
def wakeCauseCode (x : WakeCause) : Nat :=
  match x with | .pattern => 0 | .machine => 1 | .station => 2

/-- Snapshot cause codes. -/
def snapCauseCode (x : SnapCause) : Nat :=
  match x with | .none => 0 | .timer => 1 | .machine => 2 | .station => 3 | .feed => 4

/-- Notice kind codes. -/
def noticeCode (x : NoticeKind) : Nat :=
  match x with
  | .time => 0 | .hold => 1 | .power => 2 | .loss => 3 | .dict => 4 | .snap => 5 | .saturate => 6

/-- Line function codes. -/
def functionCode (x : LineFunction) : Nat :=
  match x with | .steno => 0 | .mark => 1 | .hold => 2 | .unused => 3

/-- Sync error mode codes. -/
def errorModeCode (x : SyncErrorMode) : Nat :=
  match x with | .pattern => 0 | .cell => 1

/-- The format state as a set. -/
def formatBits (f : FormatState) : Nat := bits [f.line, f.cap, f.low, f.att, f.num, f.glu]

/-- The wake causes as a set. -/
def causeBits (c : WakeCauses) : Nat := bits [c.pattern, c.machine, c.station]

/-- A stamp with its quality: stamp 4, quality 1. -/
def stampFields (x : Stamp) : List Byte := num 4 x.ms ++ byte (qualityCode x.quality)

/-! ### Message bodies (R183) -/

/-- The body of a STROKE message. -/
def strokeBody (lost : Word) (r : LogRecord) : List Byte :=
  let head (kind : Nat) := num 4 lost.toNat ++ byte kind ++ num 4 r.seq.toNat
  match r.body with
  | .stroke chord stamp duration held =>
    head 0 ++ num 3 chord.toNat ++ stampFields stamp ++ num 2 duration ++ yesNo held
  | .mark stamp => head 1 ++ stampFields stamp
  | .job opened closed keep stamp =>
    head 2 ++ num 2 opened ++ num 2 closed ++ yesNo keep ++ stampFields stamp
  | .wake cause stamp => head 3 ++ byte (wakeCauseCode cause) ++ stampFields stamp
  | .timestep old new quality => head 4 ++ num 4 old ++ num 4 new ++ byte (qualityCode quality)
  | .take old new stamp => head 5 ++ opt (num 2) old ++ num 2 new ++ stampFields stamp

/-- The body of a TEXT message. -/
def textBody (e : JournalEntry) : List Byte :=
  let head (kind : Nat) := num 4 e.position.toNat ++ byte kind
  match e.body with
  | .put id first text => head 0 ++ num 4 id.toNat ++ num 4 first.toNat ++ txt text
  | .take count => head 1 ++ num 2 count
  | .fix id text stamp => head 2 ++ num 4 id.toNat ++ txt text ++ stampFields stamp
  | .unfix id count => head 3 ++ num 4 id.toNat ++ byte count
  | .mark seq ms => head 4 ++ num 4 seq.toNat ++ num 4 ms
  | .gap count => head 5 ++ num 4 count
  | .job closed opened => head 6 ++ num 2 closed ++ num 2 opened
  | .hold id source => head 7 ++ byte id ++ byte (sourceCode source)
  | .release id => head 8 ++ byte id

/-- The number of parts of a repaint run (R128). -/
def runParts (run : RepaintRun) : Nat :=
  if run.copy.length = 0 then 1 else (run.copy.length + (Config.repaintPart - 1)) / Config.repaintPart

/-- The body of the REPAINT message of a run's next part (R128). -/
def repaintBody (run : RepaintRun) : List Byte :=
  let offset := Config.repaintPart * run.next
  byte (if run.settled then 1 else 0) ++ yesNo (run.next == 0) ++ yesNo (run.next + 1 == runParts run)
    ++ num 4 run.position.toNat ++ num 4 run.viewLength.toNat ++ num 2 run.copy.length ++ num 2 offset
    ++ (run.copy.drop offset).take Config.repaintPart

/-- The kind and body of an owed note's message. -/
def noteMessage (n : Note) : Byte × List Byte :=
  match n with
  | .paused id source => (133, byte id ++ byte (sourceCode source))
  | .resumed id => (134, byte id)

/-- The kind and body of a waiting reply's message (R172, R179). -/
def replyMessage (r : Reply) : Byte × List Byte :=
  match r with
  | .answer kind status fields => (128, kind :: byte (statusCode status) ++ fields)
  | .statusReply fields => (135, fields)

/-- The kind and body of a notice's message. -/
def noticeMessage (n : Notice) : Byte × List Byte := (129, byte (noticeCode n.kind) ++ n.fields)

/-- The sum of bytes modulo 256. -/
def byteSum (l : List Byte) : Byte := l.foldl (fun a b => a + b) 0

/-- The frame of a message: start code, length, kind, body, check (R183). -/
def buildFrame (kind : Byte) (body : List Byte) : List Byte :=
  let counted := BitVec.ofNat 8 (body.length + 1) :: kind :: body
  0xC3 :: (counted ++ [0 - byteSum counted])

/-! ### Fields received (R181) -/

/-- A reader of fields: it fails where the body is not in shape. -/
abbrev Parser (α : Type) := StateT (List Byte) Option α

/-- One byte. -/
def pByte : Parser Byte := fun l =>
  match l with
  | [] => none
  | b :: rest => some (b, rest)

/-- A number of `width` bytes, least significant first. -/
def pNum : Nat → Parser Nat
  | 0 => pure 0
  | width + 1 => do
    let b ← pByte
    let rest ← pNum width
    pure (b.toNat + 256 * rest)

/-- A named value: one byte holding a listed code. -/
def pCode {α : Type} (values : List α) : Parser α := do
  let b ← pByte
  fun l => (values[b.toNat]?).map (fun v => (v, l))

/-- A yes/no field. -/
def pYesNo : Parser Bool := pCode [false, true]

/-- An optional field. -/
def pOpt {α : Type} (p : Parser α) : Parser (Option α) := do
  let present ← pYesNo
  if present then some <$> p else pure none

/-- The next `count` bytes. -/
def pBytes : Nat → Parser (List Byte)
  | 0 => pure []
  | count + 1 => do
    let b ← pByte
    let rest ← pBytes count
    pure (b :: rest)

/-- A text: a length byte and that many characters. -/
def pText : Parser Text := do
  let n ← pByte
  pBytes n.toNat

/-- `count` items. -/
def pItems {α : Type} (p : Parser α) : Nat → Parser (List α)
  | 0 => pure []
  | count + 1 => do
    let x ← p
    let rest ← pItems p count
    pure (x :: rest)

/-- A list: a count byte and that many items. -/
def pList {α : Type} (p : Parser α) : Parser (List α) := do
  let n ← pByte
  pItems p n.toNat

/-- Trailing bytes: the rest of the body. -/
def pRest : Parser (List Byte) := fun l => some (l, [])

/-- A set held in one byte, with no bit above the last of `width` listed codes. -/
def pSet (width : Nat) : Parser (BitVec width) := do
  let b ← pByte
  fun l => if b.toNat < 2 ^ width then some (BitVec.ofNat width b.toNat, l) else none

/-- The command of an entry record, from its code and the speaker slot byte (R183). -/
def pCommand : Parser Command := do
  let c ← pCode [0, 1, 2, 3, 4]
  let slot ← pByte
  pure (match c with
    | 0 => .none
    | 1 => .newParagraph
    | 2 => .speaker slot.toNat
    | 3 => .feedHold
    | _ => .feedResume)

/-- The flags of an entry from their set. -/
def flagsOf (f : BitVec 5) : EntryFlags :=
  { attachBefore := f.getLsbD 0, attachAfter := f.getLsbD 1, capNext := f.getLsbD 2,
    lowerNext := f.getLsbD 3, glue := f.getLsbD 4 }

/-- The entry record (R183). -/
def pEntry : Parser Entry := do
  let flags ← pSet 5
  let condition ← pNum 1
  let command ← pCommand
  let text ← pText
  let alternate ← pOpt pText
  pure { text := text, flags := flagsOf flags, condition := condition, alternate := alternate,
         command := command }

/-- An entry is well formed (R75). -/
def entryWellFormed (e : Entry) : Bool :=
  decide (e.text.length ≤ 96) && e.text.all textCode && decide (e.condition ≤ 7)
    && (e.alternate.isSome == (e.condition != 0))
    && (match e.alternate with
        | none => true
        | some t => decide (t.length ≤ 96) && t.all textCode)
    && (match e.command with
        | .speaker slot => decide (slot ≤ 15)
        | _ => true)

/-- The fields of each request in the order its rule lists them, as the command they stand for
(R181). -/
def requestBody (port : Port) (k : RequestKind) : Parser Instr :=
  match k with
  | .status => pure (.status port)
  | .countersRead => pure (.countersRead port)
  | .countersSnap => pure (.countersSnap port)
  | .repaint => pure (.repaint port)
  | .viewSet => do
    let mode ← pOpt (pCode [.live, .settled, .off])
    let obeys ← pOpt pYesNo
    pure (.viewSet port mode obeys)
  | .noticesSet => do
    let kinds ← pSet 7
    pure (.noticesSet port kinds)
  | .hold => pure (.hold port)
  | .unhold => pure (.unhold port)
  | .strokesOn => do
    let start ← pCode [.head, .oldest, .sequence]
    let sequence ← pOpt (pNum 4)
    pure (.strokesOn port start sequence)
  | .strokesOff => pure (.strokesOff port)
  | .jobOpen => do
    let job ← pNum 2
    let keep ← pYesNo
    pure (.jobOpen port job keep)
  | .jobClose => pure (.jobClose port)
  | .loadBegin => do
    let total ← pNum 4
    pure (.loadBegin port total)
  | .loadData => do
    let offset ← pNum 4
    let data ← pRest
    pure (.loadData port offset data)
  | .loadEnd => pure (.loadEnd port)
  | .loadAbort => pure (.loadAbort port)
  | .wake => pure (.wake port)
  | .lineSet => do
    let line ← pNum 1
    let function ← pCode [.steno, .mark, .hold, .unused]
    let key ← pOpt (pNum 1)
    let press ← pOpt (pNum 1)
    let release ← pOpt (pNum 1)
    pure (.lineSet port line function key press release)
  | .lineToggle => do
    let lines ← pNum 4
    pure (.lineToggle port (BitVec.ofNat 32 lines))
  | .captureSet => do
    let interval ← pOpt (pNum 2)
    let debounce ← pOpt (pNum 1)
    let limit ← pOpt (pNum 2)
    pure (.captureSet port interval debounce limit)
  | .wakeSet => do
    let chord ← pOpt (pNum 3)
    let count ← pOpt (pNum 1)
    let gap ← pOpt (pNum 2)
    pure (.wakeSet port chord count gap)
  | .idleSet => do
    let minutes ← pNum 1
    pure (.idleSet port minutes)
  | .doze => pure (.doze port)
  | .wakeCausesClear => do
    let clearOnDoze ← pOpt pYesNo
    pure (.wakeCausesClear port clearOnDoze)
  | .timeSet => do
    let rate ← pOpt (pNum 1)
    let coast ← pOpt (pNum 1)
    let threshold ← pOpt (pNum 2)
    let reframe ← pOpt pYesNo
    let mode ← pOpt (pCode [.pattern, .cell])
    pure (.timeSet port rate coast threshold reframe mode)
  | .feedSet => do
    let address ← pOpt (pNum 1)
    let channel ← pOpt (pNum 1)
    pure (.feedSet port address channel)
  | .holdLimitSet => do
    let minutes ← pNum 1
    pure (.holdLimitSet port minutes)
  | .countersAuto => do
    let auto ← pYesNo
    pure (.countersAuto port auto)
  | .define => do
    let key ← pList (pNum 3)
    let entry ← pEntry
    let retranslate ← pNum 1
    pure (.define port key entry retranslate)
  | .undefine => do
    let key ← pList (pNum 3)
    pure (.undefine port key)
  | .speakerSet => do
    let slot ← pNum 1
    let label ← pText
    pure (.speakerSet port slot label)
  | .foldSet => do
    let rule ← pNum 1
    let inUse ← pYesNo
    let key ← pOpt (pNum 1)
    let suffix ← pOpt pText
    pure (.foldSet port rule inUse key suffix)
  | .translateSet => do
    let delay ← pOpt (pNum 2)
    let chord ← pOpt (pNum 3)
    pure (.translateSet port delay chord)
  | .feedQuery => do
    let fields ← pRest
    pure (.feedQuery port fields)

/-- The request of a body in shape: every field present in full and no byte left (R181). -/
def parseRequest (port : Port) (k : RequestKind) (body : List Byte) : Option Instr :=
  match (requestBody port k).run body with
  | some (i, []) => some i
  | _ => none

end Sys2Proof.Machine
end

