-- ==== Sys2Proof/Machine/Flags.lean ====
section
/-! DEFINITION. Notices with their enables and the missed flag (R176), and the quality counts with
their marks (R161, R162). Both may be raised by any block, so they come before all of them. -/

namespace Sys2Proof.Machine

/-! ### Notices -/

/-- The port's copy of a notice: queued when its kind is enabled, dropped with the missed flag set
when the queue is full (R176). -/
def queueNotice (n : Notice) (p : PortState) : PortState :=
  if p.enables.getLsbD (noticeCode n.kind) then
    if p.notices.length < Config.noticeCapacity then { p with notices := p.notices ++ [n] }
    else { p with noticesMissed := true }
  else p

/-- Raises a notice on one port (R176). -/
def noticeOn (port : Port) (n : Notice) (s : State) : State :=
  s.setPort port (queueNotice n (s.port port))

/-- Raises a notice on every port where its kind is enabled (R176). -/
def raiseNotice (n : Notice) (s : State) : State :=
  noticeOn .feed n (noticeOn .station n (noticeOn .machine n s))

/-! ### Counts -/

/-- The counters, in the order of their numbers (R160). -/
inductive Counter where
  | strokes | untranslates | deletes | deadDeletes | heldStrokes | bumps | syncErrors | blockErrors
  | alignChanges | timeSteps | logLosses | repaints | badFrames
  deriving DecidableEq, Repr

/-- A counter's place in the tallies: its number less one (R160). -/
def counterIndex (c : Counter) : Nat :=
  match c with
  | .strokes => 0 | .untranslates => 1 | .deletes => 2 | .deadDeletes => 3 | .heldStrokes => 4
  | .bumps => 5 | .syncErrors => 6 | .blockErrors => 7 | .alignChanges => 8 | .timeSteps => 9
  | .logLosses => 10 | .repaints => 11 | .badFrames => 12

/-- Adds an amount to a tally, stopping at 65,535 and setting the mark there (R161). -/
def addTally (t : Tally) (amount : Nat) : Tally :=
  let v := min (t.value + amount) Config.countCeiling
  { value := v, mark := t.mark || v == Config.countCeiling }

/-- The running tally of a counter. -/
def runningTally (q : Counters) (c : Counter) : Tally := q.running.getD (counterIndex c) Tally.zero

/-- The SATURATE notice of a counter (R162). -/
def saturateNotice (c : Counter) (s : State) : Notice :=
  { kind := .saturate,
    fields := byte (counterIndex c + 1) ++ num 4 (s.counters.snapNumber + 1).toNat
      ++ stampFields (stampNow s) }

/-- Adds `amount` to a counter; an amount of 0 is no count. The event that sets the mark raises a
SATURATE notice (R161, R162). -/
def countEvents (c : Counter) (amount : Nat) (s : State) : State :=
  if amount = 0 then s
  else
    let old := runningTally s.counters c
    let new := addTally old amount
    let s' := { s with counters := { s.counters with
      running := s.counters.running.set (counterIndex c) new } }
    if new.mark && !old.mark then raiseNotice (saturateNotice c s) s' else s'

/-- Adds one to a counter (R161). -/
def countOne (c : Counter) (s : State) : State := countEvents c 1 s

end Sys2Proof.Machine
end

