-- ==== Sys2Proof/Machine/Journal.lean ====
section
/-! DEFINITION. The Text Journal and Distributor: appends and the two views (R117 to R119), what a
listener reaches (R121, R124), pauses and their ends (R123, R125), overrun and repaint (R126 to R128),
and the two requests about a port's own listener (R129 to R131). -/

namespace Sys2Proof.Machine

/-! ### Reaching entries -/

/-- The entries waiting for a listener: those from its cursor up to the head (R115). -/
def waitingEntries (j : Journal) (l : Listener) : List JournalEntry :=
  j.entries.drop (j.entries.length - (j.head - l.cursor).toNat)

/-- The conditions of a reach other than the cursor's (R121). -/
def canReach (l : Listener) : Bool :=
  l.mode != .off && l.paused.isNone && l.notes.isEmpty && l.run.isNone

/-- What a listener does with an entry it reaches (R121). -/
inductive ReachOutcome where
  | deliver | pass | judgeHold
  deriving DecidableEq, Repr

/-- The table of R121: the outcome by mode and kind. -/
def entryOutcome (l : Listener) (b : EntryBody) : ReachOutcome :=
  match b with
  | .put _ _ _ | .take _ => if l.mode = .live then .deliver else .pass
  | .fix _ _ _ => if l.mode = .live then .pass else .deliver
  | .unfix _ _ | .mark _ _ | .gap _ | .job _ _ => .deliver
  | .hold _ _ => if l.obeys then .judgeHold else .deliver
  | .release _ => if l.obeys then .pass else .deliver

/-- Is the hold opened by this HOLD entry open (R134)? -/
def holdEntryOpen (holds : List OpenHold) (e : JournalEntry) : Bool :=
  match e.body with
  | .hold id _ => holds.any (fun h => h.id == id && h.position == e.position)
  | _ => false

/-- Pauses a listener on a hold: a PAUSED note is added (R123, R124). -/
def pauseOn (h : OpenHold) (l : Listener) : Listener :=
  { l with paused := some h.id, notes := l.notes ++ [.paused h.id h.source] }

/-- Stops a listener on the HOLD entry it reached (R124). -/
def stopAt (e : JournalEntry) (l : Listener) : Listener :=
  match e.body with
  | .hold id source => { l with paused := some id, notes := l.notes ++ [.paused id source] }
  | _ => l

/-- Reaches the waiting entries one after another until one is to be delivered, stops the listener, or
none is left (R121, R124). -/
def reachThrough (holds : List OpenHold) : List JournalEntry → Listener → Listener
  | [], l => l
  | e :: rest, l =>
    if canReach l then
      match entryOutcome l e.body with
      | .deliver => l
      | .pass => reachThrough holds rest { l with cursor := l.cursor + 1 }
      | .judgeHold =>
        if holdEntryOpen holds e then stopAt e l
        else reachThrough holds rest { l with cursor := l.cursor + 1 }
    else l

/-- Judges the reach of one listener (R121). -/
def reachOne (port : Port) (s : State) : State :=
  let l := s.listener port
  s.setListener port (reachThrough s.holds.holds (waitingEntries s.journal l) l)

/-- Judges the reach of every listener (R121). -/
def reachAll (s : State) : State := reachOne .feed (reachOne .station (reachOne .machine s))

/-! ### Pauses and repaints -/

/-- The open holds a listener has passed, oldest opening first: those whose opening position is not
among its waiting entries (06 section 6.4, R134). -/
def passedHolds (holds : List OpenHold) (j : Journal) (l : Listener) : List OpenHold :=
  holds.filter (fun h => !decide ((h.position - l.cursor).toNat < (j.head - l.cursor).toNat))

/-- A PAUSED note for hold `id`. -/
def isPausedNote (id : Nat) (n : Note) : Bool :=
  match n with
  | .paused h _ => h == id
  | .resumed _ => false

/-- Ends a listener's pause: an owed PAUSED for its hold is removed, or a RESUMED is added (R123). -/
def endPause (l : Listener) : Listener :=
  match l.paused with
  | none => l
  | some id =>
    { l with
      paused := none,
      notes := if l.notes.any (isPausedNote id) then l.notes.filter (fun n => !isPausedNote id n)
               else l.notes ++ [.resumed id] }

/-- The repaint run of a listener's view as it stands (R127, steps 1 to 3). -/
def freshRun (j : Journal) (l : Listener) : RepaintRun :=
  let settled := l.mode == .settled
  { settled := settled, copy := if settled then j.settledTail else j.liveTail,
    viewLength := if settled then j.settledLength else j.liveLength, position := j.head, next := 0 }

/-- Starts a repaint run (R127). -/
def startRun (port : Port) (s : State) : State :=
  let l := s.listener port
  countOne .repaints (s.setListener port { l with
    cursor := s.journal.head, repaintPending := false, run := some (freshRun s.journal l) })

/-- A repaint called for on a listener (R127). One that pauses the listener leaves a run under way as it is (log
entry 28). -/
def callRepaint (port : Port) (s : State) : State :=
  let l := s.listener port
  if l.mode = .off then s
  else
    match l.paused, l.obeys, s.holds.holds with
    | none, true, earliest :: _ =>
      s.setListener port { pauseOn earliest l with repaintPending := true }
    | _, _, _ => startRun port s

/-- What a listener does when the hold it is paused on closes (R125). -/
def resumeListener (port : Port) (s : State) : State :=
  let l := endPause (s.listener port)
  let s' := s.setListener port l
  match passedHolds s.holds.holds s.journal l with
  | earliest :: _ => s'.setListener port (pauseOn earliest l)
  | [] => if l.repaintPending then callRepaint port s' else s'

/-- Resumes a listener if it is paused on hold `id` (R141, step 3). -/
def resumeIfOn (id : Nat) (port : Port) (s : State) : State :=
  if (s.listener port).paused = some id then resumeListener port s else s

/-! ### Appending -/

/-- Overruns a listener whose cursor stands on the removed entry (R126). -/
def overrunOne (removed : Word) (port : Port) (s : State) : State :=
  let l := s.listener port
  if l.cursor = removed then
    let l' := { l with cursor := removed + 1 }
    if l.paused.isSome then s.setListener port { l' with repaintPending := true }
    else callRepaint port (s.setListener port l')
  else s

/-- Removes the oldest entry of a full ring, overrunning every listener on it (R117, R126). -/
def dropOldestEntry (s : State) : State :=
  match s.journal.entries with
  | [] => s
  | oldest :: rest =>
    if s.journal.entries.length < Config.journalCapacity then s
    else
      let s := { s with journal := { s.journal with entries := rest } }
      overrunOne oldest.position .feed
        (overrunOne oldest.position .station (overrunOne oldest.position .machine s))

/-- Adds text at the end of a tail (R119). -/
def tailAdd (tail text : Text) : Text :=
  let t := tail ++ text
  t.drop (t.length - Config.tailCapacity)

/-- Removes characters from the end of a tail (R119). -/
def tailRemove (tail : Text) (count : Nat) : Text := tail.take (tail.length - count)

/-- The views after an entry (R118, R119). -/
def applyViews (b : EntryBody) (j : Journal) : Journal :=
  match b with
  | .put _ _ text =>
    { j with liveLength := j.liveLength + BitVec.ofNat 32 text.length, liveTail := tailAdd j.liveTail text }
  | .take count =>
    { j with liveLength := j.liveLength - BitVec.ofNat 32 count, liveTail := tailRemove j.liveTail count }
  | .fix _ text stamp =>
    { j with
      settledLength := j.settledLength + BitVec.ofNat 32 text.length,
      settledTail := tailAdd j.settledTail text, lastFix := some stamp.ms }
  | .unfix _ count =>
    { j with
      liveLength := j.liveLength - BitVec.ofNat 32 count, liveTail := tailRemove j.liveTail count,
      settledLength := j.settledLength - BitVec.ofNat 32 count,
      settledTail := tailRemove j.settledTail count }
  | .mark _ _ | .gap _ | .job _ _ | .hold _ _ | .release _ => j

/-- A listener in OFF stands at the head (R121). -/
def followJournal (head : Word) (l : Listener) : Listener :=
  if l.mode = .off then { l with cursor := head } else l

/-- Places an entry at the head of the ring (R117). -/
def placeEntry (b : EntryBody) (j : Journal) : Journal :=
  let head := j.head + 1
  let j := applyViews b { j with entries := j.entries ++ [{ position := j.head, body := b }], head := head }
  { j with
    machine := followJournal head j.machine, station := followJournal head j.station,
    feed := followJournal head j.feed }

/-- Appends an entry, the reach of the listeners not yet judged (R117, R126). -/
def placeInJournal (b : EntryBody) (s : State) : State :=
  let s := dropOldestEntry s
  { s with journal := placeEntry b s.journal }

/-- Appends an entry, and the listeners reach it (R117, R121). -/
def appendEntry (b : EntryBody) (s : State) : State := reachAll (placeInJournal b s)

/-! ### A listener's messages (R122, R123, R128) -/

/-- The entry a listener has reached and offers as a TEXT message (R121, R122). -/
def reachedEntry (j : Journal) (l : Listener) : Option JournalEntry :=
  if canReach l then
    match waitingEntries j l with
    | e :: _ => if entryOutcome l e.body = .deliver then some e else none
    | [] => none
  else none

/-- The next message of a listener, kind and body, with the listener once it is begun (R122, R123,
R128). -/
def listenerOffer (j : Journal) (l : Listener) : Option ((Byte × List Byte) × Listener) :=
  match l.notes, l.run, reachedEntry j l with
  | n :: rest, _, _ => some (noteMessage n, { l with notes := rest })
  | [], some run, _ =>
    some ((132, repaintBody run),
      { l with run := if run.next + 1 < runParts run then some { run with next := run.next + 1 } else none })
  | [], none, some e => some ((131, textBody e), { l with cursor := l.cursor + 1 })
  | [], none, none => none

/-! ### Requests about the port's own listener -/

/-- A change of obedience (R131). -/
def setObedience (port : Port) (obeys : Bool) (s : State) : State :=
  let l := s.listener port
  if l.obeys = obeys then s
  else
    let l' := { l with obeys := obeys }
    if obeys then
      match decide (l.mode = .off), passedHolds s.holds.holds s.journal l' with
      | false, earliest :: _ => s.setListener port (pauseOn earliest l')
      | _, _ => s.setListener port l'
    else
      let s' := s.setListener port (endPause l')
      if l.paused.isSome && l.repaintPending then callRepaint port s' else s'

/-- A change of mode (R130). A repaint called for in the new mode replaces a run under way also when the call
pauses the listener (log entry 28). -/
def setMode (port : Port) (mode : ViewMode) (s : State) : State :=
  let l := s.listener port
  if l.mode = mode then s
  else
    let l' := { l with mode := mode }
    match mode with
    | .off =>
      s.setListener port { l' with
        cursor := s.journal.head, paused := none, repaintPending := false, notes := [], run := none }
    | .live | .settled =>
      if l.paused.isSome then s.setListener port { l' with repaintPending := true }
      else callRepaint port (s.setListener port { l' with run := none })

end Sys2Proof.Machine
end

