-- ==== Sys2Proof/Machine/Holds.lean ====
section
/-! DEFINITION. The Hold Table: allocation of ids (R135), opening (R136) and closing (R141) a hold from
every source, and the hold limit (R142). -/

namespace Sys2Proof.Machine

/-- The causes of a close (R141). -/
inductive CloseCause where
  | owner | resume | undo | limit
  deriving DecidableEq, Repr

/-- Codes of the causes of a close (R183). -/
def closeCauseCode (c : CloseCause) : Nat :=
  match c with | .owner => 0 | .resume => 1 | .undo => 2 | .limit => 3

/-- The id after one, wrapping from 255 to 1 (R135). -/
def idAfter (id : Nat) : Nat := if 255 ≤ id then 1 else id + 1

/-- The first id from `id` upward that no open hold carries (R135). -/
def firstFreeId (holds : List OpenHold) : Nat → Nat → Nat
  | 0, id => id
  | trials + 1, id =>
    if holds.any (fun h => h.id == id) then firstFreeId holds trials (idAfter id) else id

/-- The HOLD notice of an open (`cause` absent) or a close, the table standing as after the event
(R144). -/
def holdNotice (h : OpenHold) (cause : Option CloseCause) (position : Word) (s : State) : Notice :=
  { kind := .hold,
    fields := byte (if cause.isNone then 0 else 1) ++ byte h.id ++ byte (sourceCode h.source)
      ++ opt (fun c => byte (closeCauseCode c)) cause ++ num 4 position.toNat
      ++ byte s.holds.holds.length ++ stampFields (stampNow s) }

/-- What the asker of an open is told (R136). -/
inductive OpenAnswer where
  | existing (id : Nat)
  | full
  | opened (id : Nat)
  deriving DecidableEq, Repr

/-- The open hold of a source, if there is one; a COMMAND open asks for a hold of its own (R136). -/
def existingHold (s : State) (source : HoldSource) : Option OpenHold :=
  if source = .command then none else s.holds.holds.find? (fun h => h.source == source)

/-- Takes an open, step 3 of R136. -/
def takeHold (source : HoldSource) (owner : Option Word) (s : State) : State × OpenAnswer :=
  let id := firstFreeId s.holds.holds 255 s.holds.nextId
  let position := s.journal.head
  let h : OpenHold :=
    { id := id, source := source, owner := owner, position := position, openTick := s.time.tick, age := 0 }
  let s := placeInJournal (.hold id source) s
  let s := { s with holds := { s.holds with holds := s.holds.holds ++ [h], nextId := idAfter id } }
  (reachAll (raiseNotice (holdNotice h none position s) s), .opened id)

/-- An open asked for by any source (R136). -/
def openHold (source : HoldSource) (owner : Option Word) (s : State) : State × OpenAnswer :=
  match existingHold s source with
  | some h => (s, .existing h.id)
  | none =>
    if Config.holdCapacity ≤ s.holds.holds.length then (s, .full) else takeHold source owner s

/-- Closes an open hold (R141). -/
def closeThis (h : OpenHold) (cause : CloseCause) (s : State) : State :=
  let position := s.journal.head
  let s := appendEntry (.release h.id) s
  let s := { s with holds := { s.holds with holds := s.holds.holds.filter (fun x => x.id != h.id) } }
  let s := resumeIfOn h.id .feed (resumeIfOn h.id .station (resumeIfOn h.id .machine s))
  reachAll (raiseNotice (holdNotice h (some cause) position s) s)

/-- A close asked for the first open hold that meets a test: nothing when none does (R141). -/
def closeWhere (test : OpenHold → Bool) (cause : CloseCause) (s : State) : State :=
  match s.holds.holds.find? test with
  | none => s
  | some h => closeThis h cause s

/-- The most recently opened COMMAND hold still open (R134). -/
def newestCommandHold (holds : List OpenHold) : Option OpenHold :=
  holds.reverse.find? (fun h => h.source == .command)

/-- Closes the most recently opened COMMAND hold, if there is one (R140). -/
def closeNewestCommand (s : State) : State :=
  match newestCommandHold s.holds.holds with
  | none => s
  | some h => closeThis h .resume s

/-- Closes the hold a reopened unit owns, if it is still open (R140). -/
def closeOwned (holdId : Option Nat) (unitId : Word) (s : State) : State :=
  match holdId with
  | none => s
  | some id =>
    closeWhere (fun h => h.id == id && h.source == .command && h.owner == some unitId) .undo s

/-- Ticks of a hold limit in minutes (R142). -/
def limitTicks (minutes : Nat) : Nat := minutes * 245760

/-- The limit timer of a hold has expired under a limit (R142). -/
def limitReached (minutes : Nat) (h : OpenHold) : Bool :=
  minutes != 0 && decide (limitTicks minutes ≤ h.age)

/-- Closes holds one after another in the order given (R143). -/
def closeEach (cause : CloseCause) : List OpenHold → State → State
  | [], s => s
  | h :: rest, s => closeEach cause rest (closeWhere (fun x => x.id == h.id) cause s)

end Sys2Proof.Machine
end

