-- ==== Sys2Proof/Machine/Log.lean ====
section
/-! DEFINITION. The Stroke Log: appends, overwrite and loss (R24 to R26), the starting and stopping of
the readers (R30, R31) and the delivery of a record (R32). The requests about the log stand in Record.lean. -/

namespace Sys2Proof.Machine

/-- The sequence number of the oldest record held, or the head of an empty ring (R22). -/
def oldestSeq (g : StrokeLog) : Word := g.head - BitVec.ofNat 32 g.records.length

/-- The records waiting for a reader (R29). -/
def recordsWaiting (g : StrokeLog) (r : Reader) : Nat := (g.head - r.cursor).toNat

/-- The record of a sequence number, if it is held (R22). -/
def recordAt (g : StrokeLog) (seq : Word) : Option LogRecord := g.records.find? (fun r => r.seq == seq)

/-- The LOSS notice of a reader (R26). -/
def lossNotice (name : ReaderName) (r : Reader) : Notice :=
  { kind := .loss, fields := byte (readerCode name) ++ num 4 r.lost.toNat ++ num 4 r.cursor.toNat }

/-- Takes a loss that leaves reader `name` as `r`: LOG_LOSSES counts one, and a loss that begins a new
run of a MACHINE or STATION reader sets in run and raises a LOSS notice on its port (R25, R26). -/
def takeLoss (name : ReaderName) (r : Reader) (s : State) : State :=
  let s := countOne .logLosses s
  match readerPort name with
  | none => s.setReader name r
  | some port =>
    let s' := s.setReader name { r with inRun := true }
    if r.inRun then s' else noticeOn port (lossNotice name r) s'

/-- Moves a reader off the removed record (R25). A loss of TRANSLATOR also raises its lost since taken
(R29). -/
def overwriteReader (name : ReaderName) (removed : Word) (s : State) : State :=
  let r := s.log.reader name
  if r.cursor = removed then
    takeLoss name { r with
      cursor := r.cursor + 1, lost := r.lost + 1,
      sinceTaken := if name = .translator then r.sinceTaken + 1 else r.sinceTaken } s
  else s

/-- Removes the oldest record of a full ring, moving every reader whose cursor stands on it (R25). -/
def makeRoom (s : State) : State :=
  match s.log.records with
  | [] => s
  | oldest :: rest =>
    if s.log.records.length < Config.logCapacity then s
    else
      let s := { s with log := { s.log with records := rest } }
      overwriteReader .station oldest.seq
        (overwriteReader .machine oldest.seq (overwriteReader .translator oldest.seq s))

/-- An off reader follows the head over the record just appended (R31, R33). -/
def followHead (head : Word) (r : Reader) : Reader :=
  if r.on then r else { r with cursor := head, passed := r.passed + 1 }

/-- Appends a record at the head of the ring (R24, R25, R31). -/
def appendRecord (body : RecordBody) (s : State) : State :=
  let s := makeRoom s
  let head := s.log.head + 1
  { s with log := { s.log with
      records := s.log.records ++ [{ seq := s.log.head, body := body }],
      head := head,
      wrapped := s.log.wrapped || head == 0,
      machine := followHead head s.log.machine,
      station := followHead head s.log.station } }

/-- The written span (R30). -/
def writtenSpan (g : StrokeLog) : Nat :=
  if g.wrapped then 2147483648 else min g.head.toNat 2147483648

/-- Where STROKES ON starts (R30): the start, the records found lost, and the point asked for. -/
structure StreamStart where
  start : Word
  lost : Nat
  asked : Word
  deriving DecidableEq, Repr

/-- Judges a SEQUENCE start by the distance back from the head (R30). -/
def judgeSequence (g : StrokeLog) (a : Word) : Option StreamStart :=
  let distance := (g.head - a).toNat
  if distance = 0 then some { start := g.head, lost := 0, asked := a }
  else if distance ≤ g.records.length then some { start := a, lost := 0, asked := a }
  else if distance ≤ writtenSpan g then
    some { start := oldestSeq g, lost := distance - g.records.length, asked := a }
  else none

/-- Judges a start point; a sequence number given with another start point, or absent with SEQUENCE,
is out of range (R30, R181). -/
def judgeStart (g : StrokeLog) (start : StartPoint) (sequence : Option Nat) : Option StreamStart :=
  match start, sequence with
  | .head, none => some { start := g.head, lost := 0, asked := g.head }
  | .oldest, none => some { start := oldestSeq g, lost := 0, asked := oldestSeq g }
  | .sequence, some a => judgeSequence g (BitVec.ofNat 32 a)
  | _, _ => none

/-- Starts a reader: the cursor moves to the start, the records missing are lost, and the net records
passed change by the distance from the cursor to the point asked for (R30, R33). -/
def startReader (name : ReaderName) (at_ : StreamStart) (s : State) : State :=
  let r := s.log.reader name
  let r' := { r with
    on := true, cursor := at_.start, inRun := false,
    lost := r.lost + BitVec.ofNat 32 at_.lost, passed := r.passed + (at_.asked - r.cursor) }
  if at_.lost = 0 then s.setReader name r' else takeLoss name r' s

/-- Stops a reader: its cursor moves to the head, and the records it moves over are passed (R31; log
entry 8). -/
def stopReader (name : ReaderName) (s : State) : State :=
  let r := s.log.reader name
  s.setReader name { r with
    on := false, cursor := s.log.head, inRun := false, passed := r.passed + (s.log.head - r.cursor) }

/-- Moves a reader past the record delivered or taken (R29, R32, R33). -/
def passRecord (r : Reader) : Reader :=
  { r with cursor := r.cursor + 1, passed := r.passed + 1, inRun := false }

/-- The record a MACHINE or STATION reader offers to its port's transmitter (R32). -/
def readerOffer (g : StrokeLog) (name : ReaderName) : Option LogRecord :=
  let r := g.reader name
  if r.on && r.cursor != g.head then recordAt g r.cursor else none

end Sys2Proof.Machine
end

