-- ==== Sys2Proof/Machine/Lookup.lean ====
section
/-! DEFINITION. Lookups: the search of the Job table (R76), the search of the main layer by hash and
probe over dictionary memory (R61 to R64, R182, R183), and the answer formed from both (R60). -/

namespace Sys2Proof.Machine

/-! ### The Job table -/

/-- The slot in use whose key equals the searched key (R76). -/
def jobSlot (slots : List JobSlot) (key : List Chord) : Option JobSlot :=
  slots.find? (fun x => x.key == key)

/-! ### The image -/

/-- Bytes of an image's header (R183). -/
def headerSize : Nat := 16

/-- Bytes of a slot (R183). -/
def slotSize : Nat := 8

/-- Bytes of a key record (R183). -/
def keyRecordSize : Nat := 29

/-- The entry reference that says prefix only (R182). -/
def prefixOnlyReference : Nat := 4294967295

/-- The format field of an image (R183). -/
def imageFormat (m : List Host.Cell) : Nat := readNumber m 0 2

/-- The bucket exponent field. -/
def imageExponent (m : List Host.Cell) : Nat := readNumber m 2 1

/-- The maximum probe field. -/
def imageProbe (m : List Host.Cell) : Nat := readNumber m 3 1

/-- The seed field. -/
def imageSeed (m : List Host.Cell) : Nat := readNumber m 4 4

/-- The image length field. -/
def imageLength (m : List Host.Cell) : Nat := readNumber m 8 4

/-- The entry region offset field. -/
def imageRegion (m : List Host.Cell) : Nat := readNumber m 12 4

/-- The length of the entry region: from its offset to the start of the closing CRC (R61). -/
def regionLength (m : List Host.Cell) : Nat := imageLength m - 4 - imageRegion m

/-! ### The search of the main layer -/

/-- One stroke of the hash (R63). -/
def hashStep (h : Nat) (c : Chord) : Nat := (h * 31 + c.toNat + 1) % 4294967296

/-- The bucket of a key (R63). -/
def bucketOf (header : ImageHeader) (key : List Chord) : Nat :=
  let h := key.foldl hashStep header.seed
  ((h + h / 65536) % 4294967296) % 2 ^ header.exponent

/-- The chord codes of a key record, as three-byte numbers (R182, R183). -/
def recordCodes (m : List Host.Cell) (n : Nat) : Nat → List Nat
  | 0 => []
  | count + 1 => readNumber m n 3 :: recordCodes m (n + 3) count

/-- A slot's key equals the searched key: its key record lies wholly within the entry region, its
length is 1 to 8 and equal, and the codes are equal in order (R62, R64, R182). -/
def slotMatches (m : List Host.Cell) (record : Nat) (key : List Chord) : Bool :=
  let at_ := imageRegion m + record
  let length := readNumber m at_ 1
  decide (record + keyRecordSize ≤ regionLength m) && decide (1 ≤ length) && decide (length ≤ 8)
    && length == key.length && recordCodes m (at_ + 1) length == key.map (fun c => c.toNat)

/-- The longest entry record: 4 bytes, two texts of 96 with their lengths, a presence byte. -/
def longestEntry : Nat := 199

/-- The entry at an offset within the entry region: none when it is prefix only, lies outside the
region, runs past its end or is not well formed (R62, R182). -/
def entryAt (m : List Host.Cell) (reference : Nat) : Option Entry :=
  if reference = prefixOnlyReference || decide (regionLength m ≤ reference) then none
  else
    let available := min longestEntry (regionLength m - reference)
    match pEntry.run (readBytes m (imageRegion m + reference) available) with
    | some (e, _) => if entryWellFormed e then some e else none
    | none => none

/-- What a search of a layer answers: its entry, if any, and whether the key is extendable. -/
structure Found where
  entry : Option Entry
  extendable : Bool
  deriving DecidableEq, Repr

/-- The answer of a search that finds no key (R64). -/
def absent : Found := { entry := none, extendable := false }

/-- Examines slots from `slot` on until an EMPTY slot, a matching key, or `probes` slots (R64). -/
def probeFrom (m : List Host.Cell) (exponent : Nat) (key : List Chord) : Nat → Nat → Found
  | 0, _ => absent
  | probes + 1, slot =>
    let at_ := headerSize + slotSize * slot
    if readByte m at_ = 0 then absent
    else
      let record := readNumber m (at_ + 4) 4
      if slotMatches m record key then
        { entry := entryAt m (readNumber m (imageRegion m + record + 25) 4),
          extendable := readByte m (at_ + 1) != 0 }
      else probeFrom m exponent key probes ((slot + 1) % 2 ^ exponent)

/-- The search of the main layer: nothing is taken from it while it is not VALID (R60, R64). -/
def searchMain (d : Dictionary) (key : List Chord) : Found :=
  match d.layer, d.header with
  | .valid, some header => probeFrom d.memory header.exponent key header.probe (bucketOf header key)
  | _, _ => absent

/-! ### The lookup -/

/-- The answer of a lookup: the entry with the layer that gives it, and whether the key is extendable
(R60). -/
structure LookupAnswer where
  entry : Option (Layer × Entry)
  extendable : Bool
  deriving DecidableEq, Repr

/-- A lookup of a key (R60). -/
def lookup (d : Dictionary) (key : List Chord) : LookupAnswer :=
  let job := jobSlot d.job key
  let main := searchMain d key
  { entry := match job.bind (fun x => x.entry), main.entry with
      | some e, _ => some (.job, e)
      | none, some e => some (.main, e)
      | none, none => none,
    extendable := (match job with
      | some x => decide (0 < x.extensions)
      | none => false) || main.extendable }

end Sys2Proof.Machine
end

