-- ==== Sys2Proof/Machine/Segment.lean ====
section
/-! DEFINITION. Dividing a window into units and formatting each: number conversion (R91), folds (R92),
outlines (R93), the format state and the text of a unit (R94 to R98), the segmentation (R90). -/

namespace Sys2Proof.Machine

/-! ### Chords -/

/-- The chord holds the key of an index. -/
def hasKey (c : Chord) (key : Nat) : Bool := c.getLsbD key

/-- The chord without the key of an index. -/
def withoutKey (c : Chord) (key : Nat) : Chord := c &&& ~~~(keyChord key)

/-! ### Number conversion (R91) -/

/-- The digit keys in steno order with their digits' character codes. -/
def digitKeys : List (Nat × Byte) :=
  [(1, 0x31), (2, 0x32), (4, 0x33), (6, 0x34), (8, 0x35), (9, 0x30), (13, 0x36), (15, 0x37), (17, 0x38),
   (19, 0x39)]

/-- The keys with which number conversion does not apply: K-, W-, R-, *, -R, -B, -G, -S. -/
def noDigitKeys : List Nat := [3, 5, 7, 10, 14, 16, 18, 20]

/-- The digits of the digit keys of a chord, in steno order. -/
def chordDigits (c : Chord) : Text := (digitKeys.filter (fun k => hasKey c k.1)).map (fun k => k.2)

/-- Number conversion applies to a chord. -/
def isNumber (c : Chord) : Bool :=
  hasKey c 0 && !(chordDigits c).isEmpty && noDigitKeys.all (fun k => !hasKey c k)
    && (hasKey c 11 == hasKey c 12)

/-- The text of a chord to which number conversion applies. -/
def numberText (c : Chord) : Text :=
  let digits := chordDigits c
  let turned := if hasKey c 11 && hasKey c 12 then digits.reverse else digits
  let doubled := if hasKey c 21 && turned.length == 1 then turned ++ turned else turned
  if hasKey c 22 then doubled ++ [0x30, 0x30] else doubled

/-! ### Outlines (R93) -/

/-- The letters of the keys in steno order: # S T K P W H R A O * E U F R P B L G T S D Z. -/
def keyLetters : Text :=
  [0x23, 0x53, 0x54, 0x4B, 0x50, 0x57, 0x48, 0x52, 0x41, 0x4F, 0x2A, 0x45, 0x55, 0x46, 0x52, 0x50, 0x42,
   0x4C, 0x47, 0x54, 0x53, 0x44, 0x5A]

/-- The letters of the chord's keys with indices from `first` on, `count` of them. -/
def lettersOf (c : Chord) (first count : Nat) : Text :=
  ((List.range' first count).filter (hasKey c)).map (fun k => keyLetters.getD k 0)

/-- The outline of a chord: the hyphen stands before the right bank when no vowel or star key is in the
chord and some right-bank key is. -/
def outline (c : Chord) : Text :=
  let right := lettersOf c 13 10
  let middle := lettersOf c 8 5
  lettersOf c 0 8 ++ middle ++ (if middle.isEmpty && !right.isEmpty then 0x2D :: right else right)

/-! ### The format state -/

/-- A condition code holds against a format state (R94). -/
def conditionHolds (code : Nat) (f : FormatState) : Bool :=
  match code with
  | 1 => f.line
  | 2 => !f.line
  | 3 => f.num
  | 4 => !f.num
  | 5 => f.cap
  | 6 => !f.cap
  | 7 => f.glu
  | _ => false

/-- The entry's text chosen by its condition (R95). -/
def entryText (e : Entry) (f : FormatState) : Text :=
  match e.alternate with
  | some t => if conditionHolds e.condition f then t else e.text
  | none => e.text

/-- A letter a to z. -/
def isLower (b : Byte) : Bool := decide (0x61 ≤ b.toNat) && decide (b.toNat ≤ 0x7A)

/-- A letter A to Z. -/
def isUpper (b : Byte) : Bool := decide (0x41 ≤ b.toNat) && decide (b.toNat ≤ 0x5A)

/-- The casing of the first character (R96). -/
def caseText (f : FormatState) (t : Text) : Text :=
  match t with
  | [] => []
  | b :: rest =>
    if f.cap && isLower b then (b - 0x20) :: rest
    else if !f.cap && f.low && isUpper b then (b + 0x20) :: rest
    else b :: rest

/-- The text of an ENTRY or FOLD unit from its chosen text (R95, R96). -/
def joinedText (flags : EntryFlags) (f : FormatState) (chosen : Text) : Text :=
  if chosen.isEmpty then []
  else if f.line || f.att || flags.attachBefore || (flags.glue && f.glu) then caseText f chosen
  else 0x20 :: caseText f chosen

/-- The after-state of an ENTRY or FOLD unit (R98). -/
def joinedAfter (flags : EntryFlags) (f : FormatState) (chosen text : Text) : FormatState :=
  { line := text.getLast? == some 0x0A || (text.isEmpty && f.line),
    cap := flags.capNext || (chosen.isEmpty && f.cap),
    low := flags.lowerNext, att := flags.attachAfter, num := false, glu := flags.glue }

/-- The label of a speaker slot (R82). -/
def speakerLabel (d : Dictionary) (slot : Nat) : Text := d.speakers.getD slot []

/-- The text of a COMMAND unit (R97). -/
def commandText (d : Dictionary) (c : Command) : Text :=
  match c with
  | .none | .feedHold | .feedResume => []
  | .newParagraph => [0x0A]
  | .speaker slot =>
    let label := speakerLabel d slot
    if label.isEmpty then [0x0A] else 0x0A :: label ++ [0x3A]

/-- The after-state of a COMMAND unit (R97). -/
def commandAfter (d : Dictionary) (c : Command) (f : FormatState) : FormatState :=
  match c with
  | .none | .feedHold | .feedResume => f
  | .newParagraph => FormatState.lineCap
  | .speaker slot =>
    if (speakerLabel d slot).isEmpty then FormatState.lineCap
    else { line := false, cap := true, low := false, att := false, num := false, glu := false }

/-! ### Units -/

/-- A unit before its id is given (R84, R100). -/
def newUnit (kind : UnitKind) (strokes : List WindowStroke) (source : Option Source) (text : Text)
    (before after : FormatState) : TextUnit :=
  { id := 0, kind := kind, strokes := strokes, source := source, text := text, before := before,
    after := after, holdId := none }

/-- The unit of strokes that give an entry: COMMAND when the entry carries one, ENTRY otherwise (R90). -/
def entryUnit (d : Dictionary) (f : FormatState) (strokes : List WindowStroke) (layer : Layer) (e : Entry) :
    TextUnit :=
  let source := some { layer := layer, entry := e, rule := none }
  if e.command = .none then
    let chosen := entryText e f
    let text := joinedText e.flags f chosen
    newUnit .entry strokes source text f (joinedAfter e.flags f chosen text)
  else newUnit .command strokes source (commandText d e.command) f (commandAfter d e.command f)

/-- The text of a NUMBER unit: two numbers join (R95). -/
def numberUnit (f : FormatState) (w : WindowStroke) : TextUnit :=
  let digits := numberText w.chord
  let text := if f.line || f.att || f.num then digits else 0x20 :: digits
  newUnit .number [w] none text f
    { line := false, cap := false, low := false, att := false, num := true, glu := false }

/-- A RAW unit (R93, R95, R98). -/
def rawUnit (f : FormatState) (w : WindowStroke) : TextUnit :=
  let letters := outline w.chord
  let text := if f.line || f.att then letters else 0x20 :: letters
  newUnit .raw [w] none text f { f with line := false, att := false, num := false, glu := false }

/-- The entry a fold rule finds for a chord, if the rule applies (R92). -/
def foldEntry (d : Dictionary) (c : Chord) (r : FoldRule) : Option (Layer × Entry) :=
  if r.inUse && hasKey c r.key && withoutKey c r.key != 0 then
    match (lookup d [withoutKey c r.key]).entry with
    | some (layer, e) => if e.command = .none then some (layer, e) else none
    | none => none
  else none

/-- The first fold rule that applies, from rule `n` on (R92). -/
def foldFrom (d : Dictionary) (c : Chord) : Nat → List FoldRule → Option (Nat × FoldRule × Layer × Entry)
  | _, [] => none
  | n, r :: rest =>
    match foldEntry d c r with
    | some (layer, e) => some (n, r, layer, e)
    | none => foldFrom d c (n + 1) rest

/-- A FOLD unit (R92). -/
def foldUnit (f : FormatState) (w : WindowStroke) (n : Nat) (r : FoldRule) (layer : Layer) (e : Entry) :
    TextUnit :=
  let chosen := (entryText e f ++ r.suffix).take 96
  let text := joinedText e.flags f chosen
  newUnit .fold [w] (some { layer := layer, entry := e, rule := some n }) text f
    (joinedAfter e.flags f chosen text)

/-- The unit of a single stroke that gives no entry (R90, step 2). -/
def singleUnit (d : Dictionary) (f : FormatState) (w : WindowStroke) : TextUnit :=
  if isNumber w.chord then numberUnit f w
  else
    match foldFrom d w.chord 0 d.folds with
    | some (n, r, layer, e) => foldUnit f w n r layer e
    | none => rawUnit f w

/-- The key of strokes. -/
def keyOf (strokes : List WindowStroke) : List Chord := strokes.map (fun w => w.chord)

/-- The longest leading run of at most `k` strokes that gives an entry (R90, step 1). -/
def longestMatch (d : Dictionary) (w : List WindowStroke) : Nat → Option (Nat × Layer × Entry)
  | 0 => none
  | k + 1 =>
    match (lookup d (keyOf (w.take (k + 1)))).entry with
    | some (layer, e) => some (k + 1, layer, e)
    | none => longestMatch d w k

/-- The first unit of a window that begins with stroke `w` (R90). -/
def firstUnit (d : Dictionary) (f : FormatState) (w : WindowStroke) (rest : List WindowStroke) : TextUnit :=
  match longestMatch d (w :: rest) (rest.length + 1) with
  | some (k, layer, e) => entryUnit d f ((w :: rest).take k) layer e
  | none => singleUnit d f w

/-- The segmentation of a window from a format state; the first argument bounds the units (R90). -/
def segmentFrom (d : Dictionary) : Nat → FormatState → List WindowStroke → List TextUnit
  | 0, _, _ => []
  | _ + 1, _, [] => []
  | n + 1, f, w :: rest =>
    let u := firstUnit d f w rest
    u :: segmentFrom d n u.after ((w :: rest).drop u.strokes.length)

/-- The segmentation S(W) (R90). -/
def segment (d : Dictionary) (base : FormatState) (window : List WindowStroke) : List TextUnit :=
  segmentFrom d window.length base window

/-- The command of a unit: that of its source entry, for COMMAND units (R84). -/
def unitCommand (u : TextUnit) : Command :=
  match u.kind, u.source with
  | .command, some x => x.entry.command
  | _, _ => .none

/-- A FEED_HOLD or FEED_RESUME unit (R102). -/
def isFeedControl (u : TextUnit) : Bool := unitCommand u == .feedHold || unitCommand u == .feedResume

/-- Two units are equal for the common run: kinds, strokes by sequence number, sources, texts (R100). -/
def sameUnit (a b : TextUnit) : Bool :=
  a.kind == b.kind && a.strokes.map (fun w => w.seq) == b.strokes.map (fun w => w.seq)
    && a.source == b.source && a.text == b.text

/-- The length of the longest leading run of equal units (R100). -/
def commonRun : List TextUnit → List TextUnit → Nat
  | a :: as, b :: bs => if sameUnit a b then commonRun as bs + 1 else 0
  | _, _ => 0

/-- The characters of the texts of units. -/
def textTotal (units : List TextUnit) : Nat := (units.map (fun u => u.text.length)).sum

end Sys2Proof.Machine
end

