-- ==== Sys2Proof/Machine/Translate.lean ====
section
/-! DEFINITION. The Translator's work: the recomputation of the window (R99, R100), settlement and its
hold actions (R101 to R105), the settle timer (R106), the handling of each kind of record (R85 to R89,
R108 to R110), retranslation (R112) and the resume after a load (R73). -/

namespace Sys2Proof.Machine

/-! ### Conditions -/

/-- The Translator is paused by a dictionary load (R73). -/
def loadPaused (d : Dictionary) : Bool := d.layer == .loading || d.layer == .checking

/-- The Translator can recompute: it is not paused and the part is not in DOZE (R99). -/
def translatorRuns (s : State) : Bool := !loadPaused s.dict && s.power.part != .doze

/-- Taken whole as a key, the window is extendable (R101). -/
def windowExtendable (s : State) : Bool := (lookup s.dict (keyOf s.trans.window)).extendable

/-! ### The settle timer -/

/-- Restarts the settle timer when the window is not empty, and stops it when it is (R106). With settle
delay 0 there is no timer. -/
def restartSettle (s : State) : State :=
  { s with trans := { s.trans with
      settleTimer := if s.trans.window.isEmpty || s.trans.settleDelay == 0 then none else some s.time.tick } }

/-- Stops the settle timer of an empty window (R106). -/
def stopIfEmpty (s : State) : State :=
  if s.trans.window.isEmpty then { s with trans := { s.trans with settleTimer := none } } else s

/-! ### Settlement -/

/-- The stamp of a unit's first stroke. -/
def unitStamp (u : TextUnit) : Stamp :=
  match u.strokes with
  | w :: _ => w.stamp
  | [] => { ms := 0, quality := .free }

/-- Adds a unit to the undo history as its newest, removing the oldest beyond 32 (R103). -/
def pushUndo (undo : List TextUnit) (u : TextUnit) : List TextUnit :=
  let l := undo ++ [u]
  l.drop (l.length - Config.undoCapacity)

/-- Settles a unit (R103). -/
def settleUnit (u : TextUnit) (s : State) : State :=
  let s := appendEntry (.fix u.id u.text (unitStamp u)) s
  let s := { s with trans := { s.trans with
    provisional := s.trans.provisional.drop 1, window := s.trans.window.drop u.strokes.length,
    base := u.after, undo := pushUndo s.trans.undo u } }
  if u.kind = .raw then countOne .untranslates s else s

/-- Settles units one after another. -/
def settleUnits : List TextUnit → State → State
  | [], s => s
  | u :: rest, s => settleUnits rest (settleUnit u s)

/-- Records the hold a settled FEED_HOLD unit opened (R104). -/
def recordHold (unitId : Word) (holdId : Nat) (s : State) : State :=
  { s with trans := { s.trans with
      undo := s.trans.undo.map (fun u => if u.id = unitId then { u with holdId := some holdId } else u) } }

/-- What one settled unit does to the Hold Table (R104, R140). -/
def holdAction (u : TextUnit) (s : State) : State :=
  match unitCommand u with
  | .feedHold =>
    match openHold .command (some u.id) s with
    | (s', .opened id) => recordHold u.id id s'
    | (s', _) => s'
  | .feedResume => closeNewestCommand s
  | _ => s

/-- The hold actions of the units of one settlement, in text order (R104). -/
def holdActions : List TextUnit → State → State
  | [], s => s
  | u :: rest, s => holdActions rest (holdAction u s)

/-- Settles every unit (R105). -/
def settleEvery (s : State) : State :=
  let units := s.trans.provisional
  let s := holdActions units (settleUnits units s)
  { s with trans := { s.trans with window := [], provisional := [], settleTimer := none } }

/-- Settlement may go on: the window is not empty, and it is full or not extendable (R101). -/
def mustSettle (s : State) : Bool :=
  !s.trans.window.isEmpty && (decide (Config.windowCapacity ≤ s.trans.window.length) || !windowExtendable s)

/-- Settles units of the provisional list from the front while settlement goes on; answers the units
settled (R101). -/
def settleFront : List TextUnit → State → List TextUnit × State
  | [], s => ([], s)
  | u :: rest, s =>
    if mustSettle s then
      let (settled, s') := settleFront rest (settleUnit u s)
      (u :: settled, s')
    else ([], s)

/-- The last unit is a FEED_HOLD or FEED_RESUME unit (R101, R102). -/
def endsInFeedControl (units : List TextUnit) : Bool :=
  match units.getLast? with
  | some u => isFeedControl u
  | none => false

/-- Settlement after a recomputation (R101, R102, R104, R107). -/
def settleWindow (s : State) : State :=
  if endsInFeedControl s.trans.provisional || s.trans.settleAll then settleEvery s
  else
    let (settled, s') := settleFront s.trans.provisional s
    stopIfEmpty (holdActions settled s')

/-! ### Recomputation -/

/-- The unit id after one: after 4,294,967,295 the next is 1 (R84). -/
def nextUnitId (id : Word) : Word := if id = 4294967295 then 1 else id + 1

/-- Gives a unit its id and appends its PUT entry (R100). -/
def putUnit (u : TextUnit) (s : State) : State × TextUnit :=
  let id := nextUnitId s.trans.idCounter
  let u := { u with id := id }
  let first := match u.strokes with
    | w :: _ => w.seq
    | [] => 0
  (appendEntry (.put id first u.text) { s with trans := { s.trans with idCounter := id } }, u)

/-- Puts units in order; answers them with their ids (R100). -/
def putUnits : List TextUnit → State → List TextUnit × State
  | [], s => ([], s)
  | u :: rest, s =>
    let (s', u') := putUnit u s
    let (us, s'') := putUnits rest s'
    (u' :: us, s'')

/-- Appends a TAKE entry of a number of characters; none when it is 0 (R100, R112). -/
def appendTake (count : Nat) (s : State) : State := if count = 0 then s else appendEntry (.take count) s

/-- The new units of the common run keep the ids of the old ones (R100). -/
def keepIds (old new : List TextUnit) : List TextUnit :=
  List.zipWith (fun o n => { n with id := o.id, holdId := o.holdId }) old new

/-- Appends the difference of a new segmentation from the provisional list, which it becomes (R100). -/
def applyDifference (units : List TextUnit) (s : State) : State :=
  let old := s.trans.provisional
  let common := commonRun old units
  let s := appendTake (textTotal (old.drop common)) s
  let (fresh, s) := putUnits (units.drop common) s
  { s with trans := { s.trans with provisional := keepIds (old.take common) (units.take common) ++ fresh } }

/-- Recomputes the window and settles (R99 to R101). Whatever asks for it, it makes the recomputation left
pending, and clears it (log entry 35). -/
def recompute (s : State) : State :=
  let units := segment s.dict s.trans.base s.trans.window
  let s := { s with trans := { s.trans with recomputePending := false } }
  settleWindow (applyDifference units s)

/-- A recomputation asked by a change to the layers: left pending while it cannot be made (R80, R99). One made
at a request after a wake and before the first take clears the one left pending (log entry 35). -/
def askRecompute (s : State) : State :=
  if translatorRuns s then recompute s
  else { s with trans := { s.trans with recomputePending := true } }

/-- The Translator's resume at the end of a load, whatever state the layer reached, asks for a recomputation and
restarts the settle timer (R73, R111). In DOZE the recomputation is left pending and nothing else is done (R99,
R152; log entry 16). -/
def resumeTranslator (s : State) : State :=
  if translatorRuns s then restartSettle (recompute s) else askRecompute s

/-! ### Records -/

/-- Appends a GAP for the records lost, after settling every unit and emptying the history (R86). -/
def handleGap (lost : Nat) (s : State) : State :=
  let s := settleEvery s
  appendEntry (.gap lost) { s with trans := { s.trans with undo := [] } }

/-- A job boundary (R88). -/
def handleJob (closed opened : Nat) (s : State) : State :=
  let s := settleEvery s
  appendEntry (.job closed opened)
    { s with trans := { s.trans with undo := [], base := FormatState.lineCap } }

/-- Adds a stroke to the window (R89). -/
def addStroke (w : WindowStroke) (s : State) : State :=
  restartSettle (recompute { s with trans := { s.trans with window := s.trans.window ++ [w] } })

/-- Drops the newest stroke of the window (R108). -/
def dropStroke (s : State) : State :=
  restartSettle (recompute { s with trans := { s.trans with window := s.trans.window.dropLast } })

/-- Takes a settled unit out of the history: its UNFIX entry, the base state before it, the close of
the hold it opened (R109, R112). -/
def reopenUnit (u : TextUnit) (s : State) : State :=
  let s := { s with trans := { s.trans with undo := s.trans.undo.dropLast } }
  let s := appendEntry (.unfix u.id u.text.length) s
  closeOwned u.holdId u.id { s with trans := { s.trans with base := u.before } }

/-- Reopens the newest settled unit for a delete (R109). -/
def undoUnit (u : TextUnit) (s : State) : State :=
  let s := reopenUnit u s
  if u.strokes.length ≤ 1 then s
  else
    restartSettle (recompute { s with trans := { s.trans with
      window := u.strokes.dropLast, provisional := [] } })

/-- A delete (R108 to R110). -/
def handleDelete (s : State) : State :=
  let s := countOne .deletes s
  if !s.trans.window.isEmpty then dropStroke s
  else
    match s.trans.undo.getLast? with
    | some u => undoUnit u s
    | none => countOne .deadDeletes s

/-- Handles a record by its kind (R85). -/
def handleRecord (r : LogRecord) (s : State) : State :=
  match r.body with
  | .stroke chord stamp _ _ =>
    if chord = s.trans.deleteChord then handleDelete s
    else addStroke { chord := chord, seq := r.seq, stamp := stamp } s
  | .mark stamp => appendEntry (.mark r.seq stamp.ms) s
  | .job opened closed _ _ => handleJob closed opened s
  | .wake _ _ | .timestep _ _ _ | .take _ _ _ => s

/-- The Translator takes the record under its cursor (R29, R85, R86, R99). -/
def takeRecord (r : LogRecord) (s : State) : State :=
  let reader := s.log.translator
  let s := { s with log := { s.log with translator := { passRecord reader with sinceTaken := 0 } } }
  let s := if s.trans.recomputePending then recompute s else s
  let s := if 0 < reader.sinceTaken then handleGap reader.sinceTaken s else s
  handleRecord r s

/-- The record the Translator takes now, when the conditions of R85 hold. -/
def recordToTake (s : State) : Option LogRecord :=
  if !loadPaused s.dict && s.power.part != .doze && s.log.translator.cursor != s.log.head then
    recordAt s.log s.log.translator.cursor
  else none

/-! ### Retranslation -/

/-- Reopens units newest first while fewer than `r` are reopened and the window stays within 8 strokes;
answers how many (R112, step 2). -/
def reopenUnits : Nat → State → Nat × State
  | 0, s => (0, s)
  | r + 1, s =>
    match s.trans.undo.getLast? with
    | none => (0, s)
    | some u =>
      if Config.windowCapacity < u.strokes.length + s.trans.window.length then (0, s)
      else
        let s := reopenUnit u s
        let (n, s') := reopenUnits r { s with trans := { s.trans with window := u.strokes ++ s.trans.window } }
        (n + 1, s')

/-- Retranslates up to `r` settled units (R112). -/
def retranslate (r : Nat) (s : State) : Nat × State :=
  let s := appendTake (textTotal s.trans.provisional) s
  let (n, s) := reopenUnits r { s with trans := { s.trans with provisional := [] } }
  (n, restartSettle (recompute s))

/-! ### Meanings -/

/-- TRANSLATOR_TAKE: with nothing to take, or while it may not, the Translator takes nothing (R85). -/
def takeEvent (s : State) : State :=
  match recordToTake s with
  | some r => takeRecord r s
  | none => s

/-- SETTLE_TIMER_EXPIRY: a running timer that has reached the settle delay settles every unit (R106). -/
def settleEvent (s : State) : State :=
  if timerDue s.trans.settleTimer s.time.tick s.trans.settleDelay then settleEvery s else s

end Sys2Proof.Machine
end

