-- ==== Sys2Proof/Machine/Power.lean ====
section
/-! DEFINITION. Power Control: the passages between READY, SETTLING and DOZE (R147, R148, R150, R151),
the Wake Detector's judgement (R153 to R155) and the wake (R156). -/

namespace Sys2Proof.Machine

/-! ### Part state -/

/-- The POWER notice (R147): for a change to READY from DOZE it carries the wake cause. -/
def powerNotice (p : Power) (cause : Option WakeCause) : Notice :=
  { kind := .power,
    fields := byte (partCode p.part) ++ byte (reasonCode p.reason)
      ++ opt (fun c => byte (wakeCauseCode c)) cause }

/-- Milliseconds of an idle delay in minutes. -/
def idleMs (minutes : Nat) : Nat := minutes * 60000

/-- The idle timer started now: with idle delay 0 it does not run (R148). -/
def startIdle (s : State) : Option Tick := if s.power.idleDelay = 0 then none else some s.time.tick

/-- Sets the Translator's settle-all (R107). -/
def setSettleAll (b : Bool) (s : State) : State := { s with trans := { s.trans with settleAll := b } }

/-- Enters SETTLING: the idle timer stops, settle-all is set, and every unit is settled, or at the
resume when the Translator is paused (R107, R150). -/
def enterSettling (reason : DozeReason) (s : State) : State :=
  let s := setSettleAll true
    { s with power := { s.power with part := .settling, reason := reason, idleTimer := none } }
  let s := raiseNotice (powerNotice s.power none) s
  if loadPaused s.dict then s else settleEvery s

/-- Returns from SETTLING to READY, by a stroke opening or a WAKE (R150). -/
def returnToReady (s : State) : State :=
  let s := setSettleAll false
    { s with power := { s.power with part := .ready, reason := .none, idleTimer := startIdle s } }
  raiseNotice (powerNotice s.power none) s

/-- The conditions of the passage from SETTLING to DOZE (R151). -/
def dozeReady (s : State) : Bool :=
  s.power.part == .settling && s.capture.assembler.state == .idle
    && s.log.translator.cursor == s.log.head && !loadPaused s.dict && s.trans.window.isEmpty

/-- Enters DOZE (R151). -/
def enterDoze (s : State) : State :=
  let s := setSettleAll false
    { s with
      power := { s.power with
        part := .doze, causes := if s.power.clearOnDoze then WakeCauses.none else s.power.causes },
      wake := { s.wake with count := 0, gapTimer := false } }
  raiseNotice (powerNotice s.power none) s

/-- Enters DOZE when the conditions hold (R151). -/
def dozeIfReady (s : State) : State := if dozeReady s then enterDoze s else s

/-- A stroke opening reported to Power Control (R11, R148, R150). -/
def reportOpening (s : State) : State :=
  match s.power.part, s.power.reason with
  | .ready, _ => { s with power := { s.power with idleTimer := startIdle s } }
  | .settling, .idle => returnToReady s
  | _, _ => s

/-! ### Waking -/

/-- Adds a cause to the set (R157). -/
def addCause (c : WakeCause) (x : WakeCauses) : WakeCauses :=
  match c with
  | .pattern => { x with pattern := true }
  | .machine => { x with machine := true }
  | .station => { x with station := true }

/-- The wake, from DOZE to READY (R156). -/
def wakePart (cause : WakeCause) (s : State) : State :=
  let s := { s with
    power := { s.power with part := .ready, reason := .none },
    wake := { s.wake with count := 0, gapTimer := false, heldOver := false } }
  let s := appendRecord (.wake cause (stampNow s)) s
  let s := { s with power := { s.power with
    causes := addCause cause s.power.causes, idleTimer := startIdle s } }
  raiseNotice (powerNotice s.power (some cause)) s

/-! ### The Wake Detector -/

/-- The open tick lies within the gap of the last match tick (R153). -/
def withinGap (w : WakeDetector) (openTick : Tick) : Bool := !elapsed w.lastMatch openTick w.gap

/-- A matching stroke that makes the count `m` (R154): the wake at N; otherwise it becomes the last
match and starts the gap timer, which expires at once when that point has passed (R155). -/
def matchStroke (m : Nat) (openTick : Tick) (s : State) : State :=
  if s.wake.needed ≤ m then wakePart .pattern s
  else if elapsed openTick s.time.tick s.wake.gap then
    countEvents .bumps m { s with wake := { s.wake with
      count := 0, lastMatch := openTick, gapTimer := false, heldOver := false } }
  else
    { s with wake := { s.wake with count := m, lastMatch := openTick, gapTimer := true, heldOver := false } }

/-- Judges a stroke handed to the Wake Detector (R154, R155). -/
def judgeWake (chord : Chord) (openTick : Tick) (s : State) : State :=
  let m := s.wake.count
  if chord = s.wake.chord then
    if m = 0 then matchStroke 1 openTick s
    else if s.wake.heldOver || withinGap s.wake openTick then matchStroke (m + 1) openTick s
    else matchStroke 1 openTick (countEvents .bumps m s)
  else
    countEvents .bumps (m + 1)
      { s with wake := { s.wake with count := 0, gapTimer := false, heldOver := false } }

/-- Abandons the run at the gap timer's expiry, or holds it over for a stroke of destination WAKE still
open (R155). -/
def gapExpires (s : State) : State :=
  let a := s.capture.assembler
  if a.state == .gathering && a.destination == .wake then
    { s with wake := { s.wake with gapTimer := false, heldOver := true } }
  else
    countEvents .bumps s.wake.count { s with wake := { s.wake with count := 0, gapTimer := false } }

/-- The gap timer is running and has expired (R154). -/
def gapDue (s : State) : Bool := s.wake.gapTimer && elapsed s.wake.lastMatch s.time.tick s.wake.gap

/-- The idle timer is running in READY and has expired (R148). -/
def idleDue (s : State) : Bool :=
  s.power.part == .ready && s.power.idleDelay != 0
    && timerDue s.power.idleTimer s.time.tick (idleMs s.power.idleDelay)

end Sys2Proof.Machine
end

