-- ==== Sys2Proof/Machine/Requests.lean ====
section
/-! DEFINITION. What ends every event: the reach of the listeners, the passage to DOZE and the
attention output (R121, R151, R175); and the judgement common to all requests: the drop, the
permission, the owner's answer (R171, R172). -/

namespace Sys2Proof.Machine

/-! ### The end of an event -/

/-- A stream message is offered on a port: by its reader or by its listener (R174). -/
def streamOffered (s : State) (port : Port) : Bool :=
  (match ownReader port with
   | some name => (readerOffer s.log name).isSome
   | none => false)
  || (listenerOffer s.journal (s.listener port)).isSome

/-- The level of the attention output (R175). -/
def attentionLevel (s : State) : Bool :=
  !s.ports.machine.answers.isEmpty || !s.ports.machine.notices.isEmpty || streamOffered s .machine
    || s.ports.machine.sending.isSome

/-- Drives the attention output (R175). -/
def driveAttention (s : State) : State :=
  { s with ports := { s.ports with attention := attentionLevel s } }

/-- What holds after every event: DOZE entered when its conditions hold, the listeners' reach judged,
the attention output driven (R121, R151, R175). -/
def eventEnd (s : State) : State := driveAttention (reachAll (dozeIfReady s))

/-! ### Answers -/

/-- What an owning block answers: a status and the returned fields, encoded (R172, R181). -/
structure Verdict where
  status : Status
  fields : List Byte
  deriving DecidableEq, Repr

/-- A request taken as given. -/
def answerOk (fields : List Byte) : Verdict := { status := .ok, fields := fields }

/-- A refusal carries its status alone (R172). -/
def refuse (status : Status) : Verdict := { status := status, fields := [] }

/-- OK, or ADJUSTED when a value was clamped (R173). -/
def answerAdjusted (adjusted : Bool) (fields : List Byte) : Verdict :=
  { status := if adjusted then .adjusted else .ok, fields := fields }

/-- Adds a reply to the end of a port's answer queue (R171). -/
def pushReply (port : Port) (r : Reply) (s : State) : State :=
  let p := s.port port
  s.setPort port { p with answers := p.answers ++ [r] }

/-- A port's answer queue holds 4 answers (R171). -/
def answersFull (s : State) (port : Port) : Bool :=
  decide (Config.answerCapacity ≤ (s.port port).answers.length)

/-- Drops a request (R171). -/
def dropRequest (port : Port) (s : State) : State :=
  s.setPort port { s.port port with requestsDropped := true }

/-- The answer of a request whose body is not in shape, or that is not permitted on its port, or that
its owner handles (R171, R172). `owner` makes the request's effects and gives its answer. -/
def answerWith (port : Port) (kind : Byte) (owner : State → State × Verdict) (s : State) : State :=
  let (s', v) := owner s
  pushReply port (.answer kind v.status v.fields) s'

/-- Takes a request on a port: dropped when the answer queue is full, NOT_FROM_PORT when its kind is not
permitted there, otherwise handed to its owner, and answered (R171). -/
def takeRequest (port : Port) (k : RequestKind) (owner : State → State × Verdict) (s : State) : State :=
  eventEnd
    (if answersFull s port then dropRequest port s
     else if permitted k port then answerWith port (kindCode k) owner s
     else pushReply port (.answer (kindCode k) .notFromPort []) s)

/-- Clamps a number into a range. -/
def clampTo (low high v : Nat) : Nat := min high (max low v)

/-- A field given, clamped into a range, or the present value when it is absent. -/
def clampField (low high present : Nat) (o : Option Nat) : Nat :=
  match o with
  | none => present
  | some v => clampTo low high v

/-- A field given lies outside its range. -/
def clamped (low high : Nat) (o : Option Nat) : Bool :=
  match o with
  | none => false
  | some v => clampTo low high v != v

/-- A chord code in range: 1 to 8,388,607 (R173). -/
def chordInRange (c : Nat) : Bool := decide (1 ≤ c) && decide (c ≤ 8388607)

end Sys2Proof.Machine
end

