-- ==== Sys2Proof/Machine/Views.lean ====
section
/-! DEFINITION. The commands of the Translator (R85, R106, R113), of the listeners (R129, R130) and of
the Hold Table (R137, R138, R142, R143). -/

namespace Sys2Proof.Machine

/-! ### The Translator -/

/-- A settle delay as taken: 0, or the nearest of 100 to 10,000 (R113). -/
def settleDelayTaken (present : Nat) (o : Option Nat) : Nat :=
  match o with
  | none => present
  | some 0 => 0
  | some v => clampTo 100 10000 v

/-- A settle delay was clamped (R113). -/
def settleDelayAdjusted (o : Option Nat) : Bool :=
  match o with
  | none => false
  | some v => settleDelayTaken 0 (some v) != v

/-- The settle timer after a settle delay is given (R113; log entry 31). -/
def timerAfterDelay (s : State) (delay : Nat) : Option Tick :=
  if delay = 0 then none
  else if s.trans.settleTimer.isSome then some s.time.tick
  else if s.trans.settleDelay = 0 && !s.trans.window.isEmpty && !loadPaused s.dict then some s.time.tick
  else none

/-- The delete chord given is in range (R113). -/
def optionalChordInRange (chord : Option Nat) : Bool :=
  match chord with
  | none => true
  | some c => chordInRange c

/-- A chord given, or the present one. -/
def chordTaken (present : Chord) (chord : Option Nat) : Chord :=
  match chord with
  | none => present
  | some c => BitVec.ofNat 23 c

/-- The owner of TRANSLATE SET (R113). -/
def translateSetOwner (delay chord : Option Nat) (s : State) : State × Verdict :=
  if optionalChordInRange chord then
    let d := settleDelayTaken s.trans.settleDelay delay
    let c := chordTaken s.trans.deleteChord chord
    let timer := if delay.isSome then timerAfterDelay s d else s.trans.settleTimer
    ({ s with trans := { s.trans with settleDelay := d, deleteChord := c, settleTimer := timer } },
     answerAdjusted (settleDelayAdjusted delay) (num 2 d ++ num 3 c.toNat))
  else (s, refuse .outOfRange)

/-! ### Listeners -/

/-- The owner of REPAINT (R129). -/
def repaintOwner (port : Port) (s : State) : State × Verdict :=
  let l := s.listener port
  if l.mode = .off then (s, refuse .wrongState)
  else if l.paused.isSome then
    (s.setListener port { l with repaintPending := true }, answerOk (yesNo true))
  else
    let s' := callRepaint port s
    (s', answerOk (yesNo (s'.listener port).paused.isSome))

/-- The changes of VIEW SET: obedience first, then mode (R130, R131). The listener's reach is judged once, after
both (log entry 36). -/
def changeView (port : Port) (mode : Option ViewMode) (obeys : Option Bool) (s : State) : State :=
  let s := match obeys with
    | none => s
    | some b => setObedience port b s
  match mode with
  | none => s
  | some m => setMode port m s

/-- The answer of VIEW SET: the mode and the obedience in force (R130). -/
def viewFields (l : Listener) : List Byte := byte (modeCode l.mode) ++ yesNo l.obeys

/-- The owner of VIEW SET (R130). -/
def viewSetOwner (port : Port) (mode : Option ViewMode) (obeys : Option Bool) (s : State) :
    State × Verdict :=
  let s' := changeView port mode obeys s
  (s', answerOk (viewFields (s'.listener port)))

/-! ### Holds -/

/-- The answer of HOLD, from what the Hold Table tells (R137). -/
def holdVerdict (a : OpenAnswer) : Verdict :=
  match a with
  | .existing id => answerOk (byte id ++ yesNo false)
  | .full => refuse .full
  | .opened id => answerOk (byte id ++ yesNo true)

/-- The owner of HOLD (R137). -/
def holdOwner (port : Port) (s : State) : State × Verdict :=
  match ownSource port with
  | none => (s, refuse .notFromPort)
  | some source =>
    let (s', a) := openHold source none s
    (s', holdVerdict a)

/-- A port's own open hold, if there is one (R138, R145). -/
def ownHold (s : State) (port : Port) : Option OpenHold :=
  match ownSource port with
  | none => none
  | some source => s.holds.holds.find? (fun h => h.source == source)

/-- The owner of UNHOLD (R138). -/
def unholdOwner (port : Port) (s : State) : State × Verdict :=
  match ownHold s port with
  | none => (s, answerOk (opt byte none))
  | some h => (closeThis h .owner s, answerOk (opt byte (some h.id)))

/-- HOLD_LIMIT_EXPIRY of the hold of an id: a hold that is not open, or whose timer has not expired, is
left as it is (R142). -/
def holdLimitEvent (id : Nat) (s : State) : State :=
  closeWhere (fun h => h.id == id && limitReached s.holds.limit h) .limit s

/-- The hold limit is set (R143). -/
def setHoldLimit (minutes : Nat) (s : State) : State :=
  closeEach .limit (s.holds.holds.filter (limitReached minutes))
    { s with holds := { s.holds with limit := minutes } }

/-- The owner of HOLD LIMIT SET (R143). -/
def holdLimitSetOwner (minutes : Nat) (s : State) : State × Verdict :=
  let m := min 60 minutes
  (setHoldLimit m s, answerAdjusted (decide (60 < minutes)) (byte m))

/-! ### Meanings -/

/-- The request TRANSLATE SET, as taken on a port. -/
def translateSetRequest (port : Port) (delay chord : Option Nat) : State → State :=
  takeRequest port .translateSet (translateSetOwner delay chord)

/-- The request REPAINT, as taken on a port. -/
def repaintRequest (port : Port) : State → State := takeRequest port .repaint (repaintOwner port)

/-- The request VIEW SET, as taken on a port. -/
def viewSetRequest (port : Port) (mode : Option ViewMode) (obeys : Option Bool) : State → State :=
  takeRequest port .viewSet (viewSetOwner port mode obeys)

/-- The request HOLD, as taken on a port. -/
def holdRequest (port : Port) : State → State := takeRequest port .hold (holdOwner port)

/-- The request UNHOLD, as taken on a port. -/
def unholdRequest (port : Port) : State → State := takeRequest port .unhold (unholdOwner port)

/-- The request HOLD LIMIT SET, as taken on a port. -/
def holdLimitSetRequest (port : Port) (minutes : Nat) : State → State :=
  takeRequest port .holdLimitSet (holdLimitSetOwner minutes)

/-- TRANSLATOR_TAKE (R85). -/
def execTranslatorTake (s : State) : Host.Outcome State Fault Refusal := .next (eventEnd (takeEvent s))

/-- SETTLE_TIMER_EXPIRY (R106). -/
def execSettleTimerExpiry (s : State) : Host.Outcome State Fault Refusal := .next (eventEnd (settleEvent s))

/-- TRANSLATE_SET (R113). -/
def execTranslateSet (port : Port) (delay chord : Option Nat) (s : State) :
    Host.Outcome State Fault Refusal :=
  .next (translateSetRequest port delay chord s)

/-- REPAINT (R129). -/
def execRepaint (port : Port) (s : State) : Host.Outcome State Fault Refusal := .next (repaintRequest port s)

/-- VIEW_SET (R130). -/
def execViewSet (port : Port) (mode : Option ViewMode) (obeys : Option Bool) (s : State) :
    Host.Outcome State Fault Refusal :=
  .next (viewSetRequest port mode obeys s)

/-- HOLD (R137). -/
def execHold (port : Port) (s : State) : Host.Outcome State Fault Refusal := .next (holdRequest port s)

/-- UNHOLD (R138). -/
def execUnhold (port : Port) (s : State) : Host.Outcome State Fault Refusal := .next (unholdRequest port s)

/-- HOLD_LIMIT_EXPIRY (R142). -/
def execHoldLimitExpiry (id : Nat) (s : State) : Host.Outcome State Fault Refusal :=
  .next (eventEnd (holdLimitEvent id s))

/-- HOLD_LIMIT_SET (R143). -/
def execHoldLimitSet (port : Port) (minutes : Nat) (s : State) : Host.Outcome State Fault Refusal :=
  .next (holdLimitSetRequest port minutes s)

end Sys2Proof.Machine
end

