-- ==== Sys2Proof/Machine/Doze.lean ====
section
/-! DEFINITION. The commands of Power Control and the Wake Detector: IDLE_TIMER_EXPIRY and IDLE_SET
(R148), DOZE (R149), GAP_TIMER_EXPIRY (R155), WAKE (R150, R156), WAKE_CAUSES_CLEAR (R157) and WAKE_SET
(R158). -/

namespace Sys2Proof.Machine

/-- Replaces Power Control's state. -/
def setPower (p : Power) (s : State) : State := { s with power := p }

/-- IDLE_TIMER_EXPIRY (R148). -/
def idleEvent (s : State) : State := if idleDue s then enterSettling .idle s else s

/-- The idle timer after a delay is set (R148). -/
def timerAfterIdle (s : State) (delay : Nat) : Option Tick :=
  if delay = 0 then none
  else if s.power.idleDelay = 0 && s.power.part == .ready then some s.time.tick
  else s.power.idleTimer

/-- The owner of IDLE SET: a running timer whose new expiry has passed expires at the request (R148). -/
def idleSetOwner (minutes : Nat) (s : State) : State × Verdict :=
  let d := min 240 minutes
  (idleEvent (setPower { s.power with idleDelay := d, idleTimer := timerAfterIdle s d } s),
   answerAdjusted (decide (240 < minutes)) (byte d))

/-- What a DOZE asks of the part (R149). -/
def askDoze (s : State) : State :=
  match s.power.part, s.power.reason with
  | .ready, _ => dozeIfReady (enterSettling .request s)
  | .settling, .idle => setPower { s.power with reason := .request } s
  | _, _ => s

/-- The owner of DOZE: the answer holds the part state once the request has been handled (R149). -/
def dozeOwner (s : State) : State × Verdict :=
  let s' := askDoze s
  (s', answerOk (byte (partCode s'.power.part)))

/-- GAP_TIMER_EXPIRY (R155). -/
def gapEvent (s : State) : State := if gapDue s then gapExpires s else s

/-- The wake cause of a port's WAKE: none on the Feed port (R156). -/
def ownCause (port : Port) : Option WakeCause :=
  match port with
  | .machine => some .machine
  | .station => some .station
  | .feed => none

/-- The answer of WAKE: the part state, and the sequence number of the WAKE record when there is one
(R156; log entry 13). -/
def wakeFields (p : PartState) (seq : Option Word) : List Byte :=
  byte (partCode p) ++ opt (fun q => num 4 q.toNat) seq

/-- The owner of WAKE (R150, R156). -/
def wakeOwner (port : Port) (s : State) : State × Verdict :=
  match s.power.part, ownCause port with
  | .doze, some cause =>
    let s' := wakePart cause s
    (s', answerOk (wakeFields s'.power.part (some s.log.head)))
  | .settling, some _ =>
    let s' := returnToReady s
    (s', answerOk (wakeFields s'.power.part none))
  | _, _ => (s, answerOk (wakeFields s.power.part none))

/-- The owner of WAKE CAUSES CLEAR (R157). -/
def wakeCausesClearOwner (clearOnDoze : Option Bool) (s : State) : State × Verdict :=
  let c := clearOnDoze.getD s.power.clearOnDoze
  (setPower { s.power with causes := WakeCauses.none, clearOnDoze := c } s, answerOk (yesNo c))

/-- The three settings, as WAKE SET answers them (R158). -/
def wakeSetFields (w : WakeDetector) : List Byte := num 3 w.chord.toNat ++ byte w.needed ++ num 2 w.gap

/-- The Wake Detector after WAKE SET; taken in DOZE with any field given, the run is dropped (R158). -/
def wakeSettings (dropRun : Bool) (chord count gap : Option Nat) (w : WakeDetector) : WakeDetector :=
  { w with
    chord := chordTaken w.chord chord, needed := clampField 2 8 w.needed count,
    gap := clampField 200 3000 w.gap gap,
    count := if dropRun then 0 else w.count, gapTimer := w.gapTimer && !dropRun,
    heldOver := w.heldOver && !dropRun }

/-- The owner of WAKE SET (R158). -/
def wakeSetOwner (chord count gap : Option Nat) (s : State) : State × Verdict :=
  if optionalChordInRange chord then
    let dropRun := s.power.part == .doze && (chord.isSome || count.isSome || gap.isSome)
    let w := wakeSettings dropRun chord count gap s.wake
    ({ s with wake := w }, answerAdjusted (clamped 2 8 count || clamped 200 3000 gap) (wakeSetFields w))
  else (s, refuse .outOfRange)

/-! ### Meanings -/

/-- The request IDLE SET, as taken on a port. -/
def idleSetRequest (port : Port) (minutes : Nat) : State → State :=
  takeRequest port .idleSet (idleSetOwner minutes)

/-- The request DOZE, as taken on a port. -/
def dozeRequest (port : Port) : State → State := takeRequest port .doze dozeOwner

/-- The request WAKE, as taken on a port. -/
def wakeRequest (port : Port) : State → State := takeRequest port .wake (wakeOwner port)

/-- The request WAKE CAUSES CLEAR, as taken on a port. -/
def wakeCausesClearRequest (port : Port) (clearOnDoze : Option Bool) : State → State :=
  takeRequest port .wakeCausesClear (wakeCausesClearOwner clearOnDoze)

/-- The request WAKE SET, as taken on a port. -/
def wakeSetRequest (port : Port) (chord count gap : Option Nat) : State → State :=
  takeRequest port .wakeSet (wakeSetOwner chord count gap)

/-- IDLE_TIMER_EXPIRY (R148). -/
def execIdleTimerExpiry (s : State) : Host.Outcome State Fault Refusal := .next (eventEnd (idleEvent s))

/-- IDLE_SET (R148). -/
def execIdleSet (port : Port) (minutes : Nat) (s : State) : Host.Outcome State Fault Refusal :=
  .next (idleSetRequest port minutes s)

/-- DOZE (R149). -/
def execDoze (port : Port) (s : State) : Host.Outcome State Fault Refusal := .next (dozeRequest port s)

/-- GAP_TIMER_EXPIRY (R155). -/
def execGapTimerExpiry (s : State) : Host.Outcome State Fault Refusal := .next (eventEnd (gapEvent s))

/-- WAKE (R156). -/
def execWake (port : Port) (s : State) : Host.Outcome State Fault Refusal := .next (wakeRequest port s)

/-- WAKE_CAUSES_CLEAR (R157). -/
def execWakeCausesClear (port : Port) (clearOnDoze : Option Bool) (s : State) :
    Host.Outcome State Fault Refusal :=
  .next (wakeCausesClearRequest port clearOnDoze s)

/-- WAKE_SET (R158). -/
def execWakeSet (port : Port) (chord count gap : Option Nat) (s : State) :
    Host.Outcome State Fault Refusal :=
  .next (wakeSetRequest port chord count gap s)

end Sys2Proof.Machine
end

