-- ==== Sys2Proof/Machine/Tally.lean ====
section
/-! DEFINITION. The commands of the Quality Counters: INTERVAL_EXPIRY (R163), the snapshot (R164),
COUNTERS_SNAP (R165), COUNTERS_AUTO (R166) and COUNTERS_READ (R167). -/

namespace Sys2Proof.Machine

/-- The snapshot cause of a port (R165). -/
def portCause (port : Port) : SnapCause :=
  match port with
  | .machine => .machine
  | .station => .station
  | .feed => .feed

/-- The counters after a snapshot (R164). -/
def snapCounters (cause : SnapCause) (tick : Tick) (q : Counters) : Counters :=
  { q with
    running := List.replicate 13 Tally.zero, snapshot := q.running,
    snapInterval := ticksToMs q.intervalAge, snapNumber := q.snapNumber + 1, snapCause := cause,
    intervalStart := tick, intervalAge := 0 }

/-- The SNAP notice (R164). -/
def snapNotice (q : Counters) : Notice :=
  { kind := .snap,
    fields := num 4 q.snapNumber.toNat ++ byte (snapCauseCode q.snapCause) ++ num 4 q.snapInterval }

/-- A snapshot (R164). -/
def snapshot (cause : SnapCause) (s : State) : State :=
  let q := snapCounters cause s.time.tick s.counters
  raiseNotice (snapNotice q) { s with counters := q }

/-- The interval has expired (R163). -/
def intervalDue (s : State) : Bool :=
  s.counters.auto && decide (Config.ticksPerSecond ≤ s.counters.intervalAge)

/-- INTERVAL_EXPIRY (R163). -/
def intervalEvent (s : State) : State := if intervalDue s then snapshot .timer s else s

/-- The snapshot set, as the answers carry it: 13 values, 13 marks, interval, number, cause (R165, R167;
log entry 13). -/
def snapFields (q : Counters) : List Byte :=
  (q.snapshot.map (fun t => num 2 t.value)).flatten ++ (q.snapshot.map (fun t => yesNo t.mark)).flatten
    ++ num 4 q.snapInterval ++ num 4 q.snapNumber.toNat ++ byte (snapCauseCode q.snapCause)

/-- The owner of COUNTERS SNAP (R165). -/
def countersSnapOwner (port : Port) (s : State) : State × Verdict :=
  let s' := snapshot (portCause port) s
  (s', answerOk (snapFields s'.counters))

/-- Sets auto: turned on from off, a snapshot with cause MACHINE is taken (R166). -/
def setAuto (auto : Bool) (s : State) : State :=
  let s := if auto && !s.counters.auto then snapshot .machine s else s
  { s with counters := { s.counters with auto := auto } }

/-- The owner of COUNTERS AUTO (R166). -/
def countersAutoOwner (auto : Bool) (s : State) : State × Verdict :=
  let s' := setAuto auto s
  (s', answerOk (yesNo s'.counters.auto ++ num 4 s'.counters.snapNumber.toNat))

/-- The owner of COUNTERS READ: it changes nothing (R167). -/
def countersReadOwner (s : State) : State × Verdict := (s, answerOk (snapFields s.counters))

/-! ### Meanings -/

/-- The request COUNTERS SNAP, as taken on a port. -/
def countersSnapRequest (port : Port) : State → State :=
  takeRequest port .countersSnap (countersSnapOwner port)

/-- The request COUNTERS AUTO, as taken on a port. -/
def countersAutoRequest (port : Port) (auto : Bool) : State → State :=
  takeRequest port .countersAuto (countersAutoOwner auto)

/-- The request COUNTERS READ, as taken on a port. -/
def countersReadRequest (port : Port) : State → State := takeRequest port .countersRead countersReadOwner

/-- INTERVAL_EXPIRY (R163). -/
def execIntervalExpiry (s : State) : Host.Outcome State Fault Refusal := .next (eventEnd (intervalEvent s))

/-- COUNTERS_SNAP (R165). -/
def execCountersSnap (port : Port) (s : State) : Host.Outcome State Fault Refusal :=
  .next (countersSnapRequest port s)

/-- COUNTERS_AUTO (R166). -/
def execCountersAuto (port : Port) (auto : Bool) (s : State) : Host.Outcome State Fault Refusal :=
  .next (countersAutoRequest port auto s)

/-- COUNTERS_READ (R167). -/
def execCountersRead (port : Port) (s : State) : Host.Outcome State Fault Refusal :=
  .next (countersReadRequest port s)

end Sys2Proof.Machine
end

