-- ==== Sys2Proof/Machine/Query.lean ====
section
/-! DEFINITION. The Port Controllers' own requests: UNKNOWN_KIND (R171), NOTICES_SET (R177), FEED_SET
(R178), FEED_QUERY (R179) and STATUS with its groups (R180: R34, R58, R74, R114, R132, R145, R159,
R167). -/

namespace Sys2Proof.Machine

/-! ### The groups of STATUS -/

/-- The state of a port's own reader (R34). -/
def readerFields (s : State) (port : Port) : List Byte :=
  match ownReader port with
  | none => []
  | some name =>
    let r := s.log.reader name
    yesNo r.on ++ num 4 r.cursor.toNat ++ num 4 r.lost.toNat

/-- The group of the Stroke Log (R34). -/
def logGroup (s : State) (port : Port) : List Byte :=
  num 4 s.log.head.toNat ++ num 2 s.log.records.length ++ num 2 s.log.job ++ readerFields s port

/-- The group of the Time Follower (R58). -/
def timeGroup (s : State) : List Byte :=
  byte (followerCode s.time.state) ++ byte (qualityCode s.time.quality) ++ num 4 (stampNow s).ms
    ++ yesNo s.time.present ++ opt (num 2) s.time.take

/-- The group of the Dictionary Store (R74). -/
def dictGroup (d : Dictionary) : List Byte :=
  byte (layerCode d.layer) ++ byte (resultCode d.result) ++ byte (claimCode d.claim) ++ num 4 d.total
    ++ num 4 d.received ++ num 2 d.job.length

/-- The group of the Translator (R114). -/
def transGroup (t : Translator) : List Byte :=
  byte t.window.length ++ byte t.provisional.length ++ num 2 (textTotal t.provisional)
    ++ byte t.undo.length ++ byte (formatBits t.base) ++ num 4 t.idCounter.toNat
    ++ yesNo t.recomputePending

/-- The group of the Text Journal and Distributor, with the port's own listener (R132). -/
def journalGroup (j : Journal) (l : Listener) : List Byte :=
  num 4 j.head.toNat ++ num 2 j.entries.length ++ num 4 j.liveLength.toNat ++ num 4 j.settledLength.toNat
    ++ num 2 j.liveTail.length ++ num 2 j.settledTail.length ++ byte (modeCode l.mode) ++ yesNo l.obeys
    ++ num 4 l.cursor.toNat ++ opt byte l.paused ++ yesNo l.repaintPending

/-- An open hold as STATUS lists it (R145). -/
def holdFields (h : OpenHold) : List Byte :=
  byte h.id ++ byte (sourceCode h.source) ++ opt (fun w => num 4 w.toNat) h.owner
    ++ num 4 h.position.toNat ++ num 3 (h.age / Config.ticksPerSecond)

/-- The port's own open hold as STATUS lists it (R145). -/
def ownHoldFields (s : State) (port : Port) : List Byte :=
  match ownSource port with
  | none => []
  | some _ => opt byte ((ownHold s port).map (fun h => h.id))

/-- The group of the Hold Table (R145). -/
def holdGroupFields (s : State) (port : Port) : List Byte :=
  byte s.holds.limit ++ byte s.holds.nextId ++ byte s.holds.holds.length
    ++ (s.holds.holds.map holdFields).flatten ++ ownHoldFields s port

/-- Whole seconds on the idle timer (R159). -/
def idleSeconds (s : State) : Option Nat :=
  s.power.idleTimer.map (fun t => ticksSince t s.time.tick / Config.ticksPerSecond)

/-- The wake causes and clear-on-doze, on the Machine and Station ports (R159). -/
def causeFields (p : Power) (port : Port) : List Byte :=
  match port with
  | .machine | .station => byte (causeBits p.causes) ++ yesNo p.clearOnDoze
  | .feed => []

/-- The wake chord, the count N, the gap and the present count (R159). -/
def wakeGroup (w : WakeDetector) : List Byte :=
  num 3 w.chord.toNat ++ byte w.needed ++ num 2 w.gap ++ byte w.count

/-- The group of Power Control (R159). -/
def powerGroup (s : State) (port : Port) : List Byte :=
  byte (partCode s.power.part) ++ byte (reasonCode s.power.reason) ++ byte s.power.idleDelay
    ++ opt (num 2) (idleSeconds s) ++ wakeGroup s.wake ++ causeFields s.power port

/-- The group of the Quality Counters (R167). -/
def countersGroup (q : Counters) : List Byte :=
  yesNo q.auto ++ num 4 q.snapNumber.toNat ++ num 3 (q.intervalAge / Config.ticksPerSecond)

/-- The group of the port (R180). -/
def portGroup (s : State) (port : Port) : List Byte :=
  let p := s.port port
  byte p.enables.toNat ++ yesNo p.noticesMissed ++ yesNo p.requestsDropped ++ byte s.ports.feedAddress
    ++ byte s.ports.courtChannel

/-- The groups of STATUS in the order of R180. -/
def statusFields (s : State) (port : Port) : List Byte :=
  logGroup s port ++ timeGroup s ++ dictGroup s.dict ++ transGroup s.trans
    ++ journalGroup s.journal (s.listener port) ++ holdGroupFields s port ++ powerGroup s port
    ++ countersGroup s.counters ++ portGroup s port

/-- The owner of STATUS: the port's flags are cleared once the answer is built (R180). -/
def statusOwner (port : Port) (s : State) : State × Verdict :=
  (s.setPort port { s.port port with noticesMissed := false, requestsDropped := false },
   answerOk (statusFields s port))

/-! ### Settings of the ports -/

/-- The owner of NOTICES SET (R177). -/
def noticesSetOwner (port : Port) (kinds : NoticeSet) (s : State) : State × Verdict :=
  (s.setPort port { s.port port with enables := kinds }, answerOk (byte kinds.toNat))

/-- A feed address given is 1 to 254 (R178). -/
def addressInRange (address : Option Nat) : Bool :=
  match address with
  | none => true
  | some a => decide (1 ≤ a) && decide (a ≤ 254)

/-- The owner of FEED SET (R178). -/
def feedSetOwner (address channel : Option Nat) (s : State) : State × Verdict :=
  if addressInRange address then
    let a := address.getD s.ports.feedAddress
    let c := channel.getD s.ports.courtChannel
    ({ s with ports := { s.ports with feedAddress := a, courtChannel := c } }, answerOk (byte a ++ byte c))
  else (s, refuse .outOfRange)

/-! ### FEED QUERY -/

/-- The fields of a STATUS REPLY, read when the query is taken (R179; log entry 32). -/
def replyFields (s : State) : List Byte :=
  byte s.ports.feedAddress ++ byte (partCode s.power.part) ++ num 2 s.log.job
    ++ byte (modeCode s.journal.feed.mode) ++ yesNo s.journal.feed.paused.isSome
    ++ byte (qualityCode s.time.quality) ++ num 4 (stampNow s).ms ++ opt (num 4) s.journal.lastFix

/-- A query's channel reaches the court channel, or either of them is 0 (R179). -/
def channelReaches (channel : Byte) (court : Nat) : Bool :=
  channel.toNat == court || channel == 0 || court == 0

/-- A FEED QUERY judged: ignored, or answered with a STATUS REPLY (R179). -/
def answerQuery (fields : List Byte) (s : State) : State :=
  match fields with
  | [channel] =>
    if channelReaches channel s.ports.courtChannel then pushReply .feed (.statusReply (replyFields s)) s
    else s
  | _ => s

/-- The request FEED QUERY, as taken on a port (R171, R179). -/
def feedQueryRequest (port : Port) (fields : List Byte) (s : State) : State :=
  eventEnd
    (if answersFull s port then dropRequest port s
     else if permitted .feedQuery port then answerQuery fields s
     else pushReply port (.answer (kindCode .feedQuery) .notFromPort []) s)

/-- A request whose kind byte names none (R171). -/
def unknownKindRequest (port : Port) (kind : Byte) (s : State) : State :=
  eventEnd
    (if answersFull s port then dropRequest port s else pushReply port (.answer kind .unknownKind []) s)

/-! ### Meanings -/

/-- The request STATUS, as taken on a port. -/
def statusRequest (port : Port) : State → State := takeRequest port .status (statusOwner port)

/-- The request NOTICES SET, as taken on a port. -/
def noticesSetRequest (port : Port) (kinds : NoticeSet) : State → State :=
  takeRequest port .noticesSet (noticesSetOwner port kinds)

/-- The request FEED SET, as taken on a port. -/
def feedSetRequest (port : Port) (address channel : Option Nat) : State → State :=
  takeRequest port .feedSet (feedSetOwner address channel)

/-- UNKNOWN_KIND (R171). -/
def execUnknownKind (port : Port) (kind : Byte) (s : State) : Host.Outcome State Fault Refusal :=
  .next (unknownKindRequest port kind s)

/-- NOTICES_SET (R177). -/
def execNoticesSet (port : Port) (kinds : NoticeSet) (s : State) : Host.Outcome State Fault Refusal :=
  .next (noticesSetRequest port kinds s)

/-- FEED_SET (R178). -/
def execFeedSet (port : Port) (address channel : Option Nat) (s : State) :
    Host.Outcome State Fault Refusal :=
  .next (feedSetRequest port address channel s)

/-- FEED_QUERY (R179). -/
def execFeedQuery (port : Port) (fields : List Byte) (s : State) : Host.Outcome State Fault Refusal :=
  .next (feedQueryRequest port fields s)

/-- STATUS (R180). -/
def execStatus (port : Port) (s : State) : Host.Outcome State Fault Refusal := .next (statusRequest port s)

end Sys2Proof.Machine
end

