-- ==== Sys2Proof/Machine/Record.lean ====
section
/-! DEFINITION. The requests about the Stroke Log: JOB_OPEN (R27), JOB_CLOSE (R28), STROKES_ON (R30)
and STROKES_OFF (R31). -/

namespace Sys2Proof.Machine

/-- Appends a JOB record and sets the job number (R27, R28). -/
def appendJob (opened : Nat) (keep : Bool) (s : State) : State :=
  let s := appendRecord (.job opened s.log.job keep (stampNow s)) s
  { s with log := { s.log with job := opened } }

/-- Makes all 1,024 slots of the Job table free (R27, R76). -/
def emptyJobTable (s : State) : State := { s with dict := { s.dict with job := [] } }

/-- The answer of JOB OPEN and JOB CLOSE: the record's sequence number and the job closed (R27, R28). -/
def jobFields (s : State) : List Byte := num 4 s.log.head.toNat ++ num 2 s.log.job

/-- The owner of JOB OPEN (R27; log entry 14). -/
def jobOpenOwner (job : Nat) (keep : Bool) (s : State) : State × Verdict :=
  if s.power.part = .doze then (s, refuse .wrongState)
  else if job = 0 then (s, refuse .outOfRange)
  else
    let s' := appendJob job keep s
    (if keep then s' else emptyJobTable s', answerOk (jobFields s))

/-- The owner of JOB CLOSE (R28). -/
def jobCloseOwner (s : State) : State × Verdict :=
  if s.power.part = .doze || s.log.job == 0 then (s, refuse .wrongState)
  else (appendJob 0 false s, answerOk (jobFields s))

/-- The answer of STROKES ON and STROKES OFF: a sequence number and the reader's lost count. -/
def streamFields (seq lost : Word) : List Byte := num 4 seq.toNat ++ num 4 lost.toNat

/-- The owner of STROKES ON on the port of reader `name` (R30). -/
def strokesOnOwner (port : Port) (start : StartPoint) (sequence : Option Nat) (s : State) : State × Verdict :=
  match ownReader port, judgeStart s.log start sequence with
  | some name, some at_ =>
    let s' := startReader name at_ s
    (s', answerOk (streamFields at_.start (s'.log.reader name).lost))
  | _, _ => (s, refuse .outOfRange)

/-- The owner of STROKES OFF: of a reader already off it changes nothing (R31). -/
def strokesOffOwner (port : Port) (s : State) : State × Verdict :=
  match ownReader port with
  | some name =>
    let r := s.log.reader name
    (if r.on then stopReader name s else s, answerOk (streamFields s.log.head r.lost))
  | none => (s, refuse .outOfRange)

/-- The request JOB OPEN, as taken on a port. -/
def jobOpenRequest (port : Port) (job : Nat) (keep : Bool) : State → State :=
  takeRequest port .jobOpen (jobOpenOwner job keep)

/-- The request JOB CLOSE, as taken on a port. -/
def jobCloseRequest (port : Port) : State → State := takeRequest port .jobClose jobCloseOwner

/-- The request STROKES ON, as taken on a port. -/
def strokesOnRequest (port : Port) (start : StartPoint) (sequence : Option Nat) : State → State :=
  takeRequest port .strokesOn (strokesOnOwner port start sequence)

/-- The request STROKES OFF, as taken on a port. -/
def strokesOffRequest (port : Port) : State → State := takeRequest port .strokesOff (strokesOffOwner port)

/-- JOB_OPEN (R27). -/
def execJobOpen (port : Port) (job : Nat) (keep : Bool) (s : State) : Host.Outcome State Fault Refusal :=
  .next (jobOpenRequest port job keep s)

/-- JOB_CLOSE (R28). -/
def execJobClose (port : Port) (s : State) : Host.Outcome State Fault Refusal := .next (jobCloseRequest port s)

/-- STROKES_ON (R30). -/
def execStrokesOn (port : Port) (start : StartPoint) (sequence : Option Nat) (s : State) :
    Host.Outcome State Fault Refusal :=
  .next (strokesOnRequest port start sequence s)

/-- STROKES_OFF (R31). -/
def execStrokesOff (port : Port) (s : State) : Host.Outcome State Fault Refusal :=
  .next (strokesOffRequest port s)

end Sys2Proof.Machine
end

