-- ==== Sys2Proof/Machine/Sense.lean ====
section
/-! DEFINITION. Key sensing and stroke assembly: SCAN (R3 to R5, R11 to R13, R16 to R21),
STROKE_LIMIT_EXPIRY (R14), LINE_SET (R6, R7), LINE_TOGGLE (R8) and CAPTURE_SET (R9). -/

namespace Sys2Proof.Machine

/-! ### Acceptance -/

/-- A line is sampled: enabled and not UNUSED (R3). -/
def sampled (l : Line) : Bool := l.enabled && l.role != .unused

/-- A depth disagrees with the line's accepted state (R4). -/
def disagrees (l : Line) (depth : Byte) : Bool :=
  if l.pressed then decide (depth.toNat < l.release) else decide (l.press ≤ depth.toNat)

/-- A line after a scan (R4). -/
def scanLine (debounce : Nat) (l : Line) (depth : Byte) : Line :=
  if sampled l then
    if disagrees l depth then
      if debounce ≤ l.count + 1 then { l with pressed := !l.pressed, count := 0 }
      else { l with count := l.count + 1 }
    else { l with count := 0 }
  else l

/-- All lines after a scan; a line of no given depth reads 0. -/
def scanLines (debounce : Nat) : List Line → List Byte → List Line
  | [], _ => []
  | l :: ls, [] => scanLine debounce l 0 :: scanLines debounce ls []
  | l :: ls, d :: ds => scanLine debounce l d :: scanLines debounce ls ds

/-- The number of presses of MARK lines accepted at a scan (R5, R19). -/
def markPresses (before after : List Line) : Nat :=
  (List.zip before after).countP (fun x => x.2.role == .mark && x.2.pressed && !x.1.pressed)

/-! ### Marks and holds -/

/-- The mark function: one MARK record per press in READY and SETTLING, nothing in DOZE (R19). -/
def markPress : Nat → State → State
  | 0, s => s
  | n + 1, s => markPress n (if s.power.part = .doze then s else appendRecord (.mark (stampNow s)) s)

/-- Sets the flag line hold granted (R20). -/
def setGranted (b : Bool) (s : State) : State := { s with capture := { s.capture with holdGranted := b } }

/-- The HOLD group passes from empty to not empty (R20, R139). -/
def holdGroupPress (s : State) : State :=
  match openHold .line none s with
  | (s', .full) => setGranted false s'
  | (s', _) => setGranted true s'

/-- The HOLD group passes from not empty to empty (R21, R139). -/
def holdGroupRelease (s : State) : State :=
  if s.capture.holdGranted then
    setGranted false (closeWhere (fun h => h.source == .line) .owner s)
  else s

/-- The change of the HOLD group, if there is one (R5, R20, R21). -/
def holdGroup (before after : Bool) (s : State) : State :=
  if !before && after then holdGroupPress s
  else if before && !after then holdGroupRelease s
  else s

/-! ### The Stroke Assembler -/

/-- Replaces the assembler's state. -/
def setAssembler (a : Assembler) (s : State) : State := { s with capture := { s.capture with assembler := a } }

/-- Opens a stroke (R11). -/
def openStroke (keys : Chord) (s : State) : State :=
  let a : Assembler :=
    { state := .gathering, chord := keys, openTick := s.time.tick,
      stamp := if s.power.part = .doze then none else some (stampNow s),
      limit := s.capture.strokeLimit,
      destination := if s.power.part = .doze then .wake else .log }
  let s := setAssembler a s
  if s.power.part = .doze then s else reportOpening s

/-- Hands a closed stroke to its destination: a STROKE record for LOG; for WAKE the Wake Detector in
DOZE, and nothing when the part has left DOZE (R13, R14, R17, R18). -/
def handStroke (a : Assembler) (duration : Nat) (held : Bool) (s : State) : State :=
  match a.destination with
  | .log =>
    let stamp := a.stamp.getD { ms := 0, quality := .free }
    countOne .strokes (appendRecord (.stroke a.chord stamp duration held) s)
  | .wake => if s.power.part = .doze then judgeWake a.chord a.openTick s else s

/-- Closes an OPEN stroke at the event after which no steno key is pressed (R13, R15). -/
def closeStroke (s : State) : State :=
  let a := s.capture.assembler
  handStroke a (ticksToMs (ticksSince a.openTick s.time.tick)) false
    (setAssembler { a with state := .idle, chord := 0 } s)

/-- The Stroke Assembler receives the set of steno keys pressed after an event and the keys that became
pressed at it (R5, R11, R12, R13, R16). -/
def assemble (after became : Chord) (s : State) : State :=
  let a := s.capture.assembler
  match a.state with
  | .idle => if after = 0 then s else openStroke after s
  | .gathering =>
    if after = 0 then closeStroke s else setAssembler { a with chord := a.chord ||| became } s
  | .drain => if after = 0 then setAssembler { a with state := .idle } s else s

/-- SCAN (R4, R5). -/
def scanEvent (depths : List Byte) (s : State) : State :=
  let before := s.capture.lines
  let after := scanLines s.capture.debounce before depths
  let s := { s with capture := { s.capture with lines := after } }
  let s := markPress (markPresses before after) s
  let s := holdGroup (holdPressed before) (holdPressed after) s
  assemble (pressedKeys after) (pressedKeys after &&& ~~~(pressedKeys before)) s

/-- The stroke-limit timer of an OPEN stroke has expired (R14). -/
def strokeLimitDue (s : State) : Bool :=
  s.capture.assembler.state == .gathering
    && elapsed s.capture.assembler.openTick s.time.tick s.capture.assembler.limit

/-- STROKE_LIMIT_EXPIRY (R14). -/
def strokeLimitEvent (s : State) : State :=
  if strokeLimitDue s then
    let a := s.capture.assembler
    handStroke a a.limit true
      (setAssembler { a with state := .drain, chord := 0 } (countOne .heldStrokes s))
  else s

/-! ### Reconfiguration of lines -/

/-- The release, by a request, of the last pressed steno key: an OPEN stroke closes and a DRAIN ends
(R7). -/
def lastKeyReleased (s : State) : State :=
  match s.capture.assembler.state with
  | .idle => s
  | .gathering => closeStroke s
  | .drain => setAssembler { s.capture.assembler with state := .idle } s

/-- The releases a request brings are reported: the HOLD group's, then the steno keys' (R7; log entry
15). -/
def reportReleases (before after : List Line) (s : State) : State :=
  let s := holdGroup (holdPressed before) (holdPressed after) s
  if pressedKeys before != 0 && pressedKeys after == 0 then lastKeyReleased s else s

/-- Replaces the lines and reports the releases (R7). -/
def replaceLines (after : List Line) (s : State) : State :=
  let before := s.capture.lines
  reportReleases before after { s with capture := { s.capture with lines := after } }

/-- The function a LINE SET gives, when its key index agrees with it (R6, R181). -/
def roleOf (function : LineFunction) (key : Option Nat) : Option LineRole :=
  match function, key with
  | .steno, some k => if k ≤ 22 then some (.steno k) else none
  | .mark, none => some .mark
  | .hold, none => some .hold
  | .unused, none => some .unused
  | _, _ => none

/-- The function and key index of a line, as sent. -/
def roleFields (r : LineRole) : List Byte :=
  match r with
  | .steno k => byte 0 ++ opt byte (some k)
  | .mark => byte 1 ++ opt byte none
  | .hold => byte 2 ++ opt byte none
  | .unused => byte 3 ++ opt byte none

/-- A line's configuration, as LINE SET answers it (R6; log entry 13). -/
def lineFields (n : Nat) (l : Line) : List Byte :=
  byte n ++ roleFields l.role ++ byte l.press ++ byte l.release ++ yesNo l.enabled

/-- A line reconfigured by LINE SET: released, with its count 0 (R6, R7). -/
def configureLine (l : Line) (role : LineRole) (press release : Option Nat) : Line :=
  let p := clampField 1 255 l.press press
  { l with role := role, press := p, release := min (release.getD l.release) p, pressed := false, count := 0 }

/-- A level was adjusted (R6). -/
def levelsAdjusted (l : Line) (press release : Option Nat) : Bool :=
  clamped 1 255 press || decide (clampField 1 255 l.press press < release.getD l.release)

/-- The owner of LINE SET (R6, R7). -/
def lineSetOwner (n : Nat) (function : LineFunction) (key press release : Option Nat) (s : State) :
    State × Verdict :=
  match decide (n ≤ 31), roleOf function key with
  | true, some role =>
    let old := lineAt s.capture.lines n
    let new := configureLine old role press release
    (replaceLines (s.capture.lines.set n new) s,
     answerAdjusted (levelsAdjusted old press release) (lineFields n new))
  | _, _ => (s, refuse .outOfRange)

/-- A line whose enabled state is flipped: released with count 0 either way (R8). -/
def toggleLine (l : Line) : Line := { l with enabled := !l.enabled, pressed := false, count := 0 }

/-- The lines after LINE TOGGLE, from line `n` on (R8). -/
def toggleLines (set : BitVec 32) : Nat → List Line → List Line
  | _, [] => []
  | n, l :: ls => (if set.getLsbD n then toggleLine l else l) :: toggleLines set (n + 1) ls

/-- The set of enabled lines (R8). -/
def enabledSet (lines : List Line) : Nat := bits (lines.map (fun l => l.enabled))

/-- The owner of LINE TOGGLE (R8). -/
def lineToggleOwner (set : BitVec 32) (s : State) : State × Verdict :=
  let after := toggleLines set 0 s.capture.lines
  (replaceLines after s, answerOk (num 4 (enabledSet after)))

/-- The nearest scan interval; a value exactly between two is taken as the longer (R9). -/
def nearestInterval (v : Nat) : Nat :=
  if v < 375 then 250 else if v < 750 then 500 else if v < 1500 then 1000 else 2000

/-- Every line's count becomes 0 (R9). -/
def clearCounts (lines : List Line) : List Line := lines.map (fun l => { l with count := 0 })

/-- The owner of CAPTURE SET (R9). -/
def captureSetOwner (interval debounce limit : Option Nat) (s : State) : State × Verdict :=
  let c := s.capture
  let i := match interval with
    | none => c.interval
    | some v => nearestInterval v
  let d := clampField 1 4 c.debounce debounce
  let m := clampField 250 5000 c.strokeLimit limit
  let moved := match interval with
    | none => false
    | some v => nearestInterval v != v
  let lines := if interval.isSome || debounce.isSome then clearCounts c.lines else c.lines
  ({ s with capture := { c with lines := lines, interval := i, debounce := d, strokeLimit := m } },
   answerAdjusted (moved || clamped 1 4 debounce || clamped 250 5000 limit) (num 2 i ++ byte d ++ num 2 m))

/-! ### Meanings -/

/-- The request LINE SET, as taken on a port. -/
def lineSetRequest (port : Port) (line : Nat) (function : LineFunction) (key press release : Option Nat) :
    State → State :=
  takeRequest port .lineSet (lineSetOwner line function key press release)

/-- The request LINE TOGGLE, as taken on a port. -/
def lineToggleRequest (port : Port) (lines : BitVec 32) : State → State :=
  takeRequest port .lineToggle (lineToggleOwner lines)

/-- The request CAPTURE SET, as taken on a port. -/
def captureSetRequest (port : Port) (interval debounce limit : Option Nat) : State → State :=
  takeRequest port .captureSet (captureSetOwner interval debounce limit)

/-- SCAN (R4). -/
def execScan (depths : List Byte) (s : State) : Host.Outcome State Fault Refusal :=
  .next (eventEnd (scanEvent depths s))

/-- STROKE_LIMIT_EXPIRY (R14). -/
def execStrokeLimitExpiry (s : State) : Host.Outcome State Fault Refusal :=
  .next (eventEnd (strokeLimitEvent s))

/-- LINE_SET (R6). -/
def execLineSet (port : Port) (line : Nat) (function : LineFunction) (key press release : Option Nat)
    (s : State) : Host.Outcome State Fault Refusal :=
  .next (lineSetRequest port line function key press release s)

/-- LINE_TOGGLE (R8). -/
def execLineToggle (port : Port) (lines : BitVec 32) (s : State) : Host.Outcome State Fault Refusal :=
  .next (lineToggleRequest port lines s)

/-- CAPTURE_SET (R9). -/
def execCaptureSet (port : Port) (interval debounce limit : Option Nat) (s : State) :
    Host.Outcome State Fault Refusal :=
  .next (captureSetRequest port interval debounce limit s)

end Sys2Proof.Machine
end

