-- ==== Sys2Proof/Machine/Store.lean ====
section
/-! DEFINITION. The Dictionary Store's commands: loading and checking the main layer (R65 to R73), the
Job table's definitions (R77 to R80), the Fold table (R81) and the Speaker table (R82). -/

namespace Sys2Proof.Machine

/-! ### The load -/

/-- Replaces the Dictionary Store's state. -/
def setDict (d : Dictionary) (s : State) : State := { s with dict := d }

/-- The DICT notice (R65). -/
def dictNotice (d : Dictionary) : Notice :=
  { kind := .dict, fields := byte (layerCode d.layer) ++ byte (resultCode d.result) }

/-- Moves the main layer to the state held in `d`, and raises the DICT notice (R65). -/
def changeLayer (d : Dictionary) (s : State) : State := raiseNotice (dictNotice d) (setDict d s)

/-- The load ends: the claim is released, the timer stops, the notice is raised and the Translator
resumes (R68, R71 to R73). -/
def endLoad (layer : LayerState) (result : CheckResult) (header : Option ImageHeader) (s : State) : State :=
  resumeTranslator (changeLayer
    { s.dict with layer := layer, result := result, claim := .none, inactivity := none, header := header } s)

/-- The refusal a port meets when it holds no claim: BUSY when the other port holds it, WRONG_STATE when
none does (R67, R69, R72). -/
def claimRefusal (d : Dictionary) (port : Port) : Option Status :=
  if d.claim = .none then some .wrongState
  else if d.claim = ownClaim port then none
  else some .busy

/-- The dictionary when a load begins (R66). -/
def beginLoad (port : Port) (total : Nat) (tick : Tick) (d : Dictionary) : Dictionary :=
  { d with
    layer := .loading, result := .none, claim := ownClaim port, total := total, received := 0,
    inactivity := some tick, header := none }

/-- Stops the settle timer: it does not run while the Translator is paused (R73). -/
def pauseTranslator (s : State) : State := { s with trans := { s.trans with settleTimer := none } }

/-- The owner of LOAD BEGIN (R66). -/
def loadBeginOwner (port : Port) (total : Nat) (s : State) : State × Verdict :=
  if s.dict.claim = ownClaim port then (s, refuse .wrongState)
  else if s.dict.claim ≠ .none then (s, refuse .busy)
  else if total = 0 || decide (Config.dictionaryBytes < total) then (s, refuse .outOfRange)
  else
    (pauseTranslator (changeLayer (beginLoad port total s.time.tick s.dict) s), answerOk (num 4 total))

/-- The data of a LOAD DATA lie within what R67 takes. -/
def dataInRange (d : Dictionary) (offset : Nat) (data : List Byte) : Bool :=
  decide (1 ≤ data.length) && decide (data.length ≤ 240) && decide (offset + data.length ≤ d.total)

/-- A LOAD DATA taken (R67). -/
def takeData (offset : Nat) (data : List Byte) (tick : Tick) (d : Dictionary) : Dictionary :=
  { d with
    memory := writeBytes d.memory offset data, received := d.received + data.length,
    inactivity := some tick }

/-- The owner of LOAD DATA (R67). -/
def loadDataOwner (port : Port) (offset : Nat) (data : List Byte) (s : State) : State × Verdict :=
  match claimRefusal s.dict port with
  | some r => (s, refuse r)
  | none =>
    if s.dict.layer ≠ .loading then (s, refuse .wrongState)
    else if !dataInRange s.dict offset data then (s, refuse .outOfRange)
    else if offset ≠ s.dict.received then
      (s, { status := .outOfOrder, fields := num 4 s.dict.received })
    else
      let d := takeData offset data s.time.tick s.dict
      (setDict d s, answerOk (num 4 d.received))

/-- The owner of LOAD END (R69). -/
def loadEndOwner (port : Port) (s : State) : State × Verdict :=
  match claimRefusal s.dict port with
  | some r => (s, refuse r)
  | none =>
    if s.dict.layer ≠ .loading then (s, refuse .wrongState)
    else
      (changeLayer { s.dict with layer := .checking, inactivity := none } s,
       answerOk (num 4 s.dict.received))

/-- The owner of LOAD ABORT (R72). -/
def loadAbortOwner (port : Port) (s : State) : State × Verdict :=
  match claimRefusal s.dict port with
  | some r => (s, refuse r)
  | none => (endLoad .empty .none none s, answerOk (num 4 s.dict.received))

/-- The inactivity timer runs in LOADING and has expired (R68). -/
def inactivityDue (s : State) : Bool :=
  s.dict.layer == .loading && timerDue s.dict.inactivity s.time.tick 5000

/-- INACTIVITY_TIMEOUT (R68). -/
def inactivityEvent (s : State) : State := if inactivityDue s then endLoad .empty .none none s else s

/-! ### The check -/

/-- The CRC register after shifts toward its least significant end (R70). -/
def crcShift : Nat → Word → Word
  | 0, r => r
  | n + 1, r => crcShift n (if r.getLsbD 0 then (r >>> 1) ^^^ 0xEDB88320 else r >>> 1)

/-- The CRC register after a byte (R70). -/
def crcByte (r : Word) (b : Byte) : Word := crcShift 8 (r ^^^ b.setWidth 32)

/-- The CRC-32 of bytes (R70). -/
def crc32 (l : List Byte) : Word := ~~~(l.foldl crcByte 0xFFFFFFFF)

/-- The CRC-32 of the image equals the CRC it carries in its last 4 bytes (R69, R70). -/
def crcHolds (d : Dictionary) : Bool :=
  (crc32 (readBytes d.memory 0 (d.total - 4))).toNat == readNumber d.memory (d.total - 4) 4

/-- The bucket exponent and the maximum probe lie in their ranges (R69). -/
def shapeInRange (m : List Host.Cell) : Bool :=
  decide (10 ≤ imageExponent m) && decide (imageExponent m ≤ 22) && decide (1 ≤ imageProbe m)
    && decide (imageProbe m ≤ 64)

/-- The bucket array ends at or before the entry region, which begins at or before the closing CRC (R69). -/
def layoutHolds (m : List Host.Cell) : Bool :=
  decide (headerSize + 2 ^ imageExponent m * slotSize ≤ imageRegion m)
    && decide (imageRegion m + 4 ≤ imageLength m)

/-- The result of the check of an image, the conditions judged in order (R69). -/
def checkImage (d : Dictionary) : CheckResult :=
  if d.received ≠ d.total then .incomplete
  else if decide (d.total < headerSize + 4) || imageFormat d.memory != 1 then .format
  else if !shapeInRange d.memory then .range
  else if imageLength d.memory ≠ d.total then .length
  else if !layoutHolds d.memory then .layout
  else if !crcHolds d then .crc
  else .passed

/-- The header fields kept of an image (R61). -/
def imageHeader (m : List Host.Cell) : ImageHeader :=
  { exponent := imageExponent m, seed := imageSeed m, probe := imageProbe m }

/-- The check completes with a result (R71). -/
def completeCheck (result : CheckResult) (s : State) : State :=
  if result = .passed then endLoad .valid .passed (some (imageHeader s.dict.memory)) s
  else endLoad .failed result none s

/-- CHECK_COMPLETION: outside CHECKING there is nothing to complete (R71; log entry 25). -/
def checkEvent (s : State) : State :=
  if s.dict.layer = .checking then completeCheck (checkImage s.dict) s else s

/-! ### The Job table -/

/-- A key of 1 to 8 chord codes in range (R77, R79). -/
def keyLengthInRange (key : List Nat) : Bool := decide (1 ≤ key.length) && decide (key.length ≤ 8)

/-- The chords of chord codes. -/
def chordsOf (key : List Nat) : List Chord := key.map (fun c => BitVec.ofNat 23 c)

/-- The proper prefixes of a key, shortest first (R76). -/
def properPrefixes (key : List Chord) : List (List Chord) :=
  (List.range' 1 (key.length - 1)).map (fun n => key.take n)

/-- Raises by one the extension count of each slot that holds one of the keys. -/
def raiseCounts (keys : List (List Chord)) (slots : List JobSlot) : List JobSlot :=
  slots.map (fun x => if keys.contains x.key then { x with extensions := x.extensions + 1 } else x)

/-- Takes a prefix-only slot with count 0 for each of the keys that has none. -/
def takeSlots (keys : List (List Chord)) (slots : List JobSlot) : List JobSlot :=
  slots ++ (keys.filter (fun k => (jobSlot slots k).isNone)).map
    (fun k => { key := k, entry := none, extensions := 0 })

/-- Gives a key's slot an entry, or none. -/
def setEntry (key : List Chord) (e : Option Entry) (slots : List JobSlot) : List JobSlot :=
  slots.map (fun x => if x.key == key then { x with entry := e } else x)

/-- The Job table after a definition; none when too few slots are free (R78). -/
def defineSlots (key : List Chord) (e : Entry) (slots : List JobSlot) : Option (List JobSlot) :=
  match jobSlot slots key with
  | some slot =>
    let after := setEntry key (some e) slots
    some (if slot.entry.isSome then after else raiseCounts (properPrefixes key) after)
  | none =>
    let taken := setEntry key (some e) (takeSlots (properPrefixes key ++ [key]) slots)
    if Config.jobCapacity < taken.length then none else some (raiseCounts (properPrefixes key) taken)

/-- Lowers by one the extension count of each slot that holds one of the keys. -/
def lowerCounts (keys : List (List Chord)) (slots : List JobSlot) : List JobSlot :=
  slots.map (fun x => if keys.contains x.key then { x with extensions := x.extensions - 1 } else x)

/-- A slot stays in use: it is real, or some real key extends it (R79). -/
def slotUsed (x : JobSlot) : Bool := x.entry.isSome || decide (0 < x.extensions)

/-- The Job table after an entry is removed (R79). -/
def undefineSlots (key : List Chord) (slots : List JobSlot) : List JobSlot :=
  (lowerCounts (properPrefixes key) (setEntry key none slots)).filter slotUsed

/-- Replaces the Job table. -/
def setJob (slots : List JobSlot) (s : State) : State := setDict { s.dict with job := slots } s

/-- A DEFINE's fields are in range (R77). -/
def defineInRange (key : List Nat) (entry : Entry) (retranslate : Nat) : Bool :=
  keyLengthInRange key && key.all chordInRange && entryWellFormed entry && decide (retranslate ≤ 8)

/-- The Translator is asked to recompute, reopening first up to `r` settled units; answers how many it
reopened. While it cannot act, none (R80, R112). -/
def askRetranslate (r : Nat) (s : State) : Nat × State :=
  if 0 < r && translatorRuns s then retranslate r s else (0, askRecompute s)

/-- The answer of DEFINE (R77). -/
def defineFields (reopened : Nat) (d : Dictionary) : List Byte := byte reopened ++ num 2 d.job.length

/-- The owner of DEFINE (R77, R78, R80). -/
def defineOwner (key : List Nat) (entry : Entry) (r : Nat) (s : State) : State × Verdict :=
  if defineInRange key entry r then
    match defineSlots (chordsOf key) entry s.dict.job with
    | none => (s, refuse .full)
    | some slots =>
      let (n, s') := askRetranslate r (setJob slots s)
      (s', answerOk (defineFields n s'.dict))
  else (s, refuse .outOfRange)

/-- The real slot of a key, if it has one (R79). -/
def realSlot (slots : List JobSlot) (key : List Chord) : Option JobSlot :=
  match jobSlot slots key with
  | some x => if x.entry.isSome then some x else none
  | none => none

/-- The owner of UNDEFINE (R79, R80). -/
def undefineOwner (key : List Nat) (s : State) : State × Verdict :=
  if keyLengthInRange key && key.all chordInRange && (realSlot s.dict.job (chordsOf key)).isSome then
    let s' := askRecompute (setJob (undefineSlots (chordsOf key) s.dict.job) s)
    (s', answerOk (num 2 s'.dict.job.length))
  else (s, refuse .outOfRange)

/-! ### Fold rules and speaker labels -/

/-- A fold key and a suffix in range (R81). -/
def foldInRange (key : Nat) (suffix : Text) : Bool :=
  decide (1 ≤ key) && decide (key ≤ 22) && decide (1 ≤ suffix.length) && decide (suffix.length ≤ 8)
    && suffix.all lineCode

/-- The rule a FOLD SET gives; none when a field is out of range, is given with in use no, or is absent
with in use yes (R81, R181). -/
def foldRule (inUse : Bool) (key : Option Nat) (suffix : Option Text) : Option FoldRule :=
  match inUse, key, suffix with
  | true, some k, some t => if foldInRange k t then some { inUse := true, key := k, suffix := t } else none
  | false, none, none => some FoldRule.unused
  | _, _, _ => none

/-- The four rules as FOLD SET answers them: in use, key, suffix of each (R81; log entry 13). -/
def foldFields (rules : List FoldRule) : List Byte :=
  (rules.map (fun r => yesNo r.inUse ++ byte r.key ++ txt r.suffix)).flatten

/-- The owner of FOLD SET (R81). -/
def foldSetOwner (rule : Nat) (inUse : Bool) (key : Option Nat) (suffix : Option Text) (s : State) :
    State × Verdict :=
  match decide (rule ≤ 3), foldRule inUse key suffix with
  | true, some r =>
    let folds := s.dict.folds.set rule r
    (askRecompute (setDict { s.dict with folds := folds } s), answerOk (foldFields folds))
  | _, _ => (s, refuse .outOfRange)

/-- A speaker label in range (R82). -/
def labelInRange (label : Text) : Bool := decide (label.length ≤ 32) && label.all lineCode

/-- The owner of SPEAKER SET (R82). -/
def speakerSetOwner (slot : Nat) (label : Text) (s : State) : State × Verdict :=
  if decide (slot ≤ 15) && labelInRange label then
    (askRecompute (setDict { s.dict with speakers := s.dict.speakers.set slot label } s),
     answerOk (byte slot ++ txt label))
  else (s, refuse .outOfRange)

/-! ### Meanings -/

/-- The request LOAD BEGIN, as taken on a port. -/
def loadBeginRequest (port : Port) (total : Nat) : State → State :=
  takeRequest port .loadBegin (loadBeginOwner port total)

/-- The request LOAD DATA, as taken on a port. -/
def loadDataRequest (port : Port) (offset : Nat) (data : List Byte) : State → State :=
  takeRequest port .loadData (loadDataOwner port offset data)

/-- The request LOAD END, as taken on a port. -/
def loadEndRequest (port : Port) : State → State := takeRequest port .loadEnd (loadEndOwner port)

/-- The request LOAD ABORT, as taken on a port. -/
def loadAbortRequest (port : Port) : State → State := takeRequest port .loadAbort (loadAbortOwner port)

/-- The request DEFINE, as taken on a port. -/
def defineRequest (port : Port) (key : List Nat) (entry : Entry) (r : Nat) : State → State :=
  takeRequest port .define (defineOwner key entry r)

/-- The request UNDEFINE, as taken on a port. -/
def undefineRequest (port : Port) (key : List Nat) : State → State :=
  takeRequest port .undefine (undefineOwner key)

/-- The request FOLD SET, as taken on a port. -/
def foldSetRequest (port : Port) (rule : Nat) (inUse : Bool) (key : Option Nat) (suffix : Option Text) :
    State → State :=
  takeRequest port .foldSet (foldSetOwner rule inUse key suffix)

/-- The request SPEAKER SET, as taken on a port. -/
def speakerSetRequest (port : Port) (slot : Nat) (label : Text) : State → State :=
  takeRequest port .speakerSet (speakerSetOwner slot label)

/-- LOAD_BEGIN (R66). -/
def execLoadBegin (port : Port) (total : Nat) (s : State) : Host.Outcome State Fault Refusal :=
  .next (loadBeginRequest port total s)

/-- LOAD_DATA (R67). -/
def execLoadData (port : Port) (offset : Nat) (data : List Byte) (s : State) :
    Host.Outcome State Fault Refusal :=
  .next (loadDataRequest port offset data s)

/-- LOAD_END (R69). -/
def execLoadEnd (port : Port) (s : State) : Host.Outcome State Fault Refusal := .next (loadEndRequest port s)

/-- LOAD_ABORT (R72). -/
def execLoadAbort (port : Port) (s : State) : Host.Outcome State Fault Refusal :=
  .next (loadAbortRequest port s)

/-- INACTIVITY_TIMEOUT (R68). -/
def execInactivityTimeout (s : State) : Host.Outcome State Fault Refusal :=
  .next (eventEnd (inactivityEvent s))

/-- CHECK_COMPLETION (R71). -/
def execCheckCompletion (s : State) : Host.Outcome State Fault Refusal := .next (eventEnd (checkEvent s))

/-- DEFINE (R77). -/
def execDefine (port : Port) (key : List Nat) (entry : Entry) (r : Nat) (s : State) :
    Host.Outcome State Fault Refusal :=
  .next (defineRequest port key entry r s)

/-- UNDEFINE (R79). -/
def execUndefine (port : Port) (key : List Nat) (s : State) : Host.Outcome State Fault Refusal :=
  .next (undefineRequest port key s)

/-- FOLD_SET (R81). -/
def execFoldSet (port : Port) (rule : Nat) (inUse : Bool) (key : Option Nat) (suffix : Option Text)
    (s : State) : Host.Outcome State Fault Refusal :=
  .next (foldSetRequest port rule inUse key suffix s)

/-- SPEAKER_SET (R82). -/
def execSpeakerSet (port : Port) (slot : Nat) (label : Text) (s : State) :
    Host.Outcome State Fault Refusal :=
  .next (speakerSetRequest port slot label s)

end Sys2Proof.Machine
end

