-- ==== Sys2Proof/Machine/Time.lean ====
section
/-! DEFINITION. The Time Follower: the cells and the search for a lock (R36, R40, R44), the completion of
a frame with its judgements in the order of R39 (R41 to R43, R47, R48, R50 to R53), quality (R55), the
expiries of R38, R45, R54 and R56, and TIME_SET (R57). -/

namespace Sys2Proof.Machine

/-! ### Fields of a frame (R36, R183) -/

/-- The sync pattern. -/
def syncPattern : List Bool :=
  [true, true, false, true, true, true, true, false, true, false, false, true]

/-- Cells of a frame. -/
def frameCells : Nat := 64

/-- A number in cells, most significant first. -/
def cellNumber (l : List Bool) : Nat := l.foldl (fun a b => 2 * a + (if b then 1 else 0)) 0

/-- The number in `count` cells of a frame from cell `first` on. -/
def cellField (cells : List Bool) (first count : Nat) : Nat := cellNumber ((cells.drop first).take count)

/-- A decoded frame. -/
structure TimeFrame where
  wrong : Nat
  hours : Nat
  minutes : Nat
  seconds : Nat
  number : Nat
  position : Nat
  take : Nat
  check : Nat
  deriving DecidableEq, Repr

/-- The frame of 64 cells, with the number of its sync cells that differ from the pattern (R183). -/
def decodeFrame (cells : List Bool) : TimeFrame :=
  { wrong := (List.zip syncPattern cells).countP (fun x => x.1 != x.2),
    hours := cellField cells 12 5, minutes := cellField cells 17 6, seconds := cellField cells 23 6,
    number := cellField cells 29 5, position := cellField cells 34 3, take := cellField cells 37 16,
    check := cellField cells 53 8 }

/-- Good sync (R36). -/
def TimeFrame.goodSync (f : TimeFrame) : Bool := f.wrong == 0

/-- All fields in range (R36). -/
def TimeFrame.inRange (f : TimeFrame) (rate : Nat) : Bool :=
  decide (f.hours ≤ 23) && decide (f.minutes ≤ 59) && decide (f.seconds ≤ 59) && decide (f.number < rate)

/-- A frame's part of the block sum (R37). -/
def TimeFrame.sum (f : TimeFrame) : Nat :=
  f.hours + f.minutes + f.seconds + f.number + f.take / 256 + f.take % 256

/-- The decoded time of an accepted frame (R50). -/
def TimeFrame.decoded (f : TimeFrame) (rate : Nat) : Nat :=
  f.hours * 3600000 + f.minutes * 60000 + f.seconds * 1000 + (f.number * 1000 + rate / 2) / rate

/-- What the block check keeps of a frame (R37, R47). -/
def TimeFrame.summary (f : TimeFrame) : FrameSummary :=
  { goodSync := f.goodSync, position := f.position, sum := f.sum }

/-! ### Quality (R55) -/

/-- Replaces the Time Follower's state. -/
def setTime (t : TimeFollower) (s : State) : State := { s with time := t }

/-- Ticks of the coast limit (R54). -/
def coastTicks (t : TimeFollower) : Nat := t.coast * Config.ticksPerSecond

/-- The quality the table of R55 gives. -/
def judgedQuality (t : TimeFollower) : Quality :=
  if t.present then
    match t.state with
    | .block => .locked
    | .frame | .frameOnly => .unchecked
    | .search => if t.age ≤ coastTicks t then .coast else .free
  else .free

/-- The TIME notice (R55). -/
def timeNotice (s : State) : Notice :=
  { kind := .time,
    fields := byte (qualityCode s.time.quality) ++ byte (followerCode s.time.state)
      ++ num 4 (stampNow s).ms }

/-- Re-judges the quality; a change raises a TIME notice (R55). -/
def rejudge (s : State) : State :=
  let q := judgedQuality s.time
  if q = s.time.quality then s
  else
    let s := setTime { s.time with quality := q } s
    raiseNotice (timeNotice s) s

/-! ### Losing lock -/

/-- The loss of frame lock: the state becomes SEARCH and what R42 clears is cleared. -/
def loseLock (s : State) : State :=
  setTime { s.time with
    state := .search, syncRun := 0, window := 0, blockRun := none, history := [],
    alternate := .inactive, blockLimit := none, step := none, pendingTake := none,
    frameDue := false, lockFrame := false, lastFrames := [] } s

/-! ### The search (R40, R44) -/

/-- The last 12 cells decoded match the sync pattern. -/
def endsInSync (cells : List Bool) : Bool := cells.drop (cells.length - 12) == syncPattern

/-- What a search makes of a cell: it goes on with a candidate or none, or it has found the sync word in
3 consecutive frames. -/
inductive SearchOutcome where
  | goOn (candidate : Option Candidate)
  | found (position : BitVec 6)
  deriving DecidableEq, Repr

/-- The search at a cell of counter value `counter`; a pattern ending at `excluded` is not taken as a
candidate (R40, R44). -/
def searchCell (cells : List Bool) (counter : BitVec 6) (excluded : Option (BitVec 6))
    (candidate : Option Candidate) : SearchOutcome :=
  match candidate with
  | none =>
    if endsInSync cells && excluded != some counter then .goOn (some { position := counter, count := 1 })
    else .goOn none
  | some k =>
    if k.position = counter then
      if endsInSync cells then
        if 3 ≤ k.count + 1 then .found counter else .goOn (some { k with count := k.count + 1 })
      else .goOn none
    else .goOn (some k)

/-- A lock at a position is at an alignment other than the previous lock's (R40). -/
def lockMoved (previous : Option (BitVec 6)) (position : BitVec 6) : Bool :=
  match previous with
  | none => false
  | some p => p != position

/-- Frame lock at a position (R40, R45). ALIGN_CHANGES is counted before the quality is judged again (log entry
37). -/
def lockAt (position : BitVec 6) (s : State) : State :=
  let s := if lockMoved s.time.previousLock position then countOne .alignChanges s else s
  rejudge (setTime { s.time with
    state := .frame, candidate := none, alignment := position, previousLock := some position,
    window := 1, lockFrame := true, frameDue := false, frameTick := s.time.tick,
    blockLimit := some s.time.tick } s)

/-- The move to the alternate's alignment (R44). -/
def moveTo (position : BitVec 6) (s : State) : State :=
  let s := countOne .alignChanges s
  setTime { s.time with
    alignment := position, previousLock := some position, syncRun := 0, blockRun := none, step := none,
    alternate := .inactive, window := 1, lockFrame := true, frameDue := false,
    frameTick := s.time.tick } s

/-- A cell in a locked state at the alignment: the frame tick at the end of the sync word, the end of the
frame 52 cells later (R38, R41). -/
def frameCell (s : State) : State :=
  let t := s.time
  if t.cellCounter = t.alignment then setTime { t with frameTick := t.tick } s
  else if t.cellCounter = t.alignment + 52 then setTime { t with frameDue := true } s
  else s

/-- A decoded cell judged by the search, the alternate search and the frame in progress (R40, R41, R44). At a cell
that is both the alternate's third sync and the last of a frame at the alignment, the move is made and that frame
is not completed: DESIGN CHOICE, R44 gives the two no order (log entry 5). -/
def judgeCell (s : State) : State :=
  let t := s.time
  match t.state, t.alternate with
  | .search, _ =>
    match searchCell t.cells t.cellCounter none t.candidate with
    | .goOn c => setTime { t with candidate := c } s
    | .found p => lockAt p s
  | .frame, .searching c =>
    match searchCell t.cells t.cellCounter (some t.alignment) c with
    | .goOn c => frameCell (setTime { t with alternate := .searching c } s)
    | .found p => moveTo p s
  | _, _ => frameCell s

/-- A cell decoded: the counter advances, the cell is kept, the silence timer restarts (R36, R38). -/
def pushCell (digit : Bool) (t : TimeFollower) : TimeFollower :=
  let cells := t.cells ++ [digit]
  { t with
    cellCounter := t.cellCounter + 1, cells := cells.drop (cells.length - frameCells),
    silence := some t.tick }

/-! ### Completing a frame -/

/-- What a frame with a sync error counts (R41). -/
def syncErrorCount (mode : SyncErrorMode) (f : TimeFrame) : Nat :=
  match mode with
  | .pattern => 1
  | .cell => f.wrong

/-- The sync judgement (R41); the third sync error in a row loses the lock (R42). SYNC_ERRORS is counted before
the quality is judged again (log entry 37). -/
def judgeSync (f : TimeFrame) (s : State) : State :=
  if f.goodSync then setTime { s.time with syncRun := 0 } s
  else
    let s := countEvents .syncErrors (syncErrorCount s.time.mode f) s
    if 3 ≤ s.time.syncRun + 1 then loseLock s
    else setTime { s.time with syncRun := s.time.syncRun + 1 } s

/-- The block run after a frame (R43). -/
def nextRun (run : Option Nat) (f : TimeFrame) : Option Nat :=
  if f.goodSync && f.position == 0 then some 0
  else
    match run with
    | some r => if f.goodSync && f.position == r + 1 then some (r + 1) else none
    | none => none

/-- The 8 frames before had good sync and their expected positions 0 to 7 (R47). -/
def wholeBlock (l : List FrameSummary) : Bool :=
  l.map (fun x => x.goodSync) == List.replicate 8 true && l.map (fun x => x.position) == List.range 8

/-- The sum of R37 over frames. -/
def blockSum (l : List FrameSummary) : Nat := (l.map (fun x => x.sum)).sum % 256

/-- A check passes (R47). -/
def checkPasses (l : List FrameSummary) (f : TimeFrame) : Bool :=
  f.goodSync && f.position == 0 && wholeBlock l && f.check == blockSum l

/-- Excessive checks (R48). -/
def excessive (history : List Bool) : Bool := decide (4 ≤ history.count false)

/-- What excessive checks bring (R48). The cells kept for the search outlive the loss of lock (log entry 7). -/
def failBlock (f : TimeFrame) (s : State) : State :=
  if s.time.reframe then loseLock s
  else
    setTime { s.time with
      state := .frame, history := [], window := 1, blockRun := nextRun none f,
      blockLimit := some s.time.frameTick } s

/-- Judges one check (R47, R48). A failed check is counted under the quality held before the frame's judgement
(log entry 37). -/
def judgeCheck (f : TimeFrame) (s : State) : State :=
  let pass := checkPasses s.time.lastFrames f
  let s := if pass then s else countOne .blockErrors s
  let history := s.time.history ++ [pass]
  let s := setTime { s.time with history := history.drop (history.length - 8) } s
  if excessive s.time.history then failBlock f s else s

/-- BLOCK is declared at a frame that completes a run of 8 positions (R43, R45). Its first check is made before
the quality is judged again (log entry 37). -/
def declareBlock (f : TimeFrame) (s : State) : State :=
  judgeCheck f (setTime { s.time with
    state := .block, expected := 1, history := [], alternate := .inactive, blockLimit := none } s)

/-- The frames of the window seen after a frame; window frame 1 was counted at its sync word (R43). -/
def nextWindow (first : Bool) (window : Nat) : Nat := if first then window else min 24 (window + 1)

/-- The block search in FRAME (R43, R44). -/
def searchBlock (first : Bool) (f : TimeFrame) (s : State) : State :=
  let t := s.time
  if f.goodSync && f.position == 0 && t.blockRun == some 7 then declareBlock f s
  else
    let window := nextWindow first t.window
    setTime { t with
      window := window, blockRun := nextRun t.blockRun f,
      alternate := if window == 24 && t.window != 24 then .searching none else t.alternate } s

/-- The block judgement (R39, step 2). -/
def judgeBlock (first : Bool) (f : TimeFrame) (s : State) : State :=
  match s.time.state with
  | .frame => searchBlock first f s
  | .block =>
    let expected := s.time.expected
    let s := setTime { s.time with expected := (expected + 1) % 8 } s
    if expected = 0 then judgeCheck f s else s
  | .frameOnly | .search => s

/-- The reference is taken from the frame, and the quality re-judged (R51, R55). -/
def takeReference (d : Nat) (s : State) : State :=
  rejudge (setTime { s.time with
    tref := d, lref := s.time.frameTick, present := true, age := 0, step := none } s)

/-- The pair of this frame becomes the step candidate (R51, R52). -/
def holdStep (d : Nat) (s : State) : State :=
  setTime { s.time with step := some (d, s.time.frameTick) } s

/-- A time of day lies within the step threshold of another (R50 to R52). -/
def within (threshold a b : Nat) : Bool := decide ((normalised ((a : Int) - (b : Int))).natAbs ≤ threshold)

/-- The candidate's extrapolation to a tick (R52). -/
def extrapolated (dc : Nat) (lc tick : Tick) : Nat := (dc + ticksToMs (ticksSince lc tick)) % Config.dayMs

/-- The step is taken (R52): the record stands before the reference moves (log entry 37). -/
def takeStep (e d : Nat) (s : State) : State :=
  let s := appendRecord (.timestep e d s.time.quality) s
  countOne .timeSteps (takeReference d s)

/-- The reference update of an accepted frame of decoded time `d` (R50 to R52). -/
def updateReference (d : Nat) (s : State) : State :=
  let t := s.time
  let e := stampMs t t.frameTick
  if !t.present || within t.threshold d e then takeReference d s
  else
    match t.step with
    | none => holdStep d s
    | some (dc, lc) =>
      if within t.threshold d (extrapolated dc lc t.frameTick) then takeStep e d s else holdStep d s

/-- The take word of an accepted frame (R53). -/
def updateTake (word : Nat) (s : State) : State :=
  let old := s.time.take
  let s :=
    if s.time.pendingTake = some word && old != some word then
      let s := setTime { s.time with take := some word } s
      appendRecord (.take old word (stampNow s)) s
    else s
  setTime { s.time with pendingTake := some word } s

/-- An accepted frame (R50, R51, R53). -/
def acceptFrame (f : TimeFrame) (s : State) : State :=
  updateTake f.take (updateReference (f.decoded s.time.rate) s)

/-- Keeps what the block check needs of a completed frame (R47). -/
def keepSummary (f : TimeFrame) (s : State) : State :=
  let l := s.time.lastFrames ++ [f.summary]
  setTime { s.time with lastFrames := l.drop (l.length - 8) } s

/-- The judgements of a frame after its sync, in the order of R39. The quality is judged again after the block
judgement has counted (log entry 37) and before the frame is accepted, so the TIME notice of BLOCK declared or
left is stamped against the reference before this frame: DESIGN CHOICE, R39 and R55 leave the place open (log
entry 39). -/
def judgeFrame (first : Bool) (f : TimeFrame) (s : State) : State :=
  let s := rejudge (judgeBlock first f s)
  if s.time.state = .search then s
  else
    let s := keepSummary f s
    if f.goodSync && f.inRange s.time.rate then acceptFrame f s else s

/-- The completion of the frame of the last 64 cells (R38, R39). -/
def completeFrame (s : State) : State :=
  let f := decodeFrame s.time.cells
  let first := s.time.lockFrame
  let s := judgeSync f (setTime { s.time with frameDue := false, lockFrame := false } s)
  if s.time.state = .search then rejudge s else judgeFrame first f s

/-- FRAME_COMPLETION: with no frame ended, nothing is completed (R38; log entry 5). -/
def frameEvent (s : State) : State :=
  if s.time.frameDue && s.time.state != .search then completeFrame s else s

/-- CELL_DECODED: a frame ended before is completed first (R36, R40; log entry 5). -/
def cellEvent (digit : Bool) (s : State) : State :=
  let s := frameEvent s
  judgeCell (setTime (pushCell digit s.time) s)

/-! ### Expiries -/

/-- The silence timer has expired (R38). -/
def silenceDue (s : State) : Bool := timerDue s.time.silence s.time.tick 100

/-- The line is silent (R38, R40, R42). -/
def fallSilent (s : State) : State :=
  let s := setTime { s.time with silence := none, cells := [] } s
  if s.time.state = .search then setTime { s.time with candidate := none } s else rejudge (loseLock s)

/-- SILENCE_TIMER_EXPIRY (R38): a frame ended before is completed first. -/
def silenceEvent (s : State) : State := if silenceDue s then fallSilent (frameEvent s) else s

/-- The block limit has expired in FRAME (R45). -/
def blockLimitDue (s : State) : Bool :=
  s.time.state == .frame && (match s.time.blockLimit with
    | none => false
    | some start => decide (8192 ≤ ticksSince start s.time.tick))

/-- BLOCK_LIMIT_EXPIRY (R45). -/
def blockLimitEvent (s : State) : State :=
  if blockLimitDue s then
    rejudge (setTime { s.time with
      state := .frameOnly, window := 0, blockRun := none, alternate := .inactive, blockLimit := none } s)
  else s

/-- The reference age has passed the coast limit in SEARCH (R54, R55). -/
def coastDue (s : State) : Bool :=
  s.time.state == .search && s.time.present && decide (coastTicks s.time < s.time.age)
    && s.time.quality != .free

/-- COAST_LIMIT_PASSED (R55). -/
def coastEvent (s : State) : State := if coastDue s then rejudge s else s

/-- The tick difference has reached 2^31 (R56). -/
def rebaseDue (s : State) : Bool := decide (Config.ageCeiling ≤ ticksSince s.time.lref s.time.tick)

/-- REFERENCE_REBASE (R56). -/
def rebaseEvent (s : State) : State :=
  if rebaseDue s then
    setTime { s.time with tref := (stampNow s).ms, lref := s.time.tick } s
  else s

/-! ### TIME SET -/

/-- The settings after TIME SET (R57). -/
def timeSettings (t : TimeFollower) (rate coast threshold : Option Nat) (reframe : Option Bool)
    (mode : Option SyncErrorMode) : TimeFollower :=
  { t with
    rate := rate.getD t.rate, coast := clampField 1 60 t.coast coast,
    threshold := clampField 20 1000 t.threshold threshold, reframe := reframe.getD t.reframe,
    mode := mode.getD t.mode }

/-- A new rate: lock is lost, or the candidate dropped (R57). -/
def changeRate (s : State) : State :=
  if s.time.state = .search then setTime { s.time with candidate := none } s else loseLock s

/-- The five settings, as TIME SET answers them (R57). -/
def timeFields (t : TimeFollower) : List Byte :=
  byte t.rate ++ byte t.coast ++ num 2 t.threshold ++ yesNo t.reframe ++ byte (errorModeCode t.mode)

/-- A rate given is one the line can have (R57). -/
def rateInRange (rate : Option Nat) : Bool :=
  match rate with
  | none => true
  | some r => r == 25 || r == 30

/-- What a new rate or a new coast limit brings; with neither, nothing is re-judged (R55, R57). -/
def judgeSettings (old : TimeFollower) (s : State) : State :=
  if s.time.rate ≠ old.rate then rejudge (changeRate s)
  else if s.time.coast ≠ old.coast then rejudge s
  else s

/-- The owner of TIME SET (R57). -/
def timeSetOwner (rate coast threshold : Option Nat) (reframe : Option Bool) (mode : Option SyncErrorMode)
    (s : State) : State × Verdict :=
  if rateInRange rate then
    let t := timeSettings s.time rate coast threshold reframe mode
    (judgeSettings s.time (setTime t s),
     answerAdjusted (clamped 1 60 coast || clamped 20 1000 threshold) (timeFields t))
  else (s, refuse .outOfRange)

/-- The request TIME SET, as taken on a port. -/
def timeSetRequest (port : Port) (rate coast threshold : Option Nat) (reframe : Option Bool)
    (mode : Option SyncErrorMode) : State → State :=
  takeRequest port .timeSet (timeSetOwner rate coast threshold reframe mode)

/-! ### Meanings -/

/-- FRAME_COMPLETION (R39). -/
def execFrameCompletion (s : State) : Host.Outcome State Fault Refusal := .next (eventEnd (frameEvent s))

/-- SILENCE_TIMER_EXPIRY (R38). -/
def execSilenceTimerExpiry (s : State) : Host.Outcome State Fault Refusal := .next (eventEnd (silenceEvent s))

/-- BLOCK_LIMIT_EXPIRY (R45). -/
def execBlockLimitExpiry (s : State) : Host.Outcome State Fault Refusal := .next (eventEnd (blockLimitEvent s))

/-- COAST_LIMIT_PASSED (R55). -/
def execCoastLimitPassed (s : State) : Host.Outcome State Fault Refusal := .next (eventEnd (coastEvent s))

/-- REFERENCE_REBASE (R56). -/
def execReferenceRebase (s : State) : Host.Outcome State Fault Refusal := .next (eventEnd (rebaseEvent s))

/-- TIME_SET (R57). -/
def execTimeSet (port : Port) (rate coast threshold : Option Nat) (reframe : Option Bool)
    (mode : Option SyncErrorMode) (s : State) : Host.Outcome State Fault Refusal :=
  .next (timeSetRequest port rate coast threshold reframe mode s)

/-- CELL_DECODED (R36). -/
def execCellDecoded (digit : Bool) (s : State) : Host.Outcome State Fault Refusal :=
  .next (eventEnd (cellEvent digit s))

end Sys2Proof.Machine
end

