-- ==== Sys2Proof/Machine/Transmit.lean ====
section
/-! DEFINITION. The transmitters: the choice of what goes out next (R174), a reader's and a listener's
message begun (R32, R122, R123, R128), TRANSMIT_BEGIN and FRAME_SENT, and the byte the Machine port
sends at an exchange (R175). -/

namespace Sys2Proof.Machine

/-- Replaces the answers waiting on a port. -/
def setAnswers (port : Port) (l : List Reply) (s : State) : State :=
  s.setPort port { s.port port with answers := l }

/-- Replaces the notices waiting on a port. -/
def setNotices (port : Port) (l : List Notice) (s : State) : State :=
  s.setPort port { s.port port with notices := l }

/-- Passes a port's stream turn to a source (R174). -/
def setTurn (port : Port) (t : StreamTurn) (s : State) : State :=
  s.setPort port { s.port port with turn := t }

/-- A message chosen, kind and body, with the part once it is begun. -/
abbrev Choice := Option ((Byte × List Byte) × State)

/-- The reader's STROKE message (R32); the turn passes to the listener (R174). -/
def readerChoice (port : Port) (s : State) : Choice :=
  match ownReader port with
  | none => none
  | some name =>
    match readerOffer s.log name with
    | none => none
    | some r =>
      let reader := s.log.reader name
      some ((130, strokeBody reader.lost r), setTurn port .listener (s.setReader name (passRecord reader)))

/-- The listener's message (R122, R123, R128); the turn passes to the reader (R174). -/
def listenerChoice (port : Port) (s : State) : Choice :=
  match listenerOffer s.journal (s.listener port) with
  | none => none
  | some (m, l) => some (m, setTurn port .stroke (s.setListener port l))

/-- The stream message chosen: that of the stream turn when both sources offer (R174). -/
def streamChoice (port : Port) (s : State) : Choice :=
  match (s.port port).turn with
  | .stroke => (readerChoice port s).orElse (fun _ => listenerChoice port s)
  | .listener => (listenerChoice port s).orElse (fun _ => readerChoice port s)

/-- The arbiter's choice: the oldest answer, the oldest notice, a stream message (R174). It is made after the whole
event that made the offers, so that of an answer or notice and a stream offer made by one event the answer or
notice is always taken first: DESIGN CHOICE, R174 lets either be taken first (log entry 40). -/
def chooseMessage (port : Port) (s : State) : Choice :=
  match (s.port port).answers, (s.port port).notices with
  | r :: rest, _ => some (replyMessage r, setAnswers port rest s)
  | [], n :: rest => some (noticeMessage n, setNotices port rest s)
  | [], [] => streamChoice port s

/-- The body of a frame sent on a port: on the Feed port the feed address stands first (R170, R174). -/
def portBody (port : Port) (s : State) (body : List Byte) : List Byte :=
  match port with
  | .machine | .station => body
  | .feed => byte s.ports.feedAddress ++ body

/-- Sets what a port is sending. -/
def setSending (port : Port) (x : Option Sending) (s : State) : State :=
  s.setPort port { s.port port with sending := x }

/-- A free transmitter chooses a message, builds its frame and begins to send it (R174). -/
def beginMessage (port : Port) (s : State) : State :=
  match (s.port port).sending, chooseMessage port s with
  | none, some ((kind, body), s') =>
    setSending port (some { frame := buildFrame kind (portBody port s body), sent := 0 }) s'
  | _, _ => s

/-- The end of a frame: the Station and Feed transmitters choose at once, the Machine transmitter at the
next exchange (R174, R175; log entry 12). -/
def endFrame (port : Port) (s : State) : State :=
  let s := setSending port none s
  match port with
  | .machine => s
  | .station | .feed => beginMessage port s

/-- FRAME_SENT: a port that sends nothing is left as it is (R174; log entry 2). On the Machine port it frees the
transmitter, bytes of the frame still to be exchanged or not (log entry 38). -/
def frameSentEvent (port : Port) (s : State) : State :=
  if (s.port port).sending.isSome then endFrame port s else s

/-- The byte sent at an exchange: the next of the frame being sent, or the fill byte 0 (R175). -/
def exchangeByte (s : State) : Byte :=
  match s.ports.machine.sending with
  | none => 0
  | some x => x.frame.getD x.sent 0

/-- What is left to send after one more byte (R175). -/
def advanceSending (x : Sending) : Option Sending :=
  if x.frame.length ≤ x.sent + 1 then none else some { x with sent := x.sent + 1 }

/-- The sending side of one exchange on the Machine port (R175). -/
def exchange (s : State) : State :=
  let s := beginMessage .machine s
  let out := exchangeByte s
  let s := setSending .machine (s.ports.machine.sending.bind advanceSending) s
  { s with ports := { s.ports with lastOut := out } }

/-- TRANSMIT_BEGIN (R174). -/
def execTransmitBegin (port : Port) (s : State) : Host.Outcome State Fault Refusal :=
  .next (eventEnd (beginMessage port s))

/-- FRAME_SENT (R174). -/
def execFrameSent (port : Port) (s : State) : Host.Outcome State Fault Refusal :=
  .next (eventEnd (frameSentEvent port s))

end Sys2Proof.Machine
end

