-- ==== Sys2Proof/Machine/Receive.lean ====
section
/-! DEFINITION. RECEIVE_BYTE: the receive assembler and its rescan (R169), the Feed addressing (R170),
and the taking of the request a good frame holds (R171, R181). -/

namespace Sys2Proof.Machine

/-! ### Taking a request -/

/-- Takes a request as its own command takes it; an event is no request. -/
def requestOf (i : Instr) (s : State) : State :=
  match i with
  | .lineSet p n f k a b => lineSetRequest p n f k a b s
  | .lineToggle p l => lineToggleRequest p l s
  | .captureSet p a b c => captureSetRequest p a b c s
  | .jobOpen p j k => jobOpenRequest p j k s
  | .jobClose p => jobCloseRequest p s
  | .strokesOn p a q => strokesOnRequest p a q s
  | .strokesOff p => strokesOffRequest p s
  | .timeSet p a b c d e => timeSetRequest p a b c d e s
  | .loadBegin p t => loadBeginRequest p t s
  | .loadData p o d => loadDataRequest p o d s
  | .loadEnd p => loadEndRequest p s
  | .loadAbort p => loadAbortRequest p s
  | .define p k e r => defineRequest p k e r s
  | .undefine p k => undefineRequest p k s
  | .foldSet p r u k t => foldSetRequest p r u k t s
  | .speakerSet p n t => speakerSetRequest p n t s
  | .translateSet p d c => translateSetRequest p d c s
  | .repaint p => repaintRequest p s
  | .viewSet p m o => viewSetRequest p m o s
  | .hold p => holdRequest p s
  | .unhold p => unholdRequest p s
  | .holdLimitSet p m => holdLimitSetRequest p m s
  | .idleSet p m => idleSetRequest p m s
  | .doze p => dozeRequest p s
  | .wake p => wakeRequest p s
  | .wakeCausesClear p c => wakeCausesClearRequest p c s
  | .wakeSet p c n g => wakeSetRequest p c n g s
  | .countersSnap p => countersSnapRequest p s
  | .countersAuto p a => countersAutoRequest p a s
  | .countersRead p => countersReadRequest p s
  | .noticesSet p k => noticesSetRequest p k s
  | .feedSet p a c => feedSetRequest p a c s
  | .feedQuery p f => feedQueryRequest p f s
  | .status p => statusRequest p s
  | .unknownKind p k => unknownKindRequest p k s
  | .reset | .scan _ | .strokeLimitExpiry | .frameCompletion | .silenceTimerExpiry | .blockLimitExpiry
  | .coastLimitPassed | .referenceRebase | .inactivityTimeout | .checkCompletion | .translatorTake
  | .settleTimerExpiry | .holdLimitExpiry _ | .idleTimerExpiry | .gapTimerExpiry | .intervalExpiry
  | .receiveByte _ _ | .transmitBegin _ | .cellDecoded _ | .frameSent _ => s

/-- Judges a request by its kind byte and body: UNKNOWN_KIND, NOT_FROM_PORT, OUT_OF_RANGE for a body not
in shape, or its owner (R171). -/
def takeKind (port : Port) (kind : Byte) (body : List Byte) (s : State) : State :=
  match kindOf kind with
  | none => unknownKindRequest port kind s
  | some k =>
    match parseRequest port k body with
    | some i => requestOf i s
    | none => takeRequest port k (fun s => (s, refuse .outOfRange)) s

/-- A good frame on the Feed port, judged by its address (R170). -/
def takeFeedFrame (kind : Byte) (body : List Byte) (s : State) : State :=
  match body with
  | [] => s
  | address :: fields =>
    if address.toNat = s.ports.feedAddress then takeKind .feed kind fields s
    else if address = 255 && kindOf kind == some .feedQuery then takeKind .feed kind fields s
    else s

/-- A good frame on a port (R169). -/
def takeFrame (port : Port) (kind : Byte) (body : List Byte) (s : State) : State :=
  match port with
  | .machine | .station => takeKind port kind body s
  | .feed => takeFeedFrame kind body s

/-! ### The receive assembler -/

/-- Sets the receive state of a port. -/
def setReceive (port : Port) (r : Receive) (s : State) : State :=
  s.setPort port { s.port port with receive := r }

/-- The length byte (R169): the bytes to judge again, and the part after it. -/
def judgeLength (port : Port) (b : Byte) (s : State) : List Byte × State :=
  if b = 0 then ([], countOne .badFrames (setReceive port .hunt s))
  else if b.toNat ≤ 251 then ([], setReceive port (.body [b]) s)
  else ([b], setReceive port .hunt s)

/-- The frame held is judged at its check byte: `bytes` are its length, kind, body and check (R169). A
frame that fails gives its bytes to judge again. -/
def judgeFrameHeld (port : Port) (bytes : List Byte) (s : State) : List Byte × State :=
  let s := setReceive port .hunt s
  if byteSum bytes = 0 then
    ([], takeFrame port (bytes.getD 1 0) ((bytes.drop 2).dropLast) s)
  else (bytes, countOne .badFrames s)

/-- Judges one byte (R169): the bytes to judge again, and the part after it. -/
def judgeByte (port : Port) (b : Byte) (s : State) : List Byte × State :=
  match (s.port port).receive with
  | .hunt => ([], if b = 0xC3 then setReceive port .length s else s)
  | .length => judgeLength port b s
  | .body held =>
    let bytes := held ++ [b]
    if bytes.length < (bytes.getD 0 0).toNat + 2 then ([], setReceive port (.body bytes) s)
    else judgeFrameHeld port bytes s

/-- Judges bytes in order, those to be judged again first (R169). Each failed frame gives back fewer
bytes than it held with its start code, of which there are at most 254, so the bound is never met. -/
def judgeBytes (port : Port) : Nat → List Byte → State → State
  | 0, _, s => s
  | _ + 1, [], s => s
  | n + 1, b :: rest, s =>
    let (again, s) := judgeByte port b s
    judgeBytes port n (again ++ rest) s

/-- More judgements than one received byte can bring. -/
def rescanBound : Nat := 65536

/-- RECEIVE_BYTE: on the Machine port one exchange, which also sends a byte; a listener whose message the
exchange begins reaches the entries after it before the byte received is judged (R121, R169, R175; log
entries 10 and 11). -/
def receiveEvent (port : Port) (b : Byte) (s : State) : State :=
  let s := match port with
    | .machine => reachAll (exchange s)
    | .station | .feed => s
  judgeBytes port rescanBound [b] s

/-- RECEIVE_BYTE (R169). -/
def execReceiveByte (port : Port) (byte : Byte) (s : State) : Host.Outcome State Fault Refusal :=
  .next (eventEnd (receiveEvent port byte s))

end Sys2Proof.Machine
end

