-- ==== Sys2Proof/Machine/Clock.lean ====
section
/-! DEFINITION. RESET (R147 and the reset values of every chapter), the passing of one tick and the
expiries that are due after it (log entry 1). -/

namespace Sys2Proof.Machine

/-- RESET: every block takes its reset state; the commands still waiting stay (log entry 18). -/
def execReset (s : State) : Host.Outcome State Fault Refusal :=
  .next { State.reset with pending := s.pending }

/-- An age one tick later, stopping at 2^31 (R54, R133, R163). -/
def nextAge (age : Nat) : Nat := min Config.ageCeiling (age + 1)

/-- The part one tick later (R38, R54, R133, R163). -/
def passTick (s : State) : State :=
  { s with
    time := { s.time with tick := s.time.tick + 1, age := nextAge s.time.age },
    counters := { s.counters with intervalAge := nextAge s.counters.intervalAge },
    holds := { s.holds with holds := s.holds.holds.map (fun h => { h with age := nextAge h.age }) } }

/-- A command when its condition holds. -/
def whenDue (due : Bool) (i : Instr) : List Instr := if due then [i] else []

/-- The transmitter of a port is free with something waiting (R174). -/
def transmitDue (s : State) (port : Port) : Bool :=
  (s.port port).sending.isNone && (chooseMessage port s).isSome

/-- The expiries and the part's own acts that are due, in the order they are queued (log entry 1). -/
def dueEvents (s : State) : List Instr :=
  whenDue s.time.frameDue .frameCompletion
    ++ whenDue (strokeLimitDue s) .strokeLimitExpiry
    ++ whenDue (silenceDue s) .silenceTimerExpiry
    ++ whenDue (blockLimitDue s) .blockLimitExpiry
    ++ whenDue (coastDue s) .coastLimitPassed
    ++ whenDue (rebaseDue s) .referenceRebase
    ++ whenDue (inactivityDue s) .inactivityTimeout
    ++ whenDue (timerDue s.trans.settleTimer s.time.tick s.trans.settleDelay) .settleTimerExpiry
    ++ (s.holds.holds.filter (limitReached s.holds.limit)).map (fun h => .holdLimitExpiry h.id)
    ++ whenDue (idleDue s) .idleTimerExpiry
    ++ whenDue (gapDue s) .gapTimerExpiry
    ++ whenDue (intervalDue s) .intervalExpiry
    ++ whenDue (recordToTake s).isSome .translatorTake
    ++ whenDue (transmitDue s .station) (.transmitBegin .station)
    ++ whenDue (transmitDue s .feed) (.transmitBegin .feed)

/-- What an empty queue brings: one tick, and the commands then due (log entry 1). -/
def idleTick (s : State) : State :=
  let s := passTick s
  { s with pending := dueEvents s }

end Sys2Proof.Machine
end

