-- ==== Sys2Proof/Machine/Dispatch.lean ====
section
/-! DEFINITION. One arm per command, each one direct call of its meaning. -/

namespace Sys2Proof.Machine

/-- The effect of a command on everything but the queue. -/
def exec (i : Instr) (s : State) : Host.Outcome State Fault Refusal :=
  match i with
  | .reset => Sys2Proof.Machine.execReset s
  | .scan depths => Sys2Proof.Machine.execScan depths s
  | .strokeLimitExpiry => Sys2Proof.Machine.execStrokeLimitExpiry s
  | .lineSet port line function key press release => Sys2Proof.Machine.execLineSet port line function key press release s
  | .lineToggle port lines => Sys2Proof.Machine.execLineToggle port lines s
  | .captureSet port interval debounce limit => Sys2Proof.Machine.execCaptureSet port interval debounce limit s
  | .jobOpen port job keep => Sys2Proof.Machine.execJobOpen port job keep s
  | .jobClose port => Sys2Proof.Machine.execJobClose port s
  | .strokesOn port start sequence => Sys2Proof.Machine.execStrokesOn port start sequence s
  | .strokesOff port => Sys2Proof.Machine.execStrokesOff port s
  | .frameCompletion => Sys2Proof.Machine.execFrameCompletion s
  | .silenceTimerExpiry => Sys2Proof.Machine.execSilenceTimerExpiry s
  | .blockLimitExpiry => Sys2Proof.Machine.execBlockLimitExpiry s
  | .coastLimitPassed => Sys2Proof.Machine.execCoastLimitPassed s
  | .referenceRebase => Sys2Proof.Machine.execReferenceRebase s
  | .timeSet port rate coast threshold reframe mode => Sys2Proof.Machine.execTimeSet port rate coast threshold reframe mode s
  | .loadBegin port total => Sys2Proof.Machine.execLoadBegin port total s
  | .loadData port offset data => Sys2Proof.Machine.execLoadData port offset data s
  | .loadEnd port => Sys2Proof.Machine.execLoadEnd port s
  | .loadAbort port => Sys2Proof.Machine.execLoadAbort port s
  | .inactivityTimeout => Sys2Proof.Machine.execInactivityTimeout s
  | .checkCompletion => Sys2Proof.Machine.execCheckCompletion s
  | .define port key entry retranslate => Sys2Proof.Machine.execDefine port key entry retranslate s
  | .undefine port key => Sys2Proof.Machine.execUndefine port key s
  | .foldSet port rule inUse key suffix => Sys2Proof.Machine.execFoldSet port rule inUse key suffix s
  | .speakerSet port slot label => Sys2Proof.Machine.execSpeakerSet port slot label s
  | .translatorTake => Sys2Proof.Machine.execTranslatorTake s
  | .settleTimerExpiry => Sys2Proof.Machine.execSettleTimerExpiry s
  | .translateSet port delay chord => Sys2Proof.Machine.execTranslateSet port delay chord s
  | .repaint port => Sys2Proof.Machine.execRepaint port s
  | .viewSet port mode obeys => Sys2Proof.Machine.execViewSet port mode obeys s
  | .hold port => Sys2Proof.Machine.execHold port s
  | .unhold port => Sys2Proof.Machine.execUnhold port s
  | .holdLimitExpiry id => Sys2Proof.Machine.execHoldLimitExpiry id s
  | .holdLimitSet port minutes => Sys2Proof.Machine.execHoldLimitSet port minutes s
  | .idleTimerExpiry => Sys2Proof.Machine.execIdleTimerExpiry s
  | .idleSet port minutes => Sys2Proof.Machine.execIdleSet port minutes s
  | .doze port => Sys2Proof.Machine.execDoze port s
  | .gapTimerExpiry => Sys2Proof.Machine.execGapTimerExpiry s
  | .wake port => Sys2Proof.Machine.execWake port s
  | .wakeCausesClear port clearOnDoze => Sys2Proof.Machine.execWakeCausesClear port clearOnDoze s
  | .wakeSet port chord count gap => Sys2Proof.Machine.execWakeSet port chord count gap s
  | .intervalExpiry => Sys2Proof.Machine.execIntervalExpiry s
  | .countersSnap port => Sys2Proof.Machine.execCountersSnap port s
  | .countersAuto port auto => Sys2Proof.Machine.execCountersAuto port auto s
  | .countersRead port => Sys2Proof.Machine.execCountersRead port s
  | .receiveByte port byte => Sys2Proof.Machine.execReceiveByte port byte s
  | .unknownKind port kind => Sys2Proof.Machine.execUnknownKind port kind s
  | .transmitBegin port => Sys2Proof.Machine.execTransmitBegin port s
  | .noticesSet port kinds => Sys2Proof.Machine.execNoticesSet port kinds s
  | .feedSet port address channel => Sys2Proof.Machine.execFeedSet port address channel s
  | .feedQuery port fields => Sys2Proof.Machine.execFeedQuery port fields s
  | .status port => Sys2Proof.Machine.execStatus port s
  | .cellDecoded digit => Sys2Proof.Machine.execCellDecoded digit s
  | .frameSent port => Sys2Proof.Machine.execFrameSent port s

end Sys2Proof.Machine
end

