-- ==== Sys2Proof/WellFormed.lean ====
section
/-! DEFINITION. Well-formed commands: every operand is one that its field can carry on a port or a line
(R181, R183). The meanings hold for every operand; what lies outside the range a rule allows is clamped
or refused there, and is well formed here. -/

namespace Sys2Proof

/-- A number that fits a field of `width` bytes (R181). -/
def fits (width v : Nat) : Bool := decide (v < 256 ^ width)

/-- An optional number that fits its field (R181). -/
def optFits (width : Nat) (o : Option Nat) : Bool :=
  match o with
  | none => true
  | some v => fits width v

/-- A text whose length fits its length byte (R181). -/
def textFits (t : Text) : Bool := fits 1 t.length

/-- An optional text whose length fits its length byte. -/
def optTextFits (o : Option Text) : Bool :=
  match o with
  | none => true
  | some t => textFits t

/-- A key whose count and codes fit their fields (R181). -/
def keyFits (key : List Nat) : Bool := fits 1 key.length && key.all (fits 3)

/-- An entry whose fields fit the entry record (R183). -/
def entryFits (e : Entry) : Bool :=
  textFits e.text && fits 1 e.condition && optTextFits e.alternate
    && (match e.command with
        | .speaker slot => fits 1 slot
        | .none | .newParagraph | .feedHold | .feedResume => true)

/-- A command whose operands fit their fields. -/
def wellFormed (i : Instr) : Bool :=
  match i with
  | .scan depths => depths.length == 32
  | .lineSet _ line _ key press release =>
    fits 1 line && optFits 1 key && optFits 1 press && optFits 1 release
  | .captureSet _ interval debounce limit => optFits 2 interval && optFits 1 debounce && optFits 2 limit
  | .jobOpen _ job _ => fits 2 job
  | .strokesOn _ _ sequence => optFits 4 sequence
  | .timeSet _ rate coast threshold _ _ => optFits 1 rate && optFits 1 coast && optFits 2 threshold
  | .loadBegin _ total => fits 4 total
  | .loadData _ offset data => fits 4 offset && decide (data.length ≤ 246)
  | .define _ key entry retranslate => keyFits key && entryFits entry && fits 1 retranslate
  | .undefine _ key => keyFits key
  | .foldSet _ rule _ key suffix => fits 1 rule && optFits 1 key && optTextFits suffix
  | .speakerSet _ slot label => fits 1 slot && textFits label
  | .translateSet _ delay chord => optFits 2 delay && optFits 3 chord
  | .holdLimitExpiry id => decide (1 ≤ id) && decide (id ≤ 255)
  | .holdLimitSet _ minutes => fits 1 minutes
  | .idleSet _ minutes => fits 1 minutes
  | .wakeSet _ chord count gap => optFits 3 chord && optFits 1 count && optFits 2 gap
  | .unknownKind _ kind => kind == 0 || decide (34 < kind.toNat)
  | .feedSet _ address channel => optFits 1 address && optFits 1 channel
  | .feedQuery _ fields => decide (fields.length ≤ 249)
  | .reset | .strokeLimitExpiry | .lineToggle _ _ | .jobClose _ | .strokesOff _ | .frameCompletion
  | .silenceTimerExpiry | .blockLimitExpiry | .coastLimitPassed | .referenceRebase | .loadEnd _
  | .loadAbort _ | .inactivityTimeout | .checkCompletion | .translatorTake | .settleTimerExpiry
  | .repaint _ | .viewSet _ _ _ | .hold _ | .unhold _ | .idleTimerExpiry | .doze _ | .gapTimerExpiry
  | .wake _ | .wakeCausesClear _ _ | .intervalExpiry | .countersSnap _ | .countersAuto _ _
  | .countersRead _ | .receiveByte _ _ | .transmitBegin _ | .noticesSet _ _ | .status _ | .cellDecoded _
  | .frameSent _ => true

end Sys2Proof
end

