-- ==== Sys2Proof/Safety.lean ====
section
/-! DEFINITION. What claims are stated in: the state between events, the invariants the rules name for
each block, and the state an answer leaves. -/

namespace Sys2Proof.Machine

/-! ### Between events -/

/-- Between events the passage to DOZE is not due, every listener has reached what it can, and the
attention output is at its level (R121, R151, R175). -/
def Rested (s : State) : Prop :=
  dozeReady s = false ∧ reachAll s = s ∧ s.ports.attention = attentionLevel s

/-- A port that takes a request of a kind: its answer queue has room and the kind is permitted (R171). -/
def Takes (port : Port) (k : RequestKind) (s : State) : Prop :=
  answersFull s port = false ∧ permitted k port = true

/-- The state `t` with a reply at the end of a port's answer queue; on the Machine port this raises the
attention output (R171, R175). -/
def replied (port : Port) (r : Reply) (t : State) : State :=
  let p := t.port port
  { t with ports :=
      { t.ports.set port { p with answers := p.answers ++ [r] } with
        attention := port == .machine || t.ports.attention } }

/-- The state `t` with a request of a kind answered (R172). -/
def answered (port : Port) (k : RequestKind) (status : Status) (fields : List Byte) (t : State) : State :=
  replied port (.answer (kindCode k) status fields) t

/-- The port and the kind of a request; an event has none (R171). -/
def requestKind (i : Instr) : Option (Port × RequestKind) :=
  match i with
  | .lineSet p _ _ _ _ _ => some (p, .lineSet)
  | .lineToggle p _ => some (p, .lineToggle)
  | .captureSet p _ _ _ => some (p, .captureSet)
  | .jobOpen p _ _ => some (p, .jobOpen)
  | .jobClose p => some (p, .jobClose)
  | .strokesOn p _ _ => some (p, .strokesOn)
  | .strokesOff p => some (p, .strokesOff)
  | .timeSet p _ _ _ _ _ => some (p, .timeSet)
  | .loadBegin p _ => some (p, .loadBegin)
  | .loadData p _ _ => some (p, .loadData)
  | .loadEnd p => some (p, .loadEnd)
  | .loadAbort p => some (p, .loadAbort)
  | .define p _ _ _ => some (p, .define)
  | .undefine p _ => some (p, .undefine)
  | .foldSet p _ _ _ _ => some (p, .foldSet)
  | .speakerSet p _ _ => some (p, .speakerSet)
  | .translateSet p _ _ => some (p, .translateSet)
  | .repaint p => some (p, .repaint)
  | .viewSet p _ _ => some (p, .viewSet)
  | .hold p => some (p, .hold)
  | .unhold p => some (p, .unhold)
  | .holdLimitSet p _ => some (p, .holdLimitSet)
  | .idleSet p _ => some (p, .idleSet)
  | .doze p => some (p, .doze)
  | .wake p => some (p, .wake)
  | .wakeCausesClear p _ => some (p, .wakeCausesClear)
  | .wakeSet p _ _ _ => some (p, .wakeSet)
  | .countersSnap p => some (p, .countersSnap)
  | .countersAuto p _ => some (p, .countersAuto)
  | .countersRead p => some (p, .countersRead)
  | .noticesSet p _ => some (p, .noticesSet)
  | .feedSet p _ _ => some (p, .feedSet)
  | .feedQuery p _ => some (p, .feedQuery)
  | .status p => some (p, .status)
  | .reset | .scan _ | .strokeLimitExpiry | .frameCompletion | .silenceTimerExpiry | .blockLimitExpiry
  | .coastLimitPassed | .referenceRebase | .inactivityTimeout | .checkCompletion | .translatorTake
  | .settleTimerExpiry | .holdLimitExpiry _ | .idleTimerExpiry | .gapTimerExpiry | .intervalExpiry
  | .receiveByte _ _ | .unknownKind _ _ | .transmitBegin _ | .cellDecoded _ | .frameSent _ => none

/-- The state `t` with a request dropped on a port (R171). -/
def dropped (port : Port) (t : State) : State :=
  t.setPort port { t.port port with requestsDropped := true }

/-! ### Invariants -/

/-- The ring of the Stroke Log: at most 4,096 records with consecutive sequence numbers up to the head
(R22). -/
def LogRing (g : StrokeLog) : Prop :=
  g.records.length ≤ Config.logCapacity ∧
  g.records.map (fun r => r.seq)
    = (List.range g.records.length).map (fun i => oldestSeq g + BitVec.ofNat 32 i)

/-- A reader: its cursor is a held sequence number or the head, and when it is off it stands at the head
(R29, R31). -/
def ReaderStands (g : StrokeLog) (r : Reader) : Prop :=
  recordsWaiting g r ≤ g.records.length ∧ (r.on = false → r.cursor = g.head)

/-- The balance of a reader: records appended, which the head counts from reset, are the net records
passed, the lost count and the records waiting, modulo 2^32 (R33). -/
def ReaderBalances (g : StrokeLog) (r : Reader) : Prop :=
  g.head = r.passed + r.lost + BitVec.ofNat 32 (recordsWaiting g r)

/-- The Stroke Log with its readers (R22, R29, R31, R33). -/
def LogOk (g : StrokeLog) : Prop :=
  LogRing g ∧ g.translator.on = true ∧
  ∀ name, ReaderStands g (g.reader name) ∧ ReaderBalances g (g.reader name)

/-- The ring of the Text Journal: at most 1,024 entries with consecutive positions up to the head
(R115). -/
def JournalRing (j : Journal) : Prop :=
  j.entries.length ≤ Config.journalCapacity ∧
  j.entries.map (fun e => e.position)
    = (List.range j.entries.length).map (fun i =>
        j.head - BitVec.ofNat 32 j.entries.length + BitVec.ofNat 32 i)

/-- The owed notes of a listener: a RESUMED at most, and a PAUSED for the hold it is paused on (R120,
R123). -/
def NotesStand (l : Listener) : Prop :=
  match l.paused, l.notes with
  | none, [] => True
  | none, [.resumed _] => True
  | some _, [] => True
  | some id, [.paused h _] => h = id
  | some id, [.resumed _, .paused h _] => h = id
  | _, _ => False

/-- A listener: its cursor is a held position or the head; it is paused only when it obeys holds; in OFF
it stands at the head with nothing owed (R120, R121, R123, R130). -/
def ListenerStands (j : Journal) (l : Listener) : Prop :=
  (j.head - l.cursor).toNat ≤ j.entries.length ∧ NotesStand l ∧
  (l.paused.isSome = true → l.obeys = true) ∧
  (l.mode = .off → l.cursor = j.head ∧ l.paused = none ∧ l.repaintPending = false ∧ l.notes = [] ∧ l.run = none)

/-- The Text Journal with its listeners (R115, R119, R120). -/
def JournalOk (j : Journal) : Prop :=
  JournalRing j ∧ j.liveTail.length ≤ Config.tailCapacity ∧ j.settledTail.length ≤ Config.tailCapacity ∧
  ∀ port, ListenerStands j (j.listener port)

/-- A hold as R133 gives its fields: an id of 1 to 255, and an owner unit for COMMAND only. -/
def HoldStands (h : OpenHold) : Prop :=
  1 ≤ h.id ∧ h.id ≤ 255 ∧ (h.owner.isSome = true ↔ h.source = .command)

/-- The Hold Table: at most 8 holds, unique ids, at most one hold of each source but COMMAND (R133,
R136). -/
def HoldsOk (t : HoldTable) : Prop :=
  t.holds.length ≤ Config.holdCapacity ∧ 1 ≤ t.nextId ∧ t.nextId ≤ 255 ∧
  (t.holds.map (fun h => h.id)).Nodup ∧ (∀ h ∈ t.holds, HoldStands h) ∧
  ∀ source, source ≠ .command → t.holds.countP (fun h => h.source == source) ≤ 1

/-- The quality held is the one the table of R55 gives, or COAST in SEARCH with a reference, until the
passing of the coast limit is taken; the reference age stops at 2^31 (R54). -/
def QualityOk (t : TimeFollower) : Prop :=
  t.age ≤ Config.ageCeiling ∧
  (t.quality = judgedQuality t ∨ (t.state = .search ∧ t.present = true ∧ t.quality = .coast))

/-- The tallies: 13 of each, a mark standing with the value 65,535 (R160, R161). -/
def TalliesOk (l : List Tally) : Prop :=
  l.length = 13 ∧ ∀ t ∈ l, t.value ≤ Config.countCeiling ∧ (t.mark = true ↔ t.value = Config.countCeiling)

/-- The Quality Counters (R160, R161). -/
def CountersOk (q : Counters) : Prop := TalliesOk q.running ∧ TalliesOk q.snapshot

/-- The queues of a port: at most 4 answers and 8 notices (R168). -/
def QueuesOk (p : PortState) : Prop :=
  p.answers.length ≤ Config.answerCapacity ∧ p.notices.length ≤ Config.noticeCapacity

/-- The receive assembler: a frame held has a length of 1 to 251 and is not yet complete (R168, R169). -/
def ReceiveOk (r : Receive) : Prop :=
  match r with
  | .hunt | .length => True
  | .body held =>
    1 ≤ (held.getD 0 0).toNat ∧ (held.getD 0 0).toNat ≤ 251 ∧ 1 ≤ held.length ∧
    held.length < (held.getD 0 0).toNat + 2

/-- The three Port Controllers (R168, R169). -/
def PortsOk (p : Ports) : Prop := ∀ port, QueuesOk (p.get port) ∧ ReceiveOk (p.get port).receive

/-- The window and the undo history: the provisional units cover the window, stroke for stroke, in
order; fewer than 8 strokes wait between events; the history holds at most 32 units of 1 to 8 strokes
(R83, R84, R90, R101). -/
def TranslatorOk (t : Translator) : Prop :=
  t.window = (t.provisional.map (fun u => u.strokes)).flatten ∧ t.window.length < Config.windowCapacity ∧
  (∀ u ∈ t.provisional, 1 ≤ u.strokes.length) ∧ t.undo.length ≤ Config.undoCapacity ∧
  ∀ u ∈ t.undo, 1 ≤ u.strokes.length ∧ u.strokes.length ≤ Config.windowCapacity

/-- The number of real slots whose keys have a key as a proper prefix (R76). -/
def extensionsOf (slots : List JobSlot) (key : List Chord) : Nat :=
  slots.countP (fun x => x.entry.isSome && decide (key.length < x.key.length) && key.isPrefixOf x.key)

/-- The Job table: at most 1,024 slots in use, no key twice, each count the number of real extensions, no
prefix-only slot with a count of 0, every proper prefix of a real slot's key in use (R76). -/
def JobTableOk (slots : List JobSlot) : Prop :=
  slots.length ≤ Config.jobCapacity ∧ (slots.map (fun x => x.key)).Nodup ∧
  (∀ x ∈ slots, 1 ≤ x.key.length ∧ x.key.length ≤ 8) ∧
  (∀ x ∈ slots, x.extensions = extensionsOf slots x.key) ∧
  (∀ x ∈ slots, x.entry = none → 1 ≤ x.extensions) ∧
  ∀ x ∈ slots, x.entry.isSome = true → ∀ p ∈ properPrefixes x.key, (jobSlot slots p).isSome = true

/-- The load: the claim is held in LOADING and CHECKING alone, the inactivity timer runs in LOADING alone,
the header stands in VALID alone, and what is received lies within the declared total (R59, R65). -/
def LoadOk (d : Dictionary) : Prop :=
  (d.claim = .none ↔ loadPaused d = false) ∧ (d.inactivity.isSome = true ↔ d.layer = .loading) ∧
  (d.header.isSome = true ↔ d.layer = .valid) ∧ d.received ≤ d.total ∧ d.total ≤ Config.dictionaryBytes

/-- Power Control: settle-all stands in SETTLING alone, the doze reason is none in READY alone, the idle
timer runs in READY alone, and only with an idle delay (R107, R147, R148). -/
def PowerOk (s : State) : Prop :=
  (s.trans.settleAll = true ↔ s.power.part = .settling) ∧
  (s.power.reason = .none ↔ s.power.part = .ready) ∧
  (s.power.idleTimer.isSome = true ↔ s.power.part = .ready ∧ s.power.idleDelay ≠ 0)

/-- The Wake Detector: the count is below N, the gap timer and held over stand for a run under way, never
both, and outside DOZE there is no run (R151, R153, R155, R156). -/
def WakeOk (s : State) : Prop :=
  2 ≤ s.wake.needed ∧ s.wake.needed ≤ 8 ∧ s.wake.count < s.wake.needed ∧
  ((s.wake.gapTimer = true ∨ s.wake.heldOver = true) → 1 ≤ s.wake.count) ∧
  (s.wake.gapTimer = true → s.wake.heldOver = false) ∧
  (s.power.part ≠ .doze → s.wake.count = 0)

/-- The Stroke Assembler: IDLE when no steno key is pressed; in OPEN the chord holds every key pressed
(R10, R12). -/
def AssemblerOk (c : Capture) : Prop :=
  (c.assembler.state = .idle ↔ pressedKeys c.lines = 0) ∧
  (c.assembler.state = .gathering → pressedKeys c.lines &&& ~~~c.assembler.chord = 0)

/-! ### A change of view -/

/-- What a change of obedience of a port's listener leaves of `s`, `becomes` being told the state, the reach not
yet judged (R130, R131). Obedience given to a listener that has passed an open hold pauses it on the one opened
earliest, its cursor where it stands; in OFF, or with none passed, the setting alone changes. Obedience taken
from a paused listener ends its pause, its owed PAUSED removed or a RESUMED added, and starts a run when
repaint-pending is set, REPAINTS counting one; taken from one not paused the setting alone changes. A pause keeps
a run under way: log entry 28. -/
def ObedienceChanged (becomes : State → Prop) (port : Port) (obeys : Bool) (s : State) : Prop :=
  let j := s.journal
  let l := j.listener port
  let set (x : Listener) : State := { s with journal := j.setListener port x }
  let passed : Option OpenHold :=
    s.holds.holds.find? (fun x => decide ((j.head - l.cursor).toNat ≤ (x.position - l.cursor).toNat))
  let changed : Listener := { l with obeys := obeys }
  (obeys = l.obeys → becomes s) ∧
  (obeys = true → l.obeys = false →
    (l.mode = .off ∨ passed = none → becomes (set changed)) ∧
    (∀ h, l.mode ≠ .off → passed = some h →
      becomes (set { changed with paused := some h.id, notes := l.notes ++ [.paused h.id h.source] }))) ∧
  (obeys = false → l.obeys = true →
    (l.paused = none → becomes (set changed)) ∧
    (∀ id, l.paused = some id →
      let ended : Listener :=
        { changed with
          paused := none,
          notes := if l.notes.any (isPausedNote id) then l.notes.filter (fun n => !isPausedNote id n)
                   else l.notes ++ [.resumed id] }
      (l.repaintPending = false ∨ l.mode = .off → becomes (set ended)) ∧
      (l.repaintPending = true → l.mode ≠ .off →
        becomes (countOne .repaints (set { ended with
          cursor := j.head, repaintPending := false,
          run := some {
            settled := decide (l.mode = .settled),
            copy := if l.mode = .settled then j.settledTail else j.liveTail,
            viewLength := if l.mode = .settled then j.settledLength else j.liveLength,
            position := j.head, next := 0 } })))))

/-- What a change of mode of a port's listener leaves of `s`, `becomes` being told the state, the reach not yet
judged (R127, R130). OFF clears the listener and moves it to the head. Another mode sets repaint-pending of a
paused listener, and otherwise calls for a repaint, which replaces any run under way: it pauses a listener that
obeys holds on the hold opened earliest, when one is open, the run under way being dropped (log entry 28), and
else starts a run, REPAINTS counting one. -/
def ModeChanged (becomes : State → Prop) (port : Port) (mode : ViewMode) (s : State) : Prop :=
  let j := s.journal
  let l := j.listener port
  let set (x : Listener) : State := { s with journal := j.setListener port x }
  (mode = l.mode → becomes s) ∧
  (mode = .off → l.mode ≠ .off →
    becomes (set { l with
      mode := .off, cursor := j.head, paused := none, repaintPending := false, notes := [], run := none })) ∧
  (mode ≠ .off → mode ≠ l.mode →
    let moved : Listener := { l with mode := mode }
    (l.paused ≠ none → becomes (set { moved with repaintPending := true })) ∧
    (l.paused = none →
      (∀ h rest, l.obeys = true → s.holds.holds = h :: rest →
        becomes (set { moved with
          paused := some h.id, notes := l.notes ++ [.paused h.id h.source], repaintPending := true,
          run := none })) ∧
      (l.obeys = false ∨ s.holds.holds = [] →
        becomes (countOne .repaints (set { moved with
          cursor := j.head, repaintPending := false,
          run := some {
            settled := decide (mode = .settled),
            copy := if mode = .settled then j.settledTail else j.liveTail,
            viewLength := if mode = .settled then j.settledLength else j.liveLength,
            position := j.head, next := 0 } })))))

/-! ### Holds -/

/-- What an open of a hold that is not refused leaves, `becomes` being told its id and the state (R135, R136,
R144): the first id from the next id on, wrapping from 255 to 1, that no open hold carries, found within 8
trials; a HOLD entry at the head of the journal; a place at the end of the opening order; and a HOLD notice (its
bytes: log entry 13; its place after the entry's notices: log entry 21). -/
def HoldOpened (becomes : Nat → State → Prop) (source : HoldSource) (owner : Option Word) (s : State) : Prop :=
  let open_ := s.holds.holds
  let idAt (d : Nat) : Nat := (s.holds.nextId - 1 + d) % 255 + 1
  ∃ k, k < 8 ∧ (∀ h ∈ open_, h.id ≠ idAt k) ∧ (∀ d, d < k → ∃ h ∈ open_, h.id = idAt d) ∧
    let h : OpenHold :=
      { id := idAt k, source := source, owner := owner, position := s.journal.head,
        openTick := s.time.tick, age := 0 }
    let notice : Notice :=
      { kind := .hold,
        fields := byte 0 ++ byte (idAt k) ++ byte (sourceCode source) ++ [0] ++ num 4 s.journal.head.toNat
          ++ byte (open_.length + 1) ++ stampFields (stampNow s) }
    let entered := placeInJournal (.hold (idAt k) source) s
    becomes (idAt k) (reachAll (raiseNotice notice
      { entered with holds :=
          { s.holds with holds := open_ ++ [h], nextId := if idAt k = 255 then 1 else idAt k + 1 } }))

/-- What a close of the open hold `h` leaves, `becomes` being told the state (R141, R144). The hold leaves the
table, its RELEASE entry stands last in the journal, and a HOLD notice is raised (its bytes: log entry 13). Each
listener paused on the hold ends its pause, its owed PAUSED removed or a RESUMED added (R123). It is then paused
on the hold opened earliest of those it has passed, with repaint-pending kept; or, with none passed and
repaint-pending set, a repaint is called for, which pauses it on the hold opened earliest when it obeys holds
and one is open and else starts a run, REPAINTS counting one; or it goes on from its cursor (R125, R127). Every
other listener stays as it is, and the listeners then reach what they can. A pause keeps a run under way: log
entry 28. The HOLD notice comes after the notices of the RELEASE entry and of the repaints: log entry 21. -/
def HoldClosed (becomes : State → Prop) (h : OpenHold) (cause : Nat) (s : State) : Prop :=
  let rest := s.holds.holds.filter (fun x => x.id != h.id)
  let notice : Notice :=
    { kind := .hold,
      fields := byte 1 ++ byte h.id ++ byte (sourceCode h.source) ++ (1 :: byte cause)
        ++ num 4 s.journal.head.toNat ++ byte rest.length ++ stampFields (stampNow s) }
  let released := appendEntry (.release h.id) s
  let j := released.journal
  let closed : State := { released with holds := { s.holds with holds := rest } }
  let ended (l : Listener) : Listener :=
    { l with
      paused := none,
      notes := if l.notes.any (isPausedNote h.id) then l.notes.filter (fun n => !isPausedNote h.id n)
               else l.notes ++ [.resumed h.id] }
  let pausedOn (x : OpenHold) (l : Listener) : Listener :=
    { l with paused := some x.id, notes := l.notes ++ [.paused x.id x.source] }
  let passed (l : Listener) : Option OpenHold :=
    rest.find? (fun x => decide ((j.head - l.cursor).toNat ≤ (x.position - l.cursor).toNat))
  let called (l : Listener) : Prop :=
    l.paused = some h.id ∧ passed l = none ∧ l.repaintPending = true ∧ l.mode ≠ .off
  let runs (port : Port) : Prop :=
    called (j.listener port) ∧ ((j.listener port).obeys = false ∨ rest = [])
  ((∀ port, (released.listener port).paused ≠ some h.id) → becomes (raiseNotice notice (reachAll closed))) ∧
  ∃ u x y z : State, becomes (reachAll u) ∧
    (∀ port : Port,
      let l := j.listener port
      let l' := u.journal.listener port
      (l.paused ≠ some h.id → l' = l) ∧
      (∀ other, l.paused = some h.id → passed l = some other → l' = pausedOn other (ended l)) ∧
      (l.paused = some h.id → passed l = none → l.repaintPending = false ∨ l.mode = .off →
        l' = ended l) ∧
      (∀ earliest more, called l → l.obeys = true → rest = earliest :: more →
        l' = { pausedOn earliest (ended l) with repaintPending := true }) ∧
      (runs port → l' = { ended l with
        cursor := j.head, repaintPending := false,
        run := some {
          settled := decide (l.mode = .settled),
          copy := if l.mode = .settled then j.settledTail else j.liveTail,
          viewLength := if l.mode = .settled then j.settledLength else j.liveLength,
          position := j.head, next := 0 } })) ∧
    (runs .machine → x = countOne .repaints closed) ∧ (¬runs .machine → x = closed) ∧
    (runs .station → y = countOne .repaints x) ∧ (¬runs .station → y = x) ∧
    (runs .feed → z = countOne .repaints y) ∧ (¬runs .feed → z = y) ∧
    u.counters = z.counters ∧ u.ports = (raiseNotice notice z).ports ∧
    u = { closed with
      journal := { j with machine := u.journal.machine, station := u.journal.station, feed := u.journal.feed },
      counters := u.counters, ports := u.ports } ∧
    j.head = s.journal.head + 1 ∧
    j.entries.getLast? = some { position := s.journal.head, body := .release h.id } ∧
    (∀ port, ((reachAll u).journal.listener port).paused ≠ some h.id) ∧
    closed = { s with
      journal := j, holds := { s.holds with holds := rest }, counters := released.counters,
      ports := released.ports }

/-- What the close of open holds, one after another in the order of the list, leaves of `s`, `becomes` being told
the state (R143). -/
def HoldsClosed (becomes : State → Prop) (cause : Nat) : List OpenHold → State → Prop
  | [], s => becomes s
  | h :: more, s => HoldClosed (HoldsClosed becomes cause more) h cause s

/-- What the HOLD group makes of `s`, `u` being the state after it, by whether a HOLD line was pressed before
and is pressed after (R20, R21, R139). From none to some it asks for a LINE hold: granted unless 8 holds are
open and none is the line's. From some to none it closes the LINE hold, if it was granted and is still open,
with cause OWNER, and takes the grant back. -/
def HoldGroupMoved (before after : Bool) (u s : State) : Prop :=
  let granted (b : Bool) (t : State) : State := { t with capture := { t.capture with holdGranted := b } }
  (before = after → u = s) ∧
  (before = false → after = true →
    (∀ h ∈ s.holds.holds, h.source = .line → u = granted true s) ∧
    ((∀ h ∈ s.holds.holds, h.source ≠ .line) →
      (s.holds.holds.length = 8 → u = granted false s) ∧
      (s.holds.holds.length < 8 → HoldOpened (fun _ t => u = granted true t) .line none s))) ∧
  (before = true → after = false →
    (s.capture.holdGranted = false → u = s) ∧
    (s.capture.holdGranted = true →
      ((∀ h ∈ s.holds.holds, h.source ≠ .line) → u = granted false s) ∧
      (∀ h ∈ s.holds.holds, h.source = .line → HoldClosed (fun t => u = granted false t) h 0 s)))

/-! ### Frames of the time line -/

/-- The newest 8 of a list (R39, R47). -/
def lastEight {α : Type} (l : List α) : List α := l.drop (l.length - 8)

/-- What the block check keeps of a completed frame: its sync, its position and its part of the block sum
(R37, R47). -/
def frameSummary (f : TimeFrame) : FrameSummary :=
  { goodSync := decide (f.wrong = 0), position := f.position,
    sum := f.hours + f.minutes + f.seconds + f.number + f.take / 256 + f.take % 256 }

/-- What the sync judgement and the block judgement make of the frame that completes in `s` with fewer than 3
sync errors in a row, `went` being told the state in which the frame is then judged for acceptance, and `lost`
the state in which a check has lost the lock (R39, steps 1 and 2; R41, R43 to R48, R55). In FRAME_ONLY nothing
is judged for blocks. In FRAME the window counts the frame, up to 24, and at 24 the alternate search begins; the
block run goes from a position 0 in order and ends at any other frame; position 0 at run 7 declares BLOCK, and
the frame is checked as the first. In BLOCK the expected position advances, and a frame expected at position 0
is checked: the check passes when the frame has good sync and carries position 0, the 8 frames before it had
good sync and carried 0 to 7, and its block check is their sum; otherwise BLOCK_ERRORS counts one. The result
is placed in the history of at most 8. With 4 failures there, the part goes back to FRAME with a window of one
frame and a new block limit, or, with reframe on check, loses the lock. A change of state under a reference
changes the quality at once, with a TIME notice stamped against the reference before the frame: log entry 39;
its bytes are log entry 13. The quality of the stamp of a SATURATE notice, at a declaration and at each exit from
BLOCK, is log entry 37; that the cells kept for the search outlive the loss of lock is log entry 7. -/
def BlockJudged (went lost : State → Prop) (s : State) : Prop :=
  let f := decodeFrame s.time.cells
  let l := s.time.lastFrames
  let good : Prop := f.wrong = 0
  let run := if f.wrong = 0 then 0 else s.time.syncRun + 1
  let synced :=
    if f.wrong = 0 then s else countEvents .syncErrors (if s.time.mode = .pattern then 1 else f.wrong) s
  let pass : Bool := decide (good ∧ f.position = 0 ∧ l.map (fun x => x.position) = List.range 8 ∧
    (∀ x ∈ l, x.goodSync = true) ∧ f.check = (l.map (fun x => x.sum)).sum % 256)
  let checked := if pass then synced else countOne .blockErrors synced
  let judged : TimeFollower :=
    { s.time with
      frameDue := false, lockFrame := false, syncRun := run, lastFrames := lastEight (l ++ [frameSummary f]) }
  let quality (q : Quality) : Quality := if s.time.present = true then q else .free
  let changed (q : Quality) (u : State) : State :=
    if s.time.present = true then
      raiseNotice
        { kind := .time,
          fields := byte (qualityCode q) ++ byte (followerCode u.time.state) ++ num 4 (stampNow s).ms }
        { u with time := { u.time with quality := q } }
    else u
  run < 3 →
  (s.time.state = .frameOnly → s.time.quality = quality .unchecked → went { synced with time := judged }) ∧
  (s.time.state = .frame → s.time.quality = quality .unchecked →
    (¬(good ∧ f.position = 0 ∧ s.time.blockRun = some 7) →
      let window := if s.time.lockFrame = true then s.time.window else min 24 (s.time.window + 1)
      went { synced with time := { judged with
        window := window,
        blockRun :=
          (if good ∧ f.position = 0 then some 0
           else match s.time.blockRun with
             | none => none
             | some r => if good ∧ f.position = r + 1 then some (r + 1) else none),
        alternate := if window = 24 ∧ s.time.window ≠ 24 then .searching none else s.time.alternate } }) ∧
    (good → f.position = 0 → s.time.blockRun = some 7 →
      went (changed .locked
        { checked with time := { judged with
            state := .block, expected := 1, history := [pass], alternate := .inactive, blockLimit := none } }))) ∧
  (s.time.state = .block → s.time.quality = quality .locked →
    (s.time.expected ≠ 0 →
      went { synced with time := { judged with expected := (s.time.expected + 1) % 8 } }) ∧
    (s.time.expected = 0 →
      let history := lastEight (s.time.history ++ [pass])
      (history.count false < 4 →
        went { checked with time := { judged with expected := 1, history := history } }) ∧
      (4 ≤ history.count false → s.time.reframe = false →
        went (changed .unchecked
          { checked with time := { judged with
              state := .frame, expected := 1, history := [], window := 1,
              blockRun := if good ∧ f.position = 0 then some 0 else none,
              blockLimit := some s.time.frameTick } })) ∧
      (4 ≤ history.count false → s.time.reframe = true →
        lost (changed (if s.time.age ≤ s.time.coast * 4096 then .coast else .free)
          { checked with time := { s.time with
              state := .search, syncRun := 0, window := 0, blockRun := none, history := [], expected := 1,
              alternate := .inactive, blockLimit := none, step := none, pendingTake := none,
              frameDue := false, lockFrame := false, lastFrames := [] } }))))

/-- What an accepted frame makes of `v`, the state its block judgement left, `becomes` being told the state
(R39, steps 4 and 5; R50 to R53, R55). The first one gives the reference, and the quality of the follower's
state with a TIME notice. Under a reference, a frame that agrees with it moves it; one that agrees with nothing
becomes the step candidate; one that agrees with the candidate alone takes the step, with a TIMESTEP record and
TIME_STEPS. Then the take word: carried by two accepted frames in a row it comes in force with a TAKE record,
stamped against the reference the frame left. The bytes of the TIME notice are log entry 13, the place of the
TIMESTEP record before the move of the reference log entry 37. -/
def FrameAccepted (becomes : State → Prop) (f : TimeFrame) (v : State) : Prop :=
  let t := v.time
  let d := f.hours * 3600000 + f.minutes * 60000 + f.seconds * 1000 + (f.number * 1000 + t.rate / 2) / t.rate
  let tick := t.frameTick
  let after (ms : Nat) (since : Tick) : Nat := (ms + ((tick - since).toNat * 1000 + 2048) / 4096) % 86400000
  let e := after t.tref t.lref
  let near (a b : Nat) : Prop := (normalised ((a : Int) - (b : Int))).natAbs ≤ t.threshold
  let q : Quality := if t.state = .block then .locked else .unchecked
  let moved : TimeFollower := { t with tref := d, lref := tick, present := true, age := 0, step := none }
  let held : State := { v with time := { t with step := some (d, tick) } }
  let worded (x : State) : Prop :=
    (¬(t.pendingTake = some f.take ∧ t.take ≠ some f.take) →
      becomes { x with time := { x.time with pendingTake := some f.take } }) ∧
    (t.pendingTake = some f.take → t.take ≠ some f.take →
      becomes (appendRecord (.take t.take f.take (stampNow x)) { x with time := { x.time with take := some f.take } }))
  (t.present = false → t.quality = .free →
    worded (raiseNotice
      { kind := .time, fields := byte (qualityCode q) ++ byte (followerCode t.state) ++ num 4 (stampMs moved t.tick) }
      { v with time := { moved with quality := q } })) ∧
  (t.present = true → t.quality = q →
    (near d e → worded { v with time := moved }) ∧
    (¬near d e →
      (t.step = none → worded held) ∧
      (∀ (dc : Nat) (lc : Tick), t.step = some (dc, lc) →
        (¬near d (after dc lc) → worded held) ∧
        (near d (after dc lc) →
          worded (countOne .timeSteps { appendRecord (.timestep e d q) v with time := moved })))))

/-! ### Scans and strokes -/

/-- The wake of a part in DOZE, from `s`, by a cause (R156): the part is READY, the Wake Detector has no run,
a WAKE record stands at the end of the log, the cause is in the set, the idle timer starts and the POWER
notice carries the cause. -/
def woken (cause : WakeCause) (s : State) : State :=
  let appended := appendRecord (.wake cause (stampNow s))
    { s with
      power := { s.power with part := .ready, reason := .none },
      wake := { s.wake with count := 0, gapTimer := false, heldOver := false } }
  let causes : WakeCauses :=
    { pattern := s.power.causes.pattern || cause == .pattern,
      machine := s.power.causes.machine || cause == .machine,
      station := s.power.causes.station || cause == .station }
  raiseNotice { kind := .power, fields := [0, 0, 1] ++ byte (wakeCauseCode cause) }
    { appended with power :=
        { s.power with
          part := .ready, reason := .none, causes := causes,
          idleTimer := if s.power.idleDelay = 0 then none else some s.time.tick } }

/-- The part after a scan has judged its lines and the MARK presses are reported: one MARK record for each
line of function MARK that became pressed, and none in DOZE (R5, R19). -/
def marksReported (depths : List Byte) (s : State) : State :=
  let after := scanLines s.capture.debounce s.capture.lines depths
  let lined : State := { s with capture := { s.capture with lines := after } }
  let presses := (List.zip s.capture.lines after).filter
    (fun x => x.2.role == .mark && x.2.pressed && !x.1.pressed)
  if s.power.part = .doze then lined
  else presses.foldl (fun t _ => appendRecord (.mark (stampNow s)) t) lined

/-- The part after a scan has reported the HOLD group too, before the steno keys (R5). What the report makes
of it is HoldGroupMoved. -/
def holdReported (depths : List Byte) (s : State) : State :=
  holdGroup (holdPressed s.capture.lines)
    (holdPressed (scanLines s.capture.debounce s.capture.lines depths)) (marksReported depths s)

/-- What the Wake Detector makes of the closed stroke of `a`, whose gathering `closed` has ended, `becomes`
being told the state (R153 to R155). -/
def WakeJudged (becomes : State → Prop) (a : Assembler) (closed : State) : Prop :=
  let w := closed.wake
  let beyond (since now : Tick) : Prop := w.gap * 4096 ≤ (now - since).toNat * 1000
  (a.chord ≠ w.chord →
    becomes (countEvents .bumps (w.count + 1)
      { closed with wake := { w with count := 0, gapTimer := false, heldOver := false } })) ∧
  (a.chord = w.chord →
    let within : Prop := w.heldOver = true ∨ ¬beyond w.lastMatch a.openTick
    ∀ (m : Nat) (judged : State),
      (w.count = 0 ∧ m = 1 ∧ judged = closed) ∨
      (w.count ≠ 0 ∧ within ∧ m = w.count + 1 ∧ judged = closed) ∨
      (w.count ≠ 0 ∧ ¬within ∧ m = 1 ∧ judged = countEvents .bumps w.count closed) →
      (w.needed ≤ m → becomes (woken .pattern judged)) ∧
      (m < w.needed → ¬beyond a.openTick closed.time.tick →
        becomes { judged with wake :=
          { w with count := m, lastMatch := a.openTick, gapTimer := true, heldOver := false } }) ∧
      (m < w.needed → beyond a.openTick closed.time.tick →
        becomes (countEvents .bumps m { judged with wake :=
          { w with count := 0, lastMatch := a.openTick, gapTimer := false, heldOver := false } })))

/-- Where the closed stroke of `a` goes, with its duration and held flag, `becomes` being told the state (R13,
R14, R17, R18): for LOG a STROKE record and STROKES; for WAKE the Wake Detector in DOZE, and nothing when the
part has left DOZE. -/
def StrokeHanded (becomes : State → Prop) (a : Assembler) (duration : Nat) (held : Bool) (closed : State) :
    Prop :=
  (a.destination = .log → ∀ stamp : Stamp, a.stamp = some stamp →
    becomes (countOne .strokes (appendRecord (.stroke a.chord stamp duration held) closed))) ∧
  (a.destination = .wake →
    (closed.power.part ≠ .doze → becomes closed) ∧
    (closed.power.part = .doze → WakeJudged becomes a closed))

/-- What a request that gives the lines as `after` leaves, `becomes` being told the state before its answer
(R7, R13, R16, R21): the release of the HOLD group is reported, and then, when it released the last pressed
steno key, an OPEN stroke closes at the request's tick and a DRAIN ends (the order: log entry 15). -/
def LinesReplaced (becomes : State → Prop) (after : List Line) (s : State) : Prop :=
  let before := s.capture.lines
  let a := s.capture.assembler
  let lined : State := { s with capture := { s.capture with lines := after } }
  let u := holdGroup (holdPressed before) (holdPressed after) lined
  let last : Prop := pressedKeys before ≠ 0 ∧ pressedKeys after = 0
  let assembled (x : Assembler) : State := { u with capture := { u.capture with assembler := x } }
  (HoldsOk s.holds → HoldGroupMoved (holdPressed before) (holdPressed after) u lined) ∧
  (¬last ∨ a.state = .idle → becomes u) ∧
  (last → a.state = .drain → becomes (assembled { a with state := .idle })) ∧
  (last → a.state = .gathering →
    StrokeHanded becomes a (((s.time.tick - a.openTick).toNat * 1000 + 2048) / 4096) false
      (assembled { a with state := .idle, chord := 0 }))

/-! ### The Translator -/

/-- The FIX entries of the units of one settlement, in order, with UNTRANSLATES for each RAW unit (R103). -/
def fixesAppended (units : List TextUnit) (s : State) : State :=
  units.foldl
    (fun x u =>
      let y := appendEntry
        (.fix u.id u.text ((u.strokes.map (fun w => w.stamp)).head?.getD { ms := 0, quality := .free })) x
      if u.kind = .raw then countOne .untranslates y else y) s

/-- What settled units do to the Hold Table, one after another in text order, `becomes` being told the state they
leave of `s` (R104, R140). A FEED_HOLD unit opens a COMMAND hold, whose id its unit keeps in the undo history,
unless 8 are open; a FEED_RESUME unit closes the newest COMMAND hold, if one is open; no other unit acts. -/
def FeedControlsActed (becomes : State → Prop) : List TextUnit → State → Prop
  | [], s => becomes s
  | u :: more, s =>
    let next : State → Prop := FeedControlsActed becomes more
    (isFeedControl u = false → next s) ∧
    (unitCommand u = .feedHold →
      (s.holds.holds.length = 8 → next s) ∧
      (s.holds.holds.length < 8 →
        HoldOpened
          (fun id t => next { t with trans := { t.trans with
            undo := t.trans.undo.map (fun x => if x.id = u.id then { x with holdId := some id } else x) } })
          .command (some u.id) s)) ∧
    (unitCommand u = .feedResume →
      ((∀ h ∈ s.holds.holds, h.source ≠ .command) → next s) ∧
      (∀ (older : List OpenHold) (h : OpenHold) (newer : List OpenHold),
        s.holds.holds = older ++ h :: newer → h.source = .command → (∀ x ∈ newer, x.source ≠ .command) →
        HoldClosed next h 1 s))

/-- What the units of one settlement do to the Hold Table after their FIX entries, which left `fixed`, `after`
being the Translator then and `becomes` being told the state (R104, R140). -/
def FeedControlActed (becomes : State → Prop) (units : List TextUnit) (fixed : State) (after : Translator) :
    Prop :=
  let s : State := { fixed with trans := after }
  ((∀ u ∈ units, isFeedControl u = false) → becomes s) ∧
  (HoldsOk fixed.holds → FeedControlsActed becomes units s)

/-- What a recomputation of the window of `v` leaves, `becomes` being told the state and `restart` telling
whether the settle timer is then restarted (R99 to R106). The units are the segmentation of the window. Those
of the common run keep their ids; the texts beyond it are taken back by one TAKE, and the new units put in
order under the next ids. Then `m` units are settled from the front: all of them with settle-all set or a
FEED_HOLD or FEED_RESUME unit last, otherwise the fewest after which the window is empty, or shorter than 8
strokes and extendable. Each is a FIX entry, a place in the undo history and, for a RAW unit, UNTRANSLATES.
Last, the units settled act on the Hold Table. -/
def Recomputed (becomes : State → Prop) (restart : Bool) (v : State) : Prop :=
  let tr := v.trans
  let old := tr.provisional
  let new := segment v.dict tr.base tr.window
  let c := commonRun old new
  let back := ((old.drop c).map (fun u => u.text.length)).sum
  let idAt (k : Nat) : Word := Nat.repeat (fun id => if id = 4294967295 then 1 else id + 1) k tr.idCounter
  let fresh := (new.drop c).mapIdx (fun k u => { u with id := idAt (k + 1) })
  let kept := List.zipWith (fun o n => { n with id := o.id, holdId := o.holdId }) (old.take c) (new.take c)
  let units := kept ++ fresh
  let took : State := if back = 0 then v else appendEntry (.take back) v
  let put : State := fresh.foldl
    (fun x u => appendEntry (.put u.id (((u.strokes.map (fun w => w.seq)).head?).getD 0) u.text) x) took
  let left (m : Nat) : List WindowStroke :=
    tr.window.drop ((units.take m).map (fun u => u.strokes.length)).sum
  let stops (m : Nat) : Prop :=
    left m = [] ∨ ((left m).length < 8 ∧ (lookup v.dict ((left m).map (fun w => w.chord))).extendable = true)
  let all : Prop := tr.settleAll = true ∨ ∃ u, units.getLast? = some u ∧ isFeedControl u = true
  tr.undo.length ≤ 32 → ∃ m, m ≤ units.length ∧ (all → m = units.length) ∧
    (¬all → stops m ∧ ∀ k, k < m → ¬stops k) ∧
    let settled := units.take m
    let fixed : State := fixesAppended settled put
    let after : Translator :=
      { tr with
        recomputePending := false, window := left m, provisional := units.drop m,
        base := ((settled.map (fun u => u.after)).getLast?).getD tr.base,
        undo := (tr.undo ++ settled).drop (tr.undo.length + settled.length - 32),
        idCounter := idAt fresh.length,
        settleTimer :=
          if left m = [] then none
          else if restart = true then (if tr.settleDelay = 0 then none else some v.time.tick)
          else tr.settleTimer }
    FeedControlActed becomes settled fixed after

/-- What the settlement of every unit of `v` leaves, `becomes` being told the state (R103 to R105): one FIX
entry each in order, the base state after the last, the newest 32 in the undo history, UNTRANSLATES one for
each RAW unit, the window and the list empty, the timer stopped, and last what FEED_HOLD and FEED_RESUME units
do to the Hold Table. -/
def EverySettled (becomes : State → Prop) (v : State) : Prop :=
  let tr := v.trans
  tr.undo.length ≤ 32 →
  FeedControlActed becomes tr.provisional (fixesAppended tr.provisional v)
    { tr with
      window := [], provisional := [], settleTimer := none,
      base := ((tr.provisional.map (fun u => u.after)).getLast?).getD tr.base,
      undo := (tr.undo ++ tr.provisional).drop (tr.undo.length + tr.provisional.length - 32) }

/-- What the handling of a record makes of `v`, the Translator having taken it and made what stood before,
`becomes` being told the state (R85, R87 to R89, R108 to R110). WAKE, TIMESTEP and TAKE records are passed
over, a MARK record appends its entry, and a JOB record settles every unit, empties the undo history, sets the
base state and appends its entry. A stroke joins the window, which is recomputed. A delete drops the newest
stroke of the window and recomputes it, or else reopens the newest settled unit, with an UNFIX, the base state
before it, the close of the hold it owns, and all but its last stroke in the window, or else is dead. -/
def RecordHandled (becomes : State → Prop) (r : LogRecord) (v : State) : Prop :=
  let tr := v.trans
  let silent : Prop :=
    (∃ c stamp, r.body = .wake c stamp) ∨ (∃ old new q, r.body = .timestep old new q) ∨
    (∃ old new stamp, r.body = .take old new stamp)
  (silent → becomes v) ∧
  (∀ stamp, r.body = .mark stamp → becomes (appendEntry (.mark r.seq stamp.ms) v)) ∧
  (∀ opened closed keep stamp, r.body = .job opened closed keep stamp →
    EverySettled
      (fun t => becomes (appendEntry (.job closed opened)
        { t with trans := { t.trans with
            undo := [],
            base := { line := true, cap := true, low := false, att := false, num := false, glu := false } } })) v) ∧
  (∀ chord stamp duration held, r.body = .stroke chord stamp duration held →
    (chord ≠ tr.deleteChord →
      Recomputed becomes true
        { v with trans := { tr with window := tr.window ++ [{ chord := chord, seq := r.seq, stamp := stamp }] } }) ∧
    (chord = tr.deleteChord →
      let counted := countOne .deletes v
      (tr.window ≠ [] →
        Recomputed becomes true { counted with trans := { tr with window := tr.window.dropLast } }) ∧
      (∀ (rest : List TextUnit) (u : TextUnit), tr.window = [] → tr.undo = rest ++ [u] →
        let opened : State := closeOwned u.holdId u.id (appendEntry (.unfix u.id u.text.length) counted)
        (u.strokes.length ≤ 1 → becomes { opened with trans := { tr with undo := rest, base := u.before } }) ∧
        (2 ≤ u.strokes.length →
          Recomputed becomes true { opened with trans := { tr with
            undo := rest, base := u.before, window := u.strokes.dropLast, provisional := [] } })) ∧
      (tr.window = [] → tr.undo = [] → becomes (countOne .deadDeletes counted))))

/-- What a retranslation of up to `r` settled units of `s` leaves, `becomes` being told their number and the
state (R112): the provisional text is taken back by one TAKE; units are reopened newest first, while `r` is not
reached and the window stays within 8 strokes, each by an UNFIX and the close of the hold it owns; their
strokes stand before the window's, the base state is the one before the oldest, and the window is recomputed
from an empty provisional list. -/
def Retranslated (becomes : Nat → State → Prop) (r : Nat) (s : State) : Prop :=
  let tr := s.trans
  let back := (tr.provisional.map (fun u => u.text.length)).sum
  let took : State := if back = 0 then s else appendEntry (.take back) s
  let newest (n : Nat) : List TextUnit := tr.undo.reverse.take n
  let fits (n : Nat) : Prop := ((newest n).map (fun u => u.strokes.length)).sum + tr.window.length ≤ 8
  ∃ n, n ≤ r ∧ n ≤ tr.undo.length ∧ (0 < n → fits n) ∧ (n = r ∨ n = tr.undo.length ∨ ¬fits (n + 1)) ∧
    let opened : State := (newest n).foldl
      (fun x u => closeOwned u.holdId u.id (appendEntry (.unfix u.id u.text.length) x)) took
    Recomputed (becomes n) true
      { opened with trans := { tr with
          provisional := [], undo := tr.undo.take (tr.undo.length - n),
          window := ((newest n).reverse.map (fun u => u.strokes)).flatten ++ tr.window,
          base := (((newest n).map (fun u => u.before)).getLast?).getD tr.base } }

/-- What a request does that changes the layers to `d` and asks a recomputation, `o` being its outcome from
`s` and `r n` its reply when `n` units were reopened (R80, R99, R112). While the Translator is paused, or in
DOZE, the recomputation is left pending and no unit is reopened. Otherwise it is made, after a retranslation
when one of up to `limit` units is asked: with nothing in the window and nothing to reopen it takes back and
puts nothing. It clears recompute pending (log entry 35). In every state the layers are as given, the reply is
queued, at most `limit` units are reopened, and the log, the time and the rest stay as they are. -/
def RecomputeAsked (o : Host.Outcome State Fault Refusal) (nothing : Prop) (r : Nat → Reply) (limit : Nat)
    (d : Dictionary) (s : State) : Prop :=
  let changed : State := { s with dict := d }
  let becomes (n : Nat) (t : State) : Prop := o = .next (eventEnd (pushReply .station (r n) t))
  (loadPaused s.dict = true ∨ s.power.part = .doze →
    o = .next (replied .station (r 0) { s with dict := d, trans := { s.trans with recomputePending := true } })) ∧
  (loadPaused s.dict = false → s.power.part ≠ .doze → s.trans.window = [] → s.trans.provisional = [] →
    nothing →
    o = .next (replied .station (r 0)
      { s with dict := d, trans := { s.trans with recomputePending := false, settleTimer := none } })) ∧
  (loadPaused s.dict = false → s.power.part ≠ .doze →
    (limit = 0 → Recomputed (becomes 0) false changed) ∧
    (0 < limit → Retranslated becomes limit changed)) ∧
  ∃ (t : State) (n : Nat), o = .next t ∧ n ≤ limit ∧ t.dict = d ∧
    (t.port .station).answers = (s.port .station).answers ++ [r n] ∧
    t = { s with
      dict := t.dict, trans := t.trans, journal := t.journal, holds := t.holds, power := t.power,
      wake := t.wake, counters := t.counters, ports := t.ports }

/-! ### Power -/

/-- What an entry into SETTLING from READY leaves, `o` being the outcome of the command that brought it in
`s`, with the doze reason, the idle delay then in force and the command's answer by the part state it ends in
(R147, R149 to R151). Unless a load has the Translator paused, every unit is settled first, as EverySettled says
(R107, R150); then, with the Stroke Assembler IDLE and no record waiting, the part passes on to DOZE at once.
The bytes of the POWER notices are log entry 13; the place of the first of them before the notices of the
settlement is log entry 21. -/
def SettlingBegun (o : Host.Outcome State Fault Refusal) (reason : DozeReason) (delay : Nat)
    (answer : PartState → Option Reply) (s : State) : Prop :=
  let p : Power := { s.power with part := .settling, reason := reason, idleDelay := delay, idleTimer := none }
  let answering (x : PartState) (t : State) : State := match answer x with
    | none => t
    | some r => pushReply .machine r t
  let begun : State :=
    raiseNotice { kind := .power, fields := byte 1 ++ byte (reasonCode reason) ++ [0] }
      { s with power := p, trans := { s.trans with settleAll := true } }
  let still : Prop := s.capture.assembler.state = .idle ∧ s.log.translator.cursor = s.log.head
  let dozed (v : State) : State :=
    raiseNotice { kind := .power, fields := byte 2 ++ byte (reasonCode reason) ++ [0] }
      { v with
        power := { p with
          part := .doze,
          causes := if p.clearOnDoze then { pattern := false, machine := false, station := false }
                    else p.causes },
        wake := { s.wake with count := 0, gapTimer := false },
        trans := { v.trans with settleAll := false } }
  let ended (v : State) : Prop :=
    (¬still → o = .next (driveAttention (answering .settling (reachAll v)))) ∧
    (still → o = .next (driveAttention (answering .doze (reachAll (dozed v)))))
  (loadPaused s.dict = true → o = .next (driveAttention (answering .settling begun))) ∧
  (loadPaused s.dict = false →
    EverySettled ended begun ∧
    (s.trans.window = [] → s.trans.provisional = [] →
      let settled : State := { begun with trans := { begun.trans with settleTimer := none } }
      (¬still → o = .next (driveAttention (answering .settling settled))) ∧
      (still → o = .next (driveAttention (answering .doze (dozed settled))))) ∧
    ∃ (t : State) (x : PartState), o = .next t ∧ (still → x = .doze) ∧ (¬still → x = .settling) ∧
      t.power = { p with part := x, causes := t.power.causes } ∧
      t.trans.window = [] ∧ t.trans.provisional = [] ∧ (t.trans.settleAll = true ↔ x = .settling) ∧
      (t.port .machine).answers = (s.port .machine).answers ++ (answer x).toList ∧
      t = { s with
        trans := t.trans, journal := t.journal, holds := t.holds, power := t.power, wake := t.wake,
        counters := t.counters, ports := t.ports })

end Sys2Proof.Machine
end

