-- ==== Sys2Proof/Certificates/Slice0/Obligations.lean ====
section
/-! DEFINITION. The statements for the provers, one definition each, in the order of the chapters they
rest on. -/

open Sys2Proof Sys2Proof.Machine

/-! ### The queue, the tick and reset -/

/-- A step with a command waiting runs the command at the front, with the queue's rest. The one queue is the
model's (log entry 26). -/
def Obligations.StepRunsTheFrontCommand : Prop :=
  ∀ (c : Instr) (rest : List Instr) (s : State), s.pending = c :: rest →
    step s = exec c { s with pending := rest }

/-- A step on an empty queue passes one tick (the model's choice, log entry 1): the tick counter rises by one
modulo 2^32 (R38), the reference age, the interval age and the ages of the open holds rise and stop at 2^31 (R54,
R163, R133), nothing else changes but the queue, and a due interval expiry, settle expiry or record for the
Translator is queued. The settle delay, in milliseconds, is read in ticks (log entry 24). -/
def Obligations.EmptyQueuePassesOneTick : Prop :=
  ∀ s : State, s.pending = [] →
    ∃ q : List Instr,
      step s = .next { s with
        time := { s.time with tick := s.time.tick + 1, age := min 2147483648 (s.time.age + 1) },
        counters := { s.counters with intervalAge := min 2147483648 (s.counters.intervalAge + 1) },
        holds := { s.holds with
          holds := s.holds.holds.map (fun h => { h with age := min 2147483648 (h.age + 1) }) },
        pending := q } ∧
      (Instr.intervalExpiry ∈ q ↔ s.counters.auto = true ∧ 4095 ≤ s.counters.intervalAge) ∧
      (Instr.settleTimerExpiry ∈ q ↔ ∃ start, s.trans.settleTimer = some start ∧
        s.trans.settleDelay * 4096 ≤ (s.time.tick + 1 - start).toNat * 1000) ∧
      (Instr.translatorTake ∈ q ↔
        s.dict.layer ≠ .loading ∧ s.dict.layer ≠ .checking ∧ s.power.part ≠ .doze ∧
        s.log.translator.cursor ≠ s.log.head ∧ ∃ r ∈ s.log.records, r.seq = s.log.translator.cursor)

/-- RESET gives every block the values its chapter lists, whatever the part held, and leaves the queue
(log entry 18). The fields of the model's own (log entry 20) and the contents of dictionary memory, to which
the spec gives no reset value (log entry 17), are not in this statement. -/
def Obligations.ResetGivesTheResetValues : Prop :=
  ∀ s : State, ∃ t : State, exec .reset s = .next t ∧ t.pending = s.pending ∧
    (∀ n, n ≤ 22 → t.capture.lines[n]? = some
      { role := .steno n, press := 128, release := 96, enabled := true, pressed := false, count := 0 }) ∧
    t.capture.lines[24]? = some
      { role := .mark, press := 128, release := 96, enabled := true, pressed := false, count := 0 } ∧
    t.capture.lines[25]? = some
      { role := .hold, press := 128, release := 96, enabled := true, pressed := false, count := 0 } ∧
    (∀ n, n = 23 ∨ (26 ≤ n ∧ n ≤ 31) → t.capture.lines[n]? = some
      { role := .unused, press := 128, release := 96, enabled := true, pressed := false, count := 0 }) ∧
    t.capture.lines.length = 32 ∧ t.capture.interval = 1000 ∧ t.capture.debounce = 2 ∧
    t.capture.strokeLimit = 1500 ∧ t.capture.holdGranted = false ∧ t.capture.assembler.state = .idle ∧
    t.capture.assembler.chord = 0 ∧ t.capture.assembler.limit = 1500 ∧ t.capture.assembler.openTick = 0 ∧
    t.capture.assembler.stamp = none ∧ t.capture.assembler.destination = .log ∧
    t.log.records = [] ∧ t.log.head = 0 ∧ t.log.wrapped = false ∧ t.log.job = 0 ∧
    t.log.translator.on = true ∧ t.log.machine.on = false ∧ t.log.station.on = false ∧
    (∀ name, (t.log.reader name).cursor = 0 ∧ (t.log.reader name).lost = 0 ∧
      (t.log.reader name).sinceTaken = 0 ∧ (t.log.reader name).inRun = false) ∧
    t.time.tick = 0 ∧ t.time.cellCounter = 0 ∧ t.time.state = .search ∧ t.time.candidate = none ∧
    t.time.previousLock = none ∧ t.time.alignment = 0 ∧ t.time.syncRun = 0 ∧ t.time.window = 0 ∧
    t.time.blockRun = none ∧ t.time.alternate = .inactive ∧ t.time.blockLimit = none ∧
    t.time.silence = none ∧ t.time.expected = 0 ∧ t.time.history = [] ∧ t.time.tref = 0 ∧ t.time.lref = 0 ∧
    t.time.step = none ∧ t.time.present = false ∧ t.time.age = 0 ∧ t.time.take = none ∧
    t.time.pendingTake = none ∧ t.time.quality = .free ∧ t.time.rate = 30 ∧ t.time.coast = 10 ∧
    t.time.threshold = 100 ∧ t.time.reframe = false ∧ t.time.mode = .pattern ∧
    t.dict.layer = .empty ∧ t.dict.result = .none ∧ t.dict.claim = .none ∧ t.dict.total = 0 ∧
    t.dict.received = 0 ∧ t.dict.inactivity = none ∧ t.dict.header = none ∧ t.dict.job = [] ∧
    (∀ r ∈ t.dict.folds, r.inUse = false ∧ r.key = 0 ∧ r.suffix = []) ∧ t.dict.folds.length = 4 ∧
    (∀ l ∈ t.dict.speakers, l = []) ∧ t.dict.speakers.length = 16 ∧
    t.trans.window = [] ∧ t.trans.provisional = [] ∧ t.trans.undo = [] ∧ t.trans.settleTimer = none ∧
    t.trans.settleDelay = 1500 ∧ t.trans.deleteChord = 1024 ∧ t.trans.idCounter = 0 ∧
    t.trans.recomputePending = false ∧ t.trans.settleAll = false ∧
    t.trans.base = { line := true, cap := true, low := false, att := false, num := false, glu := false } ∧
    t.journal.entries = [] ∧ t.journal.head = 0 ∧ t.journal.liveLength = 0 ∧ t.journal.settledLength = 0 ∧
    t.journal.liveTail = [] ∧ t.journal.settledTail = [] ∧ t.journal.lastFix = none ∧
    t.journal.machine.mode = .live ∧ t.journal.station.mode = .live ∧ t.journal.feed.mode = .settled ∧
    t.journal.machine.obeys = false ∧ t.journal.station.obeys = false ∧ t.journal.feed.obeys = true ∧
    (∀ port, (t.journal.listener port).cursor = 0 ∧ (t.journal.listener port).paused = none ∧
      (t.journal.listener port).repaintPending = false ∧ (t.journal.listener port).notes = [] ∧
      (t.journal.listener port).run = none) ∧
    t.holds = { holds := [], nextId := 1, limit := 0 } ∧
    t.power = { part := .ready, reason := .none, idleDelay := 30, idleTimer := some 0,
                causes := { pattern := false, machine := false, station := false }, clearOnDoze := true } ∧
    t.wake = { count := 0, lastMatch := 0, gapTimer := false, heldOver := false, chord := 254, needed := 3,
               gap := 1000 } ∧
    (∀ c ∈ t.counters.running ++ t.counters.snapshot, c = { value := 0, mark := false }) ∧
    t.counters.running.length = 13 ∧ t.counters.snapshot.length = 13 ∧ t.counters.intervalStart = 0 ∧
    t.counters.intervalAge = 0 ∧ t.counters.auto = true ∧ t.counters.snapInterval = 0 ∧
    t.counters.snapNumber = 0 ∧ t.counters.snapCause = .none ∧
    (∀ port, t.port port =
      { receive := .hunt, answers := [], notices := [], enables := 0, noticesMissed := false,
        requestsDropped := false, turn := .stroke, sending := none }) ∧
    t.ports.attention = false ∧ t.ports.feedAddress = 1 ∧ t.ports.courtChannel = 0

/-- The state after reset meets every invariant of the model, and the part is at rest in it. -/
def Obligations.ResetMeetsTheInvariants : Prop :=
  Rested State.reset ∧ LogOk State.reset.log ∧ JournalOk State.reset.journal ∧ HoldsOk State.reset.holds ∧
  QualityOk State.reset.time ∧ CountersOk State.reset.counters ∧ PortsOk State.reset.ports ∧
  TranslatorOk State.reset.trans ∧ JobTableOk State.reset.dict.job ∧ LoadOk State.reset.dict ∧
  memoryWf State.reset.dict.memory = true ∧ PowerOk State.reset ∧ WakeOk State.reset ∧
  AssemblerOk State.reset.capture

/-! ### What all requests share -/

/-- A request taken while its port's answer queue holds 4 answers is dropped; one not permitted on its port is
answered NOT_FROM_PORT; a kind byte that names no request is answered UNKNOWN_KIND with the byte as received. None
of them has any other effect (R171, R172). That a FEED QUERY is turned away like any other request, whatever its
fields, is the model's (log entry 30). -/
def Obligations.RequestsTurnedAwayHaveNoEffect : Prop :=
  (∀ (i : Instr) (port : Port) (k : RequestKind) (s : State), requestKind i = some (port, k) → Rested s →
    (4 ≤ (s.port port).answers.length → exec i s = .next (dropped port s)) ∧
    ((s.port port).answers.length < 4 → permitted k port = false →
      exec i s = .next (answered port k .notFromPort [] s))) ∧
  (∀ (port : Port) (kind : Byte) (s : State), Rested s →
    (4 ≤ (s.port port).answers.length → exec (.unknownKind port kind) s = .next (dropped port s)) ∧
    ((s.port port).answers.length < 4 →
      exec (.unknownKind port kind) s = .next (replied port (.answer kind .unknownKind []) s)))

/-- After every command the attention output is raised exactly while an answer or a notice waits on the
Machine port, a frame is partly sent there, its reader offers a record it stands on, or its listener offers
a message (R175). -/
def Obligations.AttentionFollowsTheMachinePort : Prop :=
  ∀ (i : Instr) (s t : State), exec i s = .next t →
    (t.ports.attention = true ↔
      t.ports.machine.answers ≠ [] ∨ t.ports.machine.notices ≠ [] ∨ t.ports.machine.sending ≠ none ∨
      (t.log.machine.on = true ∧ t.log.machine.cursor ≠ t.log.head ∧
        ∃ r ∈ t.log.records, r.seq = t.log.machine.cursor) ∨
      t.journal.machine.notes ≠ [] ∨ t.journal.machine.run ≠ none ∨
      (reachedEntry t.journal t.journal.machine).isSome = true)

/-! ### Key sensing and stroke assembly -/

/-- A scan judges each line for which it carries a depth by the table of R4, flips the accepted state when the
count reaches the debounce count, and leaves time, dictionary and queue as they are. It reports the MARK presses,
one MARK record each and none in DOZE, and then the change of the HOLD group, in every part state: an open asked
with source LINE, whose refusal clears the grant, and at the release the close of the LINE hold, if it was granted
and is still open. With no steno key pressed before or after, it does nothing more. The bytes of a HOLD notice (log
entry 13) and the order of the notices of one scan (log entry 21) are the model's. So is that SCAN is taken
whenever it is sent (log entry 3) and reads 0 for a missing depth (log entry 23). That a listener paused again at a
close keeps its run is log entry 28. The end of the event, eventEnd, is log entry 19. -/
def Obligations.ScanJudgesEveryLine : Prop :=
  (∀ (depths : List Byte) (s : State), ∃ t : State, exec (.scan depths) s = .next t ∧
     t.capture.lines.length = s.capture.lines.length ∧
     (∀ (n : Nat) (l : Line) (depth : Byte), s.capture.lines[n]? = some l → depths[n]? = some depth →
       let disagree : Prop := if l.pressed then depth.toNat < l.release else l.press ≤ depth.toNat
       (l.enabled = false ∨ l.role = .unused → t.capture.lines[n]? = some l) ∧
       (l.enabled = true → l.role ≠ .unused →
         (¬disagree → t.capture.lines[n]? = some { l with count := 0 }) ∧
         (disagree → l.count + 1 < s.capture.debounce →
           t.capture.lines[n]? = some { l with count := l.count + 1 }) ∧
         (disagree → s.capture.debounce ≤ l.count + 1 →
           t.capture.lines[n]? = some { l with pressed := !l.pressed, count := 0 }))) ∧
     t = { s with
       capture := { s.capture with
         lines := t.capture.lines, holdGranted := t.capture.holdGranted, assembler := t.capture.assembler },
       log := t.log, trans := { s.trans with settleAll := t.trans.settleAll }, journal := t.journal,
       holds := t.holds, power := t.power, wake := t.wake, counters := t.counters, ports := t.ports }) ∧
  (∀ (depths : List Byte) (s : State), HoldsOk s.holds →
    let after := scanLines s.capture.debounce s.capture.lines depths
    HoldGroupMoved (holdPressed s.capture.lines) (holdPressed after) (holdReported depths s)
      (marksReported depths s) ∧
    (s.capture.assembler.state = .idle → pressedKeys after = 0 →
      exec (.scan depths) s = .next (eventEnd (holdReported depths s))))

/-- In IDLE, a scan after which a steno key is pressed opens a stroke, and one after which none is leaves the
assembler as it is; what the opening does besides is judged by the part state. The MARK presses and the change of
the HOLD group of the same scan are reported first; without them the whole next state is stated. The bytes of the
POWER and HOLD notices (log entry 13) and the order of the notices of one scan (log entry 21) are the model's. A
depth missing reads 0 (log entry 23). That a listener paused again at a close keeps its run is log entry 28. The
end of the event, eventEnd, is log entry 19. -/
def Obligations.ScanOpensAStroke : Prop :=
  (∀ (depths : List Byte) (s : State), Rested s → s.capture.assembler.state = .idle →
     let after := scanLines s.capture.debounce s.capture.lines depths
     markPresses s.capture.lines after = 0 → holdPressed after = holdPressed s.capture.lines →
     let opened (stamp : Option Stamp) (destination : Destination) : State :=
       { s with capture := { s.capture with
           lines := after,
           assembler := {
             state := .gathering, chord := pressedKeys after, openTick := s.time.tick, stamp := stamp,
             limit := s.capture.strokeLimit, destination := destination } } }
     let timer : Option Tick := if s.power.idleDelay = 0 then none else some s.time.tick
     (pressedKeys after = 0 →
       exec (.scan depths) s = .next { s with capture := { s.capture with lines := after } }) ∧
     (pressedKeys after ≠ 0 →
       (s.power.part = .ready →
         exec (.scan depths) s
           = .next { opened (some (stampNow s)) .log with power := { s.power with idleTimer := timer } }) ∧
       (s.power.part = .settling → s.power.reason = .request →
         exec (.scan depths) s = .next (opened (some (stampNow s)) .log)) ∧
       (s.power.part = .settling → s.power.reason = .idle →
         exec (.scan depths) s
           = .next (driveAttention (raiseNotice { kind := .power, fields := [0, 0, 0] }
               { opened (some (stampNow s)) .log with
                 power := { s.power with part := .ready, reason := .none, idleTimer := timer },
                 trans := { s.trans with settleAll := false } }))) ∧
       (s.power.part = .doze → exec (.scan depths) s = .next (opened none .wake)))) ∧
  (∀ (depths : List Byte) (s : State), s.capture.assembler.state = .idle →
    let keys := pressedKeys (scanLines s.capture.debounce s.capture.lines depths)
    let u := holdReported depths s
    let opened (stamp : Option Stamp) (destination : Destination) : State :=
      { u with capture := { u.capture with assembler := {
          state := .gathering, chord := keys, openTick := s.time.tick, stamp := stamp,
          limit := s.capture.strokeLimit, destination := destination } } }
    let timer : Option Tick := if s.power.idleDelay = 0 then none else some s.time.tick
    let became (t : State) : Prop := exec (.scan depths) s = .next (eventEnd t)
    (keys = 0 → became u) ∧
    (keys ≠ 0 →
      (s.power.part = .ready →
        became { opened (some (stampNow s)) .log with power := { s.power with idleTimer := timer } }) ∧
      (s.power.part = .settling → s.power.reason ≠ .idle → became (opened (some (stampNow s)) .log)) ∧
      (s.power.part = .settling → s.power.reason = .idle →
        became (raiseNotice { kind := .power, fields := [0, 0, 0] }
          { opened (some (stampNow s)) .log with
            power := { s.power with part := .ready, reason := .none, idleTimer := timer },
            trans := { s.trans with settleAll := false } })) ∧
      (s.power.part = .doze → became (opened none .wake))))

/-- In OPEN, a scan adds the keys that became pressed, and one after which no steno key is pressed closes the
stroke: for LOG a STROKE record is appended and STROKES counts one, for WAKE the stroke goes to the Wake Detector
in DOZE and is discarded elsewhere. In DRAIN such a scan returns to IDLE and hands nothing on, and any other leaves
DRAIN as it is. The MARK presses and the change of the HOLD group of the same scan are reported first; without them
the next state is stated whole. The bytes of the HOLD and POWER notices are the model's (log entry 13). The order
of the notices of one event is log entry 21. A depth missing reads 0 (log entry 23). That a listener paused again
at a close keeps its run is log entry 28. The end of the event, eventEnd, is log entry 19. -/
def Obligations.ScanJoinsAndClosesTheStroke : Prop :=
  (∀ (depths : List Byte) (s : State), Rested s →
     let a := s.capture.assembler
     let before := s.capture.lines
     let after := scanLines s.capture.debounce before depths
     markPresses before after = 0 → holdPressed after = holdPressed before →
     let scanned (x : Assembler) : State := { s with capture := { s.capture with lines := after, assembler := x } }
     (a.state = .gathering →
       (pressedKeys after ≠ 0 →
         exec (.scan depths) s
           = .next (scanned { a with chord := a.chord ||| (pressedKeys after &&& ~~~(pressedKeys before)) })) ∧
       (∀ stamp : Stamp, pressedKeys after = 0 → a.destination = .log → a.stamp = some stamp → LogOk s.log →
         exec (.scan depths) s
           = .next (driveAttention (countOne .strokes (appendRecord
               (.stroke a.chord stamp (((s.time.tick - a.openTick).toNat * 1000 + 2048) / 4096) false)
               (scanned { a with state := .idle, chord := 0 })))))) ∧
     (a.state = .drain →
       (pressedKeys after ≠ 0 → exec (.scan depths) s = .next (scanned a)) ∧
       (pressedKeys after = 0 → s.power.part ≠ .settling →
         exec (.scan depths) s = .next (scanned { a with state := .idle })))) ∧
  (∀ (depths : List Byte) (s : State),
    let a := s.capture.assembler
    let before := pressedKeys s.capture.lines
    let keys := pressedKeys (scanLines s.capture.debounce s.capture.lines depths)
    let u := holdReported depths s
    let scanned (x : Assembler) : State := { u with capture := { u.capture with assembler := x } }
    let became (t : State) : Prop := exec (.scan depths) s = .next (eventEnd t)
    (a.state = .gathering →
      (keys ≠ 0 → became (scanned { a with chord := a.chord ||| (keys &&& ~~~before) })) ∧
      (keys = 0 →
        StrokeHanded became a (((s.time.tick - a.openTick).toNat * 1000 + 2048) / 4096) false
          (scanned { a with state := .idle, chord := 0 }))) ∧
    (a.state = .drain →
      (keys ≠ 0 → became u) ∧ (keys = 0 → became (scanned { a with state := .idle }))))

/-- The stroke-limit timer closes an OPEN stroke with held set and the limit as its duration; HELD_STROKES counts
one, the state becomes DRAIN, and the stroke goes to its destination: for LOG a STROKE record and STROKES, for WAKE
the Wake Detector in DOZE and nothing elsewhere. Before it expires, and outside OPEN, the command of the expiry
changes nothing, which is the model's (log entry 2). So are the bytes of the POWER notice of a wake (log entry 13).
The order of the notices of one event is log entry 21. The end of the event, eventEnd, is log entry 19. -/
def Obligations.StrokeLimitClosesTheStroke : Prop :=
  (∀ s : State, Rested s →
     let a := s.capture.assembler
     let expired : Prop := a.limit * 4096 ≤ (s.time.tick - a.openTick).toNat * 1000
     (a.state ≠ .gathering ∨ ¬expired → exec .strokeLimitExpiry s = .next s) ∧
     (∀ stamp : Stamp, a.state = .gathering → expired → a.destination = .log → a.stamp = some stamp →
       LogOk s.log →
       let counted := countOne .heldStrokes s
       exec .strokeLimitExpiry s
         = .next (driveAttention (countOne .strokes (appendRecord (.stroke a.chord stamp a.limit true)
             { counted with
               capture := { s.capture with assembler := { a with state := .drain, chord := 0 } } }))))) ∧
  (∀ s : State,
    let a := s.capture.assembler
    a.state = .gathering → a.limit * 4096 ≤ (s.time.tick - a.openTick).toNat * 1000 →
    StrokeHanded (fun t => exec .strokeLimitExpiry s = .next (eventEnd t)) a a.limit true
      { countOne .heldStrokes s with
        capture := { s.capture with assembler := { a with state := .drain, chord := 0 } } })

/-- LINE SET of a line gives it the new function and levels: press level 0 as 1, a release level above the press
level as equal to it, an absent level as it is, the count 0. A line accepted PRESSED is released at the request,
and the release is reported to its old function: an OPEN stroke closes, a DRAIN ends, the HOLD group is released, a
MARK line does nothing. A line above 31, or a STENO function with no key index or one above 22, is refused. The
form of the answer and the bytes of the HOLD and POWER notices are the model's (log entry 13), and so is the order
of two releases (log entry 15). That a STENO line with no key index is OUT_OF_RANGE is log entry 22. The order of
the notices of one event is log entry 21. That a listener paused again at a close keeps its run is log entry 28.
The end of the event, eventEnd, is log entry 19. -/
def Obligations.LineSetConfiguresALine : Prop :=
  ∀ (n : Nat) (function : LineFunction) (key press release : Option Nat) (s : State),
    Rested s → Takes .machine .lineSet s →
    (31 < n ∨ (function = .steno ∧ ∀ k, key = some k → 22 < k) →
      exec (.lineSet .machine n function key press release) s
        = .next (answered .machine .lineSet .outOfRange [] s)) ∧
    (∀ (l : Line) (role : LineRole), n ≤ 31 → s.capture.lines[n]? = some l → l.pressed = false →
      (function = .steno ∧ (∃ k, k ≤ 22 ∧ key = some k ∧ role = .steno k)) ∨
        (function = .mark ∧ key = none ∧ role = .mark) ∨ (function = .hold ∧ key = none ∧ role = .hold) ∨
        (function = .unused ∧ key = none ∧ role = .unused) →
      (∀ v, press = some v → v ≤ 255) → 1 ≤ l.press → l.press ≤ 255 →
      let p := if press = some 0 then 1 else press.getD l.press
      let asked := release.getD l.release
      let new : Line := { l with role := role, press := p, release := min asked p, count := 0 }
      exec (.lineSet .machine n function key press release) s
        = .next (answered .machine .lineSet (if press = some 0 ∨ p < asked then .adjusted else .ok)
            (lineFields n new) { s with capture := { s.capture with lines := s.capture.lines.set n new } })) ∧
    (∀ (l : Line) (role : LineRole), n ≤ 31 → s.capture.lines[n]? = some l →
      (function = .steno ∧ (∃ k, k ≤ 22 ∧ key = some k ∧ role = .steno k)) ∨
        (function = .mark ∧ key = none ∧ role = .mark) ∨ (function = .hold ∧ key = none ∧ role = .hold) ∨
        (function = .unused ∧ key = none ∧ role = .unused) →
      (∀ v, press = some v → v ≤ 255) → 1 ≤ l.press → l.press ≤ 255 →
      let p := if press = some 0 then 1 else press.getD l.press
      let asked := release.getD l.release
      let new : Line :=
        { l with role := role, press := p, release := min asked p, pressed := false, count := 0 }
      LinesReplaced
        (fun t => exec (.lineSet .machine n function key press release) s
          = .next (eventEnd (pushReply .machine
              (.answer 18 (if press = some 0 ∨ p < asked then .adjusted else .ok) (lineFields n new)) t)))
        (s.capture.lines.set n new) s)

/-- LINE TOGGLE flips the enabled state of each line of the set, which then is RELEASED with count 0, and answers
OK with the set of enabled lines. The releases are reported as at LINE SET: when the last pressed steno key is
released an OPEN stroke closes at the request's tick and a DRAIN ends, and when the HOLD group is released the LINE
hold closes (their order: log entry 15). The bytes of the HOLD and POWER notices are the model's (log entry 13).
The order of the notices of one event is log entry 21. That a listener paused again at a close keeps its run is log
entry 28. The end of the event, eventEnd, is log entry 19. -/
def Obligations.LineToggleFlipsTheSet : Prop :=
  ∀ (set : BitVec 32) (s : State), Rested s → Takes .machine .lineToggle s →
    let a := s.capture.assembler
    let before := s.capture.lines
    let after := before.mapIdx (fun n l =>
      if set.getLsbD n then { l with enabled := !l.enabled, pressed := false, count := 0 } else l)
    ∃ v : Nat, (∀ (n : Nat) (l : Line), after[n]? = some l → v.testBit n = l.enabled) ∧
      ((∀ (n : Nat) (l : Line), before[n]? = some l → set.getLsbD n = true → l.pressed = false) →
        exec (.lineToggle .machine set) s
          = .next (answered .machine .lineToggle .ok (num 4 v)
              { s with capture := { s.capture with lines := after } })) ∧
      (∀ stamp : Stamp, pressedKeys before ≠ 0 → pressedKeys after = 0 →
        holdPressed after = holdPressed before → a.state = .gathering → a.destination = .log →
        a.stamp = some stamp → LogOk s.log →
        exec (.lineToggle .machine set) s
          = .next (driveAttention (pushReply .machine (.answer 19 .ok (num 4 v))
              (countOne .strokes (appendRecord
                (.stroke a.chord stamp (((s.time.tick - a.openTick).toNat * 1000 + 2048) / 4096) false)
                { s with capture := { s.capture with
                    lines := after, assembler := { a with state := .idle, chord := 0 } } }))))) ∧
      LinesReplaced
        (fun t => exec (.lineToggle .machine set) s
          = .next (eventEnd (pushReply .machine (.answer 19 .ok (num 4 v)) t))) after s

/-- CAPTURE SET takes a scan interval as the nearest of the four values, the longer of two equally near, a debounce
count as the nearest of 1 to 4, a stroke limit as the nearest of 250 to 5,000; an absent field keeps its value;
every count becomes 0 when an interval or a debounce count is given; the open stroke keeps its limit; the answer
reports the three values. Operands that no field could carry follow the same rules (log entry 22). -/
def Obligations.CaptureSetTakesTheNearestValues : Prop :=
  ∀ (interval debounce limit : Option Nat) (s : State), Rested s → Takes .machine .captureSet s →
    ∃ i d m : Nat,
      (interval = none → i = s.capture.interval) ∧
      (∀ v, interval = some v → (i = 250 ∨ i = 500 ∨ i = 1000 ∨ i = 2000) ∧
        ∀ w, w = 250 ∨ w = 500 ∨ w = 1000 ∨ w = 2000 →
          ((v : Int) - i).natAbs < ((v : Int) - w).natAbs ∨
          (((v : Int) - i).natAbs = ((v : Int) - w).natAbs ∧ w ≤ i)) ∧
      (debounce = none → d = s.capture.debounce) ∧ (∀ v, debounce = some v → d = min 4 (max 1 v)) ∧
      (limit = none → m = s.capture.strokeLimit) ∧ (∀ v, limit = some v → m = min 5000 (max 250 v)) ∧
      exec (.captureSet .machine interval debounce limit) s
        = .next (answered .machine .captureSet
            (if interval.getD i = i ∧ debounce.getD d = d ∧ limit.getD m = m then .ok else .adjusted)
            (num 2 i ++ [BitVec.ofNat 8 d] ++ num 2 m)
            { s with capture := { s.capture with
                interval := i, debounce := d, strokeLimit := m,
                lines := if interval = none ∧ debounce = none then s.capture.lines
                         else s.capture.lines.map (fun l => { l with count := 0 }) } })

/-! ### The Stroke Log -/

/-- An append places one record at the head, with the next sequence as its number, after removing the oldest of
4,096; a reader that is on and whose cursor stands on the removed record moves one on and loses one, and LOG_LOSSES
counts one for each; a loss that begins a run of a MACHINE or STATION reader sets in run and raises a LOSS notice
on its port, carrying the reader, its lost count and its cursor; an off reader follows the head; no other reader
moves (R24, R25, R26, R31). The order of the readers (log entry 29), and that of a SATURATE notice of LOG_LOSSES
before the LOSS notice of the same loss (log entry 21), are the model's. So is that an off reader passes the record
(log entry 8). -/
def Obligations.AppendPlacesTheRecordAtTheHead : Prop :=
  ∀ (b : RecordBody) (s : State), LogOk s.log → CountersOk s.counters →
    let g := s.log
    let full : Prop := g.records.length = 4096
    let moved (name : ReaderName) : Prop := full ∧ (g.reader name).on = true ∧ (g.reader name).cursor = g.head - 4096
    let t := appendRecord b s
    t.log.records = (if full then g.records.tail else g.records) ++ [{ seq := g.head, body := b }] ∧
    t.log.head = g.head + 1 ∧ t.log.job = g.job ∧
    (t.log.wrapped = true ↔ g.wrapped = true ∨ g.head = 4294967295) ∧
    (∀ name : ReaderName,
      let r := g.reader name
      let r' := t.log.reader name
      (r.on = false → r' = { r with cursor := g.head + 1, passed := r.passed + 1 }) ∧
      (moved name → r'.on = true ∧ r'.cursor = r.cursor + 1 ∧ r'.lost = r.lost + 1 ∧ r'.passed = r.passed ∧
        (name = .translator → r'.sinceTaken = r.sinceTaken + 1) ∧ (name ≠ .translator → r'.inRun = true)) ∧
      (r.on = true → ¬moved name → r' = r)) ∧
    (runningTally t.counters .logLosses).value
      = min 65535 ((runningTally s.counters .logLosses).value + (if moved .translator then 1 else 0)
          + (if moved .machine then 1 else 0) + (if moved .station then 1 else 0)) ∧
    (let loses (name : ReaderName) (port : Option Port) (v : State) : State :=
       let r := g.reader name
       let counted := countOne .logLosses v
       let notice : Notice :=
         { kind := .loss, fields := byte (readerCode name) ++ num 4 (r.lost + 1).toNat ++ num 4 (r.cursor + 1).toNat }
       match port with
       | none => counted
       | some p => if r.inRun = true then counted else noticeOn p notice counted
     ∃ a b c : State,
       (moved .translator → a = loses .translator none s) ∧ (¬moved .translator → a = s) ∧
       (moved .machine → b = loses .machine (some .machine) a) ∧ (¬moved .machine → b = a) ∧
       (moved .station → c = loses .station (some .station) b) ∧ (¬moved .station → c = b) ∧
       t.counters = c.counters ∧ t.ports = c.ports) ∧
    ((∀ name, ¬moved name) → t.counters = s.counters ∧ t.ports = s.ports) ∧
    t = { s with log := t.log, counters := t.counters, ports := t.ports }

/-- JOB OPEN is refused in DOZE and for job 0; otherwise it appends one JOB record that opens the job asked for and
closes the current one, makes it the current job, empties the Job table unless keep is given, and answers the
record's sequence number and the job closed. With both grounds of refusal the model answers WRONG_STATE (log entry
14). JOB CLOSE is refused with WRONG_STATE in DOZE and when no job is open; otherwise it appends one JOB record
with opened 0, closed the current job and keep no, makes the current job 0, and answers the record's sequence
number and the job closed. It leaves the Job table: R28 says so and R76 reads otherwise, and the model follows R28
(log entry 33). Operands that no field could carry follow the same rules (log entry 22). -/
def Obligations.JobOpenAndCloseAppendAJobRecord : Prop :=
  (∀ (port : Port) (job : Nat) (keep : Bool) (s : State), Rested s → Takes port .jobOpen s → LogOk s.log →
     (s.power.part = .doze →
       exec (.jobOpen port job keep) s = .next (answered port .jobOpen .wrongState [] s)) ∧
     (s.power.part ≠ .doze → job = 0 →
       exec (.jobOpen port job keep) s = .next (answered port .jobOpen .outOfRange [] s)) ∧
     (s.power.part ≠ .doze → 1 ≤ job →
       let t := appendRecord (.job job s.log.job keep (stampNow s)) s
       exec (.jobOpen port job keep) s
         = .next (driveAttention (pushReply port (.answer 11 .ok (num 4 s.log.head.toNat ++ num 2 s.log.job))
             { t with
               log := { t.log with job := job },
               dict := { s.dict with job := if keep = true then s.dict.job else [] } })))) ∧
  (∀ (port : Port) (s : State), Rested s → Takes port .jobClose s → LogOk s.log →
     (s.power.part = .doze ∨ s.log.job = 0 →
       exec (.jobClose port) s = .next (answered port .jobClose .wrongState [] s)) ∧
     (s.power.part ≠ .doze → s.log.job ≠ 0 →
       let t := appendRecord (.job 0 s.log.job false (stampNow s)) s
       exec (.jobClose port) s
         = .next (driveAttention (pushReply port (.answer 12 .ok (num 4 s.log.head.toNat ++ num 2 s.log.job))
             { t with log := { t.log with job := 0 } }))))

/-- STROKES ON starts the port's own reader at the head, at the oldest record, or at a sequence number judged by
its distance back from the head: a held one starts there, one written and no longer held starts at the oldest with
the records missing lost, LOG_LOSSES counting one and a LOSS notice, one not yet written is refused. STROKES OFF
stops the port's own reader: on becomes no, the cursor moves to the head and in run is cleared; of a reader already
off it changes nothing. The answer carries the head and the lost count. That the records moved over count as passed
is the model's (log entry 8), and so is the place of a SATURATE notice of LOG_LOSSES before the LOSS notice of the
same start (log entry 21). -/
def Obligations.StrokesOnAndOffMoveTheReader : Prop :=
  (∀ (port : Port) (name : ReaderName) (s : State), Rested s → Takes port .strokesOn s →
     ownReader port = some name →
     let g := s.log
     let r := g.reader name
     let oldest := g.head - BitVec.ofNat 32 g.records.length
     let started (start asked : Word) : Reader :=
       { r with on := true, cursor := start, inRun := false, passed := r.passed + (asked - r.cursor) }
     let taken (start : Word) : Host.Outcome State Fault Refusal :=
       .next (driveAttention (pushReply port (.answer 9 .ok (num 4 start.toNat ++ num 4 r.lost.toNat))
         { s with log := g.setReader name (started start start) }))
     exec (.strokesOn port .head none) s = taken g.head ∧
     exec (.strokesOn port .oldest none) s = taken oldest ∧
     ∀ a : Nat, a < 4294967296 →
       let asked := BitVec.ofNat 32 a
       let distance := (g.head - asked).toNat
       let span := if g.wrapped = true then 2147483648 else min g.head.toNat 2147483648
       (distance ≤ g.records.length → exec (.strokesOn port .sequence (some a)) s = taken asked) ∧
       (g.records.length < distance → distance ≤ span →
         let lost := r.lost + BitVec.ofNat 32 (distance - g.records.length)
         let counted := countOne .logLosses s
         exec (.strokesOn port .sequence (some a)) s
           = .next (driveAttention (pushReply port (.answer 9 .ok (num 4 oldest.toNat ++ num 4 lost.toNat))
               (noticeOn port
                 { kind := .loss, fields := byte (readerCode name) ++ num 4 lost.toNat ++ num 4 oldest.toNat }
                 { counted with
                   log := g.setReader name { started oldest asked with lost := lost, inRun := true } })))) ∧
       (g.records.length < distance → span < distance →
         exec (.strokesOn port .sequence (some a)) s = .next (answered port .strokesOn .outOfRange [] s))) ∧
  (∀ (port : Port) (name : ReaderName) (s : State), Rested s → Takes port .strokesOff s →
     ownReader port = some name →
     let g := s.log
     let r := g.reader name
     let fields := num 4 g.head.toNat ++ num 4 r.lost.toNat
     (r.on = false → exec (.strokesOff port) s = .next (answered port .strokesOff .ok fields s)) ∧
     (r.on = true →
       exec (.strokesOff port) s
         = .next (driveAttention (pushReply port (.answer 10 .ok fields)
             { s with log := g.setReader name { r with
                 on := false, cursor := g.head, inRun := false, passed := r.passed + (g.head - r.cursor) } }))))

/-! ### Time following -/

/-- A decoded cell advances the cell counter modulo 64 and restarts the silence timer. In SEARCH the sync pattern
makes a candidate, 64 cells later its second sync raises the count and the third declares frame lock; patterns
elsewhere are ignored and a miss drops the candidate. In the locked states with no alternate search the cell at the
alignment gives the frame tick, and the cell 52 later ends the frame. The alternate search in FRAME goes the same
way at any other alignment, beside the frame in progress, and its third sync moves the lock: the alignment and the
previous lock, a window of one frame, the sync error run, block run and step candidate cleared, and ALIGN_CHANGES.
A cell that finds a frame ended and not completed completes it first. The model's are: that the edge that ends a
cell stands for the cell and that the completion is a command apart (log entries 4 and 5), that a move of the lock,
made at the last cell of a frame at the old alignment, comes before the completion of that frame, which is then not
made (log entry 5), that the counter is compared after its advance (log entry 6), the form of a notice (log entry
13), that ALIGN_CHANGES is counted at a lock before the quality is judged again, so that a SATURATE notice it
raises carries the quality before (log entry 37), and that this notice comes before the TIME notice (log entry
21). -/
def Obligations.CellDecodedSearchesForTheLock : Prop :=
  (∀ (digit : Bool) (s : State), Rested s → s.time.frameDue = false →
     let counter := s.time.cellCounter + 1
     let all := s.time.cells ++ [digit]
     let cells := all.drop (all.length - 64)
     let found : Prop := cells.drop (cells.length - 12)
       = [true, true, false, true, true, true, true, false, true, false, false, true]
     let base : TimeFollower :=
       { s.time with cellCounter := counter, cells := cells, silence := some s.time.tick }
     let went (t : TimeFollower) : Prop := exec (.cellDecoded digit) s = .next { s with time := t }
     (s.time.state = .search →
       (s.time.candidate = none →
         (¬found → went base) ∧ (found → went { base with candidate := some { position := counter, count := 1 } })) ∧
       (∀ k : Candidate, s.time.candidate = some k →
         (k.position ≠ counter → went base) ∧
         (k.position = counter → ¬found → went { base with candidate := none }) ∧
         (k.position = counter → found → k.count = 1 →
           went { base with candidate := some { position := counter, count := 2 } }) ∧
         (k.position = counter → found → k.count = 2 →
           let u := if s.time.previousLock = none ∨ s.time.previousLock = some counter then s
                    else countOne .alignChanges s
           let locked : TimeFollower :=
             { base with
               state := .frame, candidate := none, alignment := counter, previousLock := some counter,
               window := 1, lockFrame := true, frameTick := s.time.tick, blockLimit := some s.time.tick }
           (s.time.present = false → s.time.quality = .free →
             exec (.cellDecoded digit) s = .next (driveAttention { u with time := locked })) ∧
           (s.time.present = true → s.time.quality ≠ .unchecked →
             exec (.cellDecoded digit) s
               = .next (driveAttention (raiseNotice
                   { kind := .time, fields := [1, 1] ++ num 4 (stampNow s).ms }
                   { u with time := { locked with quality := .unchecked } })))))) ∧
     (s.time.state ≠ .search → s.time.alternate = .inactive →
       (counter = s.time.alignment → went { base with frameTick := s.time.tick }) ∧
       (counter = s.time.alignment + 52 → went { base with frameDue := true }) ∧
       (counter ≠ s.time.alignment → counter ≠ s.time.alignment + 52 → went base))) ∧
  (∀ (digit : Bool) (s t : State), Rested s → LogOk s.log → s.time.frameDue = true → s.time.state ≠ .search →
    exec .frameCompletion s = .next t → exec (.cellDecoded digit) s = exec (.cellDecoded digit) t) ∧
  (∀ (digit : Bool) (s : State) (c : Option Candidate), Rested s → s.time.frameDue = false →
    s.time.state = .frame → s.time.alternate = .searching c →
    let counter := s.time.cellCounter + 1
    let all := s.time.cells ++ [digit]
    let cells := all.drop (all.length - 64)
    let found : Prop := cells.drop (cells.length - 12)
      = [true, true, false, true, true, true, true, false, true, false, false, true]
    let base : TimeFollower :=
      { s.time with cellCounter := counter, cells := cells, silence := some s.time.tick }
    let searching (c : Option Candidate) : Prop :=
      let t : TimeFollower := { base with alternate := .searching c }
      exec (.cellDecoded digit) s = .next { s with time :=
        if counter = s.time.alignment then { t with frameTick := s.time.tick }
        else if counter = s.time.alignment + 52 then { t with frameDue := true }
        else t }
    (c = none →
      (¬found ∨ counter = s.time.alignment → searching none) ∧
      (found → counter ≠ s.time.alignment → searching (some { position := counter, count := 1 }))) ∧
    (∀ k : Candidate, c = some k →
      (k.position ≠ counter → searching (some k)) ∧
      (k.position = counter → ¬found → searching none) ∧
      (k.position = counter → found → k.count < 2 →
        searching (some { position := counter, count := k.count + 1 })) ∧
      (k.position = counter → found → 2 ≤ k.count →
        exec (.cellDecoded digit) s = .next (driveAttention { countOne .alignChanges s with time :=
          { base with
            alignment := counter, previousLock := some counter, syncRun := 0, blockRun := none, step := none,
            alternate := .inactive, window := 1, lockFrame := true, frameDue := false,
            frameTick := s.time.tick } }))))

/-- A frame that completes with a sync error counts SYNC_ERRORS by the mode and raises the sync error run, in
every locked state; what it does below the third in FRAME and BLOCK is BlockCheckIsJudged, and in FRAME_ONLY it
does nothing more. The third in a row loses the lock, in FRAME, BLOCK and FRAME_ONLY, which clears what R42
lists and keeps the reference, its age, the take word and the previous lock, and the quality becomes COAST or
FREE. The model's are: that the cells kept for the search outlive the loss (log entry 7), the bytes of the TIME
notice (log entry 13), that a SATURATE notice of SYNC_ERRORS carries the quality before the loss (log entry 37),
and that it comes before the TIME notice (log entry 21). -/
def Obligations.SyncErrorsLoseTheLock : Prop :=
  ∀ s : State, Rested s → s.time.frameDue = true → s.time.state ≠ .search →
    let f := decodeFrame s.time.cells
    let counted := countEvents .syncErrors (if s.time.mode = .pattern then 1 else f.wrong) s
    let kept := lastEight (s.time.lastFrames ++ [frameSummary f])
    1 ≤ f.wrong →
    (s.time.state = .frameOnly → s.time.syncRun + 1 < 3 → (s.time.present = true → s.time.quality = .unchecked) →
      (s.time.present = false → s.time.quality = .free) →
      exec .frameCompletion s
        = .next (driveAttention { counted with time := { s.time with
            frameDue := false, lockFrame := false, syncRun := s.time.syncRun + 1, lastFrames := kept } })) ∧
    (3 ≤ s.time.syncRun + 1 →
      let lost : TimeFollower :=
        { s.time with
          state := .search, syncRun := 0, window := 0, blockRun := none, history := [],
          alternate := .inactive, blockLimit := none, step := none, pendingTake := none,
          frameDue := false, lockFrame := false, lastFrames := [] }
      let q : Quality := if s.time.present = true ∧ s.time.age ≤ s.time.coast * 4096 then .coast else .free
      (s.time.quality = q → exec .frameCompletion s = .next (driveAttention { counted with time := lost })) ∧
      (s.time.quality ≠ q →
        exec .frameCompletion s
          = .next (driveAttention (raiseNotice
              { kind := .time, fields := byte (qualityCode q) ++ [0] ++ num 4 (stampNow s).ms }
              { counted with time := { lost with quality := q } }))))

/-- The accepted frame under a reference. Stated for FRAME_ONLY, whole but for the notices of a step taken, which
BlockCheckIsJudged gives: out of range it touches neither the reference nor the take word; in range it moves the
reference when it agrees with it, makes or replaces the step candidate when it agrees with nothing, and takes the
step when it agrees with the candidate alone, with a TIMESTEP record and TIME_STEPS. The take word in force is the
one it carries. In FRAME, BLOCK and FRAME_ONLY alike, unless its block check loses the lock: what it makes of the
reference, its age, the candidate and the Stroke Log; the TIMESTEP record carries the quality of the state the
frame leaves. The place of that record before the move of the reference, seen in the stamp of a SATURATE notice, is
the model's (log entry 37), and so is that the quality is judged again before the frame is accepted, so that the
record of a completion that declares BLOCK or leaves it carries the quality after (log entry 39). -/
def Obligations.AcceptedFrameKeepsTheReference : Prop :=
  (∀ s : State, Rested s → s.time.frameDue = true → s.time.state = .frameOnly → s.time.present = true →
     s.time.quality = .unchecked →
     let f := decodeFrame s.time.cells
     let d := f.hours * 3600000 + f.minutes * 60000 + f.seconds * 1000
       + (f.number * 1000 + s.time.rate / 2) / s.time.rate
     let tick := s.time.frameTick
     let e := (s.time.tref + ((tick - s.time.lref).toNat * 1000 + 2048) / 4096) % 86400000
     let near (a b : Nat) : Prop := (normalised ((a : Int) - (b : Int))).natAbs ≤ s.time.threshold
     let inRange : Prop := f.hours ≤ 23 ∧ f.minutes ≤ 59 ∧ f.seconds ≤ 59 ∧ f.number < s.time.rate
     f.wrong = 0 →
     let kept := lastEight (s.time.lastFrames ++ [frameSummary f])
     let judged : TimeFollower :=
       { s.time with frameDue := false, lockFrame := false, syncRun := 0, lastFrames := kept }
     (¬inRange → exec .frameCompletion s = .next { s with time := judged }) ∧
     (inRange → s.time.take = some f.take →
       let taken : TimeFollower := { judged with pendingTake := some f.take }
       let moved : TimeFollower := { taken with tref := d, lref := tick, age := 0, step := none }
       (near d e → exec .frameCompletion s = .next { s with time := moved }) ∧
       (¬near d e → s.time.step = none →
         exec .frameCompletion s = .next { s with time := { taken with step := some (d, tick) } }) ∧
       (∀ (dc : Nat) (lc : Tick), ¬near d e → s.time.step = some (dc, lc) →
         let extrapolated := (dc + ((tick - lc).toNat * 1000 + 2048) / 4096) % 86400000
         (¬near d extrapolated →
           exec .frameCompletion s = .next { s with time := { taken with step := some (d, tick) } }) ∧
         (near d extrapolated → LogOk s.log →
           let u := countOne .timeSteps (appendRecord (.timestep e d .unchecked) { s with time := moved })
           ∃ t : State, exec .frameCompletion s = .next t ∧ t.log = u.log ∧ t.counters = u.counters ∧
             t.time = moved ∧ t = { s with
               time := t.time, log := t.log, counters := t.counters, ports := t.ports })))) ∧
  (∀ s : State, s.time.frameDue = true → s.time.state ≠ .search → QualityOk s.time → s.time.present = true →
    let f := decodeFrame s.time.cells
    let d := f.hours * 3600000 + f.minutes * 60000 + f.seconds * 1000
      + (f.number * 1000 + s.time.rate / 2) / s.time.rate
    let tick := s.time.frameTick
    let after (ms : Nat) (since : Tick) : Nat := (ms + ((tick - since).toNat * 1000 + 2048) / 4096) % 86400000
    let e := after s.time.tref s.time.lref
    let near (a b : Nat) : Prop := (normalised ((a : Int) - (b : Int))).natAbs ≤ s.time.threshold
    f.wrong = 0 → f.hours ≤ 23 → f.minutes ≤ 59 → f.seconds ≤ 59 → f.number < s.time.rate →
    ∃ t : State, exec .frameCompletion s = .next t ∧ (t.time.state ≠ .search →
      let moved : Prop :=
        t.time.tref = d ∧ t.time.lref = tick ∧ t.time.present = true ∧ t.time.age = 0 ∧ t.time.step = none
      let held : Prop :=
        t.time.tref = s.time.tref ∧ t.time.lref = s.time.lref ∧ t.time.present = true ∧
        t.time.age = s.time.age ∧ t.time.step = some (d, tick) ∧ (s.time.take = some f.take → t.log = s.log)
      (near d e → moved ∧ (s.time.take = some f.take → t.log = s.log)) ∧
      (¬near d e → s.time.step = none → held) ∧
      (∀ (dc : Nat) (lc : Tick), ¬near d e → s.time.step = some (dc, lc) →
        (¬near d (after dc lc) → held) ∧
        (near d (after dc lc) → moved ∧ (s.time.take = some f.take →
          t.log = (appendRecord (.timestep e d (if t.time.state = .block then .locked else .unchecked)) s).log)))))

/-- The first accepted frame since reset gives the reference with no record, and the quality changes from FREE to
UNCHECKED with a TIME notice, whose bytes are the model's (log entry 13). A take word carried by two accepted
frames in a row comes in force with a TAKE record, stamped against the reference the frame left. Stated whole in
FRAME_ONLY; and in FRAME, BLOCK and FRAME_ONLY alike, unless the frame's block check loses the lock: the reference,
the quality, which is LOCKED when the frame leaves BLOCK, the take words and the Stroke Log. That the quality is
judged again before the frame is accepted, and once more at the first reference, is the model's (log entry 39). -/
def Obligations.FirstFrameAndTakeWord : Prop :=
  (∀ s : State, Rested s → s.time.frameDue = true → s.time.state = .frameOnly →
     let f := decodeFrame s.time.cells
     let d := f.hours * 3600000 + f.minutes * 60000 + f.seconds * 1000
       + (f.number * 1000 + s.time.rate / 2) / s.time.rate
     let tick := s.time.frameTick
     let e := (s.time.tref + ((tick - s.time.lref).toNat * 1000 + 2048) / 4096) % 86400000
     f.wrong = 0 → f.hours ≤ 23 → f.minutes ≤ 59 → f.seconds ≤ 59 → f.number < s.time.rate →
     let kept := lastEight (s.time.lastFrames ++ [frameSummary f])
     let moved : TimeFollower :=
       { s.time with
         frameDue := false, lockFrame := false, syncRun := 0, lastFrames := kept, tref := d, lref := tick,
         present := true, age := 0, step := none, pendingTake := some f.take, quality := .unchecked }
     (s.time.present = false → s.time.quality = .free → s.time.pendingTake ≠ some f.take →
       exec .frameCompletion s
         = .next (driveAttention (raiseNotice
             { kind := .time, fields := [1, 3] ++ num 4 (stampMs moved s.time.tick) }
             { s with time := moved }))) ∧
     (s.time.present = true → s.time.quality = .unchecked → LogOk s.log → s.time.step = none →
       (normalised ((d : Int) - (e : Int))).natAbs ≤ s.time.threshold →
       s.time.pendingTake = some f.take → s.time.take ≠ some f.take →
       exec .frameCompletion s
         = .next (driveAttention (appendRecord
             (.take s.time.take f.take { ms := stampMs moved s.time.tick, quality := .unchecked })
             { s with time := { moved with take := some f.take } })))) ∧
  (∀ s : State, s.time.frameDue = true → s.time.state ≠ .search → QualityOk s.time →
    let f := decodeFrame s.time.cells
    let d := f.hours * 3600000 + f.minutes * 60000 + f.seconds * 1000
      + (f.number * 1000 + s.time.rate / 2) / s.time.rate
    f.wrong = 0 → f.hours ≤ 23 → f.minutes ≤ 59 → f.seconds ≤ 59 → f.number < s.time.rate →
    ∃ t : State, exec .frameCompletion s = .next t ∧ (t.time.state ≠ .search →
      let q : Quality := if t.time.state = .block then .locked else .unchecked
      let new : Prop := s.time.pendingTake = some f.take ∧ s.time.take ≠ some f.take
      (s.time.present = false →
        t.time.tref = d ∧ t.time.lref = s.time.frameTick ∧ t.time.present = true ∧ t.time.age = 0 ∧
        t.time.step = none ∧ (¬new → t.log = s.log)) ∧
      t.time.quality = q ∧ t.time.pendingTake = some f.take ∧
      (¬new → t.time.take = s.time.take) ∧
      (new → t.time.take = some f.take ∧ (s.time.step = none →
        t.log = (appendRecord
          (.take s.time.take f.take { ms := stampMs t.time s.time.tick, quality := q }) s).log))))

/-- The block judgement of a frame that completes with fewer than 3 sync errors in a row, in FRAME, BLOCK and
FRAME_ONLY, with or without a reference, and then its acceptance for time: the window, the block run, BLOCK
declared, the checks and what excessive checks bring are BlockJudged, the reference update and the take word of an
accepted frame are FrameAccepted. A frame with a sync error or out of range is judged for blocks and touches
neither. The model's are: the bytes of a TIME notice (log entry 13), the quality that the stamp of a SATURATE
notice carries at a declaration and at each exit from BLOCK and the place of a TIMESTEP record (log entry 37), and
that a change of state changes the quality, with its TIME notice, before the frame is accepted (log entry 39), and
that the cells kept for the search outlive a loss of lock by excessive checks (log entry 7). The order of the
notices of one event is log entry 21. The end of the event, eventEnd, is log entry 19. -/
def Obligations.BlockCheckIsJudged : Prop :=
  ∀ s : State, s.time.frameDue = true →
    let f := decodeFrame s.time.cells
    let accepted : Prop :=
      f.wrong = 0 ∧ f.hours ≤ 23 ∧ f.minutes ≤ 59 ∧ f.seconds ≤ 59 ∧ f.number < s.time.rate
    let became (t : State) : Prop := exec .frameCompletion s = .next (driveAttention t)
    let ended (t : State) : Prop := exec .frameCompletion s = .next (eventEnd t)
    (¬accepted → Rested s → BlockJudged became became s) ∧
    (accepted → BlockJudged (FrameAccepted ended f) ended s)

/-- The silence timer expires 100 ms after the last cell: in SEARCH the candidate is dropped; in a locked
state the lock is lost with all that R42 clears, and the quality becomes COAST or FREE. The model's are: that
before that, and with the timer stopped, the command changes nothing (log entry 2), the first whole tick past
100 ms (log entry 24), that the cells kept for the search are dropped (log entry 7), and the bytes of the TIME
notice (log entry 13). That the completion of a frame that has ended comes first is log entry 5; here none
has. -/
def Obligations.SilenceDropsTheLock : Prop :=
  ∀ s : State, Rested s → s.time.frameDue = false →
    ((s.time.silence = none ∨ ∃ start, s.time.silence = some start ∧ (s.time.tick - start).toNat ≤ 409) →
      exec .silenceTimerExpiry s = .next s) ∧
    (∀ start : Tick, s.time.silence = some start → 410 ≤ (s.time.tick - start).toNat →
      (s.time.state = .search →
        exec .silenceTimerExpiry s
          = .next { s with time := { s.time with silence := none, cells := [], candidate := none } }) ∧
      (s.time.state ≠ .search →
        let lost : TimeFollower :=
          { s.time with
            state := .search, syncRun := 0, window := 0, blockRun := none, history := [],
            alternate := .inactive, blockLimit := none, step := none, pendingTake := none,
            frameDue := false, lockFrame := false, lastFrames := [], silence := none, cells := [] }
        let q : Quality := if s.time.present = true ∧ s.time.age ≤ s.time.coast * 4096 then .coast else .free
        (s.time.quality = q → exec .silenceTimerExpiry s = .next { s with time := lost }) ∧
        (s.time.quality ≠ q →
          exec .silenceTimerExpiry s
            = .next (driveAttention (raiseNotice
                { kind := .time, fields := byte (qualityCode q) ++ [0] ++ num 4 (stampNow s).ms }
                { s with time := { lost with quality := q } })))))

/-- The block limit turns FRAME into FRAME_ONLY after 8,192 ticks, with window count, block run and alternate
search cleared and the quality as it was; the reference age passing the coast limit in SEARCH turns the quality
FREE with a TIME notice. The model's are: that before they are due these two commands, and that of the re-base,
change nothing (log entry 2), and the bytes of the notice (log entry 13). -/
def Obligations.BlockLimitAndCoastLimitExpire : Prop :=
  (∀ s : State, Rested s → QualityOk s.time →
    ((s.time.state ≠ .frame ∨ ∀ start, s.time.blockLimit = some start → (s.time.tick - start).toNat < 8192) →
      exec .blockLimitExpiry s = .next s) ∧
    (∀ start : Tick, s.time.state = .frame → s.time.blockLimit = some start →
      8192 ≤ (s.time.tick - start).toNat →
      exec .blockLimitExpiry s = .next { s with time := { s.time with
        state := .frameOnly, window := 0, blockRun := none, alternate := .inactive, blockLimit := none } }) ∧
    ((s.time.state ≠ .search ∨ s.time.present = false ∨ s.time.age ≤ s.time.coast * 4096 ∨
        s.time.quality = .free) → exec .coastLimitPassed s = .next s) ∧
    (s.time.state = .search → s.time.present = true → s.time.coast * 4096 < s.time.age →
      s.time.quality ≠ .free →
      exec .coastLimitPassed s
        = .next (driveAttention (raiseNotice
            { kind := .time, fields := [3, 0] ++ num 4 (stampNow s).ms }
            { s with time := { s.time with quality := .free } })))) ∧
  (∀ s : State, Rested s → (s.time.tick - s.time.lref).toNat < 2147483648 →
    exec .referenceRebase s = .next s)

/-- At 2^31 ticks past Lref the reference is re-based, present or not: Tref becomes the stamp of the tick counter
and Lref the tick counter, the stamp of that tick is unchanged, and nothing else changes (R56). -/
def Obligations.RebaseKeepsTheStamp : Prop :=
  ∀ s : State, Rested s →
    let difference := (s.time.tick - s.time.lref).toNat
    let stamp := (s.time.tref + (difference * 1000 + 2048) / 4096) % 86400000
    2147483648 ≤ difference →
      let rebased : TimeFollower := { s.time with tref := stamp, lref := s.time.tick }
      exec .referenceRebase s = .next { s with time := rebased } ∧
        (stampNow { s with time := rebased }) = stampNow s

/-- TIME SET refuses a rate other than 25 and 30 whole, takes the other fields clamped into their ranges, and
answers the five settings. A rate that differs loses the lock, or in SEARCH drops the candidate; a rate or a coast
limit that differs re-judges the quality, and a change raises a TIME notice, whose bytes are the model's (log entry
13). The model's too: that a rate that differs drops a completion still due (log entry 5) and keeps the cells for
the search (log entry 7). Operands that no field could carry follow the same rules (log entry 22). -/
def Obligations.TimeSetTakesTheSettings : Prop :=
  ∀ (rate coast threshold : Option Nat) (reframe : Option Bool) (mode : Option SyncErrorMode) (s : State),
    Rested s → Takes .machine .timeSet s →
    ((∃ r, rate = some r ∧ r ≠ 25 ∧ r ≠ 30) →
      exec (.timeSet .machine rate coast threshold reframe mode) s
        = .next (answered .machine .timeSet .outOfRange [] s)) ∧
    ((∀ r, rate = some r → r = 25 ∨ r = 30) →
      let c := match coast with
        | none => s.time.coast
        | some v => min 60 (max 1 v)
      let h := match threshold with
        | none => s.time.threshold
        | some v => min 1000 (max 20 v)
      let set : TimeFollower :=
        { s.time with
          rate := rate.getD s.time.rate, coast := c, threshold := h,
          reframe := reframe.getD s.time.reframe, mode := mode.getD s.time.mode }
      let new : TimeFollower :=
        if set.rate = s.time.rate then set
        else if s.time.state = .search then { set with candidate := none }
        else
          { set with
            state := .search, syncRun := 0, window := 0, blockRun := none, history := [],
            alternate := .inactive, blockLimit := none, step := none, pendingTake := none,
            frameDue := false, lockFrame := false, lastFrames := [] }
      let q : Quality :=
        if new.present = false then .free
        else if new.state = .block then .locked
        else if new.state = .search then (if new.age ≤ new.coast * 4096 then .coast else .free)
        else .unchecked
      let rejudged : Prop := set.rate ≠ s.time.rate ∨ c ≠ s.time.coast
      let answer : Reply := .answer 25 (if coast.getD c = c ∧ threshold.getD h = h then .ok else .adjusted)
        (timeFields set)
      (¬rejudged ∨ q = s.time.quality →
        exec (.timeSet .machine rate coast threshold reframe mode) s
          = .next (replied .machine answer { s with time := new })) ∧
      (rejudged → q ≠ s.time.quality →
        exec (.timeSet .machine rate coast threshold reframe mode) s
          = .next (driveAttention (pushReply .machine answer (raiseNotice
              { kind := .time,
                fields := byte (qualityCode q) ++ byte (followerCode new.state) ++ num 4 (stampNow s).ms }
              { s with time := { new with quality := q } })))))

/-! ### Dictionary loads -/

/-- LOAD BEGIN is judged by the loader claim and the declared total; one taken moves the layer to LOADING under the
port's claim, with received 0, the check result NONE, the inactivity timer started, the Translator paused and a
DICT notice raised. Operands that no field could carry follow the same rules (log entry 22). -/
def Obligations.LoadBeginStartsALoad : Prop :=
  ∀ (port : Port) (total : Nat) (s : State), Rested s → Takes port .loadBegin s →
    (s.dict.claim = ownClaim port →
      exec (.loadBegin port total) s = .next (answered port .loadBegin .wrongState [] s)) ∧
    (s.dict.claim ≠ .none → s.dict.claim ≠ ownClaim port →
      exec (.loadBegin port total) s = .next (answered port .loadBegin .busy [] s)) ∧
    (s.dict.claim = .none → total = 0 ∨ 67108864 < total →
      exec (.loadBegin port total) s = .next (answered port .loadBegin .outOfRange [] s)) ∧
    (s.dict.claim = .none → 1 ≤ total → total ≤ 67108864 →
      exec (.loadBegin port total) s
        = .next (driveAttention (pushReply port (.answer 13 .ok (num 4 total))
            (raiseNotice { kind := .dict, fields := [1, 0] }
              { s with
                dict := { s.dict with
                  layer := .loading, result := .none, claim := ownClaim port, total := total, received := 0,
                  inactivity := some s.time.tick, header := none },
                trans := { s.trans with settleTimer := none } }))))

/-- LOAD DATA is judged in the order of R67; one taken writes its bytes at the offset and no others, raises
received by their number and restarts the inactivity timer, and its answer carries received (R67). Operands that no
field could carry follow the same rules (log entry 22). -/
def Obligations.LoadDataWritesInOrder : Prop :=
  ∀ (port : Port) (offset : Nat) (data : List Byte) (s : State), Rested s → Takes port .loadData s →
    let n := data.length
    let refusal (status : Status) : Prop :=
      exec (.loadData port offset data) s = .next (answered port .loadData status [] s)
    (s.dict.claim ≠ .none → s.dict.claim ≠ ownClaim port → refusal .busy) ∧
    (s.dict.claim = .none → refusal .wrongState) ∧
    (s.dict.claim = ownClaim port →
      (s.dict.layer ≠ .loading → refusal .wrongState) ∧
      (s.dict.layer = .loading →
        (n = 0 ∨ 240 < n ∨ s.dict.total < offset + n → refusal .outOfRange) ∧
        (1 ≤ n → n ≤ 240 → offset + n ≤ s.dict.total →
          (offset ≠ s.dict.received →
            exec (.loadData port offset data) s
              = .next (answered port .loadData .outOfOrder (num 4 s.dict.received) s)) ∧
          (offset = s.dict.received → memoryWf s.dict.memory = true →
            ∃ m : List Host.Cell, memoryWf m = true ∧
              (∀ i, i < n → data[i]? = some (readByte m (offset + i))) ∧
              (∀ a, a < offset ∨ offset + n ≤ a → readByte m a = readByte s.dict.memory a) ∧
              exec (.loadData port offset data) s
                = .next (answered port .loadData .ok (num 4 (s.dict.received + n))
                    { s with dict := { s.dict with
                        memory := m, received := s.dict.received + n,
                        inactivity := some s.time.tick } })))))

/-- LOAD END moves the layer to CHECKING, stops the inactivity timer and answers received. The completion judges
the six conditions in order, makes the layer VALID with the header's fields or FAILED with the first failure,
releases the claim and resumes the Translator, whose window is recomputed and whose settle timer is restarted; in
DOZE the recomputation is left pending instead. Outside CHECKING its command changes nothing (log entry 25). That a
resume in DOZE sets recompute pending, and one elsewhere clears it, is the model's (log entry 16). The bytes of a
HOLD notice (log entry 13), and the place of the DICT notice before the notices of the resume (log entry 21), are
the model's. That a listener paused again at a close keeps its run is log entry 28. The end of the event, eventEnd,
is log entry 19. -/
def Obligations.LoadEndAndTheCheck : Prop :=
  (∀ (port : Port) (s : State), Rested s → Takes port .loadEnd s →
    (s.dict.claim ≠ .none → s.dict.claim ≠ ownClaim port →
      exec (.loadEnd port) s = .next (answered port .loadEnd .busy [] s)) ∧
    (s.dict.claim = .none ∨ (s.dict.claim = ownClaim port ∧ s.dict.layer ≠ .loading) →
      exec (.loadEnd port) s = .next (answered port .loadEnd .wrongState [] s)) ∧
    (s.dict.claim = ownClaim port → s.dict.layer = .loading →
      exec (.loadEnd port) s
        = .next (driveAttention (pushReply port (.answer 15 .ok (num 4 s.dict.received))
            (raiseNotice { kind := .dict, fields := [2] ++ byte (resultCode s.dict.result) }
              { s with dict := { s.dict with layer := .checking, inactivity := none } }))))) ∧
  (∀ s : State, Rested s →
    let m := s.dict.memory
    let total := s.dict.total
    let b := readNumber m 2 1
    let probe := readNumber m 3 1
    let region := readNumber m 12 4
    let result : CheckResult :=
      if s.dict.received ≠ total then .incomplete
      else if total < 20 ∨ readNumber m 0 2 ≠ 1 then .format
      else if b < 10 ∨ 22 < b ∨ probe < 1 ∨ 64 < probe then .range
      else if readNumber m 8 4 ≠ total then .length
      else if region < 16 + 2 ^ b * 8 ∨ total - 4 < region then .layout
      else if (crc32 (readBytes m 0 (total - 4))).toNat ≠ readNumber m (total - 4) 4 then .crc
      else .passed
    let d : Dictionary :=
      if result = .passed then
        { s.dict with
          layer := .valid, result := .passed, claim := .none, inactivity := none,
          header := some { exponent := b, seed := readNumber m 4 4, probe := probe } }
      else
        { s.dict with
          layer := .failed, result := result, claim := .none, inactivity := none, header := none }
    (s.dict.layer ≠ .checking → exec .checkCompletion s = .next s) ∧
    (s.dict.layer = .checking →
      (s.power.part = .doze →
        exec .checkCompletion s
          = .next (driveAttention (raiseNotice
              { kind := .dict, fields := byte (layerCode d.layer) ++ byte (resultCode result) }
              { s with dict := d, trans := { s.trans with recomputePending := true } }))) ∧
      (s.power.part ≠ .doze → Recomputed (fun t => exec .checkCompletion s = .next (eventEnd t)) true
        (raiseNotice { kind := .dict, fields := byte (layerCode d.layer) ++ byte (resultCode result) }
          { s with dict := d })) ∧
      (∃ t : State, exec .checkCompletion s = .next t ∧ t.dict = d ∧ t = { s with
        dict := t.dict, trans := t.trans, journal := t.journal, holds := t.holds, power := t.power,
        wake := t.wake, counters := t.counters, ports := t.ports }) ∧
      (s.trans.window = [] → s.trans.provisional = [] → s.power.part = .ready →
        exec .checkCompletion s
          = .next (driveAttention (raiseNotice
              { kind := .dict, fields := byte (layerCode d.layer) ++ byte (resultCode result) }
              { s with
                dict := d,
                trans := { s.trans with recomputePending := false, settleTimer := none } })))))

/-- LOAD ABORT, and the inactivity timer 5 s after its last start in LOADING, abandon the load: the layer becomes
EMPTY, the claim is released, the timer stops and the Translator is resumed, its window recomputed and its settle
timer restarted, or in DOZE the recomputation left pending instead; LOAD ABORT also makes the check result NONE,
and answers received. The model's are: that before the timer expires its command changes nothing (log entry 2), the
first whole tick past 5 s (log entry 24), that a resume in DOZE sets recompute pending, and one elsewhere clears it
(log entry 16), the bytes of a HOLD notice (log entry 13), and the place of the DICT notice before the notices of
the resume (log entry 21). That a listener paused again at a close keeps its run is log entry 28. The end of the
event, eventEnd, is log entry 19. -/
def Obligations.LoadsAreAbandoned : Prop :=
  ∀ s : State, Rested s →
    let d : Dictionary :=
      { s.dict with layer := .empty, result := .none, claim := .none, inactivity := none, header := none }
    let resumed : State :=
      raiseNotice { kind := .dict, fields := [0, 0] }
        { s with dict := d, trans := { s.trans with recomputePending := false, settleTimer := none } }
    let due : Prop :=
      s.dict.layer = .loading ∧ ∃ start, s.dict.inactivity = some start ∧ 20480 ≤ (s.time.tick - start).toNat
    let framed (t : State) : Prop := t.dict = d ∧ t = { s with
      dict := t.dict, trans := t.trans, journal := t.journal, holds := t.holds, power := t.power,
      wake := t.wake, counters := t.counters, ports := t.ports }
    let ended : State := raiseNotice { kind := .dict, fields := [0, 0] } { s with dict := d }
    let left : State :=
      raiseNotice { kind := .dict, fields := [0, 0] }
        { s with dict := d, trans := { s.trans with recomputePending := true } }
    (¬due → exec .inactivityTimeout s = .next s) ∧
    (due →
      (s.power.part = .doze → exec .inactivityTimeout s = .next (driveAttention left)) ∧
      (s.power.part ≠ .doze → Recomputed (fun t => exec .inactivityTimeout s = .next (eventEnd t)) true ended) ∧
      (∃ t : State, exec .inactivityTimeout s = .next t ∧ framed t) ∧
      (s.trans.window = [] → s.trans.provisional = [] → s.power.part = .ready →
        exec .inactivityTimeout s = .next (driveAttention resumed))) ∧
    ∀ port : Port, Takes port .loadAbort s →
      (s.dict.claim ≠ .none → s.dict.claim ≠ ownClaim port →
        exec (.loadAbort port) s = .next (answered port .loadAbort .busy [] s)) ∧
      (s.dict.claim = .none →
        exec (.loadAbort port) s = .next (answered port .loadAbort .wrongState [] s)) ∧
      (s.dict.claim = ownClaim port →
        (s.power.part = .doze →
          exec (.loadAbort port) s
            = .next (driveAttention (pushReply port (.answer 16 .ok (num 4 s.dict.received)) left))) ∧
        (s.power.part ≠ .doze → Recomputed
          (fun t => exec (.loadAbort port) s
            = .next (eventEnd (pushReply port (.answer 16 .ok (num 4 s.dict.received)) t))) true ended) ∧
        (∃ t : State, exec (.loadAbort port) s = .next t ∧ framed t) ∧
        (s.trans.window = [] → s.trans.provisional = [] → s.power.part = .ready →
          exec (.loadAbort port) s
            = .next (driveAttention (pushReply port (.answer 16 .ok (num 4 s.dict.received)) resumed))))

/-! ### Lookups -/

/-- A lookup answers from both layers: the Job table's real entry for the key over the main layer's, and
extendable when the Job table's slot has an extension count above 0, or the main layer's slot its extends mark,
or both. The main layer is searched in VALID alone, from the key's bucket, at most as many slots as the image
allows, wrapping at the end of the array: an EMPTY slot ends the search with nothing, and the first slot whose
key record lies wholly in the entry region and holds the key gives its extends mark and its entry. A reference
of 4,294,967,295, one outside the region, or one to an entry that is not well formed or runs past the end of the
region is prefix only. An entry record is read by pEntry, the one reader of entries (log entry 17 says what a byte
of dictionary memory that nothing has written reads as). -/
def Obligations.LookupSearchesBothLayers : Prop :=
  ∀ (d : Dictionary) (key : List Chord), (d.job.map (fun x => x.key)).Nodup →
    let m := d.memory
    let region := readNumber m 12 4
    let regionLength := readNumber m 8 4 - 4 - region
    let answers (entry : Option Entry) (extends_ : Bool) : Prop :=
      let main := entry.map (fun e => (Layer.main, e))
      ((∀ x ∈ d.job, x.key ≠ key) → lookup d key = { entry := main, extendable := extends_ }) ∧
      (∀ x ∈ d.job, x.key = key →
        (∀ e, x.entry = some e →
          lookup d key = { entry := some (.job, e), extendable := decide (0 < x.extensions) || extends_ }) ∧
        (x.entry = none →
          lookup d key = { entry := main, extendable := decide (0 < x.extensions) || extends_ }))
    (d.layer ≠ .valid → answers none false) ∧
    (∀ h : ImageHeader, d.layer = .valid → d.header = some h →
      let hash := key.foldl (fun x c => (x * 31 + c.toNat + 1) % 4294967296) h.seed
      let bucket := (hash + hash / 65536) % 4294967296 % 2 ^ h.exponent
      let slot (i : Nat) : Nat := 16 + 8 * ((bucket + i) % 2 ^ h.exponent)
      let record (i : Nat) : Nat := readNumber m (slot i + 4) 4
      let empty (i : Nat) : Prop := readByte m (slot i) = 0
      let holds (i : Nat) : Prop :=
        record i + 29 ≤ regionLength ∧ 1 ≤ key.length ∧ key.length ≤ 8 ∧
        readNumber m (region + record i) 1 = key.length ∧
        ∀ (n : Nat) (c : Chord), key[n]? = some c → readNumber m (region + record i + 1 + 3 * n) 3 = c.toNat
      let entry (i : Nat) : Option Entry :=
        let reference := readNumber m (region + record i + 25) 4
        if reference = 4294967295 ∨ regionLength ≤ reference then none
        else
          match pEntry.run (readBytes m (region + reference) (min 199 (regionLength - reference))) with
          | some (e, _) => if entryWellFormed e = true then some e else none
          | none => none
      (∀ i, i < h.probe → (∀ k, k < i → ¬empty k ∧ ¬holds k) →
        (empty i → answers none false) ∧
        (¬empty i → holds i → answers (entry i) (decide (readByte m (slot i + 1) ≠ 0)))) ∧
      ((∀ i, i < h.probe → ¬empty i ∧ ¬holds i) → answers none false))

/-! ### The Job, Fold and Speaker tables -/

/-- DEFINE is refused when a field is out of range, and answered FULL when too few slots are free. One taken gives
its key's slot the entry; when the key was not real before, each proper prefix has a slot whose count is raised by
one; no other slot changes. With a retranslate count it reopens settled units newest first and recomputes the
window from an empty provisional list, and without one it recomputes the window. The answer carries the units
reopened and the slots in use; UNDEFINE of a key with no real slot is refused, and one taken removes the entry,
lowers the prefixes' counts and frees every slot left with neither entry nor count, and recomputes the window. That
a recomputation clears the one left pending is the model's (log entry 35). The bytes of a HOLD notice are the
model's (log entry 13). The order of the notices of one event is log entry 21. That a listener paused again at a
close keeps its run is log entry 28. Operands that no field could carry follow the same rules (log entry 22). The
end of the event, eventEnd, is log entry 19. -/
def Obligations.DefineAndUndefineChangeTheJobTable : Prop :=
  (∀ (key : List Nat) (entry : Entry) (r : Nat) (s : State), Rested s → Takes .station .define s →
    JobTableOk s.dict.job →
    let k : List Chord := key.map (fun c => BitVec.ofNat 23 c)
    let ranged : Prop := 1 ≤ key.length ∧ key.length ≤ 8 ∧ (∀ c ∈ key, 1 ≤ c ∧ c ≤ 8388607) ∧
      entryWellFormed entry = true ∧ r ≤ 8
    let old := jobSlot s.dict.job k
    let isReal : Prop := ∃ x, old = some x ∧ x.entry.isSome = true
    let missing := ((properPrefixes k).filter (fun p => (jobSlot s.dict.job p).isNone)).length
    let full : Prop := old = none ∧ 1024 < s.dict.job.length + 1 + missing
    let refusal (status : Status) : Prop :=
      exec (.define .station key entry r) s = .next (answered .station .define status [] s)
    (¬ranged → refusal .outOfRange) ∧
    (ranged → full → refusal .full) ∧
    (ranged → ¬full → ∃ slots : List JobSlot,
      jobSlot slots k = some { key := k, entry := some entry, extensions := (old.map (fun x => x.extensions)).getD 0 } ∧
      (∀ q, q ≠ k →
        (q ∈ properPrefixes k → ¬isReal →
          jobSlot slots q = some {
            key := q, entry := (jobSlot s.dict.job q).bind (fun x => x.entry),
            extensions := ((jobSlot s.dict.job q).map (fun x => x.extensions)).getD 0 + 1 }) ∧
        (q ∉ properPrefixes k ∨ isReal → jobSlot slots q = jobSlot s.dict.job q)) ∧
      slots.length = s.dict.job.length + (if old = none then 1 + missing else 0) ∧
      RecomputeAsked (exec (.define .station key entry r) s) (r = 0 ∨ s.trans.undo = [])
        (fun n => .answer 29 .ok (byte n ++ num 2 slots.length)) r { s.dict with job := slots } s)) ∧
  (∀ (key : List Nat) (s : State), Rested s → Takes .station .undefine s → JobTableOk s.dict.job →
    let k : List Chord := key.map (fun c => BitVec.ofNat 23 c)
    let old := jobSlot s.dict.job k
    let ranged : Prop := 1 ≤ key.length ∧ key.length ≤ 8 ∧ (∀ c ∈ key, 1 ≤ c ∧ c ≤ 8388607) ∧
      ∃ x, old = some x ∧ x.entry.isSome = true
    let left (x : JobSlot) : Option JobSlot :=
      if x.entry = none ∧ x.extensions = 0 then none else some x
    (¬ranged → exec (.undefine .station key) s = .next (answered .station .undefine .outOfRange [] s)) ∧
    (ranged → ∃ slots : List JobSlot,
      jobSlot slots k = old.bind (fun x => left { x with entry := none }) ∧
      (∀ q, q ≠ k →
        (q ∈ properPrefixes k →
          jobSlot slots q
            = (jobSlot s.dict.job q).bind (fun x => left { x with extensions := x.extensions - 1 })) ∧
        (q ∉ properPrefixes k → jobSlot slots q = jobSlot s.dict.job q)) ∧
      RecomputeAsked (exec (.undefine .station key) s) True
        (fun _ => .answer 30 .ok (num 2 slots.length)) 0 { s.dict with job := slots } s))

/-- FOLD SET sets one of the four rules, with a key of 1 to 22 and a suffix of 1 to 8 characters that are no line
break when in use, and with neither when not, and answers the four rules; SPEAKER SET sets one of the sixteen
labels, of at most 32 such characters, and answers the slot and the label. Both ask a recomputation, and are
refused otherwise; a key or suffix given with in use no is out of range, as one absent with in use yes (R181). The
form of the FOLD SET answer, in use, key and suffix of each rule, and the bytes of a HOLD notice are the model's
(log entry 13), and that a recomputation clears the one left pending too (log entry 35). The order of the notices
of one event is log entry 21. That a listener paused again at a close keeps its run is log entry 28. Operands that
no field could carry follow the same rules (log entry 22). The end of the event, eventEnd, is log entry 19. -/
def Obligations.FoldAndSpeakerTablesAreSet : Prop :=
  let plain (t : Text) : Prop := ∀ c ∈ t, (32 ≤ c.toNat ∧ c.toNat ≤ 126) ∨ 128 ≤ c.toNat
  (∀ (rule : Nat) (inUse : Bool) (key : Option Nat) (suffix : Option Text) (s : State), Rested s →
    Takes .station .foldSet s →
    let used : Prop := inUse = true ∧ ∃ k t, key = some k ∧ suffix = some t ∧ 1 ≤ k ∧ k ≤ 22 ∧
      1 ≤ t.length ∧ t.length ≤ 8 ∧ plain t
    let unused : Prop := inUse = false ∧ key = none ∧ suffix = none
    let rules := s.dict.folds.set rule { inUse := inUse, key := key.getD 0, suffix := suffix.getD [] }
    (3 < rule ∨ (¬used ∧ ¬unused) →
      exec (.foldSet .station rule inUse key suffix) s = .next (answered .station .foldSet .outOfRange [] s)) ∧
    (rule ≤ 3 → used ∨ unused →
      RecomputeAsked (exec (.foldSet .station rule inUse key suffix) s) True
        (fun _ => .answer 32 .ok (rules.flatMap (fun x => yesNo x.inUse ++ byte x.key ++ txt x.suffix))) 0
        { s.dict with folds := rules } s)) ∧
  (∀ (slot : Nat) (label : Text) (s : State), Rested s → Takes .station .speakerSet s →
    (15 < slot ∨ 32 < label.length ∨ ¬plain label →
      exec (.speakerSet .station slot label) s = .next (answered .station .speakerSet .outOfRange [] s)) ∧
    (slot ≤ 15 → label.length ≤ 32 → plain label →
      RecomputeAsked (exec (.speakerSet .station slot label) s) True
        (fun _ => .answer 31 .ok (byte slot ++ txt label)) 0
        { s.dict with speakers := s.dict.speakers.set slot label } s))

/-! ### Translation -/

/-- The Translator takes nothing with nothing under its cursor, during a load and in DOZE, which is the model's
reading of the command (log entry 2). In every other state, whatever waits in its window: a recomputation left
pending is made first (R99; log entry 35); lost records settle every unit of the window, empty the history and
append a GAP; then the record is handled by its kind, as RecordHandled says of every kind, a JOB record settling
every unit before its boundary. The plain forms are spelled out for READY, those of a JOB record and of lost
records for an empty window: WAKE, TIMESTEP and TAKE records are passed over, a MARK and a JOB record append their
entries, and a delete drops the newest stroke of the window, reopens the newest settled unit, or is dead. The bytes
of a HOLD notice are the model's (log entry 13). The order of the notices of one event is log entry 21. That a
listener paused again at a close keeps its run is log entry 28. The end of the event, eventEnd, is log entry 19. -/
def Obligations.TranslatorTakesARecord : Prop :=
  (∀ s : State, Rested s → JournalOk s.journal →
     let g := s.log
     let tr := s.trans
     let passed : State :=
       { s with log := { g with translator := { g.translator with
           cursor := g.translator.cursor + 1, passed := g.translator.passed + 1, inRun := false,
           sinceTaken := 0 } } }
     let counted := countOne .deletes passed
     let became (t : State) : Prop := exec .translatorTake s = .next (driveAttention t)
     let silent (b : RecordBody) : Prop :=
       (∃ c stamp, b = .wake c stamp) ∨ (∃ old new q, b = .timestep old new q) ∨
       (∃ old new stamp, b = .take old new stamp)
     (s.dict.layer = .loading ∨ s.dict.layer = .checking ∨ s.power.part = .doze ∨ g.translator.cursor = g.head →
       exec .translatorTake s = .next s) ∧
     ∀ r : LogRecord, s.dict.layer ≠ .loading → s.dict.layer ≠ .checking → s.power.part = .ready →
       g.translator.cursor ≠ g.head → recordAt g g.translator.cursor = some r →
       (g.translator.sinceTaken = 0 → tr.recomputePending = false →
         (silent r.body → became passed) ∧
         (∀ stamp, r.body = .mark stamp → became (appendEntry (.mark r.seq stamp.ms) passed)) ∧
         (∀ opened closed keep stamp, r.body = .job opened closed keep stamp → tr.window = [] →
           tr.provisional = [] →
           became (appendEntry (.job closed opened)
             { passed with trans := { tr with
                 undo := [], settleTimer := none,
                 base := { line := true, cap := true, low := false, att := false, num := false, glu := false } } })) ∧
         (∀ stamp duration held, r.body = .stroke tr.deleteChord stamp duration held →
           (tr.window = [] → tr.undo = [] → became (countOne .deadDeletes counted)) ∧
           (∀ rest u, tr.window = [] → tr.undo = rest ++ [u] → u.strokes.length = 1 → u.holdId = none →
             became (appendEntry (.unfix u.id u.text.length)
               { counted with trans := { tr with undo := rest, base := u.before } })) ∧
           (∀ w p, tr.window = [w] → tr.provisional = [p] →
             let emptied : State :=
               { counted with trans := { tr with window := [], provisional := [], settleTimer := none } }
             became (if p.text = [] then emptied else appendEntry (.take p.text.length) emptied)))) ∧
       (silent r.body → tr.window = [] → tr.provisional = [] →
         (g.translator.sinceTaken = 0 → tr.recomputePending = true →
           became { passed with trans := { tr with recomputePending := false, settleTimer := none } }) ∧
         (0 < g.translator.sinceTaken → tr.recomputePending = false →
           became (appendEntry (.gap g.translator.sinceTaken)
             { passed with trans := { tr with undo := [], settleTimer := none } })))) ∧
  (∀ (s : State) (r : LogRecord),
    s.dict.layer ≠ .loading → s.dict.layer ≠ .checking → s.power.part ≠ .doze →
    s.log.translator.cursor ≠ s.log.head → recordAt s.log s.log.translator.cursor = some r →
    let reader := s.log.translator
    let passed : State :=
      { s with log := { s.log with translator := { reader with
          cursor := reader.cursor + 1, passed := reader.passed + 1, inRun := false, sinceTaken := 0 } } }
    let handled (v : State) : Prop :=
      RecordHandled (fun t => exec .translatorTake s = .next (eventEnd t)) r v
    let gapped (v : State) : Prop :=
      EverySettled
        (fun t => handled (appendEntry (.gap reader.sinceTaken) { t with trans := { t.trans with undo := [] } })) v
    (s.trans.recomputePending = false →
      (reader.sinceTaken = 0 → handled passed) ∧ (0 < reader.sinceTaken → gapped passed)) ∧
    (s.trans.recomputePending = true →
      (reader.sinceTaken = 0 → Recomputed handled false passed) ∧
      (0 < reader.sinceTaken → Recomputed gapped false passed)))

/-- A stroke other than a delete joins the window, which is recomputed, and the settle timer is restarted. Stated
in full for a stroke taken into an empty window in READY: its unit is put under the next unit id; while the stroke
begins a longer key the unit waits, with the settle timer started, and otherwise it is settled: its FIX entry, the
base state after it, its place in the undo history, and UNTRANSLATES for a RAW unit. Stated for every window by
what a recomputation leaves, the entries it takes back, puts and fixes and the holds its FEED_HOLD and FEED_RESUME
units open and close. A window is divided from the front: its first unit is the longest leading run of strokes that
gives an entry, an ENTRY or COMMAND unit, else its first stroke, a NUMBER, a FOLD by the first rule that applies,
or a RAW unit; the rest is divided from the state the unit leaves. A text joins the text before it or begins with a
space as the format state says. Unit ids go from 4,294,967,295 to 1. The bytes of a HOLD notice are the model's
(log entry 13). The order of the notices of one event is log entry 21. That a listener paused again at a close
keeps its run is log entry 28. The end of the event, eventEnd, is log entry 19. -/
def Obligations.TakenStrokeIsPutAndSettled : Prop :=
  (∀ (s : State) (r : LogRecord) (chord : Chord) (stamp : Stamp) (duration : Nat) (held : Bool),
     Rested s → JournalOk s.journal → s.dict.layer ≠ .loading → s.dict.layer ≠ .checking →
     s.power.part = .ready → s.log.translator.cursor ≠ s.log.head → s.log.translator.sinceTaken = 0 →
     recordAt s.log s.log.translator.cursor = some r → r.body = .stroke chord stamp duration held →
     let tr := s.trans
     chord ≠ tr.deleteChord → tr.window = [] → tr.provisional = [] → tr.recomputePending = false →
     tr.settleAll = false →
     let reader := s.log.translator
     let passed : State :=
       { s with log := { s.log with translator := { reader with
           cursor := reader.cursor + 1, passed := reader.passed + 1, inRun := false, sinceTaken := 0 } } }
     let w : WindowStroke := { chord := chord, seq := r.seq, stamp := stamp }
     let found := lookup s.dict [chord]
     let f := tr.base
     let id : Word := if tr.idCounter = 4294967295 then 1 else tr.idCounter + 1
     ∃ u : TextUnit, u.id = id ∧ u.strokes = [w] ∧ u.before = f ∧ u.holdId = none ∧
       (∀ layer e, found.entry = some (layer, e) →
         u.source = some { layer := layer, entry := e, rule := none } ∧
         (e.command = .none → u.kind = .entry ∧
           let chosen := if conditionHolds e.condition f = true then e.alternate.getD e.text else e.text
           let joined : Prop := f.line = true ∨ f.att = true ∨ e.flags.attachBefore = true ∨
             (e.flags.glue = true ∧ f.glu = true)
           u.text = (if chosen = [] then [] else if joined then caseText f chosen else 32 :: caseText f chosen) ∧
           u.after = joinedAfter e.flags f chosen u.text) ∧
         (e.command ≠ .none → u.kind = .command ∧ u.text = commandText s.dict e.command ∧
           u.after = commandAfter s.dict e.command f)) ∧
       (found.entry = none → isNumber chord = true → u.kind = .number ∧
         u.text = (if f.line = true ∨ f.att = true ∨ f.num = true then numberText chord
                   else 32 :: numberText chord) ∧
         u.after = { line := false, cap := false, low := false, att := false, num := true, glu := false }) ∧
       (found.entry = none → isNumber chord = false → (∀ x ∈ s.dict.folds, x.inUse = false) → u.kind = .raw ∧
         u.text = (if f.line = true ∨ f.att = true then outline chord else 32 :: outline chord) ∧
         u.after = { f with line := false, att := false, num := false, glu := false }) ∧
       (found.extendable = true → isFeedControl u = false →
         exec .translatorTake s
           = .next (driveAttention (appendEntry (.put id r.seq u.text)
               { passed with trans := { tr with
                   window := [w], provisional := [u], idCounter := id,
                   settleTimer := if tr.settleDelay = 0 then none else some s.time.tick } }))) ∧
       (found.extendable = false → isFeedControl u = false →
         let settled :=
           appendEntry (.fix id u.text stamp) (appendEntry (.put id r.seq u.text)
             { passed with trans := { tr with
                 idCounter := id, base := u.after, undo := (tr.undo ++ [u]).drop (tr.undo.length + 1 - 32),
                 settleTimer := none } })
         exec .translatorTake s
           = .next (driveAttention (if u.kind = .raw then countOne .untranslates settled else settled)))) ∧
  (∀ (s : State) (r : LogRecord) (chord : Chord) (stamp : Stamp) (duration : Nat) (held : Bool),
    s.dict.layer ≠ .loading → s.dict.layer ≠ .checking → s.power.part ≠ .doze →
    s.log.translator.cursor ≠ s.log.head → s.log.translator.sinceTaken = 0 →
    recordAt s.log s.log.translator.cursor = some r → r.body = .stroke chord stamp duration held →
    chord ≠ s.trans.deleteChord → s.trans.recomputePending = false →
    let reader := s.log.translator
    Recomputed (fun t => exec .translatorTake s = .next (eventEnd t)) true
      { s with
        log := { s.log with translator := { reader with
          cursor := reader.cursor + 1, passed := reader.passed + 1, inRun := false, sinceTaken := 0 } },
        trans := { s.trans with
          window := s.trans.window ++ [{ chord := chord, seq := r.seq, stamp := stamp }] } }) ∧
  (∀ (d : Dictionary) (f : FormatState) (w : WindowStroke) (rest : List WindowStroke),
    let all := w :: rest
    let entryOf (k : Nat) : Option (Layer × Entry) := (lookup d ((all.take k).map (fun x => x.chord))).entry
    let folds (r : FoldRule) (layer : Layer) (e : Entry) : Prop :=
      r.inUse = true ∧ w.chord.getLsbD r.key = true ∧ withoutKey w.chord r.key ≠ 0 ∧
      (lookup d [withoutKey w.chord r.key]).entry = some (layer, e) ∧ e.command = .none
    let chosen (e : Entry) : Text :=
      if conditionHolds e.condition f = true then e.alternate.getD e.text else e.text
    segment d f [] = [] ∧
    ∃ u : TextUnit, segment d f all = u :: segment d u.after (all.drop u.strokes.length) ∧
      u.before = f ∧ u.holdId = none ∧
      (∀ (k : Nat) (layer : Layer) (e : Entry), 1 ≤ k → k ≤ all.length → entryOf k = some (layer, e) →
        (∀ j, k < j → j ≤ all.length → entryOf j = none) →
        u.strokes = all.take k ∧ u.source = some { layer := layer, entry := e, rule := none } ∧
        (e.command = .none → u.kind = .entry ∧ u.text = joinedText e.flags f (chosen e) ∧
          u.after = joinedAfter e.flags f (chosen e) u.text) ∧
        (e.command ≠ .none → u.kind = .command ∧ u.text = commandText d e.command ∧
          u.after = commandAfter d e.command f)) ∧
      ((∀ k, 1 ≤ k → k ≤ all.length → entryOf k = none) →
        u.strokes = [w] ∧
        (isNumber w.chord = true → u.kind = .number ∧ u.source = none ∧
          u.text = (if f.line = true ∨ f.att = true ∨ f.num = true then numberText w.chord
                    else 32 :: numberText w.chord) ∧
          u.after = { line := false, cap := false, low := false, att := false, num := true, glu := false }) ∧
        (isNumber w.chord = false →
          (∀ (i : Nat) (r : FoldRule) (layer : Layer) (e : Entry), d.folds[i]? = some r → folds r layer e →
            (∀ (j : Nat) (q : FoldRule) (l : Layer) (x : Entry), j < i → d.folds[j]? = some q → ¬folds q l x) →
            let text := (chosen e ++ r.suffix).take 96
            u.kind = .fold ∧ u.source = some { layer := layer, entry := e, rule := some i } ∧
            u.text = joinedText e.flags f text ∧ u.after = joinedAfter e.flags f text u.text) ∧
          ((∀ r ∈ d.folds, ∀ layer e, ¬folds r layer e) → u.kind = .raw ∧ u.source = none ∧
            u.text = (if f.line = true ∨ f.att = true then outline w.chord else 32 :: outline w.chord) ∧
            u.after = { f with line := false, att := false, num := false, glu := false }))))

/-- The settle timer's expiry settles every unit: one FIX entry each in order, the base state after the last, the
newest 32 in the undo history, UNTRANSLATES one for each RAW unit, the window and the list empty and the timer
stopped. Then each FEED_HOLD unit among them opens a COMMAND hold and each FEED_RESUME unit closes the newest, in
text order; with neither the next state is stated field by field. That before it is due the command changes nothing
is the model's (log entry 2); the timer's milliseconds are read in ticks (log entry 24). TRANSLATE SET takes a
delay of 1 to 99 as 100 and one above 10,000 as 10,000; a running timer is restarted (log entry 31 for an equal
delay), 0 stops it, and a delay that was 0 starts it for a window that waits. The bytes of a HOLD notice are the
model's (log entry 13). The order of the notices of one event is log entry 21. That a listener paused again at a
close keeps its run is log entry 28. Operands that no field could carry follow the same rules (log entry 22). The
end of the event, eventEnd, is log entry 19. -/
def Obligations.SettleTimerAndTranslateSet : Prop :=
  (∀ s : State, Rested s →
    let tr := s.trans
    let due : Prop := ∃ start, tr.settleTimer = some start ∧
      tr.settleDelay * 4096 ≤ (s.time.tick - start).toNat * 1000
    (¬due → exec .settleTimerExpiry s = .next s) ∧
    (due → s.power.part = .ready → JournalOk s.journal → CountersOk s.counters → tr.undo.length ≤ 32 →
      (∀ u ∈ tr.provisional, isFeedControl u = false) →
      let fix (v : State) (u : TextUnit) : State :=
        appendEntry (.fix u.id u.text ((u.strokes.map (fun w => w.stamp)).head?.getD { ms := 0, quality := .free })) v
      ∃ t : State, exec .settleTimerExpiry s = .next t ∧
        t.trans = { tr with
          window := [], provisional := [], settleTimer := none,
          base := ((tr.provisional.map (fun u => u.after)).getLast?).getD tr.base,
          undo := (tr.undo ++ tr.provisional).drop (tr.undo.length + tr.provisional.length - 32) } ∧
        t.journal = (tr.provisional.foldl fix s).journal ∧
        ((∀ u ∈ tr.provisional, u.kind ≠ .raw) →
          t = driveAttention { tr.provisional.foldl fix s with trans := t.trans }) ∧
        (runningTally t.counters .untranslates).value
          = min 65535 ((runningTally s.counters .untranslates).value
              + tr.provisional.countP (fun u => u.kind == .raw)) ∧
        t = { s with trans := t.trans, journal := t.journal, counters := t.counters, ports := t.ports })) ∧
  (∀ s : State,
    let tr := s.trans
    (∃ start, tr.settleTimer = some start ∧ tr.settleDelay * 4096 ≤ (s.time.tick - start).toNat * 1000) →
    EverySettled (fun t => exec .settleTimerExpiry s = .next (eventEnd t)) s) ∧
  (∀ (delay chord : Option Nat) (s : State), Rested s → Takes .station .translateSet s →
    let tr := s.trans
    ((∃ c, chord = some c ∧ (c = 0 ∨ 8388607 < c)) →
      exec (.translateSet .station delay chord) s
        = .next (answered .station .translateSet .outOfRange [] s)) ∧
    ((∀ c, chord = some c → 1 ≤ c ∧ c ≤ 8388607) →
      let d : Nat := match delay with
        | none => tr.settleDelay
        | some v => if v = 0 then 0 else min 10000 (max 100 v)
      let deleteChord : Chord := match chord with
        | none => tr.deleteChord
        | some c => BitVec.ofNat 23 c
      let timer : Option Tick :=
        if delay = none then tr.settleTimer
        else if d = 0 then none
        else if tr.settleTimer ≠ none then some s.time.tick
        else if tr.settleDelay = 0 ∧ tr.window ≠ [] ∧ s.dict.layer ≠ .loading ∧ s.dict.layer ≠ .checking then
          some s.time.tick
        else none
      exec (.translateSet .station delay chord) s
        = .next (answered .station .translateSet (if delay.getD d = d then .ok else .adjusted)
            (num 2 d ++ num 3 deleteChord.toNat)
            { s with trans := { tr with settleDelay := d, deleteChord := deleteChord, settleTimer := timer } })))

/-! ### The Text Journal and its listeners -/

/-- An append places one entry at the head of the journal, with the next position, after removing the oldest of
1,024, and the listeners then reach what they can. A PUT adds its text to the live text, a TAKE removes its count
from it, a FIX adds its text to the settled text and sets the last fix stamp, an UNFIX removes its count from
both, and no other kind changes a text: the lengths follow modulo 2^32, and each tail keeps at most its last
2,048 characters, a removal clamped at empty. A listener in OFF stands at the new head. One whose cursor stands on
the removed entry is overrun: paused, it moves to the new oldest entry with repaint-pending set; not paused, it is
paused on the hold opened earliest when it obeys holds and one is open, and starts a run otherwise, REPAINTS
counting one. Every other listener stays as it is. The model's are: that the listeners are overrun, and a run
copies its tail, before the entry is placed (log entry 9), and that a pause keeps a run under way (log entry
28). -/
def Obligations.AppendPlacesTheEntryAtTheHead : Prop :=
  ∀ (b : EntryBody) (s : State), JournalOk s.journal →
    let j := s.journal
    let full : Prop := j.entries.length = 1024
    let t := placeInJournal b s
    let k := t.journal
    let added (tail text : Text) : Text := let x := tail ++ text; x.drop (x.length - 2048)
    let cut (tail : Text) (count : Nat) : Text := tail.take (tail.length - count)
    let size (n : Nat) : Word := BitVec.ofNat 32 n
    let live (length : Word) (tail : Text) : Prop := k.liveLength = length ∧ k.liveTail = tail
    let settled (length : Word) (tail : Text) : Prop := k.settledLength = length ∧ k.settledTail = tail
    let overrun (port : Port) : Prop := full ∧ (j.listener port).cursor = j.head - 1024
    let runs (port : Port) : Prop := overrun port ∧ (j.listener port).paused = none ∧
      ((j.listener port).obeys = false ∨ s.holds.holds = [])
    appendEntry b s = reachAll t ∧
    k.entries = (if full then j.entries.tail else j.entries) ++ [{ position := j.head, body := b }] ∧
    k.head = j.head + 1 ∧
    (match b with
     | .put _ _ text => live (j.liveLength + size text.length) (added j.liveTail text) ∧
         settled j.settledLength j.settledTail ∧ k.lastFix = j.lastFix
     | .take count => live (j.liveLength - size count) (cut j.liveTail count) ∧
         settled j.settledLength j.settledTail ∧ k.lastFix = j.lastFix
     | .fix _ text stamp => live j.liveLength j.liveTail ∧
         settled (j.settledLength + size text.length) (added j.settledTail text) ∧ k.lastFix = some stamp.ms
     | .unfix _ count => live (j.liveLength - size count) (cut j.liveTail count) ∧
         settled (j.settledLength - size count) (cut j.settledTail count) ∧ k.lastFix = j.lastFix
     | .mark _ _ | .gap _ | .job _ _ | .hold _ _ | .release _ => live j.liveLength j.liveTail ∧
         settled j.settledLength j.settledTail ∧ k.lastFix = j.lastFix) ∧
    (∀ port : Port,
      let l := j.listener port
      let l' := k.listener port
      (l.mode = .off → l' = { l with cursor := j.head + 1 }) ∧
      (l.mode ≠ .off → ¬overrun port → l' = l) ∧
      (l.mode ≠ .off → overrun port →
        (l.paused ≠ none → l' = { l with cursor := l.cursor + 1, repaintPending := true }) ∧
        (∀ h rest, l.paused = none → l.obeys = true → s.holds.holds = h :: rest →
          l' = { l with
            cursor := l.cursor + 1, paused := some h.id, notes := l.notes ++ [.paused h.id h.source],
            repaintPending := true }) ∧
        (l.paused = none → l.obeys = false ∨ s.holds.holds = [] →
          l' = { l with
            cursor := j.head, repaintPending := false,
            run := some {
              settled := decide (l.mode = .settled),
              copy := if l.mode = .settled then j.settledTail else j.liveTail,
              viewLength := if l.mode = .settled then j.settledLength else j.liveLength,
              position := j.head, next := 0 } }))) ∧
    (∃ x y z : State,
      (runs .machine → x = countOne .repaints s) ∧ (¬runs .machine → x = s) ∧
      (runs .station → y = countOne .repaints x) ∧ (¬runs .station → y = x) ∧
      (runs .feed → z = countOne .repaints y) ∧ (¬runs .feed → z = y) ∧
      t.counters = z.counters ∧ t.ports = z.ports) ∧
    t = { s with journal := k, counters := t.counters, ports := t.ports }

/-- A listener reaches the entry under its cursor when it has a view, is not paused, owes no note and sends no
run. It passes entries one after another, a PUT or TAKE in SETTLED, a FIX in LIVE, and, when it obeys holds, a
RELEASE and the HOLD entry of a hold no longer open; it stops at the HOLD entry of an open hold, with a PAUSED
note, its cursor on the entry; and any other entry it delivers: it stands there and offers that entry to its
transmitter. Nothing but the listeners changes. -/
def Obligations.ListenersReachTheirEntries : Prop :=
  let reaches (l : Listener) : Prop := l.mode ≠ .off ∧ l.paused = none ∧ l.notes = [] ∧ l.run = none
  let delivers (l : Listener) (e : JournalEntry) : Prop := match e.body with
    | .put _ _ _ | .take _ => l.mode = .live
    | .fix _ _ _ => l.mode = .settled
    | .unfix _ _ | .mark _ _ | .gap _ | .job _ _ => True
    | .hold _ _ | .release _ => l.obeys = false
  (∀ (s : State) (port : Port) (before rest : List JournalEntry),
    let j := s.journal
    let l := j.listener port
    let l' := (reachAll s).journal.listener port
    let stops (e : JournalEntry) (id : Nat) (source : HoldSource) : Prop :=
      l.obeys = true ∧ e.body = .hold id source ∧ ∃ h ∈ s.holds.holds, h.id = id ∧ h.position = e.position
    let passes (e : JournalEntry) : Prop := ¬delivers l e ∧ ∀ id source, ¬stops e id source
    j.entries = before ++ rest → rest.length = (j.head - l.cursor).toNat →
    (¬reaches l → l' = l) ∧
    (reaches l → ∀ passed more : List JournalEntry, rest = passed ++ more → (∀ e ∈ passed, passes e) →
      let cursor := l.cursor + BitVec.ofNat 32 passed.length
      (more = [] → l' = { l with cursor := cursor }) ∧
      (∀ e later, more = e :: later → delivers l e → l' = { l with cursor := cursor }) ∧
      (∀ e later id source, more = e :: later → stops e id source →
        l' = { l with cursor := cursor, paused := some id, notes := [.paused id source] }))) ∧
  (∀ s : State, reachAll s = { s with journal := { s.journal with
    machine := (reachAll s).journal.machine, station := (reachAll s).journal.station,
    feed := (reachAll s).journal.feed } }) ∧
  (∀ (j : Journal) (l : Listener) (before rest : List JournalEntry) (e : JournalEntry),
    j.entries = before ++ rest → rest.length = (j.head - l.cursor).toNat →
    (reachedEntry j l = some e ↔ reaches l ∧ delivers l e ∧ ∃ later, rest = e :: later))

/-- REPAINT is refused in OFF, is deferred while the port's own listener is paused, pauses a listener that
obeys holds on the hold opened earliest, and otherwise starts a run on a copy of the tail of its view, with
the cursor at the head and REPAINTS counting one. That a listener paused so keeps a run under way is the model's
(log entry 28). -/
def Obligations.RepaintStartsARun : Prop :=
  ∀ (port : Port) (s : State), Rested s → Takes port .repaint s →
    let j := s.journal
    let l := j.listener port
    let replied (deferred : Nat) (t : State) : Prop :=
      exec (.repaint port) s = .next (driveAttention (pushReply port (.answer 4 .ok (byte deferred)) t))
    let set (x : Listener) : State := { s with journal := j.setListener port x }
    (l.mode = .off → exec (.repaint port) s = .next (answered port .repaint .wrongState [] s)) ∧
    (l.mode ≠ .off →
      (l.paused ≠ none → replied 1 (set { l with repaintPending := true })) ∧
      (∀ h rest, l.paused = none → l.obeys = true → s.holds.holds = h :: rest →
        replied 1 (set { l with
          paused := some h.id, notes := l.notes ++ [.paused h.id h.source], repaintPending := true })) ∧
      (l.paused = none → l.obeys = false ∨ s.holds.holds = [] →
        let settled := decide (l.mode = .settled)
        let run : RepaintRun :=
          { settled := settled, copy := if settled then j.settledTail else j.liveTail,
            viewLength := if settled then j.settledLength else j.liveLength, position := j.head, next := 0 }
        replied 0 (countOne .repaints
          (set { l with cursor := j.head, repaintPending := false, run := some run }))))

/-- VIEW SET answers the mode and obedience in force, whatever it is given, and touches no other listener. A value
already held changes nothing; OFF clears the listener and moves it to the head; another mode defers or calls for a
repaint; obedience given to a listener that has passed an open hold pauses it on the earliest, and taken from a
paused one ends its pause, with a RESUMED note unless its PAUSED is still owed; with no hold passed, or taken from
a listener not paused, the setting alone changes and the listener goes on from its cursor. In every case the change
of obedience, if one is given, is made first, as ObedienceChanged says, and the change of mode, if one is given, on
what it leaves, as ModeChanged says. The model's are: that the reach is judged once, after both (log entry 36), and
that a repaint called for in a new mode drops a run under way when it pauses the listener, while a pause given by
obedience keeps it (log entry 28). The end of the event, eventEnd, is log entry 19. -/
def Obligations.ViewSetSetsTheListener : Prop :=
  (∀ (port : Port) (s : State), Rested s → Takes port .viewSet s →
     let j := s.journal
     let l := j.listener port
     let set (x : Listener) : State := { s with journal := j.setListener port x }
     let reached (x : Listener) : Listener := reachThrough s.holds.holds (waitingEntries j x) x
     let answer (m : ViewMode) (o : Bool) : Reply := .answer 5 .ok (byte (modeCode m) ++ yesNo o)
     let gives (mode : Option ViewMode) (obeys : Option Bool) (t : State) : Prop :=
       exec (.viewSet port mode obeys) s
         = .next (driveAttention (pushReply port (answer (mode.getD l.mode) (obeys.getD l.obeys)) t))
     let called (m : ViewMode) (o : Bool) (x : Listener) : State :=
       match o, s.holds.holds with
       | true, h :: _ => set { x with
           paused := some h.id, notes := x.notes ++ [.paused h.id h.source], repaintPending := true }
       | _, _ => countOne .repaints (set { x with
           cursor := j.head, repaintPending := false,
           run := some {
             settled := m == .settled, copy := if m = .settled then j.settledTail else j.liveTail,
             viewLength := if m = .settled then j.settledLength else j.liveLength, position := j.head,
             next := 0 } })
     (∀ mode obeys, ∃ t : State, exec (.viewSet port mode obeys) s = .next t ∧
       (t.journal.listener port).mode = mode.getD l.mode ∧
       (t.journal.listener port).obeys = obeys.getD l.obeys ∧
       (t.port port).answers = (s.port port).answers ++ [answer (mode.getD l.mode) (obeys.getD l.obeys)] ∧
       t = { s with
         journal := j.setListener port (t.journal.listener port), counters := t.counters, ports := t.ports }) ∧
     (∀ mode obeys, mode.getD l.mode = l.mode → obeys.getD l.obeys = l.obeys → gives mode obeys s) ∧
     (l.mode ≠ .off → gives (some .off) none (set { l with
       mode := .off, cursor := j.head, paused := none, repaintPending := false, notes := [], run := none })) ∧
     (∀ m, m ≠ .off → m ≠ l.mode →
       (l.paused ≠ none → gives (some m) none (set { l with mode := m, repaintPending := true })) ∧
       (l.paused = none → gives (some m) none (called m l.obeys { l with mode := m, run := none }))) ∧
     (l.obeys = false →
       (l.mode = .off → gives none (some true) (set { l with obeys := true })) ∧
       (∀ h, l.mode ≠ .off →
         s.holds.holds.find? (fun x => decide ((j.head - l.cursor).toNat ≤ (x.position - l.cursor).toNat)) = some h →
         gives none (some true) (set { l with
           obeys := true, paused := some h.id, notes := l.notes ++ [.paused h.id h.source] }))) ∧
     (∀ id, l.obeys = true → l.paused = some id →
       let owed := l.notes.any (isPausedNote id)
       let notes := if owed then l.notes.filter (fun n => !isPausedNote id n) else l.notes ++ [.resumed id]
       let ended : Listener := { l with obeys := false, paused := none, notes := notes }
       (l.repaintPending = false → gives none (some false) (set (reached ended))) ∧
       (l.repaintPending = true → l.mode ≠ .off →
         gives none (some false) (called l.mode false ended)))) ∧
  (∀ (port : Port) (mode : Option ViewMode) (obeys : Option Bool) (s : State), Takes port .viewSet s →
    let l := s.journal.listener port
    let ends (t : State) : Prop :=
      exec (.viewSet port mode obeys) s
        = .next (eventEnd (pushReply port
            (.answer 5 .ok (byte (modeCode (mode.getD l.mode)) ++ yesNo (obeys.getD l.obeys))) t))
    let moves (t : State) : Prop := match mode with
      | none => ends t
      | some m => ModeChanged ends port m t
    match obeys with
    | none => moves s
    | some b => ObedienceChanged moves port b s)

/-! ### Holds -/

/-- HOLD answers the id of the port's own open hold, or FULL when 8 holds are open, with no other effect. Otherwise
it opens a hold: the first id from the next id on, wrapping from 255 to 1, that no open hold carries, found within
8 trials; a HOLD entry at the head of the journal; a place at the end of the opening order; and a HOLD notice,
whose bytes, the cause an optional field (log entry 13), and whose place after the notices of the entry (log entry
21) are the model's. A listener that stands at the head, with nothing to send, reaches the HOLD entry: one that
obeys holds stops there with a PAUSED note, one that does not offers the entry. -/
def Obligations.HoldOpensAHold : Prop :=
  ∀ (port : Port) (source : HoldSource) (s : State),
    (port = .machine ∧ source = .machine) ∨ (port = .station ∧ source = .station) →
    Rested s → JournalOk s.journal → HoldsOk s.holds → Takes port .hold s →
    let open_ := s.holds.holds
    let o := exec (.hold port) s
    (∀ h ∈ open_, h.source = source → o = .next (answered port .hold .ok (byte h.id ++ byte 0) s)) ∧
    ((∀ h ∈ open_, h.source ≠ source) →
      (open_.length = 8 → o = .next (answered port .hold .full [] s)) ∧
      (open_.length < 8 →
        HoldOpened
          (fun id t => o = .next (driveAttention (pushReply port (.answer 7 .ok (byte id ++ byte 1)) t)))
          source none s ∧
        ∃ (t : State) (id : Nat), o = .next t ∧ (t.holds.holds.map (fun h => h.id)).getLast? = some id ∧
          ∀ other : Port,
            let l := s.journal.listener other
            let l' := t.journal.listener other
            l.cursor = s.journal.head → l.mode ≠ .off → l.paused = none → l.notes = [] → l.run = none →
            (l.obeys = true → l' = { l with paused := some id, notes := [.paused id source] }) ∧
            (l.obeys = false → l' = l ∧
              reachedEntry t.journal l' = some { position := s.journal.head, body := .hold id source })))

/-- UNHOLD closes the open hold of the port's own source, with cause OWNER, and answers its id; with no such
hold it answers OK and does nothing. What the close makes of every listener paused on the hold is in HoldClosed:
moved to another hold it has passed, repainted, or going on from its cursor. The model's are: the form of the
answer and the bytes of the HOLD notice (log entry 13), its place after the notices of the RELEASE entry and of the
repaints (log entry 21), and that a listener paused again keeps a run under way (log entry 28). -/
def Obligations.UnholdClosesTheOwnHold : Prop :=
  ∀ (port : Port) (source : HoldSource) (s : State),
    (port = .machine ∧ source = .machine) ∨ (port = .station ∧ source = .station) →
    Rested s → JournalOk s.journal → HoldsOk s.holds → Takes port .unhold s →
    ((∀ h ∈ s.holds.holds, h.source ≠ source) →
      exec (.unhold port) s = .next (answered port .unhold .ok [0] s)) ∧
    (∀ h ∈ s.holds.holds, h.source = source →
      HoldClosed
        (fun t => exec (.unhold port) s
          = .next (driveAttention (pushReply port (.answer 8 .ok (1 :: byte h.id)) t))) h 0 s)

/-- The limit expiry of an open hold whose age has reached the hold limit closes it with cause LIMIT; that the
command changes nothing otherwise is the model's (log entry 2), and so are the bytes of the HOLD notice (log entry
13) and its place after the other notices of the close (log entry 21). HOLD LIMIT SET takes a limit above 60 as 60,
and closes the holds whose age has reached the new limit, each by HoldClosed, one after another, oldest opening
first, their RELEASE entries standing last in the journal. The COMMAND hold that a reopened unit owns closes with
cause UNDO if it is still open. What a close makes of the listeners paused on the hold is in HoldClosed; that one
paused again keeps a run under way is the model's (log entry 28). Operands that no field could carry follow the
same rules (log entry 22). The end of the event, eventEnd, is log entry 19. -/
def Obligations.HoldLimitClosesHolds : Prop :=
  (∀ (id : Nat) (s : State), Rested s → JournalOk s.journal → HoldsOk s.holds →
    let reached (h : OpenHold) : Prop := s.holds.limit ≠ 0 ∧ s.holds.limit * 245760 ≤ h.age
    ((∀ h ∈ s.holds.holds, h.id = id → ¬reached h) → exec (.holdLimitExpiry id) s = .next s) ∧
    (∀ h ∈ s.holds.holds, h.id = id → reached h →
      HoldClosed (fun t => exec (.holdLimitExpiry id) s = .next (driveAttention t)) h 3 s)) ∧
  (∀ (minutes : Nat) (s : State), Rested s → JournalOk s.journal → HoldsOk s.holds →
    Takes .machine .holdLimitSet s →
    let m := min 60 minutes
    let reached (h : OpenHold) : Bool := decide (m ≠ 0 ∧ m * 245760 ≤ h.age)
    let status : Status := if 60 < minutes then .adjusted else .ok
    ((∀ h ∈ s.holds.holds, reached h = false) →
      exec (.holdLimitSet .machine minutes) s
        = .next (answered .machine .holdLimitSet status (byte m) { s with holds := { s.holds with limit := m } })) ∧
    HoldsClosed
      (fun t => exec (.holdLimitSet .machine minutes) s
        = .next (eventEnd (pushReply .machine (.answer 27 status (byte m)) t)))
      3 (s.holds.holds.filter reached) { s with holds := { s.holds with limit := m } } ∧
    ∃ t : State, exec (.holdLimitSet .machine minutes) s = .next t ∧
      t.holds = { s.holds with limit := m, holds := s.holds.holds.filter (fun h => !reached h) } ∧
      (t.port .machine).answers = (s.port .machine).answers ++ [.answer 27 status (byte m)] ∧
      (∃ before, t.journal.entries.map (fun e => e.body)
        = before ++ (s.holds.holds.filter reached).map (fun h => .release h.id)) ∧
      t = { s with journal := t.journal, holds := t.holds, counters := t.counters, ports := t.ports }) ∧
  (∀ (id : Nat) (unitId : Word) (s : State), HoldsOk s.holds →
    let owned (h : OpenHold) : Prop := h.id = id ∧ h.source = .command ∧ h.owner = some unitId
    closeOwned none unitId s = s ∧
    ((∀ h ∈ s.holds.holds, ¬owned h) → closeOwned (some id) unitId s = s) ∧
    (∀ h ∈ s.holds.holds, owned h → HoldClosed (fun t => closeOwned (some id) unitId s = t) h 2 s))

/-! ### Power and waking -/

/-- The idle timer's expiry begins SETTLING with reason IDLE, every unit of the window then being settled before
the part may pass to DOZE; that before it is due the command changes nothing is the model's (log entry 2). IDLE SET
takes a delay above 240 as 240: 0 stops the timer, one above 0 in place of 0 starts it in READY, and a running
timer goes on from its start, expiring at the request when that point has passed. DOZE begins SETTLING with reason
REQUEST in READY, makes the reason REQUEST in SETTLING, and changes nothing more; its answer is the part state it
ends in. At the end of every command a part in SETTLING passes to DOZE when the Stroke Assembler is IDLE, no record
waits for the Translator, no load has it paused and its window is empty (R151; that it is judged there is log entry
19). The bytes of the POWER notices (log entry 13), and the place of that of the entry into SETTLING before the
notices of the settlement (log entry 21), are the model's. That a listener paused again at a close keeps its run is
log entry 28. Operands that no field could carry follow the same rules (log entry 22). -/
def Obligations.IdlingAndDozeBeginSettling : Prop :=
  (∀ s : State, Rested s →
    let due : Prop := s.power.part = .ready ∧ s.power.idleDelay ≠ 0 ∧ ∃ start, s.power.idleTimer = some start ∧
      s.power.idleDelay * 60000 * 4096 ≤ (s.time.tick - start).toNat * 1000
    (¬due → exec .idleTimerExpiry s = .next s) ∧
    (due → SettlingBegun (exec .idleTimerExpiry s) .idle s.power.idleDelay (fun _ => none) s)) ∧
  (∀ (minutes : Nat) (s : State), Rested s → Takes .machine .idleSet s →
    let d := min 240 minutes
    let status : Status := if 240 < minutes then .adjusted else .ok
    let timer : Option Tick :=
      if d = 0 then none
      else if s.power.idleDelay = 0 ∧ s.power.part = .ready then some s.time.tick
      else s.power.idleTimer
    let due : Prop := s.power.part = .ready ∧ d ≠ 0 ∧ ∃ start, timer = some start ∧
      d * 60000 * 4096 ≤ (s.time.tick - start).toNat * 1000
    (¬due → exec (.idleSet .machine minutes) s
      = .next (answered .machine .idleSet status (byte d)
          { s with power := { s.power with idleDelay := d, idleTimer := timer } })) ∧
    (due → SettlingBegun (exec (.idleSet .machine minutes) s) .idle d
      (fun _ => some (.answer 22 status (byte d))) s)) ∧
  (∀ s : State, Rested s → Takes .machine .doze s →
    (s.power.part = .ready →
      SettlingBegun (exec (.doze .machine) s) .request s.power.idleDelay
        (fun x => some (.answer 23 .ok (byte (partCode x)))) s) ∧
    (s.power.part = .settling → s.power.reason = .idle →
      exec (.doze .machine) s
        = .next (answered .machine .doze .ok (byte 1) { s with power := { s.power with reason := .request } })) ∧
    (s.power.part = .settling → s.power.reason ≠ .idle →
      exec (.doze .machine) s = .next (answered .machine .doze .ok (byte 1) s)) ∧
    (s.power.part = .doze → exec (.doze .machine) s = .next (answered .machine .doze .ok (byte 2) s))) ∧
  (∀ s : State,
    let ready : Prop := s.power.part = .settling ∧ s.capture.assembler.state = .idle ∧
      s.log.translator.cursor = s.log.head ∧ s.dict.layer ≠ .loading ∧ s.dict.layer ≠ .checking ∧
      s.trans.window = []
    (¬ready → eventEnd s = driveAttention (reachAll s)) ∧
    (ready → eventEnd s = driveAttention (reachAll
      (raiseNotice { kind := .power, fields := byte 2 ++ byte (reasonCode s.power.reason) ++ [0] }
        { s with
          power := { s.power with
            part := .doze,
            causes := if s.power.clearOnDoze = true then { pattern := false, machine := false, station := false }
                      else s.power.causes },
          wake := { s.wake with count := 0, gapTimer := false },
          trans := { s.trans with settleAll := false } }))))

/-- WAKE changes nothing in READY; in SETTLING it returns the part to READY with no WAKE record; in DOZE it wakes
the part with the port's cause, and answers the sequence number of the WAKE record. The form of the answer and the
bytes of the POWER notice are the model's (log entry 13). WAKE CAUSES CLEAR empties the wake causes and sets
clear-on-doze when it is given. WAKE SET refuses a chord of 0 or above 8,388,607; otherwise it takes the fields
given, clamped, and in DOZE with any field given drops the run without counting BUMPS. Operands that no field could
carry follow the same rules (log entry 22). -/
def Obligations.WakeRequestsAndSettings : Prop :=
  (∀ (port : Port) (cause : WakeCause) (s : State),
     (port = .machine ∧ cause = .machine) ∨ (port = .station ∧ cause = .station) →
     Rested s → Takes port .wake s →
     (s.power.part = .ready → exec (.wake port) s = .next (answered port .wake .ok [0, 0] s)) ∧
     (s.power.part = .settling →
       exec (.wake port) s
         = .next (driveAttention (pushReply port (.answer 17 .ok [0, 0])
             (raiseNotice { kind := .power, fields := [0, 0, 0] }
               { s with
                 power := { s.power with
                   part := .ready, reason := .none,
                   idleTimer := if s.power.idleDelay = 0 then none else some s.time.tick },
                 trans := { s.trans with settleAll := false } })))) ∧
     (s.power.part = .doze →
       exec (.wake port) s
         = .next (driveAttention (pushReply port (.answer 17 .ok ([0, 1] ++ num 4 s.log.head.toNat))
             (woken cause s))))) ∧
  (∀ (clear : Option Bool) (s : State), Rested s → Takes .machine .wakeCausesClear s →
    exec (.wakeCausesClear .machine clear) s
      = .next (answered .machine .wakeCausesClear .ok
          (byte (if clear.getD s.power.clearOnDoze then 1 else 0))
          { s with power := { s.power with
              causes := { pattern := false, machine := false, station := false },
              clearOnDoze := clear.getD s.power.clearOnDoze } })) ∧
  (∀ (chord count gap : Option Nat) (s : State), Rested s → Takes .machine .wakeSet s →
    ((∃ c, chord = some c ∧ (c = 0 ∨ 8388607 < c)) →
      exec (.wakeSet .machine chord count gap) s = .next (answered .machine .wakeSet .outOfRange [] s)) ∧
    ((∀ c, chord = some c → 1 ≤ c ∧ c ≤ 8388607) →
      let c : Chord := match chord with
        | none => s.wake.chord
        | some v => BitVec.ofNat 23 v
      let n : Nat := match count with
        | none => s.wake.needed
        | some v => min 8 (max 2 v)
      let g : Nat := match gap with
        | none => s.wake.gap
        | some v => min 3000 (max 200 v)
      let status : Status :=
        if (∀ v, count = some v → 2 ≤ v ∧ v ≤ 8) ∧ (∀ v, gap = some v → 200 ≤ v ∧ v ≤ 3000) then .ok
        else .adjusted
      let set : WakeDetector := { s.wake with chord := c, needed := n, gap := g }
      let dropped : Prop := s.power.part = .doze ∧ ¬(chord = none ∧ count = none ∧ gap = none)
      (dropped → exec (.wakeSet .machine chord count gap) s
        = .next (answered .machine .wakeSet status (num 3 c.toNat ++ byte n ++ num 2 g)
            { s with wake := { set with count := 0, gapTimer := false, heldOver := false } })) ∧
      (¬dropped → exec (.wakeSet .machine chord count gap) s
        = .next (answered .machine .wakeSet status (num 3 c.toNat ++ byte n ++ num 2 g)
            { s with wake := set }))))

/-- The Wake Detector's judgement of a stroke of destination WAKE that a scan closes in DOZE, and the gap timer's
expiry: a stroke that does not match counts BUMPS and drops the run, one within the gap carries the run on, one
beyond it begins another, the one that brings the count to N wakes the part with cause PATTERN, and a closed stroke
whose own gap has passed expires it at once. A stroke of destination WAKE closed in READY or SETTLING is discarded.
The gap timer's expiry drops the run, or holds it over for a stroke of destination WAKE still open. A stroke that
the stroke limit, LINE SET or LINE TOGGLE closes is judged the same way; that is said by
StrokeLimitClosesTheStroke, LineSetConfiguresALine and LineToggleFlipsTheSet. The model's are: that before the gap
timer is due its command changes nothing (log entry 2), and the bytes of the POWER notice (log entry 13). The order
of the notices of one event is log entry 21. A depth missing from a scan reads 0 (log entry 23). The end of the
event, eventEnd, is log entry 19. -/
def Obligations.WakeDetectorJudgesStrokes : Prop :=
  ∀ s : State, Rested s →
    let a := s.capture.assembler
    let w := s.wake
    let beyond (since now : Tick) : Prop := w.gap * 4096 ≤ (now - since).toNat * 1000
    (w.gapTimer = false ∨ ¬beyond w.lastMatch s.time.tick → exec .gapTimerExpiry s = .next s) ∧
    (w.gapTimer = true → beyond w.lastMatch s.time.tick →
      (a.state = .gathering → a.destination = .wake →
        exec .gapTimerExpiry s = .next { s with wake := { w with gapTimer := false, heldOver := true } }) ∧
      (a.state ≠ .gathering ∨ a.destination ≠ .wake →
        exec .gapTimerExpiry s
          = .next (driveAttention (countEvents .bumps w.count
              { s with wake := { w with count := 0, gapTimer := false } })))) ∧
    ∀ depths : List Byte,
      let after := scanLines s.capture.debounce s.capture.lines depths
      markPresses s.capture.lines after = 0 → holdPressed after = holdPressed s.capture.lines →
      pressedKeys after = 0 → a.state = .gathering → a.destination = .wake →
      let closed : State :=
        { s with capture :=
            { s.capture with lines := after, assembler := { a with state := .idle, chord := 0 } } }
      (s.power.part = .ready → exec (.scan depths) s = .next closed) ∧
      (s.power.part = .settling → exec (.scan depths) s = .next (eventEnd closed)) ∧
      (s.power.part = .doze →
        (a.chord ≠ w.chord →
          exec (.scan depths) s
            = .next (driveAttention (countEvents .bumps (w.count + 1)
                { closed with wake := { w with count := 0, gapTimer := false, heldOver := false } }))) ∧
        (a.chord = w.chord →
          let within : Prop := w.heldOver = true ∨ ¬beyond w.lastMatch a.openTick
          (∀ (m : Nat) (judged : State),
            (w.count = 0 ∧ m = 1 ∧ judged = closed) ∨
            (w.count ≠ 0 ∧ within ∧ m = w.count + 1 ∧ judged = closed) ∨
            (w.count ≠ 0 ∧ ¬within ∧ m = 1 ∧ judged = countEvents .bumps w.count closed) →
            (w.needed ≤ m → exec (.scan depths) s = .next (driveAttention (woken .pattern judged))) ∧
            (m < w.needed → ¬beyond a.openTick s.time.tick →
              exec (.scan depths) s
                = .next (driveAttention { judged with wake :=
                    { w with count := m, lastMatch := a.openTick, gapTimer := true, heldOver := false } })) ∧
            (m < w.needed → beyond a.openTick s.time.tick →
              exec (.scan depths) s
                = .next (driveAttention (countEvents .bumps m { judged with wake :=
                    { w with count := 0, lastMatch := a.openTick, gapTimer := false, heldOver := false } }))))))

/-! ### Counters, notices and the ports -/

/-- A count adds its amount to its counter alone, stopping at 65,535, where the mark is set; the event that
sets the mark raises one SATURATE notice. A notice raised is queued on each port whose
enables hold its kind, or dropped with the missed flag set when the queue holds 8, and does nothing on any other
port. -/
def Obligations.NoticesAndCounts : Prop :=
  (∀ (c : Counter) (amount : Nat) (s : State), 1 ≤ amount → CountersOk s.counters →
    let old := runningTally s.counters c
    let value := if 65535 < old.value + amount then 65535 else old.value + amount
    let mark := old.mark || decide (value = 65535)
    let added : State :=
      { s with counters :=
          { s.counters with running := s.counters.running.set (counterIndex c) { value := value, mark := mark } } }
    countEvents c amount s =
      if mark = true ∧ old.mark = false then
        raiseNotice
          { kind := .saturate,
            fields := byte (counterIndex c + 1) ++ num 4 (s.counters.snapNumber + 1).toNat
              ++ stampFields (stampNow s) } added
      else added) ∧
  (∀ (n : Notice) (s : State) (port : Port),
    let p := s.port port
    let enabled : Bool := p.enables.getLsbD (noticeCode n.kind)
    (raiseNotice n s).port port =
      (if enabled = true ∧ p.notices.length < 8 then { p with notices := p.notices ++ [n] }
       else if enabled = true then { p with noticesMissed := true }
       else p) ∧
    raiseNotice n s = { s with ports := (raiseNotice n s).ports })

/-- A snapshot moves the running tallies into the snapshot set, converts the interval age to milliseconds,
counts one, begins an interval and raises a SNAP notice. It is taken at the expiry of the interval with cause
TIMER, by COUNTERS SNAP with the port as its cause, and by COUNTERS AUTO that turns auto on with cause MACHINE;
COUNTERS AUTO otherwise sets auto alone. The model's are: that an interval expiry that is not due changes nothing
(log entry 2), and the form of the marks in an answer (log entry 13). -/
def Obligations.SnapshotsAreTaken : Prop :=
  ∀ s : State, Rested s →
    let q := s.counters
    let moved (cause : SnapCause) : Counters :=
      { q with
        running := List.replicate 13 { value := 0, mark := false }, snapshot := q.running,
        snapInterval := (q.intervalAge * 1000 + 2048) / 4096, snapNumber := q.snapNumber + 1,
        snapCause := cause, intervalStart := s.time.tick, intervalAge := 0 }
    let snapped (cause : SnapCause) (auto : Bool) : State :=
      raiseNotice
        { kind := .snap,
          fields := num 4 (q.snapNumber + 1).toNat ++ byte (snapCauseCode cause)
            ++ num 4 ((q.intervalAge * 1000 + 2048) / 4096) }
        { s with counters := { moved cause with auto := auto } }
    let due : Prop := q.auto = true ∧ 4096 ≤ q.intervalAge
    (¬due → exec .intervalExpiry s = .next s) ∧
    (due → exec .intervalExpiry s = .next (driveAttention (snapped .timer q.auto))) ∧
    (∀ (port : Port) (cause : SnapCause),
      (port = .machine ∧ cause = .machine) ∨ (port = .station ∧ cause = .station) ∨
        (port = .feed ∧ cause = .feed) →
      Takes port .countersSnap s →
      exec (.countersSnap port) s
        = .next (driveAttention (pushReply port
            (.answer 3 .ok ((q.running.map (fun t => num 2 t.value)).flatten
              ++ (q.running.map (fun t => byte (if t.mark then 1 else 0))).flatten
              ++ num 4 ((q.intervalAge * 1000 + 2048) / 4096) ++ num 4 (q.snapNumber + 1).toNat
              ++ byte (snapCauseCode cause)))
            (snapped cause q.auto)))) ∧
    (Takes .machine .countersAuto s →
      (q.auto = false →
        exec (.countersAuto .machine true) s
          = .next (driveAttention (pushReply .machine
              (.answer 28 .ok (byte 1 ++ num 4 (q.snapNumber + 1).toNat)) (snapped .machine true)))) ∧
      (q.auto = true →
        exec (.countersAuto .machine true) s
          = .next (answered .machine .countersAuto .ok (byte 1 ++ num 4 q.snapNumber.toNat) s)) ∧
      exec (.countersAuto .machine false) s
        = .next (answered .machine .countersAuto .ok (byte 0 ++ num 4 q.snapNumber.toNat)
            { s with counters := { q with auto := false } }))

/-- COUNTERS READ answers the snapshot set and changes nothing; that its answer carries the marks as one byte
each is the model's (log entry 13). STATUS answers the nine groups in order, with the port's own reader and hold
on the Machine and Station ports and the wake causes there, and clears the port's two flags. -/
def Obligations.ReadsReportTheState : Prop :=
  ∀ (port : Port) (s : State), Rested s →
    let q := s.counters
    let j := s.journal
    let l := j.listener port
    let t := s.trans
    let yes (b : Bool) : List Byte := byte (if b then 1 else 0)
    let present (o : Option (List Byte)) : List Byte := match o with
      | none => [0]
      | some f => 1 :: f
    let readerState (r : Reader) : List Byte := yes r.on ++ num 4 r.cursor.toNat ++ num 4 r.lost.toNat
    let own (source : HoldSource) : List Byte :=
      present ((s.holds.holds.find? (fun h => h.source == source)).map (fun h => byte h.id))
    let hold (h : OpenHold) : List Byte :=
      byte h.id ++ byte (sourceCode h.source) ++ present (h.owner.map (fun w => num 4 w.toNat))
        ++ num 4 h.position.toNat ++ num 3 (h.age / 4096)
    let causes : List Byte :=
      byte ((if s.power.causes.pattern then 1 else 0) + (if s.power.causes.machine then 2 else 0)
        + (if s.power.causes.station then 4 else 0)) ++ yes s.power.clearOnDoze
    let groups : List (List Byte) :=
      [num 4 s.log.head.toNat ++ num 2 s.log.records.length ++ num 2 s.log.job
        ++ (match port with
            | .machine => readerState s.log.machine
            | .station => readerState s.log.station
            | .feed => []),
       byte (followerCode s.time.state) ++ byte (qualityCode s.time.quality) ++ num 4 (stampNow s).ms
        ++ yes s.time.present ++ present (s.time.take.map (num 2)),
       byte (layerCode s.dict.layer) ++ byte (resultCode s.dict.result) ++ byte (claimCode s.dict.claim)
        ++ num 4 s.dict.total ++ num 4 s.dict.received ++ num 2 s.dict.job.length,
       byte t.window.length ++ byte t.provisional.length
        ++ num 2 ((t.provisional.map (fun u => u.text.length)).sum) ++ byte t.undo.length
        ++ byte ((if t.base.line then 1 else 0) + (if t.base.cap then 2 else 0) + (if t.base.low then 4 else 0)
            + (if t.base.att then 8 else 0) + (if t.base.num then 16 else 0) + (if t.base.glu then 32 else 0))
        ++ num 4 t.idCounter.toNat ++ yes t.recomputePending,
       num 4 j.head.toNat ++ num 2 j.entries.length ++ num 4 j.liveLength.toNat ++ num 4 j.settledLength.toNat
        ++ num 2 j.liveTail.length ++ num 2 j.settledTail.length ++ byte (modeCode l.mode) ++ yes l.obeys
        ++ num 4 l.cursor.toNat ++ present (l.paused.map byte) ++ yes l.repaintPending,
       byte s.holds.limit ++ byte s.holds.nextId ++ byte s.holds.holds.length
        ++ (s.holds.holds.map hold).flatten
        ++ (match port with
            | .machine => own .machine
            | .station => own .station
            | .feed => []),
       byte (partCode s.power.part) ++ byte (reasonCode s.power.reason) ++ byte s.power.idleDelay
        ++ present (s.power.idleTimer.map (fun start => num 2 ((s.time.tick - start).toNat / 4096)))
        ++ num 3 s.wake.chord.toNat ++ byte s.wake.needed ++ num 2 s.wake.gap ++ byte s.wake.count
        ++ (match port with
            | .machine | .station => causes
            | .feed => []),
       yes q.auto ++ num 4 q.snapNumber.toNat ++ num 3 (q.intervalAge / 4096),
       byte (s.port port).enables.toNat ++ yes (s.port port).noticesMissed ++ yes (s.port port).requestsDropped
        ++ byte s.ports.feedAddress ++ byte s.ports.courtChannel]
    (Takes port .countersRead s →
      exec (.countersRead port) s
        = .next (answered port .countersRead .ok
            ((q.snapshot.map (fun t => num 2 t.value)).flatten
              ++ (q.snapshot.map (fun t => yes t.mark)).flatten
              ++ num 4 q.snapInterval ++ num 4 q.snapNumber.toNat ++ byte (snapCauseCode q.snapCause)) s)) ∧
    (Takes port .status s →
      exec (.status port) s
        = .next (answered port .status .ok groups.flatten
            (s.setPort port { s.port port with noticesMissed := false, requestsDropped := false })))

/-- NOTICES SET replaces the port's notice enables, leaves the notices already queued, and answers the set in
force; a notice raised on the port after it is queued when its kind is in the new set, and dropped when it is
not. -/
def Obligations.NoticesSetReplacesTheEnables : Prop :=
  ∀ (port : Port) (kinds : NoticeSet) (s : State), Rested s → Takes port .noticesSet s →
    let enabled : PortState := { s.port port with enables := kinds }
    let t := answered port .noticesSet .ok (byte kinds.toNat) (s.setPort port enabled)
    exec (.noticesSet port kinds) s = .next t ∧ (t.port port).notices = (s.port port).notices ∧
    ∀ n : Notice,
      (kinds.getLsbD (noticeCode n.kind) = false → noticeOn port n t = t) ∧
      (kinds.getLsbD (noticeCode n.kind) = true → (s.port port).notices.length < 8 →
        ((noticeOn port n t).port port).notices = (s.port port).notices ++ [n])

/-- FEED SET takes the fields given, and refuses a feed address of 0 or 255. FEED QUERY is ignored when its body is
not one byte, or when its channel differs from the court channel with neither of them 0; any other is answered with
a STATUS REPLY (its form is log entry 32). That the command carries what follows the address, and that an ignored
query leaves no trace, is log entry 30. Operands that no field could carry follow the same rules (log entry 22). -/
def Obligations.FeedSetAndFeedQuery : Prop :=
  (∀ (address channel : Option Nat) (s : State), Rested s → Takes .machine .feedSet s →
    ((∃ a, address = some a ∧ (a = 0 ∨ 254 < a)) →
      exec (.feedSet .machine address channel) s = .next (answered .machine .feedSet .outOfRange [] s)) ∧
    ((∀ a, address = some a → 1 ≤ a ∧ a ≤ 254) →
      let a := address.getD s.ports.feedAddress
      let c := channel.getD s.ports.courtChannel
      exec (.feedSet .machine address channel) s
        = .next (answered .machine .feedSet .ok (byte a ++ byte c)
            { s with ports := { s.ports with feedAddress := a, courtChannel := c } }))) ∧
  (∀ (fields : List Byte) (s : State), Rested s → Takes .feed .feedQuery s →
    let court := s.ports.courtChannel
    (fields.length ≠ 1 → exec (.feedQuery .feed fields) s = .next s) ∧
    (∀ channel : Byte, fields = [channel] →
      (channel.toNat ≠ court → channel ≠ 0 → court ≠ 0 → exec (.feedQuery .feed fields) s = .next s) ∧
      (channel.toNat = court ∨ channel = 0 ∨ court = 0 →
        exec (.feedQuery .feed fields) s
          = .next (replied .feed (.statusReply
              (byte s.ports.feedAddress ++ byte (partCode s.power.part) ++ num 2 s.log.job
                ++ byte (modeCode s.journal.feed.mode)
                ++ byte (if s.journal.feed.paused = none then 0 else 1)
                ++ byte (qualityCode s.time.quality) ++ num 4 (stampNow s).ms
                ++ (match s.journal.lastFix with
                    | none => [0]
                    | some ms => 1 :: num 4 ms))) s))))

/-- RECEIVE_BYTE by the state of the receive assembler. A good frame is taken in the same step as the command it
holds, which is the model's (log entry 10), on the Feed port by its address; a request whose body is not in shape
is answered OUT_OF_RANGE; a frame that fails its check counts BAD_FRAMES, and its bytes are judged again, stated
for bytes in which no start code comes before the last. On the Machine port the exchange sends a byte first: the
next of the frame being sent, one being chosen if none is, or 0 (log entry 11); a listener whose message the
exchange begins passes what it passes at once before the byte received is judged (R121). The exchange that sends
the last byte of a frame frees the transmitter (log entry 12). -/
def Obligations.ReceivedBytesMakeFrames : Prop :=
  ∀ (port : Port) (b : Byte) (s : State), Rested s → JournalOk s.journal →
    let begun := beginMessage .machine s
    let exchanged : State :=
      reachAll { begun with ports :=
          { begun.ports with
            machine := { begun.ports.machine with sending :=
              (match begun.ports.machine.sending with
               | none => none
               | some x => if x.frame.length ≤ x.sent + 1 then none else some { x with sent := x.sent + 1 }) },
            lastOut := (match begun.ports.machine.sending with
               | none => 0
               | some x => x.frame.getD x.sent 0) } }
    let u : State := match port with
      | .machine => exchanged
      | .station | .feed => s
    let heard (r : Receive) : State := u.setPort port { u.port port with receive := r }
    let became (t : State) : Prop := exec (.receiveByte port b) s = .next (driveAttention (reachAll t))
    ((s.port port).receive = .hunt → b ≠ 195 → became u) ∧
    ((s.port port).receive = .hunt → b = 195 → became (heard .length)) ∧
    ((s.port port).receive = .length →
      (b = 0 → became (countOne .badFrames (heard .hunt))) ∧
      (1 ≤ b.toNat → b.toNat ≤ 251 → became (heard (.body [b]))) ∧
      (252 ≤ b.toNat → became (heard .hunt))) ∧
    ∀ (n : Byte) (held : List Byte), (s.port port).receive = .body (n :: held) →
      (held.length < n.toNat → became (heard (.body (n :: held ++ [b])))) ∧
      (held.length = n.toNat →
        let good : Prop := (n :: held ++ [b]).foldl (fun x y => x + y) 0 = 0
        let taken (kind : Byte) (fields : List Byte) : Prop :=
          (∀ (k : RequestKind) (i : Instr), kindOf kind = some k → parseRequest port k fields = some i →
            exec (.receiveByte port b) s = exec i (heard .hunt)) ∧
          (∀ k : RequestKind, kindOf kind = some k → parseRequest port k fields = none →
            (u.port port).answers.length < 4 →
            became (pushReply port
              (.answer kind (if permitted k port then .outOfRange else .notFromPort) []) (heard .hunt))) ∧
          (kindOf kind = none → exec (.receiveByte port b) s = exec (.unknownKind port kind) (heard .hunt))
        (∀ kind fields, good → held = kind :: fields →
          (port ≠ .feed → taken kind fields) ∧
          (port = .feed →
            (fields = [] → became (heard .hunt)) ∧
            (∀ address rest, fields = address :: rest →
              (address.toNat = u.ports.feedAddress ∨ (address = 255 ∧ kind = 34) → taken kind rest) ∧
              (address.toNat ≠ u.ports.feedAddress → ¬(address = 255 ∧ kind = 34) → became (heard .hunt))))) ∧
        (¬good → (∀ x ∈ n :: held, x ≠ 195) →
          (b ≠ 195 → became (countOne .badFrames (heard .hunt))) ∧
          (b = 195 →
            let failed := countOne .badFrames (heard .hunt)
            became (failed.setPort port { failed.port port with receive := .length }))))

/-- TRANSMIT_BEGIN on a free transmitter begins the oldest answer, else the oldest notice, else a stream message:
the reader's record or the listener's message, by the stream turn when both offer. The turn passes, the reader
passes its record, and the listener's note, part or entry is begun; the frame counts its bytes, sums to 0, and on
the Feed port carries the feed address first. A port that sends is left as it is. FRAME_SENT frees the transmitter,
which on the Station and Feed ports chooses at once (log entry 12). The model's are: that TRANSMIT_BEGIN with
nothing to send and FRAME_SENT with no frame sent change nothing (log entry 2), and that FRAME_SENT on the Machine
port frees it whatever bytes of the frame are still to be exchanged (log entry 38), and that a Station or Feed
transmitter chooses after the whole event, an answer or notice before a stream message offered by the same event
(log entry 40). -/
def Obligations.TransmittersSendWhatWaits : Prop :=
  ∀ (port : Port) (s : State), Rested s →
    let p := s.port port
    let l := s.journal.listener port
    let frame (kind : Byte) (body : List Byte) : List Byte :=
      let addressed := (match port with
        | .feed => byte s.ports.feedAddress ++ body
        | .machine | .station => body)
      let counted := BitVec.ofNat 8 (addressed.length + 1) :: kind :: addressed
      195 :: (counted ++ [0 - counted.foldl (fun x y => x + y) 0])
    let begins (kind : Byte) (body : List Byte) (x : PortState) (t : State) : Prop :=
      exec (.transmitBegin port) s
        = .next (driveAttention (reachAll
            (t.setPort port { x with sending := some { frame := frame kind body, sent := 0 } })))
    let readerSends (name : ReaderName) : Prop :=
      ∃ r, readerOffer s.log name = some r ∧
        begins 130 (strokeBody (s.log.reader name).lost r) { p with turn := .listener }
          (s.setReader name { s.log.reader name with
            cursor := (s.log.reader name).cursor + 1, passed := (s.log.reader name).passed + 1,
            inRun := false })
    let offered : Prop := l.notes ≠ [] ∨ l.run ≠ none ∨ reachedEntry s.journal l ≠ none
    let listenerSends : Prop :=
      (∀ note rest, l.notes = note :: rest →
        begins (noteMessage note).1 (noteMessage note).2 { p with turn := .stroke }
          (s.setListener port { l with notes := rest })) ∧
      (∀ run, l.notes = [] → l.run = some run →
        begins 132 (repaintBody run) { p with turn := .stroke }
          (s.setListener port { l with
            run := if run.next + 1 < runParts run then some { run with next := run.next + 1 } else none })) ∧
      (∀ e, l.notes = [] → l.run = none → reachedEntry s.journal l = some e →
        begins 131 (textBody e) { p with turn := .stroke }
          (s.setListener port { l with cursor := l.cursor + 1 }))
    let readerOf (name : ReaderName) : Prop :=
      (port = .machine ∧ name = .machine) ∨ (port = .station ∧ name = .station)
    let noRecord : Prop := ∀ name, readerOf name → readerOffer s.log name = none
    (p.sending ≠ none → exec (.transmitBegin port) s = .next s) ∧
    (p.sending = none →
      (∀ r rest, p.answers = r :: rest →
        begins (replyMessage r).1 (replyMessage r).2 { p with answers := rest } s) ∧
      (∀ x rest, p.answers = [] → p.notices = x :: rest →
        begins 129 (byte (noticeCode x.kind) ++ x.fields) { p with notices := rest } s) ∧
      (p.answers = [] → p.notices = [] →
        (∀ name, readerOf name → readerOffer s.log name ≠ none → (p.turn = .stroke ∨ ¬offered) →
          readerSends name) ∧
        (offered → (p.turn = .listener ∨ noRecord) → listenerSends) ∧
        (¬offered → noRecord → exec (.transmitBegin port) s = .next s))) ∧
    (p.sending = none → exec (.frameSent port) s = .next s) ∧
    (p.sending ≠ none →
      let freed := s.setPort port { p with sending := none }
      (port = .machine → exec (.frameSent port) s = .next (driveAttention freed)) ∧
      (port ≠ .machine → exec (.frameSent port) s = exec (.transmitBegin port) freed))

/-! ### What every step keeps -/

/-- Every step keeps the dictionary store in order: memory in canonical form, a load's claim, timer, header and
lengths as its state has them, and the Job table's keys, counts and prefixes. What an unlisted byte of memory reads
as is the model's (log entry 17). -/
def Obligations.StepKeepsTheDictionary : Prop :=
  ∀ s t : State, memoryWf s.dict.memory = true ∧ LoadOk s.dict ∧ JobTableOk s.dict.job →
    step s = .next t → memoryWf t.dict.memory = true ∧ LoadOk t.dict ∧ JobTableOk t.dict.job

/-- Every step keeps the Stroke Log: consecutive sequence numbers up to the head, readers on held records or at the
head, and each reader's balance of records passed, lost and waiting. The balance is that of the model's field (log
entry 8). -/
def Obligations.StepKeepsTheStrokeLog : Prop :=
  ∀ s t : State, LogOk s.log → step s = .next t → LogOk t.log

/-- Every step keeps the Text Journal and its listeners, and leaves the part between events: every listener has
reached what it can, the passage to DOZE is not due, and the attention output is at its level. That the passage is
judged at the end of every command is log entry 19. -/
def Obligations.StepKeepsTheJournal : Prop :=
  ∀ s t : State, JournalOk s.journal ∧ Rested s → step s = .next t → JournalOk t.journal ∧ Rested t

/-- Every step keeps the Hold Table: at most 8 holds, unique ids, one hold at most of each source but
COMMAND. -/
def Obligations.StepKeepsTheHoldTable : Prop :=
  ∀ s t : State, HoldsOk s.holds → step s = .next t → HoldsOk t.holds

/-- Every step keeps the Quality Counters and the ports' queues and receive assemblers within their bounds. -/
def Obligations.StepKeepsCountersAndPorts : Prop :=
  ∀ s t : State, CountersOk s.counters ∧ PortsOk s.ports → step s = .next t →
    CountersOk t.counters ∧ PortsOk t.ports

/-- Every step keeps the Translator: the units cover the window, fewer than 8 strokes wait, and the undo
history holds at most 32 units. -/
def Obligations.StepKeepsTheTranslator : Prop :=
  ∀ s t : State, TranslatorOk s.trans → step s = .next t → TranslatorOk t.trans

/-- Every step keeps Power Control and the Wake Detector in legal states. -/
def Obligations.StepKeepsThePowerState : Prop :=
  ∀ s t : State, PowerOk s ∧ WakeOk s → step s = .next t → PowerOk t ∧ WakeOk t

/-- Every step keeps the Stroke Assembler, IDLE exactly when no steno key is pressed and its chord holding
every key pressed in OPEN, and the quality the one the state of the Time Follower gives. -/
def Obligations.StepKeepsSensingAndTime : Prop :=
  ∀ s t : State, AssemblerOk s.capture ∧ QualityOk s.time → step s = .next t →
    AssemblerOk t.capture ∧ QualityOk t.time
end

