-- ==== Sys2Proof/Laws/State.lean ====
section
/-! SUPPORT. One lemma per field of each record update that the meanings share, so that no proof unfolds
one. -/

namespace Sys2Proof.Machine

/-! ### One port, listener or reader among three -/

@[simp] theorem Ports.get_set_self (p : Ports) (port : Port) (v : PortState) : (p.set port v).get port = v := by
  cases port <;> rfl

theorem Ports.get_set_other (p : Ports) {port other : Port} (v : PortState) (h : other ≠ port) :
    (p.set port v).get other = p.get other := by
  cases port <;> cases other <;> first | rfl | exact absurd rfl h

@[simp] theorem Ports.set_attention (p : Ports) (port : Port) (v : PortState) :
    (p.set port v).attention = p.attention := by
  cases port <;> rfl

@[simp] theorem Ports.set_feedAddress (p : Ports) (port : Port) (v : PortState) :
    (p.set port v).feedAddress = p.feedAddress := by
  cases port <;> rfl

@[simp] theorem Ports.set_courtChannel (p : Ports) (port : Port) (v : PortState) :
    (p.set port v).courtChannel = p.courtChannel := by
  cases port <;> rfl

@[simp] theorem Ports.set_lastOut (p : Ports) (port : Port) (v : PortState) :
    (p.set port v).lastOut = p.lastOut := by
  cases port <;> rfl

@[simp] theorem Ports.set_get (p : Ports) (port : Port) : p.set port (p.get port) = p := by
  cases port <;> rfl

@[simp] theorem Ports.set_set (p : Ports) (port : Port) (v w : PortState) :
    (p.set port v).set port w = p.set port w := by
  cases port <;> rfl

@[simp] theorem Journal.listener_set_self (j : Journal) (port : Port) (l : Listener) :
    (j.setListener port l).listener port = l := by
  cases port <;> rfl

theorem Journal.listener_set_other (j : Journal) {port other : Port} (l : Listener) (h : other ≠ port) :
    (j.setListener port l).listener other = j.listener other := by
  cases port <;> cases other <;> first | rfl | exact absurd rfl h

@[simp] theorem Journal.setListener_entries (j : Journal) (port : Port) (l : Listener) :
    (j.setListener port l).entries = j.entries := by
  cases port <;> rfl

@[simp] theorem Journal.setListener_head (j : Journal) (port : Port) (l : Listener) :
    (j.setListener port l).head = j.head := by
  cases port <;> rfl

@[simp] theorem Journal.setListener_liveLength (j : Journal) (port : Port) (l : Listener) :
    (j.setListener port l).liveLength = j.liveLength := by
  cases port <;> rfl

@[simp] theorem Journal.setListener_settledLength (j : Journal) (port : Port) (l : Listener) :
    (j.setListener port l).settledLength = j.settledLength := by
  cases port <;> rfl

@[simp] theorem Journal.setListener_liveTail (j : Journal) (port : Port) (l : Listener) :
    (j.setListener port l).liveTail = j.liveTail := by
  cases port <;> rfl

@[simp] theorem Journal.setListener_settledTail (j : Journal) (port : Port) (l : Listener) :
    (j.setListener port l).settledTail = j.settledTail := by
  cases port <;> rfl

@[simp] theorem Journal.setListener_lastFix (j : Journal) (port : Port) (l : Listener) :
    (j.setListener port l).lastFix = j.lastFix := by
  cases port <;> rfl

@[simp] theorem Journal.setListener_listener (j : Journal) (port : Port) :
    j.setListener port (j.listener port) = j := by
  cases port <;> rfl

@[simp] theorem StrokeLog.reader_set_self (g : StrokeLog) (name : ReaderName) (r : Reader) :
    (g.setReader name r).reader name = r := by
  cases name <;> rfl

theorem StrokeLog.reader_set_other (g : StrokeLog) {name other : ReaderName} (r : Reader) (h : other ≠ name) :
    (g.setReader name r).reader other = g.reader other := by
  cases name <;> cases other <;> first | rfl | exact absurd rfl h

@[simp] theorem StrokeLog.setReader_records (g : StrokeLog) (name : ReaderName) (r : Reader) :
    (g.setReader name r).records = g.records := by
  cases name <;> rfl

@[simp] theorem StrokeLog.setReader_head (g : StrokeLog) (name : ReaderName) (r : Reader) :
    (g.setReader name r).head = g.head := by
  cases name <;> rfl

@[simp] theorem StrokeLog.setReader_wrapped (g : StrokeLog) (name : ReaderName) (r : Reader) :
    (g.setReader name r).wrapped = g.wrapped := by
  cases name <;> rfl

@[simp] theorem StrokeLog.setReader_job (g : StrokeLog) (name : ReaderName) (r : Reader) :
    (g.setReader name r).job = g.job := by
  cases name <;> rfl

/-! ### Replacing one part of the state -/

/-- Two states are the same when their blocks are. -/
theorem State.eq_of_blocks {s t : State}
    (h : s.capture = t.capture ∧ s.log = t.log ∧ s.time = t.time ∧ s.dict = t.dict ∧ s.trans = t.trans ∧
      s.journal = t.journal ∧ s.holds = t.holds ∧ s.power = t.power ∧ s.wake = t.wake ∧
      s.counters = t.counters ∧ s.ports = t.ports ∧ s.pending = t.pending) : s = t := by
  cases s
  cases t
  simp only [State.mk.injEq]
  exact h

@[simp] theorem State.port_eq (s : State) (port : Port) : s.port port = s.ports.get port := rfl

@[simp] theorem State.listener_eq (s : State) (port : Port) : s.listener port = s.journal.listener port := rfl

@[simp] theorem State.setPort_ports (s : State) (port : Port) (v : PortState) :
    (s.setPort port v).ports = s.ports.set port v := rfl

@[simp] theorem State.setListener_journal (s : State) (port : Port) (l : Listener) :
    (s.setListener port l).journal = s.journal.setListener port l := rfl

@[simp] theorem State.setReader_log (s : State) (name : ReaderName) (r : Reader) :
    (s.setReader name r).log = s.log.setReader name r := rfl

@[simp] theorem setTime_time (t : TimeFollower) (s : State) : (setTime t s).time = t := rfl

@[simp] theorem setDict_dict (d : Dictionary) (s : State) : (setDict d s).dict = d := rfl

@[simp] theorem setPower_power (p : Power) (s : State) : (setPower p s).power = p := rfl

@[simp] theorem setAssembler_capture (a : Assembler) (s : State) :
    (setAssembler a s).capture = { s.capture with assembler := a } := rfl

@[simp] theorem setGranted_capture (b : Bool) (s : State) :
    (setGranted b s).capture = { s.capture with holdGranted := b } := rfl

@[simp] theorem setSettleAll_trans (b : Bool) (s : State) :
    (setSettleAll b s).trans = { s.trans with settleAll := b } := rfl

@[simp] theorem setJob_dict (slots : List JobSlot) (s : State) :
    (setJob slots s).dict = { s.dict with job := slots } := rfl

@[simp] theorem pauseTranslator_trans (s : State) :
    (pauseTranslator s).trans = { s.trans with settleTimer := none } := rfl

end Sys2Proof.Machine
end

