-- ==== Sys2Proof/Laws/Frames.lean ====
section
/-! SUPPORT. Frames: for each shared operation, the blocks of the part it leaves unchanged, said once. -/

namespace Sys2Proof.Machine

/-! ### Updates -/

/-- What `State.setPort` leaves unchanged. -/
@[simp] theorem State.setPort_frame (s : State) (port : Port) (v : PortState) :
    (State.setPort s port v).capture = s.capture ∧ (State.setPort s port v).log = s.log ∧
    (State.setPort s port v).time = s.time ∧ (State.setPort s port v).dict = s.dict ∧
    (State.setPort s port v).trans = s.trans ∧ (State.setPort s port v).journal = s.journal ∧
    (State.setPort s port v).holds = s.holds ∧ (State.setPort s port v).power = s.power ∧
    (State.setPort s port v).wake = s.wake ∧ (State.setPort s port v).counters = s.counters ∧
    (State.setPort s port v).pending = s.pending := by
  simp [State.setPort]

/-- What `State.setListener` leaves unchanged. -/
@[simp] theorem State.setListener_frame (s : State) (port : Port) (l : Listener) :
    (State.setListener s port l).capture = s.capture ∧ (State.setListener s port l).log = s.log ∧
    (State.setListener s port l).time = s.time ∧ (State.setListener s port l).dict = s.dict ∧
    (State.setListener s port l).trans = s.trans ∧ (State.setListener s port l).holds = s.holds ∧
    (State.setListener s port l).power = s.power ∧ (State.setListener s port l).wake = s.wake ∧
    (State.setListener s port l).counters = s.counters ∧ (State.setListener s port l).ports = s.ports ∧
    (State.setListener s port l).pending = s.pending := by
  simp [State.setListener]

/-- What `State.setReader` leaves unchanged. -/
@[simp] theorem State.setReader_frame (s : State) (name : ReaderName) (r : Reader) :
    (State.setReader s name r).capture = s.capture ∧ (State.setReader s name r).time = s.time ∧
    (State.setReader s name r).dict = s.dict ∧ (State.setReader s name r).trans = s.trans ∧
    (State.setReader s name r).journal = s.journal ∧ (State.setReader s name r).holds = s.holds ∧
    (State.setReader s name r).power = s.power ∧ (State.setReader s name r).wake = s.wake ∧
    (State.setReader s name r).counters = s.counters ∧ (State.setReader s name r).ports = s.ports ∧
    (State.setReader s name r).pending = s.pending := by
  simp [State.setReader]

/-- What `setTime` leaves unchanged. -/
@[simp] theorem setTime_frame (t : TimeFollower) (s : State) :
    (setTime t s).capture = s.capture ∧ (setTime t s).log = s.log ∧ (setTime t s).dict = s.dict ∧
    (setTime t s).trans = s.trans ∧ (setTime t s).journal = s.journal ∧ (setTime t s).holds = s.holds ∧
    (setTime t s).power = s.power ∧ (setTime t s).wake = s.wake ∧ (setTime t s).counters = s.counters ∧
    (setTime t s).ports = s.ports ∧ (setTime t s).pending = s.pending := by
  simp [setTime]

/-- What `setDict` leaves unchanged. -/
@[simp] theorem setDict_frame (d : Dictionary) (s : State) :
    (setDict d s).capture = s.capture ∧ (setDict d s).log = s.log ∧ (setDict d s).time = s.time ∧
    (setDict d s).trans = s.trans ∧ (setDict d s).journal = s.journal ∧ (setDict d s).holds = s.holds ∧
    (setDict d s).power = s.power ∧ (setDict d s).wake = s.wake ∧ (setDict d s).counters = s.counters ∧
    (setDict d s).ports = s.ports ∧ (setDict d s).pending = s.pending := by
  simp [setDict]

/-- What `setJob` leaves unchanged. -/
@[simp] theorem setJob_frame (l : List JobSlot) (s : State) :
    (setJob l s).capture = s.capture ∧ (setJob l s).log = s.log ∧ (setJob l s).time = s.time ∧
    (setJob l s).trans = s.trans ∧ (setJob l s).journal = s.journal ∧ (setJob l s).holds = s.holds ∧
    (setJob l s).power = s.power ∧ (setJob l s).wake = s.wake ∧ (setJob l s).counters = s.counters ∧
    (setJob l s).ports = s.ports ∧ (setJob l s).pending = s.pending := by
  simp [setJob]

/-- What `setPower` leaves unchanged. -/
@[simp] theorem setPower_frame (p : Power) (s : State) :
    (setPower p s).capture = s.capture ∧ (setPower p s).log = s.log ∧ (setPower p s).time = s.time ∧
    (setPower p s).dict = s.dict ∧ (setPower p s).trans = s.trans ∧ (setPower p s).journal = s.journal ∧
    (setPower p s).holds = s.holds ∧ (setPower p s).wake = s.wake ∧ (setPower p s).counters = s.counters ∧
    (setPower p s).ports = s.ports ∧ (setPower p s).pending = s.pending := by
  simp [setPower]

/-- What `setAssembler` leaves unchanged. -/
@[simp] theorem setAssembler_frame (a : Assembler) (s : State) :
    (setAssembler a s).log = s.log ∧ (setAssembler a s).time = s.time ∧ (setAssembler a s).dict = s.dict ∧
    (setAssembler a s).trans = s.trans ∧ (setAssembler a s).journal = s.journal ∧
    (setAssembler a s).holds = s.holds ∧ (setAssembler a s).power = s.power ∧
    (setAssembler a s).wake = s.wake ∧ (setAssembler a s).counters = s.counters ∧
    (setAssembler a s).ports = s.ports ∧ (setAssembler a s).pending = s.pending := by
  simp [setAssembler]

/-- What `setGranted` leaves unchanged. -/
@[simp] theorem setGranted_frame (b : Bool) (s : State) :
    (setGranted b s).log = s.log ∧ (setGranted b s).time = s.time ∧ (setGranted b s).dict = s.dict ∧
    (setGranted b s).trans = s.trans ∧ (setGranted b s).journal = s.journal ∧
    (setGranted b s).holds = s.holds ∧ (setGranted b s).power = s.power ∧ (setGranted b s).wake = s.wake ∧
    (setGranted b s).counters = s.counters ∧ (setGranted b s).ports = s.ports ∧
    (setGranted b s).pending = s.pending := by
  simp [setGranted]

/-- What `setSettleAll` leaves unchanged. -/
@[simp] theorem setSettleAll_frame (b : Bool) (s : State) :
    (setSettleAll b s).capture = s.capture ∧ (setSettleAll b s).log = s.log ∧
    (setSettleAll b s).time = s.time ∧ (setSettleAll b s).dict = s.dict ∧
    (setSettleAll b s).journal = s.journal ∧ (setSettleAll b s).holds = s.holds ∧
    (setSettleAll b s).power = s.power ∧ (setSettleAll b s).wake = s.wake ∧
    (setSettleAll b s).counters = s.counters ∧ (setSettleAll b s).ports = s.ports ∧
    (setSettleAll b s).pending = s.pending := by
  simp [setSettleAll]

/-- What `pauseTranslator` leaves unchanged. -/
@[simp] theorem pauseTranslator_frame (s : State) :
    (pauseTranslator s).capture = s.capture ∧ (pauseTranslator s).log = s.log ∧
    (pauseTranslator s).time = s.time ∧ (pauseTranslator s).dict = s.dict ∧
    (pauseTranslator s).journal = s.journal ∧ (pauseTranslator s).holds = s.holds ∧
    (pauseTranslator s).power = s.power ∧ (pauseTranslator s).wake = s.wake ∧
    (pauseTranslator s).counters = s.counters ∧ (pauseTranslator s).ports = s.ports ∧
    (pauseTranslator s).pending = s.pending := by
  simp [pauseTranslator]

/-- What `setReceive` leaves unchanged. -/
@[simp] theorem setReceive_frame (port : Port) (r : Receive) (s : State) :
    (setReceive port r s).capture = s.capture ∧ (setReceive port r s).log = s.log ∧
    (setReceive port r s).time = s.time ∧ (setReceive port r s).dict = s.dict ∧
    (setReceive port r s).trans = s.trans ∧ (setReceive port r s).journal = s.journal ∧
    (setReceive port r s).holds = s.holds ∧ (setReceive port r s).power = s.power ∧
    (setReceive port r s).wake = s.wake ∧ (setReceive port r s).counters = s.counters ∧
    (setReceive port r s).pending = s.pending := by
  simp [setReceive]

/-- What `setSending` leaves unchanged. -/
@[simp] theorem setSending_frame (port : Port) (x : Option Sending) (s : State) :
    (setSending port x s).capture = s.capture ∧ (setSending port x s).log = s.log ∧
    (setSending port x s).time = s.time ∧ (setSending port x s).dict = s.dict ∧
    (setSending port x s).trans = s.trans ∧ (setSending port x s).journal = s.journal ∧
    (setSending port x s).holds = s.holds ∧ (setSending port x s).power = s.power ∧
    (setSending port x s).wake = s.wake ∧ (setSending port x s).counters = s.counters ∧
    (setSending port x s).pending = s.pending := by
  simp [setSending]

/-- What `setAnswers` leaves unchanged. -/
@[simp] theorem setAnswers_frame (port : Port) (l : List Reply) (s : State) :
    (setAnswers port l s).capture = s.capture ∧ (setAnswers port l s).log = s.log ∧
    (setAnswers port l s).time = s.time ∧ (setAnswers port l s).dict = s.dict ∧
    (setAnswers port l s).trans = s.trans ∧ (setAnswers port l s).journal = s.journal ∧
    (setAnswers port l s).holds = s.holds ∧ (setAnswers port l s).power = s.power ∧
    (setAnswers port l s).wake = s.wake ∧ (setAnswers port l s).counters = s.counters ∧
    (setAnswers port l s).pending = s.pending := by
  simp [setAnswers]

/-- What `setNotices` leaves unchanged. -/
@[simp] theorem setNotices_frame (port : Port) (l : List Notice) (s : State) :
    (setNotices port l s).capture = s.capture ∧ (setNotices port l s).log = s.log ∧
    (setNotices port l s).time = s.time ∧ (setNotices port l s).dict = s.dict ∧
    (setNotices port l s).trans = s.trans ∧ (setNotices port l s).journal = s.journal ∧
    (setNotices port l s).holds = s.holds ∧ (setNotices port l s).power = s.power ∧
    (setNotices port l s).wake = s.wake ∧ (setNotices port l s).counters = s.counters ∧
    (setNotices port l s).pending = s.pending := by
  simp [setNotices]

/-- What `setTurn` leaves unchanged. -/
@[simp] theorem setTurn_frame (port : Port) (t : StreamTurn) (s : State) :
    (setTurn port t s).capture = s.capture ∧ (setTurn port t s).log = s.log ∧
    (setTurn port t s).time = s.time ∧ (setTurn port t s).dict = s.dict ∧ (setTurn port t s).trans = s.trans ∧
    (setTurn port t s).journal = s.journal ∧ (setTurn port t s).holds = s.holds ∧
    (setTurn port t s).power = s.power ∧ (setTurn port t s).wake = s.wake ∧
    (setTurn port t s).counters = s.counters ∧ (setTurn port t s).pending = s.pending := by
  simp [setTurn]

/-! ### Notices and counts -/

/-- What `noticeOn` leaves unchanged. -/
@[simp] theorem noticeOn_frame (port : Port) (n : Notice) (s : State) :
    (noticeOn port n s).capture = s.capture ∧ (noticeOn port n s).log = s.log ∧
    (noticeOn port n s).time = s.time ∧ (noticeOn port n s).dict = s.dict ∧
    (noticeOn port n s).trans = s.trans ∧ (noticeOn port n s).journal = s.journal ∧
    (noticeOn port n s).holds = s.holds ∧ (noticeOn port n s).power = s.power ∧
    (noticeOn port n s).wake = s.wake ∧ (noticeOn port n s).counters = s.counters ∧
    (noticeOn port n s).pending = s.pending := by
  simp [noticeOn]

/-- What `raiseNotice` leaves unchanged. -/
@[simp] theorem raiseNotice_frame (n : Notice) (s : State) :
    (raiseNotice n s).capture = s.capture ∧ (raiseNotice n s).log = s.log ∧ (raiseNotice n s).time = s.time ∧
    (raiseNotice n s).dict = s.dict ∧ (raiseNotice n s).trans = s.trans ∧
    (raiseNotice n s).journal = s.journal ∧ (raiseNotice n s).holds = s.holds ∧
    (raiseNotice n s).power = s.power ∧ (raiseNotice n s).wake = s.wake ∧
    (raiseNotice n s).counters = s.counters ∧ (raiseNotice n s).pending = s.pending := by
  simp [raiseNotice]

/-- What `countEvents` leaves unchanged. -/
@[simp] theorem countEvents_frame (c : Counter) (amount : Nat) (s : State) :
    (countEvents c amount s).capture = s.capture ∧ (countEvents c amount s).log = s.log ∧
    (countEvents c amount s).time = s.time ∧ (countEvents c amount s).dict = s.dict ∧
    (countEvents c amount s).trans = s.trans ∧ (countEvents c amount s).journal = s.journal ∧
    (countEvents c amount s).holds = s.holds ∧ (countEvents c amount s).power = s.power ∧
    (countEvents c amount s).wake = s.wake ∧ (countEvents c amount s).pending = s.pending := by
  unfold countEvents
  split
  · simp
  · dsimp only
    split <;> simp

/-- What `countOne` leaves unchanged. -/
@[simp] theorem countOne_frame (c : Counter) (s : State) :
    (countOne c s).capture = s.capture ∧ (countOne c s).log = s.log ∧ (countOne c s).time = s.time ∧
    (countOne c s).dict = s.dict ∧ (countOne c s).trans = s.trans ∧ (countOne c s).journal = s.journal ∧
    (countOne c s).holds = s.holds ∧ (countOne c s).power = s.power ∧ (countOne c s).wake = s.wake ∧
    (countOne c s).pending = s.pending := by
  simp [countOne]

/-! ### The Stroke Log -/

/-- What `takeLoss` leaves unchanged. -/
@[simp] theorem takeLoss_frame (name : ReaderName) (r : Reader) (s : State) :
    (takeLoss name r s).capture = s.capture ∧ (takeLoss name r s).time = s.time ∧
    (takeLoss name r s).dict = s.dict ∧ (takeLoss name r s).trans = s.trans ∧
    (takeLoss name r s).journal = s.journal ∧ (takeLoss name r s).holds = s.holds ∧
    (takeLoss name r s).power = s.power ∧ (takeLoss name r s).wake = s.wake ∧
    (takeLoss name r s).pending = s.pending := by
  cases name <;> simp only [takeLoss, readerPort] <;> (try split) <;> simp

/-- What `overwriteReader` leaves unchanged. -/
@[simp] theorem overwriteReader_frame (name : ReaderName) (w : Word) (s : State) :
    (overwriteReader name w s).capture = s.capture ∧ (overwriteReader name w s).time = s.time ∧
    (overwriteReader name w s).dict = s.dict ∧ (overwriteReader name w s).trans = s.trans ∧
    (overwriteReader name w s).journal = s.journal ∧ (overwriteReader name w s).holds = s.holds ∧
    (overwriteReader name w s).power = s.power ∧ (overwriteReader name w s).wake = s.wake ∧
    (overwriteReader name w s).pending = s.pending := by
  unfold overwriteReader
  dsimp only
  split <;> simp

/-- What `makeRoom` leaves unchanged. -/
@[simp] theorem makeRoom_frame (s : State) :
    (makeRoom s).capture = s.capture ∧ (makeRoom s).time = s.time ∧ (makeRoom s).dict = s.dict ∧
    (makeRoom s).trans = s.trans ∧ (makeRoom s).journal = s.journal ∧ (makeRoom s).holds = s.holds ∧
    (makeRoom s).power = s.power ∧ (makeRoom s).wake = s.wake ∧ (makeRoom s).pending = s.pending := by
  unfold makeRoom
  split
  · simp
  · split <;> simp

/-- What `appendRecord` leaves unchanged. -/
@[simp] theorem appendRecord_frame (b : RecordBody) (s : State) :
    (appendRecord b s).capture = s.capture ∧ (appendRecord b s).time = s.time ∧
    (appendRecord b s).dict = s.dict ∧ (appendRecord b s).trans = s.trans ∧
    (appendRecord b s).journal = s.journal ∧ (appendRecord b s).holds = s.holds ∧
    (appendRecord b s).power = s.power ∧ (appendRecord b s).wake = s.wake ∧
    (appendRecord b s).pending = s.pending := by
  simp [appendRecord]

/-- What `startReader` leaves unchanged. -/
@[simp] theorem startReader_frame (name : ReaderName) (x : StreamStart) (s : State) :
    (startReader name x s).capture = s.capture ∧ (startReader name x s).time = s.time ∧
    (startReader name x s).dict = s.dict ∧ (startReader name x s).trans = s.trans ∧
    (startReader name x s).journal = s.journal ∧ (startReader name x s).holds = s.holds ∧
    (startReader name x s).power = s.power ∧ (startReader name x s).wake = s.wake ∧
    (startReader name x s).pending = s.pending := by
  unfold startReader
  dsimp only
  split <;> simp

/-- What `stopReader` leaves unchanged. -/
@[simp] theorem stopReader_frame (name : ReaderName) (s : State) :
    (stopReader name s).capture = s.capture ∧ (stopReader name s).time = s.time ∧
    (stopReader name s).dict = s.dict ∧ (stopReader name s).trans = s.trans ∧
    (stopReader name s).journal = s.journal ∧ (stopReader name s).holds = s.holds ∧
    (stopReader name s).power = s.power ∧ (stopReader name s).wake = s.wake ∧
    (stopReader name s).counters = s.counters ∧ (stopReader name s).ports = s.ports ∧
    (stopReader name s).pending = s.pending := by
  simp [stopReader]

/-! ### The Text Journal -/

/-- What `reachOne` leaves unchanged. -/
@[simp] theorem reachOne_frame (port : Port) (s : State) :
    (reachOne port s).capture = s.capture ∧ (reachOne port s).log = s.log ∧ (reachOne port s).time = s.time ∧
    (reachOne port s).dict = s.dict ∧ (reachOne port s).trans = s.trans ∧ (reachOne port s).holds = s.holds ∧
    (reachOne port s).power = s.power ∧ (reachOne port s).wake = s.wake ∧
    (reachOne port s).counters = s.counters ∧ (reachOne port s).ports = s.ports ∧
    (reachOne port s).pending = s.pending := by
  simp [reachOne]

/-- What `reachAll` leaves unchanged. -/
@[simp] theorem reachAll_frame (s : State) :
    (reachAll s).capture = s.capture ∧ (reachAll s).log = s.log ∧ (reachAll s).time = s.time ∧
    (reachAll s).dict = s.dict ∧ (reachAll s).trans = s.trans ∧ (reachAll s).holds = s.holds ∧
    (reachAll s).power = s.power ∧ (reachAll s).wake = s.wake ∧ (reachAll s).counters = s.counters ∧
    (reachAll s).ports = s.ports ∧ (reachAll s).pending = s.pending := by
  simp [reachAll]

/-- What `startRun` leaves unchanged. -/
@[simp] theorem startRun_frame (port : Port) (s : State) :
    (startRun port s).capture = s.capture ∧ (startRun port s).log = s.log ∧ (startRun port s).time = s.time ∧
    (startRun port s).dict = s.dict ∧ (startRun port s).trans = s.trans ∧ (startRun port s).holds = s.holds ∧
    (startRun port s).power = s.power ∧ (startRun port s).wake = s.wake ∧ (startRun port s).pending = s.pending := by
  simp [startRun]

/-- What `callRepaint` leaves unchanged. -/
@[simp] theorem callRepaint_frame (port : Port) (s : State) :
    (callRepaint port s).capture = s.capture ∧ (callRepaint port s).log = s.log ∧
    (callRepaint port s).time = s.time ∧ (callRepaint port s).dict = s.dict ∧
    (callRepaint port s).trans = s.trans ∧ (callRepaint port s).holds = s.holds ∧
    (callRepaint port s).power = s.power ∧ (callRepaint port s).wake = s.wake ∧
    (callRepaint port s).pending = s.pending := by
  unfold callRepaint
  dsimp only
  split
  · simp
  · split <;> simp

/-- What `resumeListener` leaves unchanged. -/
@[simp] theorem resumeListener_frame (port : Port) (s : State) :
    (resumeListener port s).capture = s.capture ∧ (resumeListener port s).log = s.log ∧
    (resumeListener port s).time = s.time ∧ (resumeListener port s).dict = s.dict ∧
    (resumeListener port s).trans = s.trans ∧ (resumeListener port s).holds = s.holds ∧
    (resumeListener port s).power = s.power ∧ (resumeListener port s).wake = s.wake ∧
    (resumeListener port s).pending = s.pending := by
  unfold resumeListener
  dsimp only
  split
  · simp
  · split <;> simp

/-- What `resumeIfOn` leaves unchanged. -/
@[simp] theorem resumeIfOn_frame (id : Nat) (port : Port) (s : State) :
    (resumeIfOn id port s).capture = s.capture ∧ (resumeIfOn id port s).log = s.log ∧
    (resumeIfOn id port s).time = s.time ∧ (resumeIfOn id port s).dict = s.dict ∧
    (resumeIfOn id port s).trans = s.trans ∧ (resumeIfOn id port s).holds = s.holds ∧
    (resumeIfOn id port s).power = s.power ∧ (resumeIfOn id port s).wake = s.wake ∧
    (resumeIfOn id port s).pending = s.pending := by
  unfold resumeIfOn
  (repeat' split) <;> simp

/-- What `overrunOne` leaves unchanged. -/
@[simp] theorem overrunOne_frame (w : Word) (port : Port) (s : State) :
    (overrunOne w port s).capture = s.capture ∧ (overrunOne w port s).log = s.log ∧
    (overrunOne w port s).time = s.time ∧ (overrunOne w port s).dict = s.dict ∧
    (overrunOne w port s).trans = s.trans ∧ (overrunOne w port s).holds = s.holds ∧
    (overrunOne w port s).power = s.power ∧ (overrunOne w port s).wake = s.wake ∧
    (overrunOne w port s).pending = s.pending := by
  unfold overrunOne
  dsimp only
  split
  · split <;> simp
  · simp

/-- What `dropOldestEntry` leaves unchanged. -/
@[simp] theorem dropOldestEntry_frame (s : State) :
    (dropOldestEntry s).capture = s.capture ∧ (dropOldestEntry s).log = s.log ∧
    (dropOldestEntry s).time = s.time ∧ (dropOldestEntry s).dict = s.dict ∧
    (dropOldestEntry s).trans = s.trans ∧ (dropOldestEntry s).holds = s.holds ∧
    (dropOldestEntry s).power = s.power ∧ (dropOldestEntry s).wake = s.wake ∧
    (dropOldestEntry s).pending = s.pending := by
  unfold dropOldestEntry
  split
  · simp
  · split <;> simp

/-- What `placeInJournal` leaves unchanged. -/
@[simp] theorem placeInJournal_frame (b : EntryBody) (s : State) :
    (placeInJournal b s).capture = s.capture ∧ (placeInJournal b s).log = s.log ∧
    (placeInJournal b s).time = s.time ∧ (placeInJournal b s).dict = s.dict ∧
    (placeInJournal b s).trans = s.trans ∧ (placeInJournal b s).holds = s.holds ∧
    (placeInJournal b s).power = s.power ∧ (placeInJournal b s).wake = s.wake ∧
    (placeInJournal b s).pending = s.pending := by
  simp [placeInJournal]

/-- What `appendEntry` leaves unchanged. -/
@[simp] theorem appendEntry_frame (b : EntryBody) (s : State) :
    (appendEntry b s).capture = s.capture ∧ (appendEntry b s).log = s.log ∧ (appendEntry b s).time = s.time ∧
    (appendEntry b s).dict = s.dict ∧ (appendEntry b s).trans = s.trans ∧ (appendEntry b s).holds = s.holds ∧
    (appendEntry b s).power = s.power ∧ (appendEntry b s).wake = s.wake ∧ (appendEntry b s).pending = s.pending := by
  simp [appendEntry]

/-- What `setObedience` leaves unchanged. -/
@[simp] theorem setObedience_frame (port : Port) (b : Bool) (s : State) :
    (setObedience port b s).capture = s.capture ∧ (setObedience port b s).log = s.log ∧
    (setObedience port b s).time = s.time ∧ (setObedience port b s).dict = s.dict ∧
    (setObedience port b s).trans = s.trans ∧ (setObedience port b s).holds = s.holds ∧
    (setObedience port b s).power = s.power ∧ (setObedience port b s).wake = s.wake ∧
    (setObedience port b s).pending = s.pending := by
  unfold setObedience
  dsimp only
  split
  · simp
  · split
    · split <;> simp
    · split <;> simp

/-- What `setMode` leaves unchanged. -/
@[simp] theorem setMode_frame (port : Port) (m : ViewMode) (s : State) :
    (setMode port m s).capture = s.capture ∧ (setMode port m s).log = s.log ∧
    (setMode port m s).time = s.time ∧ (setMode port m s).dict = s.dict ∧ (setMode port m s).trans = s.trans ∧
    (setMode port m s).holds = s.holds ∧ (setMode port m s).power = s.power ∧
    (setMode port m s).wake = s.wake ∧ (setMode port m s).pending = s.pending := by
  unfold setMode
  dsimp only
  split
  · simp
  · split
    · simp
    · split <;> simp
    · split <;> simp

/-! ### The Hold Table -/

/-- What `takeHold` leaves unchanged. -/
@[simp] theorem takeHold_frame (source : HoldSource) (owner : Option Word) (s : State) :
    ((takeHold source owner s).1).capture = s.capture ∧ ((takeHold source owner s).1).log = s.log ∧
    ((takeHold source owner s).1).time = s.time ∧ ((takeHold source owner s).1).dict = s.dict ∧
    ((takeHold source owner s).1).trans = s.trans ∧ ((takeHold source owner s).1).power = s.power ∧
    ((takeHold source owner s).1).wake = s.wake ∧ ((takeHold source owner s).1).pending = s.pending := by
  simp [takeHold]

/-- What `openHold` leaves unchanged. -/
@[simp] theorem openHold_frame (source : HoldSource) (owner : Option Word) (s : State) :
    ((openHold source owner s).1).capture = s.capture ∧ ((openHold source owner s).1).log = s.log ∧
    ((openHold source owner s).1).time = s.time ∧ ((openHold source owner s).1).dict = s.dict ∧
    ((openHold source owner s).1).trans = s.trans ∧ ((openHold source owner s).1).power = s.power ∧
    ((openHold source owner s).1).wake = s.wake ∧ ((openHold source owner s).1).pending = s.pending := by
  unfold openHold
  split
  · simp
  · split <;> simp

/-- What `closeThis` leaves unchanged. -/
@[simp] theorem closeThis_frame (h : OpenHold) (c : CloseCause) (s : State) :
    (closeThis h c s).capture = s.capture ∧ (closeThis h c s).log = s.log ∧ (closeThis h c s).time = s.time ∧
    (closeThis h c s).dict = s.dict ∧ (closeThis h c s).trans = s.trans ∧ (closeThis h c s).power = s.power ∧
    (closeThis h c s).wake = s.wake ∧ (closeThis h c s).pending = s.pending := by
  simp [closeThis]

/-- What `closeWhere` leaves unchanged. -/
@[simp] theorem closeWhere_frame (test : OpenHold → Bool) (c : CloseCause) (s : State) :
    (closeWhere test c s).capture = s.capture ∧ (closeWhere test c s).log = s.log ∧
    (closeWhere test c s).time = s.time ∧ (closeWhere test c s).dict = s.dict ∧
    (closeWhere test c s).trans = s.trans ∧ (closeWhere test c s).power = s.power ∧
    (closeWhere test c s).wake = s.wake ∧ (closeWhere test c s).pending = s.pending := by
  unfold closeWhere
  split <;> simp

/-- What `closeNewestCommand` leaves unchanged. -/
@[simp] theorem closeNewestCommand_frame (s : State) :
    (closeNewestCommand s).capture = s.capture ∧ (closeNewestCommand s).log = s.log ∧
    (closeNewestCommand s).time = s.time ∧ (closeNewestCommand s).dict = s.dict ∧
    (closeNewestCommand s).trans = s.trans ∧ (closeNewestCommand s).power = s.power ∧
    (closeNewestCommand s).wake = s.wake ∧ (closeNewestCommand s).pending = s.pending := by
  unfold closeNewestCommand
  split <;> simp

/-- What `closeOwned` leaves unchanged. -/
@[simp] theorem closeOwned_frame (h : Option Nat) (u : Word) (s : State) :
    (closeOwned h u s).capture = s.capture ∧ (closeOwned h u s).log = s.log ∧
    (closeOwned h u s).time = s.time ∧ (closeOwned h u s).dict = s.dict ∧ (closeOwned h u s).trans = s.trans ∧
    (closeOwned h u s).power = s.power ∧ (closeOwned h u s).wake = s.wake ∧
    (closeOwned h u s).pending = s.pending := by
  unfold closeOwned
  split <;> simp

/-- What `closeEach` leaves unchanged. -/
@[simp] theorem closeEach_frame (c : CloseCause) (l : List OpenHold) (s : State) :
    (closeEach c l s).capture = s.capture ∧ (closeEach c l s).log = s.log ∧ (closeEach c l s).time = s.time ∧
    (closeEach c l s).dict = s.dict ∧ (closeEach c l s).trans = s.trans ∧ (closeEach c l s).power = s.power ∧
    (closeEach c l s).wake = s.wake ∧ (closeEach c l s).pending = s.pending := by
  induction l generalizing s with
  | nil => simp [closeEach]
  | cons h rest ih => simp [closeEach, ih]

/-- What `setHoldLimit` leaves unchanged. -/
@[simp] theorem setHoldLimit_frame (m : Nat) (s : State) :
    (setHoldLimit m s).capture = s.capture ∧ (setHoldLimit m s).log = s.log ∧
    (setHoldLimit m s).time = s.time ∧ (setHoldLimit m s).dict = s.dict ∧ (setHoldLimit m s).trans = s.trans ∧
    (setHoldLimit m s).power = s.power ∧ (setHoldLimit m s).wake = s.wake ∧
    (setHoldLimit m s).pending = s.pending := by
  simp [setHoldLimit]

/-- What `holdLimitEvent` leaves unchanged. -/
@[simp] theorem holdLimitEvent_frame (id : Nat) (s : State) :
    (holdLimitEvent id s).capture = s.capture ∧ (holdLimitEvent id s).log = s.log ∧
    (holdLimitEvent id s).time = s.time ∧ (holdLimitEvent id s).dict = s.dict ∧
    (holdLimitEvent id s).trans = s.trans ∧ (holdLimitEvent id s).power = s.power ∧
    (holdLimitEvent id s).wake = s.wake ∧ (holdLimitEvent id s).pending = s.pending := by
  simp [holdLimitEvent]

/-! ### The Translator -/

/-- What `restartSettle` leaves unchanged. -/
@[simp] theorem restartSettle_frame (s : State) :
    (restartSettle s).capture = s.capture ∧ (restartSettle s).log = s.log ∧ (restartSettle s).time = s.time ∧
    (restartSettle s).dict = s.dict ∧ (restartSettle s).journal = s.journal ∧
    (restartSettle s).holds = s.holds ∧ (restartSettle s).power = s.power ∧ (restartSettle s).wake = s.wake ∧
    (restartSettle s).counters = s.counters ∧ (restartSettle s).ports = s.ports ∧
    (restartSettle s).pending = s.pending := by
  simp [restartSettle]

/-- What `stopIfEmpty` leaves unchanged. -/
@[simp] theorem stopIfEmpty_frame (s : State) :
    (stopIfEmpty s).capture = s.capture ∧ (stopIfEmpty s).log = s.log ∧ (stopIfEmpty s).time = s.time ∧
    (stopIfEmpty s).dict = s.dict ∧ (stopIfEmpty s).journal = s.journal ∧ (stopIfEmpty s).holds = s.holds ∧
    (stopIfEmpty s).power = s.power ∧ (stopIfEmpty s).wake = s.wake ∧ (stopIfEmpty s).counters = s.counters ∧
    (stopIfEmpty s).ports = s.ports ∧ (stopIfEmpty s).pending = s.pending := by
  unfold stopIfEmpty
  split <;> simp

/-- What `settleUnit` leaves unchanged. -/
@[simp] theorem settleUnit_frame (u : TextUnit) (s : State) :
    (settleUnit u s).capture = s.capture ∧ (settleUnit u s).log = s.log ∧ (settleUnit u s).time = s.time ∧
    (settleUnit u s).dict = s.dict ∧ (settleUnit u s).holds = s.holds ∧ (settleUnit u s).power = s.power ∧
    (settleUnit u s).wake = s.wake ∧ (settleUnit u s).pending = s.pending := by
  unfold settleUnit
  dsimp only
  split <;> simp

/-- What `settleUnits` leaves unchanged. -/
@[simp] theorem settleUnits_frame (l : List TextUnit) (s : State) :
    (settleUnits l s).capture = s.capture ∧ (settleUnits l s).log = s.log ∧ (settleUnits l s).time = s.time ∧
    (settleUnits l s).dict = s.dict ∧ (settleUnits l s).holds = s.holds ∧ (settleUnits l s).power = s.power ∧
    (settleUnits l s).wake = s.wake ∧ (settleUnits l s).pending = s.pending := by
  induction l generalizing s with
  | nil => simp [settleUnits]
  | cons u rest ih => simp [settleUnits, ih]

/-- What `recordHold` leaves unchanged. -/
@[simp] theorem recordHold_frame (u : Word) (h : Nat) (s : State) :
    (recordHold u h s).capture = s.capture ∧ (recordHold u h s).log = s.log ∧
    (recordHold u h s).time = s.time ∧ (recordHold u h s).dict = s.dict ∧
    (recordHold u h s).journal = s.journal ∧ (recordHold u h s).holds = s.holds ∧
    (recordHold u h s).power = s.power ∧ (recordHold u h s).wake = s.wake ∧
    (recordHold u h s).counters = s.counters ∧ (recordHold u h s).ports = s.ports ∧
    (recordHold u h s).pending = s.pending := by
  simp [recordHold]

/-- What `holdAction` leaves unchanged. -/
@[simp] theorem holdAction_frame (u : TextUnit) (s : State) :
    (holdAction u s).capture = s.capture ∧ (holdAction u s).log = s.log ∧ (holdAction u s).time = s.time ∧
    (holdAction u s).dict = s.dict ∧ (holdAction u s).power = s.power ∧ (holdAction u s).wake = s.wake ∧
    (holdAction u s).pending = s.pending := by
  unfold holdAction
  split
  · have h := openHold_frame .command (some u.id) s
    split
    · rename_i heq
      rw [heq] at h
      simp_all
    · rename_i heq
      rw [heq] at h
      simp_all
  · simp
  · simp

/-- What `holdActions` leaves unchanged. -/
@[simp] theorem holdActions_frame (l : List TextUnit) (s : State) :
    (holdActions l s).capture = s.capture ∧ (holdActions l s).log = s.log ∧ (holdActions l s).time = s.time ∧
    (holdActions l s).dict = s.dict ∧ (holdActions l s).power = s.power ∧ (holdActions l s).wake = s.wake ∧
    (holdActions l s).pending = s.pending := by
  induction l generalizing s with
  | nil => simp [holdActions]
  | cons u rest ih => simp [holdActions, ih]

/-- What `settleEvery` leaves unchanged. -/
@[simp] theorem settleEvery_frame (s : State) :
    (settleEvery s).capture = s.capture ∧ (settleEvery s).log = s.log ∧ (settleEvery s).time = s.time ∧
    (settleEvery s).dict = s.dict ∧ (settleEvery s).power = s.power ∧ (settleEvery s).wake = s.wake ∧
    (settleEvery s).pending = s.pending := by
  simp [settleEvery]

/-- What `settleFront` leaves unchanged. -/
@[simp] theorem settleFront_frame (l : List TextUnit) (s : State) :
    ((settleFront l s).2).capture = s.capture ∧ ((settleFront l s).2).log = s.log ∧
    ((settleFront l s).2).time = s.time ∧ ((settleFront l s).2).dict = s.dict ∧
    ((settleFront l s).2).holds = s.holds ∧ ((settleFront l s).2).power = s.power ∧
    ((settleFront l s).2).wake = s.wake ∧ ((settleFront l s).2).pending = s.pending := by
  induction l generalizing s with
  | nil => simp [settleFront]
  | cons u rest ih =>
    unfold settleFront
    split
    · simp [ih]
    · simp

/-- What `settleWindow` leaves unchanged. -/
@[simp] theorem settleWindow_frame (s : State) :
    (settleWindow s).capture = s.capture ∧ (settleWindow s).log = s.log ∧ (settleWindow s).time = s.time ∧
    (settleWindow s).dict = s.dict ∧ (settleWindow s).power = s.power ∧ (settleWindow s).wake = s.wake ∧
    (settleWindow s).pending = s.pending := by
  unfold settleWindow
  split
  · simp
  · simp

/-- What `putUnit` leaves unchanged. -/
@[simp] theorem putUnit_frame (u : TextUnit) (s : State) :
    ((putUnit u s).1).capture = s.capture ∧ ((putUnit u s).1).log = s.log ∧ ((putUnit u s).1).time = s.time ∧
    ((putUnit u s).1).dict = s.dict ∧ ((putUnit u s).1).holds = s.holds ∧ ((putUnit u s).1).power = s.power ∧
    ((putUnit u s).1).wake = s.wake ∧ ((putUnit u s).1).pending = s.pending := by
  simp [putUnit]

/-- What `putUnits` leaves unchanged. -/
@[simp] theorem putUnits_frame (l : List TextUnit) (s : State) :
    ((putUnits l s).2).capture = s.capture ∧ ((putUnits l s).2).log = s.log ∧
    ((putUnits l s).2).time = s.time ∧ ((putUnits l s).2).dict = s.dict ∧ ((putUnits l s).2).holds = s.holds ∧
    ((putUnits l s).2).power = s.power ∧ ((putUnits l s).2).wake = s.wake ∧
    ((putUnits l s).2).pending = s.pending := by
  induction l generalizing s with
  | nil => simp [putUnits]
  | cons u rest ih => simp [putUnits, ih]

/-- What `appendTake` leaves unchanged. -/
@[simp] theorem appendTake_frame (n : Nat) (s : State) :
    (appendTake n s).capture = s.capture ∧ (appendTake n s).log = s.log ∧ (appendTake n s).time = s.time ∧
    (appendTake n s).dict = s.dict ∧ (appendTake n s).trans = s.trans ∧ (appendTake n s).holds = s.holds ∧
    (appendTake n s).power = s.power ∧ (appendTake n s).wake = s.wake ∧ (appendTake n s).pending = s.pending := by
  unfold appendTake
  split <;> simp

/-- What `applyDifference` leaves unchanged. -/
@[simp] theorem applyDifference_frame (l : List TextUnit) (s : State) :
    (applyDifference l s).capture = s.capture ∧ (applyDifference l s).log = s.log ∧
    (applyDifference l s).time = s.time ∧ (applyDifference l s).dict = s.dict ∧
    (applyDifference l s).holds = s.holds ∧ (applyDifference l s).power = s.power ∧
    (applyDifference l s).wake = s.wake ∧ (applyDifference l s).pending = s.pending := by
  simp [applyDifference]

/-- What `recompute` leaves unchanged. -/
@[simp] theorem recompute_frame (s : State) :
    (recompute s).capture = s.capture ∧ (recompute s).log = s.log ∧ (recompute s).time = s.time ∧
    (recompute s).dict = s.dict ∧ (recompute s).power = s.power ∧ (recompute s).wake = s.wake ∧
    (recompute s).pending = s.pending := by
  simp [recompute]

/-- What `askRecompute` leaves unchanged. -/
@[simp] theorem askRecompute_frame (s : State) :
    (askRecompute s).capture = s.capture ∧ (askRecompute s).log = s.log ∧ (askRecompute s).time = s.time ∧
    (askRecompute s).dict = s.dict ∧ (askRecompute s).power = s.power ∧ (askRecompute s).wake = s.wake ∧
    (askRecompute s).pending = s.pending := by
  unfold askRecompute
  split <;> simp

/-- What `resumeTranslator` leaves unchanged. -/
@[simp] theorem resumeTranslator_frame (s : State) :
    (resumeTranslator s).capture = s.capture ∧ (resumeTranslator s).log = s.log ∧
    (resumeTranslator s).time = s.time ∧ (resumeTranslator s).dict = s.dict ∧
    (resumeTranslator s).power = s.power ∧ (resumeTranslator s).wake = s.wake ∧
    (resumeTranslator s).pending = s.pending := by
  unfold resumeTranslator; split <;> simp

/-- What `handleGap` leaves unchanged. -/
@[simp] theorem handleGap_frame (n : Nat) (s : State) :
    (handleGap n s).capture = s.capture ∧ (handleGap n s).log = s.log ∧ (handleGap n s).time = s.time ∧
    (handleGap n s).dict = s.dict ∧ (handleGap n s).power = s.power ∧ (handleGap n s).wake = s.wake ∧
    (handleGap n s).pending = s.pending := by
  simp [handleGap]

/-- What `handleJob` leaves unchanged. -/
@[simp] theorem handleJob_frame (a b : Nat) (s : State) :
    (handleJob a b s).capture = s.capture ∧ (handleJob a b s).log = s.log ∧ (handleJob a b s).time = s.time ∧
    (handleJob a b s).dict = s.dict ∧ (handleJob a b s).power = s.power ∧ (handleJob a b s).wake = s.wake ∧
    (handleJob a b s).pending = s.pending := by
  simp [handleJob]

/-- What `addStroke` leaves unchanged. -/
@[simp] theorem addStroke_frame (w : WindowStroke) (s : State) :
    (addStroke w s).capture = s.capture ∧ (addStroke w s).log = s.log ∧ (addStroke w s).time = s.time ∧
    (addStroke w s).dict = s.dict ∧ (addStroke w s).power = s.power ∧ (addStroke w s).wake = s.wake ∧
    (addStroke w s).pending = s.pending := by
  simp [addStroke]

/-- What `dropStroke` leaves unchanged. -/
@[simp] theorem dropStroke_frame (s : State) :
    (dropStroke s).capture = s.capture ∧ (dropStroke s).log = s.log ∧ (dropStroke s).time = s.time ∧
    (dropStroke s).dict = s.dict ∧ (dropStroke s).power = s.power ∧ (dropStroke s).wake = s.wake ∧
    (dropStroke s).pending = s.pending := by
  simp [dropStroke]

/-- What `reopenUnit` leaves unchanged. -/
@[simp] theorem reopenUnit_frame (u : TextUnit) (s : State) :
    (reopenUnit u s).capture = s.capture ∧ (reopenUnit u s).log = s.log ∧ (reopenUnit u s).time = s.time ∧
    (reopenUnit u s).dict = s.dict ∧ (reopenUnit u s).power = s.power ∧ (reopenUnit u s).wake = s.wake ∧
    (reopenUnit u s).pending = s.pending := by
  simp [reopenUnit]

/-- What `undoUnit` leaves unchanged. -/
@[simp] theorem undoUnit_frame (u : TextUnit) (s : State) :
    (undoUnit u s).capture = s.capture ∧ (undoUnit u s).log = s.log ∧ (undoUnit u s).time = s.time ∧
    (undoUnit u s).dict = s.dict ∧ (undoUnit u s).power = s.power ∧ (undoUnit u s).wake = s.wake ∧
    (undoUnit u s).pending = s.pending := by
  unfold undoUnit
  dsimp only
  split <;> simp

/-- What `handleDelete` leaves unchanged. -/
@[simp] theorem handleDelete_frame (s : State) :
    (handleDelete s).capture = s.capture ∧ (handleDelete s).log = s.log ∧ (handleDelete s).time = s.time ∧
    (handleDelete s).dict = s.dict ∧ (handleDelete s).power = s.power ∧ (handleDelete s).wake = s.wake ∧
    (handleDelete s).pending = s.pending := by
  unfold handleDelete
  dsimp only
  split
  · simp
  · split <;> simp

/-- What `handleRecord` leaves unchanged. -/
@[simp] theorem handleRecord_frame (r : LogRecord) (s : State) :
    (handleRecord r s).capture = s.capture ∧ (handleRecord r s).log = s.log ∧
    (handleRecord r s).time = s.time ∧ (handleRecord r s).dict = s.dict ∧ (handleRecord r s).power = s.power ∧
    (handleRecord r s).wake = s.wake ∧ (handleRecord r s).pending = s.pending := by
  unfold handleRecord
  split
  · split <;> simp
  all_goals simp

/-- What `takeRecord` leaves unchanged. -/
@[simp] theorem takeRecord_frame (r : LogRecord) (s : State) :
    (takeRecord r s).capture = s.capture ∧ (takeRecord r s).time = s.time ∧ (takeRecord r s).dict = s.dict ∧
    (takeRecord r s).power = s.power ∧ (takeRecord r s).wake = s.wake ∧ (takeRecord r s).pending = s.pending := by
  unfold takeRecord
  dsimp only
  split <;> split <;> simp

/-- What `takeEvent` leaves unchanged. -/
@[simp] theorem takeEvent_frame (s : State) :
    (takeEvent s).capture = s.capture ∧ (takeEvent s).time = s.time ∧ (takeEvent s).dict = s.dict ∧
    (takeEvent s).power = s.power ∧ (takeEvent s).wake = s.wake ∧ (takeEvent s).pending = s.pending := by
  unfold takeEvent
  split <;> simp

/-- What `settleEvent` leaves unchanged. -/
@[simp] theorem settleEvent_frame (s : State) :
    (settleEvent s).capture = s.capture ∧ (settleEvent s).log = s.log ∧ (settleEvent s).time = s.time ∧
    (settleEvent s).dict = s.dict ∧ (settleEvent s).power = s.power ∧ (settleEvent s).wake = s.wake ∧
    (settleEvent s).pending = s.pending := by
  unfold settleEvent
  split <;> simp

/-- What `reopenUnits` leaves unchanged. -/
@[simp] theorem reopenUnits_frame (r : Nat) (s : State) :
    ((reopenUnits r s).2).capture = s.capture ∧ ((reopenUnits r s).2).log = s.log ∧
    ((reopenUnits r s).2).time = s.time ∧ ((reopenUnits r s).2).dict = s.dict ∧
    ((reopenUnits r s).2).power = s.power ∧ ((reopenUnits r s).2).wake = s.wake ∧
    ((reopenUnits r s).2).pending = s.pending := by
  induction r generalizing s with
  | zero => simp [reopenUnits]
  | succ r ih =>
    unfold reopenUnits
    split
    · simp
    · dsimp only
      split
      · simp
      · simp [ih]

/-- What `retranslate` leaves unchanged. -/
@[simp] theorem retranslate_frame (r : Nat) (s : State) :
    ((retranslate r s).2).capture = s.capture ∧ ((retranslate r s).2).log = s.log ∧
    ((retranslate r s).2).time = s.time ∧ ((retranslate r s).2).dict = s.dict ∧
    ((retranslate r s).2).power = s.power ∧ ((retranslate r s).2).wake = s.wake ∧
    ((retranslate r s).2).pending = s.pending := by
  simp [retranslate]

/-- What `askRetranslate` leaves unchanged. -/
@[simp] theorem askRetranslate_frame (r : Nat) (s : State) :
    ((askRetranslate r s).2).capture = s.capture ∧ ((askRetranslate r s).2).log = s.log ∧
    ((askRetranslate r s).2).time = s.time ∧ ((askRetranslate r s).2).dict = s.dict ∧
    ((askRetranslate r s).2).power = s.power ∧ ((askRetranslate r s).2).wake = s.wake ∧
    ((askRetranslate r s).2).pending = s.pending := by
  unfold askRetranslate
  split <;> simp

/-! ### Power Control and the Wake Detector -/

/-- What `enterSettling` leaves unchanged. -/
@[simp] theorem enterSettling_frame (r : DozeReason) (s : State) :
    (enterSettling r s).capture = s.capture ∧ (enterSettling r s).log = s.log ∧
    (enterSettling r s).time = s.time ∧ (enterSettling r s).dict = s.dict ∧ (enterSettling r s).wake = s.wake ∧
    (enterSettling r s).pending = s.pending := by
  unfold enterSettling
  dsimp only
  split <;> simp

/-- What `returnToReady` leaves unchanged. -/
@[simp] theorem returnToReady_frame (s : State) :
    (returnToReady s).capture = s.capture ∧ (returnToReady s).log = s.log ∧ (returnToReady s).time = s.time ∧
    (returnToReady s).dict = s.dict ∧ (returnToReady s).journal = s.journal ∧
    (returnToReady s).holds = s.holds ∧ (returnToReady s).wake = s.wake ∧
    (returnToReady s).counters = s.counters ∧ (returnToReady s).pending = s.pending := by
  simp [returnToReady]

/-- What `enterDoze` leaves unchanged. -/
@[simp] theorem enterDoze_frame (s : State) :
    (enterDoze s).capture = s.capture ∧ (enterDoze s).log = s.log ∧ (enterDoze s).time = s.time ∧
    (enterDoze s).dict = s.dict ∧ (enterDoze s).journal = s.journal ∧ (enterDoze s).holds = s.holds ∧
    (enterDoze s).counters = s.counters ∧ (enterDoze s).pending = s.pending := by
  simp [enterDoze]

/-- What `dozeIfReady` leaves unchanged. -/
@[simp] theorem dozeIfReady_frame (s : State) :
    (dozeIfReady s).capture = s.capture ∧ (dozeIfReady s).log = s.log ∧ (dozeIfReady s).time = s.time ∧
    (dozeIfReady s).dict = s.dict ∧ (dozeIfReady s).journal = s.journal ∧ (dozeIfReady s).holds = s.holds ∧
    (dozeIfReady s).counters = s.counters ∧ (dozeIfReady s).pending = s.pending := by
  unfold dozeIfReady
  split <;> simp

/-- What `reportOpening` leaves unchanged. -/
@[simp] theorem reportOpening_frame (s : State) :
    (reportOpening s).capture = s.capture ∧ (reportOpening s).log = s.log ∧ (reportOpening s).time = s.time ∧
    (reportOpening s).dict = s.dict ∧ (reportOpening s).journal = s.journal ∧
    (reportOpening s).holds = s.holds ∧ (reportOpening s).wake = s.wake ∧
    (reportOpening s).counters = s.counters ∧ (reportOpening s).pending = s.pending := by
  unfold reportOpening
  split <;> simp

/-- What `wakePart` leaves unchanged. -/
@[simp] theorem wakePart_frame (c : WakeCause) (s : State) :
    (wakePart c s).capture = s.capture ∧ (wakePart c s).time = s.time ∧ (wakePart c s).dict = s.dict ∧
    (wakePart c s).trans = s.trans ∧ (wakePart c s).journal = s.journal ∧ (wakePart c s).holds = s.holds ∧
    (wakePart c s).pending = s.pending := by
  simp [wakePart]

/-- What `matchStroke` leaves unchanged. -/
@[simp] theorem matchStroke_frame (m : Nat) (t : Tick) (s : State) :
    (matchStroke m t s).capture = s.capture ∧ (matchStroke m t s).time = s.time ∧
    (matchStroke m t s).dict = s.dict ∧ (matchStroke m t s).trans = s.trans ∧
    (matchStroke m t s).journal = s.journal ∧ (matchStroke m t s).holds = s.holds ∧
    (matchStroke m t s).pending = s.pending := by
  unfold matchStroke
  split
  · simp
  · split <;> simp

/-- What `judgeWake` leaves unchanged. -/
@[simp] theorem judgeWake_frame (c : Chord) (t : Tick) (s : State) :
    (judgeWake c t s).capture = s.capture ∧ (judgeWake c t s).time = s.time ∧ (judgeWake c t s).dict = s.dict ∧
    (judgeWake c t s).trans = s.trans ∧ (judgeWake c t s).journal = s.journal ∧
    (judgeWake c t s).holds = s.holds ∧ (judgeWake c t s).pending = s.pending := by
  unfold judgeWake
  dsimp only
  split
  · split
    · simp
    · split <;> simp
  · simp

/-- What `gapExpires` leaves unchanged. -/
@[simp] theorem gapExpires_frame (s : State) :
    (gapExpires s).capture = s.capture ∧ (gapExpires s).log = s.log ∧ (gapExpires s).time = s.time ∧
    (gapExpires s).dict = s.dict ∧ (gapExpires s).trans = s.trans ∧ (gapExpires s).journal = s.journal ∧
    (gapExpires s).holds = s.holds ∧ (gapExpires s).power = s.power ∧ (gapExpires s).pending = s.pending := by
  unfold gapExpires
  dsimp only
  split <;> simp

/-- What `gapEvent` leaves unchanged. -/
@[simp] theorem gapEvent_frame (s : State) :
    (gapEvent s).capture = s.capture ∧ (gapEvent s).log = s.log ∧ (gapEvent s).time = s.time ∧
    (gapEvent s).dict = s.dict ∧ (gapEvent s).trans = s.trans ∧ (gapEvent s).journal = s.journal ∧
    (gapEvent s).holds = s.holds ∧ (gapEvent s).power = s.power ∧ (gapEvent s).pending = s.pending := by
  unfold gapEvent
  split <;> simp

/-- What `idleEvent` leaves unchanged. -/
@[simp] theorem idleEvent_frame (s : State) :
    (idleEvent s).capture = s.capture ∧ (idleEvent s).log = s.log ∧ (idleEvent s).time = s.time ∧
    (idleEvent s).dict = s.dict ∧ (idleEvent s).wake = s.wake ∧ (idleEvent s).pending = s.pending := by
  unfold idleEvent
  split <;> simp

/-- What `askDoze` leaves unchanged. -/
@[simp] theorem askDoze_frame (s : State) :
    (askDoze s).capture = s.capture ∧ (askDoze s).log = s.log ∧ (askDoze s).time = s.time ∧
    (askDoze s).dict = s.dict ∧ (askDoze s).pending = s.pending := by
  unfold askDoze
  split <;> simp

/-! ### The end of an event -/

/-- What `driveAttention` leaves unchanged. -/
@[simp] theorem driveAttention_frame (s : State) :
    (driveAttention s).capture = s.capture ∧ (driveAttention s).log = s.log ∧
    (driveAttention s).time = s.time ∧ (driveAttention s).dict = s.dict ∧ (driveAttention s).trans = s.trans ∧
    (driveAttention s).journal = s.journal ∧ (driveAttention s).holds = s.holds ∧
    (driveAttention s).power = s.power ∧ (driveAttention s).wake = s.wake ∧
    (driveAttention s).counters = s.counters ∧ (driveAttention s).pending = s.pending := by
  simp [driveAttention]

/-- What `eventEnd` leaves unchanged. -/
@[simp] theorem eventEnd_frame (s : State) :
    (eventEnd s).capture = s.capture ∧ (eventEnd s).log = s.log ∧ (eventEnd s).time = s.time ∧
    (eventEnd s).dict = s.dict ∧ (eventEnd s).holds = s.holds ∧ (eventEnd s).counters = s.counters ∧
    (eventEnd s).pending = s.pending := by
  simp [eventEnd]

/-- What `pushReply` leaves unchanged. -/
@[simp] theorem pushReply_frame (port : Port) (r : Reply) (s : State) :
    (pushReply port r s).capture = s.capture ∧ (pushReply port r s).log = s.log ∧
    (pushReply port r s).time = s.time ∧ (pushReply port r s).dict = s.dict ∧
    (pushReply port r s).trans = s.trans ∧ (pushReply port r s).journal = s.journal ∧
    (pushReply port r s).holds = s.holds ∧ (pushReply port r s).power = s.power ∧
    (pushReply port r s).wake = s.wake ∧ (pushReply port r s).counters = s.counters ∧
    (pushReply port r s).pending = s.pending := by
  simp [pushReply]

/-- What `dropRequest` leaves unchanged. -/
@[simp] theorem dropRequest_frame (port : Port) (s : State) :
    (dropRequest port s).capture = s.capture ∧ (dropRequest port s).log = s.log ∧
    (dropRequest port s).time = s.time ∧ (dropRequest port s).dict = s.dict ∧
    (dropRequest port s).trans = s.trans ∧ (dropRequest port s).journal = s.journal ∧
    (dropRequest port s).holds = s.holds ∧ (dropRequest port s).power = s.power ∧
    (dropRequest port s).wake = s.wake ∧ (dropRequest port s).counters = s.counters ∧
    (dropRequest port s).pending = s.pending := by
  simp [dropRequest]

/-! ### Sensing and assembly -/

/-- What `markPress` leaves unchanged. -/
@[simp] theorem markPress_frame (n : Nat) (s : State) :
    (markPress n s).capture = s.capture ∧ (markPress n s).time = s.time ∧ (markPress n s).dict = s.dict ∧
    (markPress n s).trans = s.trans ∧ (markPress n s).journal = s.journal ∧ (markPress n s).holds = s.holds ∧
    (markPress n s).power = s.power ∧ (markPress n s).wake = s.wake ∧ (markPress n s).pending = s.pending := by
  induction n generalizing s with
  | zero => simp [markPress]
  | succ n ih =>
    unfold markPress
    split <;> simp [ih]

/-- What `holdGroupPress` leaves unchanged. -/
@[simp] theorem holdGroupPress_frame (s : State) :
    (holdGroupPress s).log = s.log ∧ (holdGroupPress s).time = s.time ∧ (holdGroupPress s).dict = s.dict ∧
    (holdGroupPress s).trans = s.trans ∧ (holdGroupPress s).power = s.power ∧
    (holdGroupPress s).wake = s.wake ∧ (holdGroupPress s).pending = s.pending := by
  unfold holdGroupPress
  have h := openHold_frame .line none s
  split <;> rename_i heq <;> rw [heq] at h <;> simp_all

/-- What `holdGroupRelease` leaves unchanged. -/
@[simp] theorem holdGroupRelease_frame (s : State) :
    (holdGroupRelease s).log = s.log ∧ (holdGroupRelease s).time = s.time ∧
    (holdGroupRelease s).dict = s.dict ∧ (holdGroupRelease s).trans = s.trans ∧
    (holdGroupRelease s).power = s.power ∧ (holdGroupRelease s).wake = s.wake ∧
    (holdGroupRelease s).pending = s.pending := by
  unfold holdGroupRelease
  split <;> simp

/-- What `holdGroup` leaves unchanged. -/
@[simp] theorem holdGroup_frame (a b : Bool) (s : State) :
    (holdGroup a b s).log = s.log ∧ (holdGroup a b s).time = s.time ∧ (holdGroup a b s).dict = s.dict ∧
    (holdGroup a b s).trans = s.trans ∧ (holdGroup a b s).power = s.power ∧ (holdGroup a b s).wake = s.wake ∧
    (holdGroup a b s).pending = s.pending := by
  unfold holdGroup
  split
  · simp
  · split <;> simp

/-- What `openStroke` leaves unchanged. -/
@[simp] theorem openStroke_frame (k : Chord) (s : State) :
    (openStroke k s).log = s.log ∧ (openStroke k s).time = s.time ∧ (openStroke k s).dict = s.dict ∧
    (openStroke k s).journal = s.journal ∧ (openStroke k s).holds = s.holds ∧ (openStroke k s).wake = s.wake ∧
    (openStroke k s).counters = s.counters ∧ (openStroke k s).pending = s.pending := by
  by_cases h : s.power.part = .doze <;> simp [openStroke, h]

/-- What `handStroke` leaves unchanged. -/
@[simp] theorem handStroke_frame (a : Assembler) (n : Nat) (h : Bool) (s : State) :
    (handStroke a n h s).capture = s.capture ∧ (handStroke a n h s).time = s.time ∧
    (handStroke a n h s).dict = s.dict ∧ (handStroke a n h s).trans = s.trans ∧
    (handStroke a n h s).journal = s.journal ∧ (handStroke a n h s).holds = s.holds ∧
    (handStroke a n h s).pending = s.pending := by
  unfold handStroke
  split
  · simp
  · split <;> simp

/-- What `closeStroke` leaves unchanged. -/
@[simp] theorem closeStroke_frame (s : State) :
    (closeStroke s).time = s.time ∧ (closeStroke s).dict = s.dict ∧ (closeStroke s).trans = s.trans ∧
    (closeStroke s).journal = s.journal ∧ (closeStroke s).holds = s.holds ∧ (closeStroke s).pending = s.pending := by
  simp [closeStroke]

/-- What `assemble` leaves unchanged. -/
@[simp] theorem assemble_frame (a b : Chord) (s : State) :
    (assemble a b s).time = s.time ∧ (assemble a b s).dict = s.dict ∧ (assemble a b s).journal = s.journal ∧
    (assemble a b s).holds = s.holds ∧ (assemble a b s).pending = s.pending := by
  unfold assemble
  dsimp only
  split <;> split <;> simp

/-- What `scanEvent` leaves unchanged. -/
@[simp] theorem scanEvent_frame (d : List Byte) (s : State) :
    (scanEvent d s).time = s.time ∧ (scanEvent d s).dict = s.dict ∧ (scanEvent d s).pending = s.pending := by
  simp [scanEvent]

/-- What `strokeLimitEvent` leaves unchanged. -/
@[simp] theorem strokeLimitEvent_frame (s : State) :
    (strokeLimitEvent s).time = s.time ∧ (strokeLimitEvent s).dict = s.dict ∧
    (strokeLimitEvent s).trans = s.trans ∧ (strokeLimitEvent s).journal = s.journal ∧
    (strokeLimitEvent s).holds = s.holds ∧ (strokeLimitEvent s).pending = s.pending := by
  unfold strokeLimitEvent
  split <;> simp

/-- What `lastKeyReleased` leaves unchanged. -/
@[simp] theorem lastKeyReleased_frame (s : State) :
    (lastKeyReleased s).time = s.time ∧ (lastKeyReleased s).dict = s.dict ∧
    (lastKeyReleased s).trans = s.trans ∧ (lastKeyReleased s).journal = s.journal ∧
    (lastKeyReleased s).holds = s.holds ∧ (lastKeyReleased s).pending = s.pending := by
  unfold lastKeyReleased
  split <;> simp

/-- What `reportReleases` leaves unchanged. -/
@[simp] theorem reportReleases_frame (a b : List Line) (s : State) :
    (reportReleases a b s).time = s.time ∧ (reportReleases a b s).dict = s.dict ∧
    (reportReleases a b s).trans = s.trans ∧ (reportReleases a b s).pending = s.pending := by
  unfold reportReleases
  dsimp only
  split <;> simp

/-- What `replaceLines` leaves unchanged. -/
@[simp] theorem replaceLines_frame (a : List Line) (s : State) :
    (replaceLines a s).time = s.time ∧ (replaceLines a s).dict = s.dict ∧ (replaceLines a s).trans = s.trans ∧
    (replaceLines a s).pending = s.pending := by
  simp [replaceLines]

/-! ### Time -/

/-- What `rejudge` leaves unchanged. -/
@[simp] theorem rejudge_frame (s : State) :
    (rejudge s).capture = s.capture ∧ (rejudge s).log = s.log ∧ (rejudge s).dict = s.dict ∧
    (rejudge s).trans = s.trans ∧ (rejudge s).journal = s.journal ∧ (rejudge s).holds = s.holds ∧
    (rejudge s).power = s.power ∧ (rejudge s).wake = s.wake ∧ (rejudge s).counters = s.counters ∧
    (rejudge s).pending = s.pending := by
  unfold rejudge
  dsimp only
  split <;> simp

/-- What `loseLock` leaves unchanged. -/
@[simp] theorem loseLock_frame (s : State) :
    (loseLock s).capture = s.capture ∧ (loseLock s).log = s.log ∧ (loseLock s).dict = s.dict ∧
    (loseLock s).trans = s.trans ∧ (loseLock s).journal = s.journal ∧ (loseLock s).holds = s.holds ∧
    (loseLock s).power = s.power ∧ (loseLock s).wake = s.wake ∧ (loseLock s).counters = s.counters ∧
    (loseLock s).ports = s.ports ∧ (loseLock s).pending = s.pending := by
  simp [loseLock]

/-- What `lockAt` leaves unchanged. -/
@[simp] theorem lockAt_frame (p : BitVec 6) (s : State) :
    (lockAt p s).capture = s.capture ∧ (lockAt p s).log = s.log ∧ (lockAt p s).dict = s.dict ∧
    (lockAt p s).trans = s.trans ∧ (lockAt p s).journal = s.journal ∧ (lockAt p s).holds = s.holds ∧
    (lockAt p s).power = s.power ∧ (lockAt p s).wake = s.wake ∧ (lockAt p s).pending = s.pending := by
  unfold lockAt
  dsimp only
  split <;> simp

/-- What `moveTo` leaves unchanged. -/
@[simp] theorem moveTo_frame (p : BitVec 6) (s : State) :
    (moveTo p s).capture = s.capture ∧ (moveTo p s).log = s.log ∧ (moveTo p s).dict = s.dict ∧
    (moveTo p s).trans = s.trans ∧ (moveTo p s).journal = s.journal ∧ (moveTo p s).holds = s.holds ∧
    (moveTo p s).power = s.power ∧ (moveTo p s).wake = s.wake ∧ (moveTo p s).pending = s.pending := by
  simp [moveTo]

/-- What `frameCell` leaves unchanged. -/
@[simp] theorem frameCell_frame (s : State) :
    (frameCell s).capture = s.capture ∧ (frameCell s).log = s.log ∧ (frameCell s).dict = s.dict ∧
    (frameCell s).trans = s.trans ∧ (frameCell s).journal = s.journal ∧ (frameCell s).holds = s.holds ∧
    (frameCell s).power = s.power ∧ (frameCell s).wake = s.wake ∧ (frameCell s).counters = s.counters ∧
    (frameCell s).ports = s.ports ∧ (frameCell s).pending = s.pending := by
  unfold frameCell
  dsimp only
  split
  · simp
  · split <;> simp

/-- What `judgeCell` leaves unchanged. -/
@[simp] theorem judgeCell_frame (s : State) :
    (judgeCell s).capture = s.capture ∧ (judgeCell s).log = s.log ∧ (judgeCell s).dict = s.dict ∧
    (judgeCell s).trans = s.trans ∧ (judgeCell s).journal = s.journal ∧ (judgeCell s).holds = s.holds ∧
    (judgeCell s).power = s.power ∧ (judgeCell s).wake = s.wake ∧ (judgeCell s).pending = s.pending := by
  unfold judgeCell
  dsimp only
  split
  · split <;> simp
  · split <;> simp
  · simp

/-- What `judgeSync` leaves unchanged. -/
@[simp] theorem judgeSync_frame (f : TimeFrame) (s : State) :
    (judgeSync f s).capture = s.capture ∧ (judgeSync f s).log = s.log ∧ (judgeSync f s).dict = s.dict ∧
    (judgeSync f s).trans = s.trans ∧ (judgeSync f s).journal = s.journal ∧ (judgeSync f s).holds = s.holds ∧
    (judgeSync f s).power = s.power ∧ (judgeSync f s).wake = s.wake ∧ (judgeSync f s).pending = s.pending := by
  unfold judgeSync
  split
  · simp
  · dsimp only
    split <;> simp

/-- What `failBlock` leaves unchanged. -/
@[simp] theorem failBlock_frame (f : TimeFrame) (s : State) :
    (failBlock f s).capture = s.capture ∧ (failBlock f s).log = s.log ∧ (failBlock f s).dict = s.dict ∧
    (failBlock f s).trans = s.trans ∧ (failBlock f s).journal = s.journal ∧ (failBlock f s).holds = s.holds ∧
    (failBlock f s).power = s.power ∧ (failBlock f s).wake = s.wake ∧ (failBlock f s).counters = s.counters ∧
    (failBlock f s).ports = s.ports ∧ (failBlock f s).pending = s.pending := by
  unfold failBlock
  split <;> simp

/-- What `judgeCheck` leaves unchanged. -/
@[simp] theorem judgeCheck_frame (f : TimeFrame) (s : State) :
    (judgeCheck f s).capture = s.capture ∧ (judgeCheck f s).log = s.log ∧ (judgeCheck f s).dict = s.dict ∧
    (judgeCheck f s).trans = s.trans ∧ (judgeCheck f s).journal = s.journal ∧
    (judgeCheck f s).holds = s.holds ∧ (judgeCheck f s).power = s.power ∧ (judgeCheck f s).wake = s.wake ∧
    (judgeCheck f s).pending = s.pending := by
  unfold judgeCheck
  dsimp only
  split <;> split <;> simp

/-- What `declareBlock` leaves unchanged. -/
@[simp] theorem declareBlock_frame (f : TimeFrame) (s : State) :
    (declareBlock f s).capture = s.capture ∧ (declareBlock f s).log = s.log ∧
    (declareBlock f s).dict = s.dict ∧ (declareBlock f s).trans = s.trans ∧
    (declareBlock f s).journal = s.journal ∧ (declareBlock f s).holds = s.holds ∧
    (declareBlock f s).power = s.power ∧ (declareBlock f s).wake = s.wake ∧
    (declareBlock f s).pending = s.pending := by
  simp [declareBlock]

/-- What `searchBlock` leaves unchanged. -/
@[simp] theorem searchBlock_frame (b : Bool) (f : TimeFrame) (s : State) :
    (searchBlock b f s).capture = s.capture ∧ (searchBlock b f s).log = s.log ∧
    (searchBlock b f s).dict = s.dict ∧ (searchBlock b f s).trans = s.trans ∧
    (searchBlock b f s).journal = s.journal ∧ (searchBlock b f s).holds = s.holds ∧
    (searchBlock b f s).power = s.power ∧ (searchBlock b f s).wake = s.wake ∧
    (searchBlock b f s).pending = s.pending := by
  unfold searchBlock
  dsimp only
  split <;> simp

/-- What `judgeBlock` leaves unchanged. -/
@[simp] theorem judgeBlock_frame (b : Bool) (f : TimeFrame) (s : State) :
    (judgeBlock b f s).capture = s.capture ∧ (judgeBlock b f s).log = s.log ∧
    (judgeBlock b f s).dict = s.dict ∧ (judgeBlock b f s).trans = s.trans ∧
    (judgeBlock b f s).journal = s.journal ∧ (judgeBlock b f s).holds = s.holds ∧
    (judgeBlock b f s).power = s.power ∧ (judgeBlock b f s).wake = s.wake ∧
    (judgeBlock b f s).pending = s.pending := by
  unfold judgeBlock
  split
  · simp
  · dsimp only
    split <;> simp
  all_goals simp

/-- What `takeReference` leaves unchanged. -/
@[simp] theorem takeReference_frame (d : Nat) (s : State) :
    (takeReference d s).capture = s.capture ∧ (takeReference d s).log = s.log ∧
    (takeReference d s).dict = s.dict ∧ (takeReference d s).trans = s.trans ∧
    (takeReference d s).journal = s.journal ∧ (takeReference d s).holds = s.holds ∧
    (takeReference d s).power = s.power ∧ (takeReference d s).wake = s.wake ∧
    (takeReference d s).counters = s.counters ∧ (takeReference d s).pending = s.pending := by
  simp [takeReference]

/-- What `holdStep` leaves unchanged. -/
@[simp] theorem holdStep_frame (d : Nat) (s : State) :
    (holdStep d s).capture = s.capture ∧ (holdStep d s).log = s.log ∧ (holdStep d s).dict = s.dict ∧
    (holdStep d s).trans = s.trans ∧ (holdStep d s).journal = s.journal ∧ (holdStep d s).holds = s.holds ∧
    (holdStep d s).power = s.power ∧ (holdStep d s).wake = s.wake ∧ (holdStep d s).counters = s.counters ∧
    (holdStep d s).ports = s.ports ∧ (holdStep d s).pending = s.pending := by
  simp [holdStep]

/-- What `takeStep` leaves unchanged. -/
@[simp] theorem takeStep_frame (e d : Nat) (s : State) :
    (takeStep e d s).capture = s.capture ∧ (takeStep e d s).dict = s.dict ∧ (takeStep e d s).trans = s.trans ∧
    (takeStep e d s).journal = s.journal ∧ (takeStep e d s).holds = s.holds ∧
    (takeStep e d s).power = s.power ∧ (takeStep e d s).wake = s.wake ∧ (takeStep e d s).pending = s.pending := by
  simp [takeStep]

/-- What `updateReference` leaves unchanged. -/
@[simp] theorem updateReference_frame (d : Nat) (s : State) :
    (updateReference d s).capture = s.capture ∧ (updateReference d s).dict = s.dict ∧
    (updateReference d s).trans = s.trans ∧ (updateReference d s).journal = s.journal ∧
    (updateReference d s).holds = s.holds ∧ (updateReference d s).power = s.power ∧
    (updateReference d s).wake = s.wake ∧ (updateReference d s).pending = s.pending := by
  unfold updateReference
  dsimp only
  split
  · simp
  · split
    · simp
    · split <;> simp

/-- What `updateTake` leaves unchanged. -/
@[simp] theorem updateTake_frame (w : Nat) (s : State) :
    (updateTake w s).capture = s.capture ∧ (updateTake w s).dict = s.dict ∧ (updateTake w s).trans = s.trans ∧
    (updateTake w s).journal = s.journal ∧ (updateTake w s).holds = s.holds ∧
    (updateTake w s).power = s.power ∧ (updateTake w s).wake = s.wake ∧ (updateTake w s).pending = s.pending := by
  unfold updateTake
  dsimp only
  split <;> simp

/-- What `acceptFrame` leaves unchanged. -/
@[simp] theorem acceptFrame_frame (f : TimeFrame) (s : State) :
    (acceptFrame f s).capture = s.capture ∧ (acceptFrame f s).dict = s.dict ∧
    (acceptFrame f s).trans = s.trans ∧ (acceptFrame f s).journal = s.journal ∧
    (acceptFrame f s).holds = s.holds ∧ (acceptFrame f s).power = s.power ∧ (acceptFrame f s).wake = s.wake ∧
    (acceptFrame f s).pending = s.pending := by
  simp [acceptFrame]

/-- What `keepSummary` leaves unchanged. -/
@[simp] theorem keepSummary_frame (f : TimeFrame) (s : State) :
    (keepSummary f s).capture = s.capture ∧ (keepSummary f s).log = s.log ∧ (keepSummary f s).dict = s.dict ∧
    (keepSummary f s).trans = s.trans ∧ (keepSummary f s).journal = s.journal ∧
    (keepSummary f s).holds = s.holds ∧ (keepSummary f s).power = s.power ∧ (keepSummary f s).wake = s.wake ∧
    (keepSummary f s).counters = s.counters ∧ (keepSummary f s).ports = s.ports ∧
    (keepSummary f s).pending = s.pending := by
  simp [keepSummary]

/-- What `judgeFrame` leaves unchanged. -/
@[simp] theorem judgeFrame_frame (b : Bool) (f : TimeFrame) (s : State) :
    (judgeFrame b f s).capture = s.capture ∧ (judgeFrame b f s).dict = s.dict ∧
    (judgeFrame b f s).trans = s.trans ∧ (judgeFrame b f s).journal = s.journal ∧
    (judgeFrame b f s).holds = s.holds ∧ (judgeFrame b f s).power = s.power ∧
    (judgeFrame b f s).wake = s.wake ∧ (judgeFrame b f s).pending = s.pending := by
  unfold judgeFrame
  dsimp only
  split
  · simp
  · split <;> simp

/-- What `completeFrame` leaves unchanged. -/
@[simp] theorem completeFrame_frame (s : State) :
    (completeFrame s).capture = s.capture ∧ (completeFrame s).dict = s.dict ∧
    (completeFrame s).trans = s.trans ∧ (completeFrame s).journal = s.journal ∧
    (completeFrame s).holds = s.holds ∧ (completeFrame s).power = s.power ∧ (completeFrame s).wake = s.wake ∧
    (completeFrame s).pending = s.pending := by
  unfold completeFrame
  dsimp only
  split <;> simp

/-- What `frameEvent` leaves unchanged. -/
@[simp] theorem frameEvent_frame (s : State) :
    (frameEvent s).capture = s.capture ∧ (frameEvent s).dict = s.dict ∧ (frameEvent s).trans = s.trans ∧
    (frameEvent s).journal = s.journal ∧ (frameEvent s).holds = s.holds ∧ (frameEvent s).power = s.power ∧
    (frameEvent s).wake = s.wake ∧ (frameEvent s).pending = s.pending := by
  unfold frameEvent
  split <;> simp

/-- What `cellEvent` leaves unchanged. -/
@[simp] theorem cellEvent_frame (d : Bool) (s : State) :
    (cellEvent d s).capture = s.capture ∧ (cellEvent d s).dict = s.dict ∧ (cellEvent d s).trans = s.trans ∧
    (cellEvent d s).journal = s.journal ∧ (cellEvent d s).holds = s.holds ∧ (cellEvent d s).power = s.power ∧
    (cellEvent d s).wake = s.wake ∧ (cellEvent d s).pending = s.pending := by
  simp [cellEvent]

/-- What `fallSilent` leaves unchanged. -/
@[simp] theorem fallSilent_frame (s : State) :
    (fallSilent s).capture = s.capture ∧ (fallSilent s).log = s.log ∧ (fallSilent s).dict = s.dict ∧
    (fallSilent s).trans = s.trans ∧ (fallSilent s).journal = s.journal ∧ (fallSilent s).holds = s.holds ∧
    (fallSilent s).power = s.power ∧ (fallSilent s).wake = s.wake ∧ (fallSilent s).counters = s.counters ∧
    (fallSilent s).pending = s.pending := by
  unfold fallSilent
  dsimp only
  split <;> simp

/-- What `silenceEvent` leaves unchanged. -/
@[simp] theorem silenceEvent_frame (s : State) :
    (silenceEvent s).capture = s.capture ∧ (silenceEvent s).dict = s.dict ∧ (silenceEvent s).trans = s.trans ∧
    (silenceEvent s).journal = s.journal ∧ (silenceEvent s).holds = s.holds ∧
    (silenceEvent s).power = s.power ∧ (silenceEvent s).wake = s.wake ∧ (silenceEvent s).pending = s.pending := by
  unfold silenceEvent
  split <;> simp

/-- What `blockLimitEvent` leaves unchanged. -/
@[simp] theorem blockLimitEvent_frame (s : State) :
    (blockLimitEvent s).capture = s.capture ∧ (blockLimitEvent s).log = s.log ∧
    (blockLimitEvent s).dict = s.dict ∧ (blockLimitEvent s).trans = s.trans ∧
    (blockLimitEvent s).journal = s.journal ∧ (blockLimitEvent s).holds = s.holds ∧
    (blockLimitEvent s).power = s.power ∧ (blockLimitEvent s).wake = s.wake ∧
    (blockLimitEvent s).counters = s.counters ∧ (blockLimitEvent s).pending = s.pending := by
  unfold blockLimitEvent
  split <;> simp

/-- What `coastEvent` leaves unchanged. -/
@[simp] theorem coastEvent_frame (s : State) :
    (coastEvent s).capture = s.capture ∧ (coastEvent s).log = s.log ∧ (coastEvent s).dict = s.dict ∧
    (coastEvent s).trans = s.trans ∧ (coastEvent s).journal = s.journal ∧ (coastEvent s).holds = s.holds ∧
    (coastEvent s).power = s.power ∧ (coastEvent s).wake = s.wake ∧ (coastEvent s).counters = s.counters ∧
    (coastEvent s).pending = s.pending := by
  unfold coastEvent
  split <;> simp

/-- What `rebaseEvent` leaves unchanged. -/
@[simp] theorem rebaseEvent_frame (s : State) :
    (rebaseEvent s).capture = s.capture ∧ (rebaseEvent s).log = s.log ∧ (rebaseEvent s).dict = s.dict ∧
    (rebaseEvent s).trans = s.trans ∧ (rebaseEvent s).journal = s.journal ∧ (rebaseEvent s).holds = s.holds ∧
    (rebaseEvent s).power = s.power ∧ (rebaseEvent s).wake = s.wake ∧ (rebaseEvent s).counters = s.counters ∧
    (rebaseEvent s).ports = s.ports ∧ (rebaseEvent s).pending = s.pending := by
  unfold rebaseEvent
  split <;> simp

/-- What `changeRate` leaves unchanged. -/
@[simp] theorem changeRate_frame (s : State) :
    (changeRate s).capture = s.capture ∧ (changeRate s).log = s.log ∧ (changeRate s).dict = s.dict ∧
    (changeRate s).trans = s.trans ∧ (changeRate s).journal = s.journal ∧ (changeRate s).holds = s.holds ∧
    (changeRate s).power = s.power ∧ (changeRate s).wake = s.wake ∧ (changeRate s).counters = s.counters ∧
    (changeRate s).ports = s.ports ∧ (changeRate s).pending = s.pending := by
  unfold changeRate
  split <;> simp

/-- What `judgeSettings` leaves unchanged. -/
@[simp] theorem judgeSettings_frame (old : TimeFollower) (s : State) :
    (judgeSettings old s).capture = s.capture ∧ (judgeSettings old s).log = s.log ∧
    (judgeSettings old s).dict = s.dict ∧ (judgeSettings old s).trans = s.trans ∧
    (judgeSettings old s).journal = s.journal ∧ (judgeSettings old s).holds = s.holds ∧
    (judgeSettings old s).power = s.power ∧ (judgeSettings old s).wake = s.wake ∧
    (judgeSettings old s).counters = s.counters ∧ (judgeSettings old s).pending = s.pending := by
  unfold judgeSettings
  split
  · simp
  · split <;> simp

/-! ### The Dictionary Store -/

/-- What `changeLayer` leaves unchanged. -/
@[simp] theorem changeLayer_frame (d : Dictionary) (s : State) :
    (changeLayer d s).capture = s.capture ∧ (changeLayer d s).log = s.log ∧ (changeLayer d s).time = s.time ∧
    (changeLayer d s).trans = s.trans ∧ (changeLayer d s).journal = s.journal ∧
    (changeLayer d s).holds = s.holds ∧ (changeLayer d s).power = s.power ∧ (changeLayer d s).wake = s.wake ∧
    (changeLayer d s).counters = s.counters ∧ (changeLayer d s).pending = s.pending := by
  simp [changeLayer]

/-- What `endLoad` leaves unchanged. -/
@[simp] theorem endLoad_frame (l : LayerState) (r : CheckResult) (h : Option ImageHeader) (s : State) :
    (endLoad l r h s).capture = s.capture ∧ (endLoad l r h s).log = s.log ∧ (endLoad l r h s).time = s.time ∧
    (endLoad l r h s).power = s.power ∧ (endLoad l r h s).wake = s.wake ∧ (endLoad l r h s).pending = s.pending := by
  simp [endLoad]

/-- What `inactivityEvent` leaves unchanged. -/
@[simp] theorem inactivityEvent_frame (s : State) :
    (inactivityEvent s).capture = s.capture ∧ (inactivityEvent s).log = s.log ∧
    (inactivityEvent s).time = s.time ∧ (inactivityEvent s).power = s.power ∧
    (inactivityEvent s).wake = s.wake ∧ (inactivityEvent s).pending = s.pending := by
  unfold inactivityEvent
  split <;> simp

/-- What `completeCheck` leaves unchanged. -/
@[simp] theorem completeCheck_frame (r : CheckResult) (s : State) :
    (completeCheck r s).capture = s.capture ∧ (completeCheck r s).log = s.log ∧
    (completeCheck r s).time = s.time ∧ (completeCheck r s).power = s.power ∧
    (completeCheck r s).wake = s.wake ∧ (completeCheck r s).pending = s.pending := by
  unfold completeCheck
  split <;> simp

/-- What `checkEvent` leaves unchanged. -/
@[simp] theorem checkEvent_frame (s : State) :
    (checkEvent s).capture = s.capture ∧ (checkEvent s).log = s.log ∧ (checkEvent s).time = s.time ∧
    (checkEvent s).power = s.power ∧ (checkEvent s).wake = s.wake ∧ (checkEvent s).pending = s.pending := by
  unfold checkEvent
  split <;> simp

/-! ### Counters and transmitters -/

/-- What `snapshot` leaves unchanged. -/
@[simp] theorem snapshot_frame (c : SnapCause) (s : State) :
    (snapshot c s).capture = s.capture ∧ (snapshot c s).log = s.log ∧ (snapshot c s).time = s.time ∧
    (snapshot c s).dict = s.dict ∧ (snapshot c s).trans = s.trans ∧ (snapshot c s).journal = s.journal ∧
    (snapshot c s).holds = s.holds ∧ (snapshot c s).power = s.power ∧ (snapshot c s).wake = s.wake ∧
    (snapshot c s).pending = s.pending := by
  simp [snapshot]

/-- What `intervalEvent` leaves unchanged. -/
@[simp] theorem intervalEvent_frame (s : State) :
    (intervalEvent s).capture = s.capture ∧ (intervalEvent s).log = s.log ∧ (intervalEvent s).time = s.time ∧
    (intervalEvent s).dict = s.dict ∧ (intervalEvent s).trans = s.trans ∧
    (intervalEvent s).journal = s.journal ∧ (intervalEvent s).holds = s.holds ∧
    (intervalEvent s).power = s.power ∧ (intervalEvent s).wake = s.wake ∧ (intervalEvent s).pending = s.pending := by
  unfold intervalEvent
  split <;> simp

/-- What `setAuto` leaves unchanged. -/
@[simp] theorem setAuto_frame (b : Bool) (s : State) :
    (setAuto b s).capture = s.capture ∧ (setAuto b s).log = s.log ∧ (setAuto b s).time = s.time ∧
    (setAuto b s).dict = s.dict ∧ (setAuto b s).trans = s.trans ∧ (setAuto b s).journal = s.journal ∧
    (setAuto b s).holds = s.holds ∧ (setAuto b s).power = s.power ∧ (setAuto b s).wake = s.wake ∧
    (setAuto b s).pending = s.pending := by
  unfold setAuto
  dsimp only
  split <;> simp

/-- What `changeView` leaves unchanged. -/
@[simp] theorem changeView_frame (port : Port) (m : Option ViewMode) (b : Option Bool) (s : State) :
    (changeView port m b s).capture = s.capture ∧ (changeView port m b s).log = s.log ∧
    (changeView port m b s).time = s.time ∧ (changeView port m b s).dict = s.dict ∧
    (changeView port m b s).trans = s.trans ∧ (changeView port m b s).holds = s.holds ∧
    (changeView port m b s).power = s.power ∧ (changeView port m b s).wake = s.wake ∧
    (changeView port m b s).pending = s.pending := by
  unfold changeView
  cases b <;> cases m <;> simp

/-- What `answerQuery` leaves unchanged. -/
@[simp] theorem answerQuery_frame (l : List Byte) (s : State) :
    (answerQuery l s).capture = s.capture ∧ (answerQuery l s).log = s.log ∧ (answerQuery l s).time = s.time ∧
    (answerQuery l s).dict = s.dict ∧ (answerQuery l s).trans = s.trans ∧
    (answerQuery l s).journal = s.journal ∧ (answerQuery l s).holds = s.holds ∧
    (answerQuery l s).power = s.power ∧ (answerQuery l s).wake = s.wake ∧
    (answerQuery l s).counters = s.counters ∧ (answerQuery l s).pending = s.pending := by
  unfold answerQuery
  split
  · split <;> simp
  · simp

end Sys2Proof.Machine
end

