-- ==== Sys2Proof/Laws/Ports.lean ====
section
/-! SUPPORT. What each shared operation leaves of a port: its answers, receive state, enables, dropped
flag, turn and sending, and the outputs and settings of the ports. Notices alone may change. -/

namespace Sys2Proof.Machine

/-- `queueNotice` changes the notices and the missed flag alone. -/
@[simp] theorem queueNotice_port (n : Notice) (p : PortState) :
    (queueNotice n p).answers = p.answers ∧ (queueNotice n p).receive = p.receive ∧
    (queueNotice n p).enables = p.enables ∧ (queueNotice n p).requestsDropped = p.requestsDropped ∧
    (queueNotice n p).turn = p.turn ∧ (queueNotice n p).sending = p.sending := by
  unfold queueNotice
  split
  · split <;> simp
  · simp

/-! ### Updates -/

/-! ### Notices and counts -/

/-- `noticeOn` changes a port by notices alone. -/
@[simp] theorem noticeOn_port (port : Port) (n : Notice) (s : State) (q : Port) :
    ((noticeOn port n s).ports.get q).answers = (s.ports.get q).answers ∧
    ((noticeOn port n s).ports.get q).receive = (s.ports.get q).receive ∧
    ((noticeOn port n s).ports.get q).enables = (s.ports.get q).enables ∧
    ((noticeOn port n s).ports.get q).requestsDropped = (s.ports.get q).requestsDropped ∧
    ((noticeOn port n s).ports.get q).turn = (s.ports.get q).turn ∧
    ((noticeOn port n s).ports.get q).sending = (s.ports.get q).sending := by
  cases port <;> cases q <;> simp [noticeOn, Ports.get, Ports.set]

/-- `noticeOn` leaves the outputs and settings of the ports. -/
@[simp] theorem noticeOn_outputs (port : Port) (n : Notice) (s : State) :
    (noticeOn port n s).ports.attention = s.ports.attention ∧
    (noticeOn port n s).ports.feedAddress = s.ports.feedAddress ∧
    (noticeOn port n s).ports.courtChannel = s.ports.courtChannel ∧
    (noticeOn port n s).ports.lastOut = s.ports.lastOut := by
  cases port <;> simp [noticeOn, Ports.get, Ports.set]

/-- `raiseNotice` changes a port by notices alone. -/
@[simp] theorem raiseNotice_port (n : Notice) (s : State) (q : Port) :
    ((raiseNotice n s).ports.get q).answers = (s.ports.get q).answers ∧
    ((raiseNotice n s).ports.get q).receive = (s.ports.get q).receive ∧
    ((raiseNotice n s).ports.get q).enables = (s.ports.get q).enables ∧
    ((raiseNotice n s).ports.get q).requestsDropped = (s.ports.get q).requestsDropped ∧
    ((raiseNotice n s).ports.get q).turn = (s.ports.get q).turn ∧
    ((raiseNotice n s).ports.get q).sending = (s.ports.get q).sending := by
  simp [raiseNotice]

/-- `raiseNotice` leaves the outputs and settings of the ports. -/
@[simp] theorem raiseNotice_outputs (n : Notice) (s : State) :
    (raiseNotice n s).ports.attention = s.ports.attention ∧
    (raiseNotice n s).ports.feedAddress = s.ports.feedAddress ∧
    (raiseNotice n s).ports.courtChannel = s.ports.courtChannel ∧
    (raiseNotice n s).ports.lastOut = s.ports.lastOut := by
  simp [raiseNotice]

/-- `countEvents` changes a port by notices alone. -/
@[simp] theorem countEvents_port (c : Counter) (amount : Nat) (s : State) (q : Port) :
    ((countEvents c amount s).ports.get q).answers = (s.ports.get q).answers ∧
    ((countEvents c amount s).ports.get q).receive = (s.ports.get q).receive ∧
    ((countEvents c amount s).ports.get q).enables = (s.ports.get q).enables ∧
    ((countEvents c amount s).ports.get q).requestsDropped = (s.ports.get q).requestsDropped ∧
    ((countEvents c amount s).ports.get q).turn = (s.ports.get q).turn ∧
    ((countEvents c amount s).ports.get q).sending = (s.ports.get q).sending := by
  unfold countEvents
  split
  · simp
  · dsimp only
    split <;> simp

/-- `countEvents` leaves the outputs and settings of the ports. -/
@[simp] theorem countEvents_outputs (c : Counter) (amount : Nat) (s : State) :
    (countEvents c amount s).ports.attention = s.ports.attention ∧
    (countEvents c amount s).ports.feedAddress = s.ports.feedAddress ∧
    (countEvents c amount s).ports.courtChannel = s.ports.courtChannel ∧
    (countEvents c amount s).ports.lastOut = s.ports.lastOut := by
  unfold countEvents
  split
  · simp
  · dsimp only
    split <;> simp

/-- `countOne` changes a port by notices alone. -/
@[simp] theorem countOne_port (c : Counter) (s : State) (q : Port) :
    ((countOne c s).ports.get q).answers = (s.ports.get q).answers ∧
    ((countOne c s).ports.get q).receive = (s.ports.get q).receive ∧
    ((countOne c s).ports.get q).enables = (s.ports.get q).enables ∧
    ((countOne c s).ports.get q).requestsDropped = (s.ports.get q).requestsDropped ∧
    ((countOne c s).ports.get q).turn = (s.ports.get q).turn ∧
    ((countOne c s).ports.get q).sending = (s.ports.get q).sending := by
  simp [countOne]

/-- `countOne` leaves the outputs and settings of the ports. -/
@[simp] theorem countOne_outputs (c : Counter) (s : State) :
    (countOne c s).ports.attention = s.ports.attention ∧
    (countOne c s).ports.feedAddress = s.ports.feedAddress ∧
    (countOne c s).ports.courtChannel = s.ports.courtChannel ∧ (countOne c s).ports.lastOut = s.ports.lastOut := by
  simp [countOne]

/-! ### The Stroke Log -/

/-- `takeLoss` changes a port by notices alone. -/
@[simp] theorem takeLoss_port (name : ReaderName) (r : Reader) (s : State) (q : Port) :
    ((takeLoss name r s).ports.get q).answers = (s.ports.get q).answers ∧
    ((takeLoss name r s).ports.get q).receive = (s.ports.get q).receive ∧
    ((takeLoss name r s).ports.get q).enables = (s.ports.get q).enables ∧
    ((takeLoss name r s).ports.get q).requestsDropped = (s.ports.get q).requestsDropped ∧
    ((takeLoss name r s).ports.get q).turn = (s.ports.get q).turn ∧
    ((takeLoss name r s).ports.get q).sending = (s.ports.get q).sending := by
  cases name <;> simp only [takeLoss, readerPort] <;> (try split) <;> simp

/-- `takeLoss` leaves the outputs and settings of the ports. -/
@[simp] theorem takeLoss_outputs (name : ReaderName) (r : Reader) (s : State) :
    (takeLoss name r s).ports.attention = s.ports.attention ∧
    (takeLoss name r s).ports.feedAddress = s.ports.feedAddress ∧
    (takeLoss name r s).ports.courtChannel = s.ports.courtChannel ∧
    (takeLoss name r s).ports.lastOut = s.ports.lastOut := by
  cases name <;> simp only [takeLoss, readerPort] <;> (try split) <;> simp

/-- `overwriteReader` changes a port by notices alone. -/
@[simp] theorem overwriteReader_port (name : ReaderName) (w : Word) (s : State) (q : Port) :
    ((overwriteReader name w s).ports.get q).answers = (s.ports.get q).answers ∧
    ((overwriteReader name w s).ports.get q).receive = (s.ports.get q).receive ∧
    ((overwriteReader name w s).ports.get q).enables = (s.ports.get q).enables ∧
    ((overwriteReader name w s).ports.get q).requestsDropped = (s.ports.get q).requestsDropped ∧
    ((overwriteReader name w s).ports.get q).turn = (s.ports.get q).turn ∧
    ((overwriteReader name w s).ports.get q).sending = (s.ports.get q).sending := by
  unfold overwriteReader
  dsimp only
  split <;> simp

/-- `overwriteReader` leaves the outputs and settings of the ports. -/
@[simp] theorem overwriteReader_outputs (name : ReaderName) (w : Word) (s : State) :
    (overwriteReader name w s).ports.attention = s.ports.attention ∧
    (overwriteReader name w s).ports.feedAddress = s.ports.feedAddress ∧
    (overwriteReader name w s).ports.courtChannel = s.ports.courtChannel ∧
    (overwriteReader name w s).ports.lastOut = s.ports.lastOut := by
  unfold overwriteReader
  dsimp only
  split <;> simp

/-- `makeRoom` changes a port by notices alone. -/
@[simp] theorem makeRoom_port (s : State) (q : Port) :
    ((makeRoom s).ports.get q).answers = (s.ports.get q).answers ∧
    ((makeRoom s).ports.get q).receive = (s.ports.get q).receive ∧
    ((makeRoom s).ports.get q).enables = (s.ports.get q).enables ∧
    ((makeRoom s).ports.get q).requestsDropped = (s.ports.get q).requestsDropped ∧
    ((makeRoom s).ports.get q).turn = (s.ports.get q).turn ∧
    ((makeRoom s).ports.get q).sending = (s.ports.get q).sending := by
  unfold makeRoom
  split
  · simp
  · split <;> simp

/-- `makeRoom` leaves the outputs and settings of the ports. -/
@[simp] theorem makeRoom_outputs (s : State) :
    (makeRoom s).ports.attention = s.ports.attention ∧ (makeRoom s).ports.feedAddress = s.ports.feedAddress ∧
    (makeRoom s).ports.courtChannel = s.ports.courtChannel ∧ (makeRoom s).ports.lastOut = s.ports.lastOut := by
  unfold makeRoom
  split
  · simp
  · split <;> simp

/-- `appendRecord` changes a port by notices alone. -/
@[simp] theorem appendRecord_port (b : RecordBody) (s : State) (q : Port) :
    ((appendRecord b s).ports.get q).answers = (s.ports.get q).answers ∧
    ((appendRecord b s).ports.get q).receive = (s.ports.get q).receive ∧
    ((appendRecord b s).ports.get q).enables = (s.ports.get q).enables ∧
    ((appendRecord b s).ports.get q).requestsDropped = (s.ports.get q).requestsDropped ∧
    ((appendRecord b s).ports.get q).turn = (s.ports.get q).turn ∧
    ((appendRecord b s).ports.get q).sending = (s.ports.get q).sending := by
  simp [appendRecord]

/-- `appendRecord` leaves the outputs and settings of the ports. -/
@[simp] theorem appendRecord_outputs (b : RecordBody) (s : State) :
    (appendRecord b s).ports.attention = s.ports.attention ∧
    (appendRecord b s).ports.feedAddress = s.ports.feedAddress ∧
    (appendRecord b s).ports.courtChannel = s.ports.courtChannel ∧
    (appendRecord b s).ports.lastOut = s.ports.lastOut := by
  simp [appendRecord]

/-- `startReader` changes a port by notices alone. -/
@[simp] theorem startReader_port (name : ReaderName) (x : StreamStart) (s : State) (q : Port) :
    ((startReader name x s).ports.get q).answers = (s.ports.get q).answers ∧
    ((startReader name x s).ports.get q).receive = (s.ports.get q).receive ∧
    ((startReader name x s).ports.get q).enables = (s.ports.get q).enables ∧
    ((startReader name x s).ports.get q).requestsDropped = (s.ports.get q).requestsDropped ∧
    ((startReader name x s).ports.get q).turn = (s.ports.get q).turn ∧
    ((startReader name x s).ports.get q).sending = (s.ports.get q).sending := by
  unfold startReader
  dsimp only
  split <;> simp

/-- `startReader` leaves the outputs and settings of the ports. -/
@[simp] theorem startReader_outputs (name : ReaderName) (x : StreamStart) (s : State) :
    (startReader name x s).ports.attention = s.ports.attention ∧
    (startReader name x s).ports.feedAddress = s.ports.feedAddress ∧
    (startReader name x s).ports.courtChannel = s.ports.courtChannel ∧
    (startReader name x s).ports.lastOut = s.ports.lastOut := by
  unfold startReader
  dsimp only
  split <;> simp

/-! ### The Text Journal -/

/-- `startRun` changes a port by notices alone. -/
@[simp] theorem startRun_port (port : Port) (s : State) (q : Port) :
    ((startRun port s).ports.get q).answers = (s.ports.get q).answers ∧
    ((startRun port s).ports.get q).receive = (s.ports.get q).receive ∧
    ((startRun port s).ports.get q).enables = (s.ports.get q).enables ∧
    ((startRun port s).ports.get q).requestsDropped = (s.ports.get q).requestsDropped ∧
    ((startRun port s).ports.get q).turn = (s.ports.get q).turn ∧
    ((startRun port s).ports.get q).sending = (s.ports.get q).sending := by
  simp [startRun]

/-- `startRun` leaves the outputs and settings of the ports. -/
@[simp] theorem startRun_outputs (port : Port) (s : State) :
    (startRun port s).ports.attention = s.ports.attention ∧
    (startRun port s).ports.feedAddress = s.ports.feedAddress ∧
    (startRun port s).ports.courtChannel = s.ports.courtChannel ∧
    (startRun port s).ports.lastOut = s.ports.lastOut := by
  simp [startRun]

/-- `callRepaint` changes a port by notices alone. -/
@[simp] theorem callRepaint_port (port : Port) (s : State) (q : Port) :
    ((callRepaint port s).ports.get q).answers = (s.ports.get q).answers ∧
    ((callRepaint port s).ports.get q).receive = (s.ports.get q).receive ∧
    ((callRepaint port s).ports.get q).enables = (s.ports.get q).enables ∧
    ((callRepaint port s).ports.get q).requestsDropped = (s.ports.get q).requestsDropped ∧
    ((callRepaint port s).ports.get q).turn = (s.ports.get q).turn ∧
    ((callRepaint port s).ports.get q).sending = (s.ports.get q).sending := by
  unfold callRepaint
  dsimp only
  split
  · simp
  · split <;> simp

/-- `callRepaint` leaves the outputs and settings of the ports. -/
@[simp] theorem callRepaint_outputs (port : Port) (s : State) :
    (callRepaint port s).ports.attention = s.ports.attention ∧
    (callRepaint port s).ports.feedAddress = s.ports.feedAddress ∧
    (callRepaint port s).ports.courtChannel = s.ports.courtChannel ∧
    (callRepaint port s).ports.lastOut = s.ports.lastOut := by
  unfold callRepaint
  dsimp only
  split
  · simp
  · split <;> simp

/-- `resumeListener` changes a port by notices alone. -/
@[simp] theorem resumeListener_port (port : Port) (s : State) (q : Port) :
    ((resumeListener port s).ports.get q).answers = (s.ports.get q).answers ∧
    ((resumeListener port s).ports.get q).receive = (s.ports.get q).receive ∧
    ((resumeListener port s).ports.get q).enables = (s.ports.get q).enables ∧
    ((resumeListener port s).ports.get q).requestsDropped = (s.ports.get q).requestsDropped ∧
    ((resumeListener port s).ports.get q).turn = (s.ports.get q).turn ∧
    ((resumeListener port s).ports.get q).sending = (s.ports.get q).sending := by
  unfold resumeListener
  dsimp only
  split
  · simp
  · split <;> simp

/-- `resumeListener` leaves the outputs and settings of the ports. -/
@[simp] theorem resumeListener_outputs (port : Port) (s : State) :
    (resumeListener port s).ports.attention = s.ports.attention ∧
    (resumeListener port s).ports.feedAddress = s.ports.feedAddress ∧
    (resumeListener port s).ports.courtChannel = s.ports.courtChannel ∧
    (resumeListener port s).ports.lastOut = s.ports.lastOut := by
  unfold resumeListener
  dsimp only
  split
  · simp
  · split <;> simp

/-- `resumeIfOn` changes a port by notices alone. -/
@[simp] theorem resumeIfOn_port (id : Nat) (port : Port) (s : State) (q : Port) :
    ((resumeIfOn id port s).ports.get q).answers = (s.ports.get q).answers ∧
    ((resumeIfOn id port s).ports.get q).receive = (s.ports.get q).receive ∧
    ((resumeIfOn id port s).ports.get q).enables = (s.ports.get q).enables ∧
    ((resumeIfOn id port s).ports.get q).requestsDropped = (s.ports.get q).requestsDropped ∧
    ((resumeIfOn id port s).ports.get q).turn = (s.ports.get q).turn ∧
    ((resumeIfOn id port s).ports.get q).sending = (s.ports.get q).sending := by
  unfold resumeIfOn
  (repeat' split) <;> simp

/-- `resumeIfOn` leaves the outputs and settings of the ports. -/
@[simp] theorem resumeIfOn_outputs (id : Nat) (port : Port) (s : State) :
    (resumeIfOn id port s).ports.attention = s.ports.attention ∧
    (resumeIfOn id port s).ports.feedAddress = s.ports.feedAddress ∧
    (resumeIfOn id port s).ports.courtChannel = s.ports.courtChannel ∧
    (resumeIfOn id port s).ports.lastOut = s.ports.lastOut := by
  unfold resumeIfOn
  (repeat' split) <;> simp

/-- `overrunOne` changes a port by notices alone. -/
@[simp] theorem overrunOne_port (w : Word) (port : Port) (s : State) (q : Port) :
    ((overrunOne w port s).ports.get q).answers = (s.ports.get q).answers ∧
    ((overrunOne w port s).ports.get q).receive = (s.ports.get q).receive ∧
    ((overrunOne w port s).ports.get q).enables = (s.ports.get q).enables ∧
    ((overrunOne w port s).ports.get q).requestsDropped = (s.ports.get q).requestsDropped ∧
    ((overrunOne w port s).ports.get q).turn = (s.ports.get q).turn ∧
    ((overrunOne w port s).ports.get q).sending = (s.ports.get q).sending := by
  unfold overrunOne
  dsimp only
  split
  · split <;> simp
  · simp

/-- `overrunOne` leaves the outputs and settings of the ports. -/
@[simp] theorem overrunOne_outputs (w : Word) (port : Port) (s : State) :
    (overrunOne w port s).ports.attention = s.ports.attention ∧
    (overrunOne w port s).ports.feedAddress = s.ports.feedAddress ∧
    (overrunOne w port s).ports.courtChannel = s.ports.courtChannel ∧
    (overrunOne w port s).ports.lastOut = s.ports.lastOut := by
  unfold overrunOne
  dsimp only
  split
  · split <;> simp
  · simp

/-- `dropOldestEntry` changes a port by notices alone. -/
@[simp] theorem dropOldestEntry_port (s : State) (q : Port) :
    ((dropOldestEntry s).ports.get q).answers = (s.ports.get q).answers ∧
    ((dropOldestEntry s).ports.get q).receive = (s.ports.get q).receive ∧
    ((dropOldestEntry s).ports.get q).enables = (s.ports.get q).enables ∧
    ((dropOldestEntry s).ports.get q).requestsDropped = (s.ports.get q).requestsDropped ∧
    ((dropOldestEntry s).ports.get q).turn = (s.ports.get q).turn ∧
    ((dropOldestEntry s).ports.get q).sending = (s.ports.get q).sending := by
  unfold dropOldestEntry
  split
  · simp
  · split <;> simp

/-- `dropOldestEntry` leaves the outputs and settings of the ports. -/
@[simp] theorem dropOldestEntry_outputs (s : State) :
    (dropOldestEntry s).ports.attention = s.ports.attention ∧
    (dropOldestEntry s).ports.feedAddress = s.ports.feedAddress ∧
    (dropOldestEntry s).ports.courtChannel = s.ports.courtChannel ∧
    (dropOldestEntry s).ports.lastOut = s.ports.lastOut := by
  unfold dropOldestEntry
  split
  · simp
  · split <;> simp

/-- `placeInJournal` changes a port by notices alone. -/
@[simp] theorem placeInJournal_port (b : EntryBody) (s : State) (q : Port) :
    ((placeInJournal b s).ports.get q).answers = (s.ports.get q).answers ∧
    ((placeInJournal b s).ports.get q).receive = (s.ports.get q).receive ∧
    ((placeInJournal b s).ports.get q).enables = (s.ports.get q).enables ∧
    ((placeInJournal b s).ports.get q).requestsDropped = (s.ports.get q).requestsDropped ∧
    ((placeInJournal b s).ports.get q).turn = (s.ports.get q).turn ∧
    ((placeInJournal b s).ports.get q).sending = (s.ports.get q).sending := by
  simp [placeInJournal]

/-- `placeInJournal` leaves the outputs and settings of the ports. -/
@[simp] theorem placeInJournal_outputs (b : EntryBody) (s : State) :
    (placeInJournal b s).ports.attention = s.ports.attention ∧
    (placeInJournal b s).ports.feedAddress = s.ports.feedAddress ∧
    (placeInJournal b s).ports.courtChannel = s.ports.courtChannel ∧
    (placeInJournal b s).ports.lastOut = s.ports.lastOut := by
  simp [placeInJournal]

/-- `appendEntry` changes a port by notices alone. -/
@[simp] theorem appendEntry_port (b : EntryBody) (s : State) (q : Port) :
    ((appendEntry b s).ports.get q).answers = (s.ports.get q).answers ∧
    ((appendEntry b s).ports.get q).receive = (s.ports.get q).receive ∧
    ((appendEntry b s).ports.get q).enables = (s.ports.get q).enables ∧
    ((appendEntry b s).ports.get q).requestsDropped = (s.ports.get q).requestsDropped ∧
    ((appendEntry b s).ports.get q).turn = (s.ports.get q).turn ∧
    ((appendEntry b s).ports.get q).sending = (s.ports.get q).sending := by
  simp [appendEntry]

/-- `appendEntry` leaves the outputs and settings of the ports. -/
@[simp] theorem appendEntry_outputs (b : EntryBody) (s : State) :
    (appendEntry b s).ports.attention = s.ports.attention ∧
    (appendEntry b s).ports.feedAddress = s.ports.feedAddress ∧
    (appendEntry b s).ports.courtChannel = s.ports.courtChannel ∧
    (appendEntry b s).ports.lastOut = s.ports.lastOut := by
  simp [appendEntry]

/-- `setObedience` changes a port by notices alone. -/
@[simp] theorem setObedience_port (port : Port) (b : Bool) (s : State) (q : Port) :
    ((setObedience port b s).ports.get q).answers = (s.ports.get q).answers ∧
    ((setObedience port b s).ports.get q).receive = (s.ports.get q).receive ∧
    ((setObedience port b s).ports.get q).enables = (s.ports.get q).enables ∧
    ((setObedience port b s).ports.get q).requestsDropped = (s.ports.get q).requestsDropped ∧
    ((setObedience port b s).ports.get q).turn = (s.ports.get q).turn ∧
    ((setObedience port b s).ports.get q).sending = (s.ports.get q).sending := by
  unfold setObedience
  dsimp only
  split
  · simp
  · split
    · split <;> simp
    · split <;> simp

/-- `setObedience` leaves the outputs and settings of the ports. -/
@[simp] theorem setObedience_outputs (port : Port) (b : Bool) (s : State) :
    (setObedience port b s).ports.attention = s.ports.attention ∧
    (setObedience port b s).ports.feedAddress = s.ports.feedAddress ∧
    (setObedience port b s).ports.courtChannel = s.ports.courtChannel ∧
    (setObedience port b s).ports.lastOut = s.ports.lastOut := by
  unfold setObedience
  dsimp only
  split
  · simp
  · split
    · split <;> simp
    · split <;> simp

/-- `setMode` changes a port by notices alone. -/
@[simp] theorem setMode_port (port : Port) (m : ViewMode) (s : State) (q : Port) :
    ((setMode port m s).ports.get q).answers = (s.ports.get q).answers ∧
    ((setMode port m s).ports.get q).receive = (s.ports.get q).receive ∧
    ((setMode port m s).ports.get q).enables = (s.ports.get q).enables ∧
    ((setMode port m s).ports.get q).requestsDropped = (s.ports.get q).requestsDropped ∧
    ((setMode port m s).ports.get q).turn = (s.ports.get q).turn ∧
    ((setMode port m s).ports.get q).sending = (s.ports.get q).sending := by
  unfold setMode
  dsimp only
  split
  · simp
  · split
    · simp
    · split <;> simp
    · split <;> simp

/-- `setMode` leaves the outputs and settings of the ports. -/
@[simp] theorem setMode_outputs (port : Port) (m : ViewMode) (s : State) :
    (setMode port m s).ports.attention = s.ports.attention ∧
    (setMode port m s).ports.feedAddress = s.ports.feedAddress ∧
    (setMode port m s).ports.courtChannel = s.ports.courtChannel ∧
    (setMode port m s).ports.lastOut = s.ports.lastOut := by
  unfold setMode
  dsimp only
  split
  · simp
  · split
    · simp
    · split <;> simp
    · split <;> simp

/-! ### The Hold Table -/

/-- `takeHold` changes a port by notices alone. -/
@[simp] theorem takeHold_port (source : HoldSource) (owner : Option Word) (s : State) (q : Port) :
    (((takeHold source owner s).1).ports.get q).answers = (s.ports.get q).answers ∧
    (((takeHold source owner s).1).ports.get q).receive = (s.ports.get q).receive ∧
    (((takeHold source owner s).1).ports.get q).enables = (s.ports.get q).enables ∧
    (((takeHold source owner s).1).ports.get q).requestsDropped = (s.ports.get q).requestsDropped ∧
    (((takeHold source owner s).1).ports.get q).turn = (s.ports.get q).turn ∧
    (((takeHold source owner s).1).ports.get q).sending = (s.ports.get q).sending := by
  simp [takeHold]

/-- `takeHold` leaves the outputs and settings of the ports. -/
@[simp] theorem takeHold_outputs (source : HoldSource) (owner : Option Word) (s : State) :
    ((takeHold source owner s).1).ports.attention = s.ports.attention ∧
    ((takeHold source owner s).1).ports.feedAddress = s.ports.feedAddress ∧
    ((takeHold source owner s).1).ports.courtChannel = s.ports.courtChannel ∧
    ((takeHold source owner s).1).ports.lastOut = s.ports.lastOut := by
  simp [takeHold]

/-- `openHold` changes a port by notices alone. -/
@[simp] theorem openHold_port (source : HoldSource) (owner : Option Word) (s : State) (q : Port) :
    (((openHold source owner s).1).ports.get q).answers = (s.ports.get q).answers ∧
    (((openHold source owner s).1).ports.get q).receive = (s.ports.get q).receive ∧
    (((openHold source owner s).1).ports.get q).enables = (s.ports.get q).enables ∧
    (((openHold source owner s).1).ports.get q).requestsDropped = (s.ports.get q).requestsDropped ∧
    (((openHold source owner s).1).ports.get q).turn = (s.ports.get q).turn ∧
    (((openHold source owner s).1).ports.get q).sending = (s.ports.get q).sending := by
  unfold openHold
  split
  · simp
  · split <;> simp

/-- `openHold` leaves the outputs and settings of the ports. -/
@[simp] theorem openHold_outputs (source : HoldSource) (owner : Option Word) (s : State) :
    ((openHold source owner s).1).ports.attention = s.ports.attention ∧
    ((openHold source owner s).1).ports.feedAddress = s.ports.feedAddress ∧
    ((openHold source owner s).1).ports.courtChannel = s.ports.courtChannel ∧
    ((openHold source owner s).1).ports.lastOut = s.ports.lastOut := by
  unfold openHold
  split
  · simp
  · split <;> simp

/-- `closeThis` changes a port by notices alone. -/
@[simp] theorem closeThis_port (h : OpenHold) (c : CloseCause) (s : State) (q : Port) :
    ((closeThis h c s).ports.get q).answers = (s.ports.get q).answers ∧
    ((closeThis h c s).ports.get q).receive = (s.ports.get q).receive ∧
    ((closeThis h c s).ports.get q).enables = (s.ports.get q).enables ∧
    ((closeThis h c s).ports.get q).requestsDropped = (s.ports.get q).requestsDropped ∧
    ((closeThis h c s).ports.get q).turn = (s.ports.get q).turn ∧
    ((closeThis h c s).ports.get q).sending = (s.ports.get q).sending := by
  simp [closeThis]

/-- `closeThis` leaves the outputs and settings of the ports. -/
@[simp] theorem closeThis_outputs (h : OpenHold) (c : CloseCause) (s : State) :
    (closeThis h c s).ports.attention = s.ports.attention ∧
    (closeThis h c s).ports.feedAddress = s.ports.feedAddress ∧
    (closeThis h c s).ports.courtChannel = s.ports.courtChannel ∧
    (closeThis h c s).ports.lastOut = s.ports.lastOut := by
  simp [closeThis]

/-- `closeWhere` changes a port by notices alone. -/
@[simp] theorem closeWhere_port (test : OpenHold → Bool) (c : CloseCause) (s : State) (q : Port) :
    ((closeWhere test c s).ports.get q).answers = (s.ports.get q).answers ∧
    ((closeWhere test c s).ports.get q).receive = (s.ports.get q).receive ∧
    ((closeWhere test c s).ports.get q).enables = (s.ports.get q).enables ∧
    ((closeWhere test c s).ports.get q).requestsDropped = (s.ports.get q).requestsDropped ∧
    ((closeWhere test c s).ports.get q).turn = (s.ports.get q).turn ∧
    ((closeWhere test c s).ports.get q).sending = (s.ports.get q).sending := by
  unfold closeWhere
  split <;> simp

/-- `closeWhere` leaves the outputs and settings of the ports. -/
@[simp] theorem closeWhere_outputs (test : OpenHold → Bool) (c : CloseCause) (s : State) :
    (closeWhere test c s).ports.attention = s.ports.attention ∧
    (closeWhere test c s).ports.feedAddress = s.ports.feedAddress ∧
    (closeWhere test c s).ports.courtChannel = s.ports.courtChannel ∧
    (closeWhere test c s).ports.lastOut = s.ports.lastOut := by
  unfold closeWhere
  split <;> simp

/-- `closeNewestCommand` changes a port by notices alone. -/
@[simp] theorem closeNewestCommand_port (s : State) (q : Port) :
    ((closeNewestCommand s).ports.get q).answers = (s.ports.get q).answers ∧
    ((closeNewestCommand s).ports.get q).receive = (s.ports.get q).receive ∧
    ((closeNewestCommand s).ports.get q).enables = (s.ports.get q).enables ∧
    ((closeNewestCommand s).ports.get q).requestsDropped = (s.ports.get q).requestsDropped ∧
    ((closeNewestCommand s).ports.get q).turn = (s.ports.get q).turn ∧
    ((closeNewestCommand s).ports.get q).sending = (s.ports.get q).sending := by
  unfold closeNewestCommand
  split <;> simp

/-- `closeNewestCommand` leaves the outputs and settings of the ports. -/
@[simp] theorem closeNewestCommand_outputs (s : State) :
    (closeNewestCommand s).ports.attention = s.ports.attention ∧
    (closeNewestCommand s).ports.feedAddress = s.ports.feedAddress ∧
    (closeNewestCommand s).ports.courtChannel = s.ports.courtChannel ∧
    (closeNewestCommand s).ports.lastOut = s.ports.lastOut := by
  unfold closeNewestCommand
  split <;> simp

/-- `closeOwned` changes a port by notices alone. -/
@[simp] theorem closeOwned_port (h : Option Nat) (u : Word) (s : State) (q : Port) :
    ((closeOwned h u s).ports.get q).answers = (s.ports.get q).answers ∧
    ((closeOwned h u s).ports.get q).receive = (s.ports.get q).receive ∧
    ((closeOwned h u s).ports.get q).enables = (s.ports.get q).enables ∧
    ((closeOwned h u s).ports.get q).requestsDropped = (s.ports.get q).requestsDropped ∧
    ((closeOwned h u s).ports.get q).turn = (s.ports.get q).turn ∧
    ((closeOwned h u s).ports.get q).sending = (s.ports.get q).sending := by
  unfold closeOwned
  split <;> simp

/-- `closeOwned` leaves the outputs and settings of the ports. -/
@[simp] theorem closeOwned_outputs (h : Option Nat) (u : Word) (s : State) :
    (closeOwned h u s).ports.attention = s.ports.attention ∧
    (closeOwned h u s).ports.feedAddress = s.ports.feedAddress ∧
    (closeOwned h u s).ports.courtChannel = s.ports.courtChannel ∧
    (closeOwned h u s).ports.lastOut = s.ports.lastOut := by
  unfold closeOwned
  split <;> simp

/-- `closeEach` changes a port by notices alone. -/
@[simp] theorem closeEach_port (c : CloseCause) (l : List OpenHold) (s : State) (q : Port) :
    ((closeEach c l s).ports.get q).answers = (s.ports.get q).answers ∧
    ((closeEach c l s).ports.get q).receive = (s.ports.get q).receive ∧
    ((closeEach c l s).ports.get q).enables = (s.ports.get q).enables ∧
    ((closeEach c l s).ports.get q).requestsDropped = (s.ports.get q).requestsDropped ∧
    ((closeEach c l s).ports.get q).turn = (s.ports.get q).turn ∧
    ((closeEach c l s).ports.get q).sending = (s.ports.get q).sending := by
  induction l generalizing s with
  | nil => simp [closeEach]
  | cons h rest ih => simp [closeEach, ih]

/-- `closeEach` leaves the outputs and settings of the ports. -/
@[simp] theorem closeEach_outputs (c : CloseCause) (l : List OpenHold) (s : State) :
    (closeEach c l s).ports.attention = s.ports.attention ∧
    (closeEach c l s).ports.feedAddress = s.ports.feedAddress ∧
    (closeEach c l s).ports.courtChannel = s.ports.courtChannel ∧
    (closeEach c l s).ports.lastOut = s.ports.lastOut := by
  induction l generalizing s with
  | nil => simp [closeEach]
  | cons h rest ih => simp [closeEach, ih]

/-- `setHoldLimit` changes a port by notices alone. -/
@[simp] theorem setHoldLimit_port (m : Nat) (s : State) (q : Port) :
    ((setHoldLimit m s).ports.get q).answers = (s.ports.get q).answers ∧
    ((setHoldLimit m s).ports.get q).receive = (s.ports.get q).receive ∧
    ((setHoldLimit m s).ports.get q).enables = (s.ports.get q).enables ∧
    ((setHoldLimit m s).ports.get q).requestsDropped = (s.ports.get q).requestsDropped ∧
    ((setHoldLimit m s).ports.get q).turn = (s.ports.get q).turn ∧
    ((setHoldLimit m s).ports.get q).sending = (s.ports.get q).sending := by
  simp [setHoldLimit]

/-- `setHoldLimit` leaves the outputs and settings of the ports. -/
@[simp] theorem setHoldLimit_outputs (m : Nat) (s : State) :
    (setHoldLimit m s).ports.attention = s.ports.attention ∧
    (setHoldLimit m s).ports.feedAddress = s.ports.feedAddress ∧
    (setHoldLimit m s).ports.courtChannel = s.ports.courtChannel ∧
    (setHoldLimit m s).ports.lastOut = s.ports.lastOut := by
  simp [setHoldLimit]

/-- `holdLimitEvent` changes a port by notices alone. -/
@[simp] theorem holdLimitEvent_port (id : Nat) (s : State) (q : Port) :
    ((holdLimitEvent id s).ports.get q).answers = (s.ports.get q).answers ∧
    ((holdLimitEvent id s).ports.get q).receive = (s.ports.get q).receive ∧
    ((holdLimitEvent id s).ports.get q).enables = (s.ports.get q).enables ∧
    ((holdLimitEvent id s).ports.get q).requestsDropped = (s.ports.get q).requestsDropped ∧
    ((holdLimitEvent id s).ports.get q).turn = (s.ports.get q).turn ∧
    ((holdLimitEvent id s).ports.get q).sending = (s.ports.get q).sending := by
  simp [holdLimitEvent]

/-- `holdLimitEvent` leaves the outputs and settings of the ports. -/
@[simp] theorem holdLimitEvent_outputs (id : Nat) (s : State) :
    (holdLimitEvent id s).ports.attention = s.ports.attention ∧
    (holdLimitEvent id s).ports.feedAddress = s.ports.feedAddress ∧
    (holdLimitEvent id s).ports.courtChannel = s.ports.courtChannel ∧
    (holdLimitEvent id s).ports.lastOut = s.ports.lastOut := by
  simp [holdLimitEvent]

/-! ### The Translator -/

/-- `settleUnit` changes a port by notices alone. -/
@[simp] theorem settleUnit_port (u : TextUnit) (s : State) (q : Port) :
    ((settleUnit u s).ports.get q).answers = (s.ports.get q).answers ∧
    ((settleUnit u s).ports.get q).receive = (s.ports.get q).receive ∧
    ((settleUnit u s).ports.get q).enables = (s.ports.get q).enables ∧
    ((settleUnit u s).ports.get q).requestsDropped = (s.ports.get q).requestsDropped ∧
    ((settleUnit u s).ports.get q).turn = (s.ports.get q).turn ∧
    ((settleUnit u s).ports.get q).sending = (s.ports.get q).sending := by
  unfold settleUnit
  dsimp only
  split <;> simp

/-- `settleUnit` leaves the outputs and settings of the ports. -/
@[simp] theorem settleUnit_outputs (u : TextUnit) (s : State) :
    (settleUnit u s).ports.attention = s.ports.attention ∧
    (settleUnit u s).ports.feedAddress = s.ports.feedAddress ∧
    (settleUnit u s).ports.courtChannel = s.ports.courtChannel ∧
    (settleUnit u s).ports.lastOut = s.ports.lastOut := by
  unfold settleUnit
  dsimp only
  split <;> simp

/-- `settleUnits` changes a port by notices alone. -/
@[simp] theorem settleUnits_port (l : List TextUnit) (s : State) (q : Port) :
    ((settleUnits l s).ports.get q).answers = (s.ports.get q).answers ∧
    ((settleUnits l s).ports.get q).receive = (s.ports.get q).receive ∧
    ((settleUnits l s).ports.get q).enables = (s.ports.get q).enables ∧
    ((settleUnits l s).ports.get q).requestsDropped = (s.ports.get q).requestsDropped ∧
    ((settleUnits l s).ports.get q).turn = (s.ports.get q).turn ∧
    ((settleUnits l s).ports.get q).sending = (s.ports.get q).sending := by
  induction l generalizing s with
  | nil => simp [settleUnits]
  | cons u rest ih => simp [settleUnits, ih]

/-- `settleUnits` leaves the outputs and settings of the ports. -/
@[simp] theorem settleUnits_outputs (l : List TextUnit) (s : State) :
    (settleUnits l s).ports.attention = s.ports.attention ∧
    (settleUnits l s).ports.feedAddress = s.ports.feedAddress ∧
    (settleUnits l s).ports.courtChannel = s.ports.courtChannel ∧
    (settleUnits l s).ports.lastOut = s.ports.lastOut := by
  induction l generalizing s with
  | nil => simp [settleUnits]
  | cons u rest ih => simp [settleUnits, ih]

/-- `holdAction` changes a port by notices alone. -/
@[simp] theorem holdAction_port (u : TextUnit) (s : State) (q : Port) :
    ((holdAction u s).ports.get q).answers = (s.ports.get q).answers ∧
    ((holdAction u s).ports.get q).receive = (s.ports.get q).receive ∧
    ((holdAction u s).ports.get q).enables = (s.ports.get q).enables ∧
    ((holdAction u s).ports.get q).requestsDropped = (s.ports.get q).requestsDropped ∧
    ((holdAction u s).ports.get q).turn = (s.ports.get q).turn ∧
    ((holdAction u s).ports.get q).sending = (s.ports.get q).sending := by
  unfold holdAction
  split
  · have h := openHold_port .command (some u.id) s q
    split
    · rename_i heq
      rw [heq] at h
      simp_all
    · rename_i heq
      rw [heq] at h
      simp_all
  · simp
  · simp

/-- `holdAction` leaves the outputs and settings of the ports. -/
@[simp] theorem holdAction_outputs (u : TextUnit) (s : State) :
    (holdAction u s).ports.attention = s.ports.attention ∧
    (holdAction u s).ports.feedAddress = s.ports.feedAddress ∧
    (holdAction u s).ports.courtChannel = s.ports.courtChannel ∧
    (holdAction u s).ports.lastOut = s.ports.lastOut := by
  unfold holdAction
  split
  · have h := openHold_outputs .command (some u.id) s
    split
    · rename_i heq
      rw [heq] at h
      simp_all
    · rename_i heq
      rw [heq] at h
      simp_all
  · simp
  · simp

/-- `holdActions` changes a port by notices alone. -/
@[simp] theorem holdActions_port (l : List TextUnit) (s : State) (q : Port) :
    ((holdActions l s).ports.get q).answers = (s.ports.get q).answers ∧
    ((holdActions l s).ports.get q).receive = (s.ports.get q).receive ∧
    ((holdActions l s).ports.get q).enables = (s.ports.get q).enables ∧
    ((holdActions l s).ports.get q).requestsDropped = (s.ports.get q).requestsDropped ∧
    ((holdActions l s).ports.get q).turn = (s.ports.get q).turn ∧
    ((holdActions l s).ports.get q).sending = (s.ports.get q).sending := by
  induction l generalizing s with
  | nil => simp [holdActions]
  | cons u rest ih => simp [holdActions, ih]

/-- `holdActions` leaves the outputs and settings of the ports. -/
@[simp] theorem holdActions_outputs (l : List TextUnit) (s : State) :
    (holdActions l s).ports.attention = s.ports.attention ∧
    (holdActions l s).ports.feedAddress = s.ports.feedAddress ∧
    (holdActions l s).ports.courtChannel = s.ports.courtChannel ∧
    (holdActions l s).ports.lastOut = s.ports.lastOut := by
  induction l generalizing s with
  | nil => simp [holdActions]
  | cons u rest ih => simp [holdActions, ih]

/-- `settleEvery` changes a port by notices alone. -/
@[simp] theorem settleEvery_port (s : State) (q : Port) :
    ((settleEvery s).ports.get q).answers = (s.ports.get q).answers ∧
    ((settleEvery s).ports.get q).receive = (s.ports.get q).receive ∧
    ((settleEvery s).ports.get q).enables = (s.ports.get q).enables ∧
    ((settleEvery s).ports.get q).requestsDropped = (s.ports.get q).requestsDropped ∧
    ((settleEvery s).ports.get q).turn = (s.ports.get q).turn ∧
    ((settleEvery s).ports.get q).sending = (s.ports.get q).sending := by
  simp [settleEvery]

/-- `settleEvery` leaves the outputs and settings of the ports. -/
@[simp] theorem settleEvery_outputs (s : State) :
    (settleEvery s).ports.attention = s.ports.attention ∧
    (settleEvery s).ports.feedAddress = s.ports.feedAddress ∧
    (settleEvery s).ports.courtChannel = s.ports.courtChannel ∧ (settleEvery s).ports.lastOut = s.ports.lastOut := by
  simp [settleEvery]

/-- `settleFront` changes a port by notices alone. -/
@[simp] theorem settleFront_port (l : List TextUnit) (s : State) (q : Port) :
    (((settleFront l s).2).ports.get q).answers = (s.ports.get q).answers ∧
    (((settleFront l s).2).ports.get q).receive = (s.ports.get q).receive ∧
    (((settleFront l s).2).ports.get q).enables = (s.ports.get q).enables ∧
    (((settleFront l s).2).ports.get q).requestsDropped = (s.ports.get q).requestsDropped ∧
    (((settleFront l s).2).ports.get q).turn = (s.ports.get q).turn ∧
    (((settleFront l s).2).ports.get q).sending = (s.ports.get q).sending := by
  induction l generalizing s with
  | nil => simp [settleFront]
  | cons u rest ih =>
    unfold settleFront
    split
    · simp [ih]
    · simp

/-- `settleFront` leaves the outputs and settings of the ports. -/
@[simp] theorem settleFront_outputs (l : List TextUnit) (s : State) :
    ((settleFront l s).2).ports.attention = s.ports.attention ∧
    ((settleFront l s).2).ports.feedAddress = s.ports.feedAddress ∧
    ((settleFront l s).2).ports.courtChannel = s.ports.courtChannel ∧
    ((settleFront l s).2).ports.lastOut = s.ports.lastOut := by
  induction l generalizing s with
  | nil => simp [settleFront]
  | cons u rest ih =>
    unfold settleFront
    split
    · simp [ih]
    · simp

/-- `settleWindow` changes a port by notices alone. -/
@[simp] theorem settleWindow_port (s : State) (q : Port) :
    ((settleWindow s).ports.get q).answers = (s.ports.get q).answers ∧
    ((settleWindow s).ports.get q).receive = (s.ports.get q).receive ∧
    ((settleWindow s).ports.get q).enables = (s.ports.get q).enables ∧
    ((settleWindow s).ports.get q).requestsDropped = (s.ports.get q).requestsDropped ∧
    ((settleWindow s).ports.get q).turn = (s.ports.get q).turn ∧
    ((settleWindow s).ports.get q).sending = (s.ports.get q).sending := by
  unfold settleWindow
  split
  · simp
  · simp

/-- `settleWindow` leaves the outputs and settings of the ports. -/
@[simp] theorem settleWindow_outputs (s : State) :
    (settleWindow s).ports.attention = s.ports.attention ∧
    (settleWindow s).ports.feedAddress = s.ports.feedAddress ∧
    (settleWindow s).ports.courtChannel = s.ports.courtChannel ∧
    (settleWindow s).ports.lastOut = s.ports.lastOut := by
  unfold settleWindow
  split
  · simp
  · simp

/-- `putUnit` changes a port by notices alone. -/
@[simp] theorem putUnit_port (u : TextUnit) (s : State) (q : Port) :
    (((putUnit u s).1).ports.get q).answers = (s.ports.get q).answers ∧
    (((putUnit u s).1).ports.get q).receive = (s.ports.get q).receive ∧
    (((putUnit u s).1).ports.get q).enables = (s.ports.get q).enables ∧
    (((putUnit u s).1).ports.get q).requestsDropped = (s.ports.get q).requestsDropped ∧
    (((putUnit u s).1).ports.get q).turn = (s.ports.get q).turn ∧
    (((putUnit u s).1).ports.get q).sending = (s.ports.get q).sending := by
  simp [putUnit]

/-- `putUnit` leaves the outputs and settings of the ports. -/
@[simp] theorem putUnit_outputs (u : TextUnit) (s : State) :
    ((putUnit u s).1).ports.attention = s.ports.attention ∧
    ((putUnit u s).1).ports.feedAddress = s.ports.feedAddress ∧
    ((putUnit u s).1).ports.courtChannel = s.ports.courtChannel ∧
    ((putUnit u s).1).ports.lastOut = s.ports.lastOut := by
  simp [putUnit]

/-- `putUnits` changes a port by notices alone. -/
@[simp] theorem putUnits_port (l : List TextUnit) (s : State) (q : Port) :
    (((putUnits l s).2).ports.get q).answers = (s.ports.get q).answers ∧
    (((putUnits l s).2).ports.get q).receive = (s.ports.get q).receive ∧
    (((putUnits l s).2).ports.get q).enables = (s.ports.get q).enables ∧
    (((putUnits l s).2).ports.get q).requestsDropped = (s.ports.get q).requestsDropped ∧
    (((putUnits l s).2).ports.get q).turn = (s.ports.get q).turn ∧
    (((putUnits l s).2).ports.get q).sending = (s.ports.get q).sending := by
  induction l generalizing s with
  | nil => simp [putUnits]
  | cons u rest ih => simp [putUnits, ih]

/-- `putUnits` leaves the outputs and settings of the ports. -/
@[simp] theorem putUnits_outputs (l : List TextUnit) (s : State) :
    ((putUnits l s).2).ports.attention = s.ports.attention ∧
    ((putUnits l s).2).ports.feedAddress = s.ports.feedAddress ∧
    ((putUnits l s).2).ports.courtChannel = s.ports.courtChannel ∧
    ((putUnits l s).2).ports.lastOut = s.ports.lastOut := by
  induction l generalizing s with
  | nil => simp [putUnits]
  | cons u rest ih => simp [putUnits, ih]

/-- `appendTake` changes a port by notices alone. -/
@[simp] theorem appendTake_port (n : Nat) (s : State) (q : Port) :
    ((appendTake n s).ports.get q).answers = (s.ports.get q).answers ∧
    ((appendTake n s).ports.get q).receive = (s.ports.get q).receive ∧
    ((appendTake n s).ports.get q).enables = (s.ports.get q).enables ∧
    ((appendTake n s).ports.get q).requestsDropped = (s.ports.get q).requestsDropped ∧
    ((appendTake n s).ports.get q).turn = (s.ports.get q).turn ∧
    ((appendTake n s).ports.get q).sending = (s.ports.get q).sending := by
  unfold appendTake
  split <;> simp

/-- `appendTake` leaves the outputs and settings of the ports. -/
@[simp] theorem appendTake_outputs (n : Nat) (s : State) :
    (appendTake n s).ports.attention = s.ports.attention ∧
    (appendTake n s).ports.feedAddress = s.ports.feedAddress ∧
    (appendTake n s).ports.courtChannel = s.ports.courtChannel ∧
    (appendTake n s).ports.lastOut = s.ports.lastOut := by
  unfold appendTake
  split <;> simp

/-- `applyDifference` changes a port by notices alone. -/
@[simp] theorem applyDifference_port (l : List TextUnit) (s : State) (q : Port) :
    ((applyDifference l s).ports.get q).answers = (s.ports.get q).answers ∧
    ((applyDifference l s).ports.get q).receive = (s.ports.get q).receive ∧
    ((applyDifference l s).ports.get q).enables = (s.ports.get q).enables ∧
    ((applyDifference l s).ports.get q).requestsDropped = (s.ports.get q).requestsDropped ∧
    ((applyDifference l s).ports.get q).turn = (s.ports.get q).turn ∧
    ((applyDifference l s).ports.get q).sending = (s.ports.get q).sending := by
  simp [applyDifference]

/-- `applyDifference` leaves the outputs and settings of the ports. -/
@[simp] theorem applyDifference_outputs (l : List TextUnit) (s : State) :
    (applyDifference l s).ports.attention = s.ports.attention ∧
    (applyDifference l s).ports.feedAddress = s.ports.feedAddress ∧
    (applyDifference l s).ports.courtChannel = s.ports.courtChannel ∧
    (applyDifference l s).ports.lastOut = s.ports.lastOut := by
  simp [applyDifference]

/-- `recompute` changes a port by notices alone. -/
@[simp] theorem recompute_port (s : State) (q : Port) :
    ((recompute s).ports.get q).answers = (s.ports.get q).answers ∧
    ((recompute s).ports.get q).receive = (s.ports.get q).receive ∧
    ((recompute s).ports.get q).enables = (s.ports.get q).enables ∧
    ((recompute s).ports.get q).requestsDropped = (s.ports.get q).requestsDropped ∧
    ((recompute s).ports.get q).turn = (s.ports.get q).turn ∧
    ((recompute s).ports.get q).sending = (s.ports.get q).sending := by
  simp [recompute]

/-- `recompute` leaves the outputs and settings of the ports. -/
@[simp] theorem recompute_outputs (s : State) :
    (recompute s).ports.attention = s.ports.attention ∧ (recompute s).ports.feedAddress = s.ports.feedAddress ∧
    (recompute s).ports.courtChannel = s.ports.courtChannel ∧ (recompute s).ports.lastOut = s.ports.lastOut := by
  simp [recompute]

/-- `askRecompute` changes a port by notices alone. -/
@[simp] theorem askRecompute_port (s : State) (q : Port) :
    ((askRecompute s).ports.get q).answers = (s.ports.get q).answers ∧
    ((askRecompute s).ports.get q).receive = (s.ports.get q).receive ∧
    ((askRecompute s).ports.get q).enables = (s.ports.get q).enables ∧
    ((askRecompute s).ports.get q).requestsDropped = (s.ports.get q).requestsDropped ∧
    ((askRecompute s).ports.get q).turn = (s.ports.get q).turn ∧
    ((askRecompute s).ports.get q).sending = (s.ports.get q).sending := by
  unfold askRecompute
  split <;> simp

/-- `askRecompute` leaves the outputs and settings of the ports. -/
@[simp] theorem askRecompute_outputs (s : State) :
    (askRecompute s).ports.attention = s.ports.attention ∧
    (askRecompute s).ports.feedAddress = s.ports.feedAddress ∧
    (askRecompute s).ports.courtChannel = s.ports.courtChannel ∧
    (askRecompute s).ports.lastOut = s.ports.lastOut := by
  unfold askRecompute
  split <;> simp

/-- `resumeTranslator` changes a port by notices alone. -/
@[simp] theorem resumeTranslator_port (s : State) (q : Port) :
    ((resumeTranslator s).ports.get q).answers = (s.ports.get q).answers ∧
    ((resumeTranslator s).ports.get q).receive = (s.ports.get q).receive ∧
    ((resumeTranslator s).ports.get q).enables = (s.ports.get q).enables ∧
    ((resumeTranslator s).ports.get q).requestsDropped = (s.ports.get q).requestsDropped ∧
    ((resumeTranslator s).ports.get q).turn = (s.ports.get q).turn ∧
    ((resumeTranslator s).ports.get q).sending = (s.ports.get q).sending := by
  unfold resumeTranslator; split <;> simp

/-- `resumeTranslator` leaves the outputs and settings of the ports. -/
@[simp] theorem resumeTranslator_outputs (s : State) :
    (resumeTranslator s).ports.attention = s.ports.attention ∧
    (resumeTranslator s).ports.feedAddress = s.ports.feedAddress ∧
    (resumeTranslator s).ports.courtChannel = s.ports.courtChannel ∧
    (resumeTranslator s).ports.lastOut = s.ports.lastOut := by
  unfold resumeTranslator; split <;> simp

/-- `handleGap` changes a port by notices alone. -/
@[simp] theorem handleGap_port (n : Nat) (s : State) (q : Port) :
    ((handleGap n s).ports.get q).answers = (s.ports.get q).answers ∧
    ((handleGap n s).ports.get q).receive = (s.ports.get q).receive ∧
    ((handleGap n s).ports.get q).enables = (s.ports.get q).enables ∧
    ((handleGap n s).ports.get q).requestsDropped = (s.ports.get q).requestsDropped ∧
    ((handleGap n s).ports.get q).turn = (s.ports.get q).turn ∧
    ((handleGap n s).ports.get q).sending = (s.ports.get q).sending := by
  simp [handleGap]

/-- `handleGap` leaves the outputs and settings of the ports. -/
@[simp] theorem handleGap_outputs (n : Nat) (s : State) :
    (handleGap n s).ports.attention = s.ports.attention ∧
    (handleGap n s).ports.feedAddress = s.ports.feedAddress ∧
    (handleGap n s).ports.courtChannel = s.ports.courtChannel ∧ (handleGap n s).ports.lastOut = s.ports.lastOut := by
  simp [handleGap]

/-- `handleJob` changes a port by notices alone. -/
@[simp] theorem handleJob_port (a b : Nat) (s : State) (q : Port) :
    ((handleJob a b s).ports.get q).answers = (s.ports.get q).answers ∧
    ((handleJob a b s).ports.get q).receive = (s.ports.get q).receive ∧
    ((handleJob a b s).ports.get q).enables = (s.ports.get q).enables ∧
    ((handleJob a b s).ports.get q).requestsDropped = (s.ports.get q).requestsDropped ∧
    ((handleJob a b s).ports.get q).turn = (s.ports.get q).turn ∧
    ((handleJob a b s).ports.get q).sending = (s.ports.get q).sending := by
  simp [handleJob]

/-- `handleJob` leaves the outputs and settings of the ports. -/
@[simp] theorem handleJob_outputs (a b : Nat) (s : State) :
    (handleJob a b s).ports.attention = s.ports.attention ∧
    (handleJob a b s).ports.feedAddress = s.ports.feedAddress ∧
    (handleJob a b s).ports.courtChannel = s.ports.courtChannel ∧
    (handleJob a b s).ports.lastOut = s.ports.lastOut := by
  simp [handleJob]

/-- `addStroke` changes a port by notices alone. -/
@[simp] theorem addStroke_port (w : WindowStroke) (s : State) (q : Port) :
    ((addStroke w s).ports.get q).answers = (s.ports.get q).answers ∧
    ((addStroke w s).ports.get q).receive = (s.ports.get q).receive ∧
    ((addStroke w s).ports.get q).enables = (s.ports.get q).enables ∧
    ((addStroke w s).ports.get q).requestsDropped = (s.ports.get q).requestsDropped ∧
    ((addStroke w s).ports.get q).turn = (s.ports.get q).turn ∧
    ((addStroke w s).ports.get q).sending = (s.ports.get q).sending := by
  simp [addStroke]

/-- `addStroke` leaves the outputs and settings of the ports. -/
@[simp] theorem addStroke_outputs (w : WindowStroke) (s : State) :
    (addStroke w s).ports.attention = s.ports.attention ∧
    (addStroke w s).ports.feedAddress = s.ports.feedAddress ∧
    (addStroke w s).ports.courtChannel = s.ports.courtChannel ∧ (addStroke w s).ports.lastOut = s.ports.lastOut := by
  simp [addStroke]

/-- `dropStroke` changes a port by notices alone. -/
@[simp] theorem dropStroke_port (s : State) (q : Port) :
    ((dropStroke s).ports.get q).answers = (s.ports.get q).answers ∧
    ((dropStroke s).ports.get q).receive = (s.ports.get q).receive ∧
    ((dropStroke s).ports.get q).enables = (s.ports.get q).enables ∧
    ((dropStroke s).ports.get q).requestsDropped = (s.ports.get q).requestsDropped ∧
    ((dropStroke s).ports.get q).turn = (s.ports.get q).turn ∧
    ((dropStroke s).ports.get q).sending = (s.ports.get q).sending := by
  simp [dropStroke]

/-- `dropStroke` leaves the outputs and settings of the ports. -/
@[simp] theorem dropStroke_outputs (s : State) :
    (dropStroke s).ports.attention = s.ports.attention ∧
    (dropStroke s).ports.feedAddress = s.ports.feedAddress ∧
    (dropStroke s).ports.courtChannel = s.ports.courtChannel ∧ (dropStroke s).ports.lastOut = s.ports.lastOut := by
  simp [dropStroke]

/-- `reopenUnit` changes a port by notices alone. -/
@[simp] theorem reopenUnit_port (u : TextUnit) (s : State) (q : Port) :
    ((reopenUnit u s).ports.get q).answers = (s.ports.get q).answers ∧
    ((reopenUnit u s).ports.get q).receive = (s.ports.get q).receive ∧
    ((reopenUnit u s).ports.get q).enables = (s.ports.get q).enables ∧
    ((reopenUnit u s).ports.get q).requestsDropped = (s.ports.get q).requestsDropped ∧
    ((reopenUnit u s).ports.get q).turn = (s.ports.get q).turn ∧
    ((reopenUnit u s).ports.get q).sending = (s.ports.get q).sending := by
  simp [reopenUnit]

/-- `reopenUnit` leaves the outputs and settings of the ports. -/
@[simp] theorem reopenUnit_outputs (u : TextUnit) (s : State) :
    (reopenUnit u s).ports.attention = s.ports.attention ∧
    (reopenUnit u s).ports.feedAddress = s.ports.feedAddress ∧
    (reopenUnit u s).ports.courtChannel = s.ports.courtChannel ∧
    (reopenUnit u s).ports.lastOut = s.ports.lastOut := by
  simp [reopenUnit]

/-- `undoUnit` changes a port by notices alone. -/
@[simp] theorem undoUnit_port (u : TextUnit) (s : State) (q : Port) :
    ((undoUnit u s).ports.get q).answers = (s.ports.get q).answers ∧
    ((undoUnit u s).ports.get q).receive = (s.ports.get q).receive ∧
    ((undoUnit u s).ports.get q).enables = (s.ports.get q).enables ∧
    ((undoUnit u s).ports.get q).requestsDropped = (s.ports.get q).requestsDropped ∧
    ((undoUnit u s).ports.get q).turn = (s.ports.get q).turn ∧
    ((undoUnit u s).ports.get q).sending = (s.ports.get q).sending := by
  unfold undoUnit
  dsimp only
  split <;> simp

/-- `undoUnit` leaves the outputs and settings of the ports. -/
@[simp] theorem undoUnit_outputs (u : TextUnit) (s : State) :
    (undoUnit u s).ports.attention = s.ports.attention ∧
    (undoUnit u s).ports.feedAddress = s.ports.feedAddress ∧
    (undoUnit u s).ports.courtChannel = s.ports.courtChannel ∧ (undoUnit u s).ports.lastOut = s.ports.lastOut := by
  unfold undoUnit
  dsimp only
  split <;> simp

/-- `handleDelete` changes a port by notices alone. -/
@[simp] theorem handleDelete_port (s : State) (q : Port) :
    ((handleDelete s).ports.get q).answers = (s.ports.get q).answers ∧
    ((handleDelete s).ports.get q).receive = (s.ports.get q).receive ∧
    ((handleDelete s).ports.get q).enables = (s.ports.get q).enables ∧
    ((handleDelete s).ports.get q).requestsDropped = (s.ports.get q).requestsDropped ∧
    ((handleDelete s).ports.get q).turn = (s.ports.get q).turn ∧
    ((handleDelete s).ports.get q).sending = (s.ports.get q).sending := by
  unfold handleDelete
  dsimp only
  split
  · simp
  · split <;> simp

/-- `handleDelete` leaves the outputs and settings of the ports. -/
@[simp] theorem handleDelete_outputs (s : State) :
    (handleDelete s).ports.attention = s.ports.attention ∧
    (handleDelete s).ports.feedAddress = s.ports.feedAddress ∧
    (handleDelete s).ports.courtChannel = s.ports.courtChannel ∧
    (handleDelete s).ports.lastOut = s.ports.lastOut := by
  unfold handleDelete
  dsimp only
  split
  · simp
  · split <;> simp

/-- `handleRecord` changes a port by notices alone. -/
@[simp] theorem handleRecord_port (r : LogRecord) (s : State) (q : Port) :
    ((handleRecord r s).ports.get q).answers = (s.ports.get q).answers ∧
    ((handleRecord r s).ports.get q).receive = (s.ports.get q).receive ∧
    ((handleRecord r s).ports.get q).enables = (s.ports.get q).enables ∧
    ((handleRecord r s).ports.get q).requestsDropped = (s.ports.get q).requestsDropped ∧
    ((handleRecord r s).ports.get q).turn = (s.ports.get q).turn ∧
    ((handleRecord r s).ports.get q).sending = (s.ports.get q).sending := by
  unfold handleRecord
  split
  · split <;> simp
  all_goals simp

/-- `handleRecord` leaves the outputs and settings of the ports. -/
@[simp] theorem handleRecord_outputs (r : LogRecord) (s : State) :
    (handleRecord r s).ports.attention = s.ports.attention ∧
    (handleRecord r s).ports.feedAddress = s.ports.feedAddress ∧
    (handleRecord r s).ports.courtChannel = s.ports.courtChannel ∧
    (handleRecord r s).ports.lastOut = s.ports.lastOut := by
  unfold handleRecord
  split
  · split <;> simp
  all_goals simp

/-- `takeRecord` changes a port by notices alone. -/
@[simp] theorem takeRecord_port (r : LogRecord) (s : State) (q : Port) :
    ((takeRecord r s).ports.get q).answers = (s.ports.get q).answers ∧
    ((takeRecord r s).ports.get q).receive = (s.ports.get q).receive ∧
    ((takeRecord r s).ports.get q).enables = (s.ports.get q).enables ∧
    ((takeRecord r s).ports.get q).requestsDropped = (s.ports.get q).requestsDropped ∧
    ((takeRecord r s).ports.get q).turn = (s.ports.get q).turn ∧
    ((takeRecord r s).ports.get q).sending = (s.ports.get q).sending := by
  unfold takeRecord
  dsimp only
  split <;> split <;> simp

/-- `takeRecord` leaves the outputs and settings of the ports. -/
@[simp] theorem takeRecord_outputs (r : LogRecord) (s : State) :
    (takeRecord r s).ports.attention = s.ports.attention ∧
    (takeRecord r s).ports.feedAddress = s.ports.feedAddress ∧
    (takeRecord r s).ports.courtChannel = s.ports.courtChannel ∧
    (takeRecord r s).ports.lastOut = s.ports.lastOut := by
  unfold takeRecord
  dsimp only
  split <;> split <;> simp

/-- `takeEvent` changes a port by notices alone. -/
@[simp] theorem takeEvent_port (s : State) (q : Port) :
    ((takeEvent s).ports.get q).answers = (s.ports.get q).answers ∧
    ((takeEvent s).ports.get q).receive = (s.ports.get q).receive ∧
    ((takeEvent s).ports.get q).enables = (s.ports.get q).enables ∧
    ((takeEvent s).ports.get q).requestsDropped = (s.ports.get q).requestsDropped ∧
    ((takeEvent s).ports.get q).turn = (s.ports.get q).turn ∧
    ((takeEvent s).ports.get q).sending = (s.ports.get q).sending := by
  unfold takeEvent
  split <;> simp

/-- `takeEvent` leaves the outputs and settings of the ports. -/
@[simp] theorem takeEvent_outputs (s : State) :
    (takeEvent s).ports.attention = s.ports.attention ∧ (takeEvent s).ports.feedAddress = s.ports.feedAddress ∧
    (takeEvent s).ports.courtChannel = s.ports.courtChannel ∧ (takeEvent s).ports.lastOut = s.ports.lastOut := by
  unfold takeEvent
  split <;> simp

/-- `settleEvent` changes a port by notices alone. -/
@[simp] theorem settleEvent_port (s : State) (q : Port) :
    ((settleEvent s).ports.get q).answers = (s.ports.get q).answers ∧
    ((settleEvent s).ports.get q).receive = (s.ports.get q).receive ∧
    ((settleEvent s).ports.get q).enables = (s.ports.get q).enables ∧
    ((settleEvent s).ports.get q).requestsDropped = (s.ports.get q).requestsDropped ∧
    ((settleEvent s).ports.get q).turn = (s.ports.get q).turn ∧
    ((settleEvent s).ports.get q).sending = (s.ports.get q).sending := by
  unfold settleEvent
  split <;> simp

/-- `settleEvent` leaves the outputs and settings of the ports. -/
@[simp] theorem settleEvent_outputs (s : State) :
    (settleEvent s).ports.attention = s.ports.attention ∧
    (settleEvent s).ports.feedAddress = s.ports.feedAddress ∧
    (settleEvent s).ports.courtChannel = s.ports.courtChannel ∧ (settleEvent s).ports.lastOut = s.ports.lastOut := by
  unfold settleEvent
  split <;> simp

/-- `reopenUnits` changes a port by notices alone. -/
@[simp] theorem reopenUnits_port (r : Nat) (s : State) (q : Port) :
    (((reopenUnits r s).2).ports.get q).answers = (s.ports.get q).answers ∧
    (((reopenUnits r s).2).ports.get q).receive = (s.ports.get q).receive ∧
    (((reopenUnits r s).2).ports.get q).enables = (s.ports.get q).enables ∧
    (((reopenUnits r s).2).ports.get q).requestsDropped = (s.ports.get q).requestsDropped ∧
    (((reopenUnits r s).2).ports.get q).turn = (s.ports.get q).turn ∧
    (((reopenUnits r s).2).ports.get q).sending = (s.ports.get q).sending := by
  induction r generalizing s with
  | zero => simp [reopenUnits]
  | succ r ih =>
    unfold reopenUnits
    split
    · simp
    · dsimp only
      split
      · simp
      · simp [ih]

/-- `reopenUnits` leaves the outputs and settings of the ports. -/
@[simp] theorem reopenUnits_outputs (r : Nat) (s : State) :
    ((reopenUnits r s).2).ports.attention = s.ports.attention ∧
    ((reopenUnits r s).2).ports.feedAddress = s.ports.feedAddress ∧
    ((reopenUnits r s).2).ports.courtChannel = s.ports.courtChannel ∧
    ((reopenUnits r s).2).ports.lastOut = s.ports.lastOut := by
  induction r generalizing s with
  | zero => simp [reopenUnits]
  | succ r ih =>
    unfold reopenUnits
    split
    · simp
    · dsimp only
      split
      · simp
      · simp [ih]

/-- `retranslate` changes a port by notices alone. -/
@[simp] theorem retranslate_port (r : Nat) (s : State) (q : Port) :
    (((retranslate r s).2).ports.get q).answers = (s.ports.get q).answers ∧
    (((retranslate r s).2).ports.get q).receive = (s.ports.get q).receive ∧
    (((retranslate r s).2).ports.get q).enables = (s.ports.get q).enables ∧
    (((retranslate r s).2).ports.get q).requestsDropped = (s.ports.get q).requestsDropped ∧
    (((retranslate r s).2).ports.get q).turn = (s.ports.get q).turn ∧
    (((retranslate r s).2).ports.get q).sending = (s.ports.get q).sending := by
  simp [retranslate]

/-- `retranslate` leaves the outputs and settings of the ports. -/
@[simp] theorem retranslate_outputs (r : Nat) (s : State) :
    ((retranslate r s).2).ports.attention = s.ports.attention ∧
    ((retranslate r s).2).ports.feedAddress = s.ports.feedAddress ∧
    ((retranslate r s).2).ports.courtChannel = s.ports.courtChannel ∧
    ((retranslate r s).2).ports.lastOut = s.ports.lastOut := by
  simp [retranslate]

/-- `askRetranslate` changes a port by notices alone. -/
@[simp] theorem askRetranslate_port (r : Nat) (s : State) (q : Port) :
    (((askRetranslate r s).2).ports.get q).answers = (s.ports.get q).answers ∧
    (((askRetranslate r s).2).ports.get q).receive = (s.ports.get q).receive ∧
    (((askRetranslate r s).2).ports.get q).enables = (s.ports.get q).enables ∧
    (((askRetranslate r s).2).ports.get q).requestsDropped = (s.ports.get q).requestsDropped ∧
    (((askRetranslate r s).2).ports.get q).turn = (s.ports.get q).turn ∧
    (((askRetranslate r s).2).ports.get q).sending = (s.ports.get q).sending := by
  unfold askRetranslate
  split <;> simp

/-- `askRetranslate` leaves the outputs and settings of the ports. -/
@[simp] theorem askRetranslate_outputs (r : Nat) (s : State) :
    ((askRetranslate r s).2).ports.attention = s.ports.attention ∧
    ((askRetranslate r s).2).ports.feedAddress = s.ports.feedAddress ∧
    ((askRetranslate r s).2).ports.courtChannel = s.ports.courtChannel ∧
    ((askRetranslate r s).2).ports.lastOut = s.ports.lastOut := by
  unfold askRetranslate
  split <;> simp

/-! ### Power Control and the Wake Detector -/

/-- `enterSettling` changes a port by notices alone. -/
@[simp] theorem enterSettling_port (r : DozeReason) (s : State) (q : Port) :
    ((enterSettling r s).ports.get q).answers = (s.ports.get q).answers ∧
    ((enterSettling r s).ports.get q).receive = (s.ports.get q).receive ∧
    ((enterSettling r s).ports.get q).enables = (s.ports.get q).enables ∧
    ((enterSettling r s).ports.get q).requestsDropped = (s.ports.get q).requestsDropped ∧
    ((enterSettling r s).ports.get q).turn = (s.ports.get q).turn ∧
    ((enterSettling r s).ports.get q).sending = (s.ports.get q).sending := by
  unfold enterSettling
  dsimp only
  split <;> simp

/-- `enterSettling` leaves the outputs and settings of the ports. -/
@[simp] theorem enterSettling_outputs (r : DozeReason) (s : State) :
    (enterSettling r s).ports.attention = s.ports.attention ∧
    (enterSettling r s).ports.feedAddress = s.ports.feedAddress ∧
    (enterSettling r s).ports.courtChannel = s.ports.courtChannel ∧
    (enterSettling r s).ports.lastOut = s.ports.lastOut := by
  unfold enterSettling
  dsimp only
  split <;> simp

/-- `returnToReady` changes a port by notices alone. -/
@[simp] theorem returnToReady_port (s : State) (q : Port) :
    ((returnToReady s).ports.get q).answers = (s.ports.get q).answers ∧
    ((returnToReady s).ports.get q).receive = (s.ports.get q).receive ∧
    ((returnToReady s).ports.get q).enables = (s.ports.get q).enables ∧
    ((returnToReady s).ports.get q).requestsDropped = (s.ports.get q).requestsDropped ∧
    ((returnToReady s).ports.get q).turn = (s.ports.get q).turn ∧
    ((returnToReady s).ports.get q).sending = (s.ports.get q).sending := by
  simp [returnToReady]

/-- `returnToReady` leaves the outputs and settings of the ports. -/
@[simp] theorem returnToReady_outputs (s : State) :
    (returnToReady s).ports.attention = s.ports.attention ∧
    (returnToReady s).ports.feedAddress = s.ports.feedAddress ∧
    (returnToReady s).ports.courtChannel = s.ports.courtChannel ∧
    (returnToReady s).ports.lastOut = s.ports.lastOut := by
  simp [returnToReady]

/-- `enterDoze` changes a port by notices alone. -/
@[simp] theorem enterDoze_port (s : State) (q : Port) :
    ((enterDoze s).ports.get q).answers = (s.ports.get q).answers ∧
    ((enterDoze s).ports.get q).receive = (s.ports.get q).receive ∧
    ((enterDoze s).ports.get q).enables = (s.ports.get q).enables ∧
    ((enterDoze s).ports.get q).requestsDropped = (s.ports.get q).requestsDropped ∧
    ((enterDoze s).ports.get q).turn = (s.ports.get q).turn ∧
    ((enterDoze s).ports.get q).sending = (s.ports.get q).sending := by
  simp [enterDoze]

/-- `enterDoze` leaves the outputs and settings of the ports. -/
@[simp] theorem enterDoze_outputs (s : State) :
    (enterDoze s).ports.attention = s.ports.attention ∧ (enterDoze s).ports.feedAddress = s.ports.feedAddress ∧
    (enterDoze s).ports.courtChannel = s.ports.courtChannel ∧ (enterDoze s).ports.lastOut = s.ports.lastOut := by
  simp [enterDoze]

/-- `dozeIfReady` changes a port by notices alone. -/
@[simp] theorem dozeIfReady_port (s : State) (q : Port) :
    ((dozeIfReady s).ports.get q).answers = (s.ports.get q).answers ∧
    ((dozeIfReady s).ports.get q).receive = (s.ports.get q).receive ∧
    ((dozeIfReady s).ports.get q).enables = (s.ports.get q).enables ∧
    ((dozeIfReady s).ports.get q).requestsDropped = (s.ports.get q).requestsDropped ∧
    ((dozeIfReady s).ports.get q).turn = (s.ports.get q).turn ∧
    ((dozeIfReady s).ports.get q).sending = (s.ports.get q).sending := by
  unfold dozeIfReady
  split <;> simp

/-- `dozeIfReady` leaves the outputs and settings of the ports. -/
@[simp] theorem dozeIfReady_outputs (s : State) :
    (dozeIfReady s).ports.attention = s.ports.attention ∧
    (dozeIfReady s).ports.feedAddress = s.ports.feedAddress ∧
    (dozeIfReady s).ports.courtChannel = s.ports.courtChannel ∧ (dozeIfReady s).ports.lastOut = s.ports.lastOut := by
  unfold dozeIfReady
  split <;> simp

/-- `reportOpening` changes a port by notices alone. -/
@[simp] theorem reportOpening_port (s : State) (q : Port) :
    ((reportOpening s).ports.get q).answers = (s.ports.get q).answers ∧
    ((reportOpening s).ports.get q).receive = (s.ports.get q).receive ∧
    ((reportOpening s).ports.get q).enables = (s.ports.get q).enables ∧
    ((reportOpening s).ports.get q).requestsDropped = (s.ports.get q).requestsDropped ∧
    ((reportOpening s).ports.get q).turn = (s.ports.get q).turn ∧
    ((reportOpening s).ports.get q).sending = (s.ports.get q).sending := by
  unfold reportOpening
  split <;> simp

/-- `reportOpening` leaves the outputs and settings of the ports. -/
@[simp] theorem reportOpening_outputs (s : State) :
    (reportOpening s).ports.attention = s.ports.attention ∧
    (reportOpening s).ports.feedAddress = s.ports.feedAddress ∧
    (reportOpening s).ports.courtChannel = s.ports.courtChannel ∧
    (reportOpening s).ports.lastOut = s.ports.lastOut := by
  unfold reportOpening
  split <;> simp

/-- `wakePart` changes a port by notices alone. -/
@[simp] theorem wakePart_port (c : WakeCause) (s : State) (q : Port) :
    ((wakePart c s).ports.get q).answers = (s.ports.get q).answers ∧
    ((wakePart c s).ports.get q).receive = (s.ports.get q).receive ∧
    ((wakePart c s).ports.get q).enables = (s.ports.get q).enables ∧
    ((wakePart c s).ports.get q).requestsDropped = (s.ports.get q).requestsDropped ∧
    ((wakePart c s).ports.get q).turn = (s.ports.get q).turn ∧
    ((wakePart c s).ports.get q).sending = (s.ports.get q).sending := by
  simp [wakePart]

/-- `wakePart` leaves the outputs and settings of the ports. -/
@[simp] theorem wakePart_outputs (c : WakeCause) (s : State) :
    (wakePart c s).ports.attention = s.ports.attention ∧
    (wakePart c s).ports.feedAddress = s.ports.feedAddress ∧
    (wakePart c s).ports.courtChannel = s.ports.courtChannel ∧ (wakePart c s).ports.lastOut = s.ports.lastOut := by
  simp [wakePart]

/-- `matchStroke` changes a port by notices alone. -/
@[simp] theorem matchStroke_port (m : Nat) (t : Tick) (s : State) (q : Port) :
    ((matchStroke m t s).ports.get q).answers = (s.ports.get q).answers ∧
    ((matchStroke m t s).ports.get q).receive = (s.ports.get q).receive ∧
    ((matchStroke m t s).ports.get q).enables = (s.ports.get q).enables ∧
    ((matchStroke m t s).ports.get q).requestsDropped = (s.ports.get q).requestsDropped ∧
    ((matchStroke m t s).ports.get q).turn = (s.ports.get q).turn ∧
    ((matchStroke m t s).ports.get q).sending = (s.ports.get q).sending := by
  unfold matchStroke
  split
  · simp
  · split <;> simp

/-- `matchStroke` leaves the outputs and settings of the ports. -/
@[simp] theorem matchStroke_outputs (m : Nat) (t : Tick) (s : State) :
    (matchStroke m t s).ports.attention = s.ports.attention ∧
    (matchStroke m t s).ports.feedAddress = s.ports.feedAddress ∧
    (matchStroke m t s).ports.courtChannel = s.ports.courtChannel ∧
    (matchStroke m t s).ports.lastOut = s.ports.lastOut := by
  unfold matchStroke
  split
  · simp
  · split <;> simp

/-- `judgeWake` changes a port by notices alone. -/
@[simp] theorem judgeWake_port (c : Chord) (t : Tick) (s : State) (q : Port) :
    ((judgeWake c t s).ports.get q).answers = (s.ports.get q).answers ∧
    ((judgeWake c t s).ports.get q).receive = (s.ports.get q).receive ∧
    ((judgeWake c t s).ports.get q).enables = (s.ports.get q).enables ∧
    ((judgeWake c t s).ports.get q).requestsDropped = (s.ports.get q).requestsDropped ∧
    ((judgeWake c t s).ports.get q).turn = (s.ports.get q).turn ∧
    ((judgeWake c t s).ports.get q).sending = (s.ports.get q).sending := by
  unfold judgeWake
  dsimp only
  split
  · split
    · simp
    · split <;> simp
  · simp

/-- `judgeWake` leaves the outputs and settings of the ports. -/
@[simp] theorem judgeWake_outputs (c : Chord) (t : Tick) (s : State) :
    (judgeWake c t s).ports.attention = s.ports.attention ∧
    (judgeWake c t s).ports.feedAddress = s.ports.feedAddress ∧
    (judgeWake c t s).ports.courtChannel = s.ports.courtChannel ∧
    (judgeWake c t s).ports.lastOut = s.ports.lastOut := by
  unfold judgeWake
  dsimp only
  split
  · split
    · simp
    · split <;> simp
  · simp

/-- `gapExpires` changes a port by notices alone. -/
@[simp] theorem gapExpires_port (s : State) (q : Port) :
    ((gapExpires s).ports.get q).answers = (s.ports.get q).answers ∧
    ((gapExpires s).ports.get q).receive = (s.ports.get q).receive ∧
    ((gapExpires s).ports.get q).enables = (s.ports.get q).enables ∧
    ((gapExpires s).ports.get q).requestsDropped = (s.ports.get q).requestsDropped ∧
    ((gapExpires s).ports.get q).turn = (s.ports.get q).turn ∧
    ((gapExpires s).ports.get q).sending = (s.ports.get q).sending := by
  unfold gapExpires
  dsimp only
  split <;> simp

/-- `gapExpires` leaves the outputs and settings of the ports. -/
@[simp] theorem gapExpires_outputs (s : State) :
    (gapExpires s).ports.attention = s.ports.attention ∧
    (gapExpires s).ports.feedAddress = s.ports.feedAddress ∧
    (gapExpires s).ports.courtChannel = s.ports.courtChannel ∧ (gapExpires s).ports.lastOut = s.ports.lastOut := by
  unfold gapExpires
  dsimp only
  split <;> simp

/-- `gapEvent` changes a port by notices alone. -/
@[simp] theorem gapEvent_port (s : State) (q : Port) :
    ((gapEvent s).ports.get q).answers = (s.ports.get q).answers ∧
    ((gapEvent s).ports.get q).receive = (s.ports.get q).receive ∧
    ((gapEvent s).ports.get q).enables = (s.ports.get q).enables ∧
    ((gapEvent s).ports.get q).requestsDropped = (s.ports.get q).requestsDropped ∧
    ((gapEvent s).ports.get q).turn = (s.ports.get q).turn ∧
    ((gapEvent s).ports.get q).sending = (s.ports.get q).sending := by
  unfold gapEvent
  split <;> simp

/-- `gapEvent` leaves the outputs and settings of the ports. -/
@[simp] theorem gapEvent_outputs (s : State) :
    (gapEvent s).ports.attention = s.ports.attention ∧ (gapEvent s).ports.feedAddress = s.ports.feedAddress ∧
    (gapEvent s).ports.courtChannel = s.ports.courtChannel ∧ (gapEvent s).ports.lastOut = s.ports.lastOut := by
  unfold gapEvent
  split <;> simp

/-- `idleEvent` changes a port by notices alone. -/
@[simp] theorem idleEvent_port (s : State) (q : Port) :
    ((idleEvent s).ports.get q).answers = (s.ports.get q).answers ∧
    ((idleEvent s).ports.get q).receive = (s.ports.get q).receive ∧
    ((idleEvent s).ports.get q).enables = (s.ports.get q).enables ∧
    ((idleEvent s).ports.get q).requestsDropped = (s.ports.get q).requestsDropped ∧
    ((idleEvent s).ports.get q).turn = (s.ports.get q).turn ∧
    ((idleEvent s).ports.get q).sending = (s.ports.get q).sending := by
  unfold idleEvent
  split <;> simp

/-- `idleEvent` leaves the outputs and settings of the ports. -/
@[simp] theorem idleEvent_outputs (s : State) :
    (idleEvent s).ports.attention = s.ports.attention ∧ (idleEvent s).ports.feedAddress = s.ports.feedAddress ∧
    (idleEvent s).ports.courtChannel = s.ports.courtChannel ∧ (idleEvent s).ports.lastOut = s.ports.lastOut := by
  unfold idleEvent
  split <;> simp

/-- `askDoze` changes a port by notices alone. -/
@[simp] theorem askDoze_port (s : State) (q : Port) :
    ((askDoze s).ports.get q).answers = (s.ports.get q).answers ∧
    ((askDoze s).ports.get q).receive = (s.ports.get q).receive ∧
    ((askDoze s).ports.get q).enables = (s.ports.get q).enables ∧
    ((askDoze s).ports.get q).requestsDropped = (s.ports.get q).requestsDropped ∧
    ((askDoze s).ports.get q).turn = (s.ports.get q).turn ∧
    ((askDoze s).ports.get q).sending = (s.ports.get q).sending := by
  unfold askDoze
  split <;> simp

/-- `askDoze` leaves the outputs and settings of the ports. -/
@[simp] theorem askDoze_outputs (s : State) :
    (askDoze s).ports.attention = s.ports.attention ∧ (askDoze s).ports.feedAddress = s.ports.feedAddress ∧
    (askDoze s).ports.courtChannel = s.ports.courtChannel ∧ (askDoze s).ports.lastOut = s.ports.lastOut := by
  unfold askDoze
  split <;> simp

/-! ### The end of an event -/

/-! ### Sensing and assembly -/

/-- `markPress` changes a port by notices alone. -/
@[simp] theorem markPress_port (n : Nat) (s : State) (q : Port) :
    ((markPress n s).ports.get q).answers = (s.ports.get q).answers ∧
    ((markPress n s).ports.get q).receive = (s.ports.get q).receive ∧
    ((markPress n s).ports.get q).enables = (s.ports.get q).enables ∧
    ((markPress n s).ports.get q).requestsDropped = (s.ports.get q).requestsDropped ∧
    ((markPress n s).ports.get q).turn = (s.ports.get q).turn ∧
    ((markPress n s).ports.get q).sending = (s.ports.get q).sending := by
  induction n generalizing s with
  | zero => simp [markPress]
  | succ n ih =>
    unfold markPress
    split <;> simp [ih]

/-- `markPress` leaves the outputs and settings of the ports. -/
@[simp] theorem markPress_outputs (n : Nat) (s : State) :
    (markPress n s).ports.attention = s.ports.attention ∧
    (markPress n s).ports.feedAddress = s.ports.feedAddress ∧
    (markPress n s).ports.courtChannel = s.ports.courtChannel ∧ (markPress n s).ports.lastOut = s.ports.lastOut := by
  induction n generalizing s with
  | zero => simp [markPress]
  | succ n ih =>
    unfold markPress
    split <;> simp [ih]

/-- `holdGroupPress` changes a port by notices alone. -/
@[simp] theorem holdGroupPress_port (s : State) (q : Port) :
    ((holdGroupPress s).ports.get q).answers = (s.ports.get q).answers ∧
    ((holdGroupPress s).ports.get q).receive = (s.ports.get q).receive ∧
    ((holdGroupPress s).ports.get q).enables = (s.ports.get q).enables ∧
    ((holdGroupPress s).ports.get q).requestsDropped = (s.ports.get q).requestsDropped ∧
    ((holdGroupPress s).ports.get q).turn = (s.ports.get q).turn ∧
    ((holdGroupPress s).ports.get q).sending = (s.ports.get q).sending := by
  unfold holdGroupPress
  have h := openHold_port .line none s q
  split <;> rename_i heq <;> rw [heq] at h <;> simp_all

/-- `holdGroupPress` leaves the outputs and settings of the ports. -/
@[simp] theorem holdGroupPress_outputs (s : State) :
    (holdGroupPress s).ports.attention = s.ports.attention ∧
    (holdGroupPress s).ports.feedAddress = s.ports.feedAddress ∧
    (holdGroupPress s).ports.courtChannel = s.ports.courtChannel ∧
    (holdGroupPress s).ports.lastOut = s.ports.lastOut := by
  unfold holdGroupPress
  have h := openHold_outputs .line none s
  split <;> rename_i heq <;> rw [heq] at h <;> simp_all

/-- `holdGroupRelease` changes a port by notices alone. -/
@[simp] theorem holdGroupRelease_port (s : State) (q : Port) :
    ((holdGroupRelease s).ports.get q).answers = (s.ports.get q).answers ∧
    ((holdGroupRelease s).ports.get q).receive = (s.ports.get q).receive ∧
    ((holdGroupRelease s).ports.get q).enables = (s.ports.get q).enables ∧
    ((holdGroupRelease s).ports.get q).requestsDropped = (s.ports.get q).requestsDropped ∧
    ((holdGroupRelease s).ports.get q).turn = (s.ports.get q).turn ∧
    ((holdGroupRelease s).ports.get q).sending = (s.ports.get q).sending := by
  unfold holdGroupRelease
  split <;> simp

/-- `holdGroupRelease` leaves the outputs and settings of the ports. -/
@[simp] theorem holdGroupRelease_outputs (s : State) :
    (holdGroupRelease s).ports.attention = s.ports.attention ∧
    (holdGroupRelease s).ports.feedAddress = s.ports.feedAddress ∧
    (holdGroupRelease s).ports.courtChannel = s.ports.courtChannel ∧
    (holdGroupRelease s).ports.lastOut = s.ports.lastOut := by
  unfold holdGroupRelease
  split <;> simp

/-- `holdGroup` changes a port by notices alone. -/
@[simp] theorem holdGroup_port (a b : Bool) (s : State) (q : Port) :
    ((holdGroup a b s).ports.get q).answers = (s.ports.get q).answers ∧
    ((holdGroup a b s).ports.get q).receive = (s.ports.get q).receive ∧
    ((holdGroup a b s).ports.get q).enables = (s.ports.get q).enables ∧
    ((holdGroup a b s).ports.get q).requestsDropped = (s.ports.get q).requestsDropped ∧
    ((holdGroup a b s).ports.get q).turn = (s.ports.get q).turn ∧
    ((holdGroup a b s).ports.get q).sending = (s.ports.get q).sending := by
  unfold holdGroup
  split
  · simp
  · split <;> simp

/-- `holdGroup` leaves the outputs and settings of the ports. -/
@[simp] theorem holdGroup_outputs (a b : Bool) (s : State) :
    (holdGroup a b s).ports.attention = s.ports.attention ∧
    (holdGroup a b s).ports.feedAddress = s.ports.feedAddress ∧
    (holdGroup a b s).ports.courtChannel = s.ports.courtChannel ∧
    (holdGroup a b s).ports.lastOut = s.ports.lastOut := by
  unfold holdGroup
  split
  · simp
  · split <;> simp

/-- `openStroke` changes a port by notices alone. -/
@[simp] theorem openStroke_port (k : Chord) (s : State) (q : Port) :
    ((openStroke k s).ports.get q).answers = (s.ports.get q).answers ∧
    ((openStroke k s).ports.get q).receive = (s.ports.get q).receive ∧
    ((openStroke k s).ports.get q).enables = (s.ports.get q).enables ∧
    ((openStroke k s).ports.get q).requestsDropped = (s.ports.get q).requestsDropped ∧
    ((openStroke k s).ports.get q).turn = (s.ports.get q).turn ∧
    ((openStroke k s).ports.get q).sending = (s.ports.get q).sending := by
  by_cases h : s.power.part = .doze <;> simp [openStroke, h]

/-- `openStroke` leaves the outputs and settings of the ports. -/
@[simp] theorem openStroke_outputs (k : Chord) (s : State) :
    (openStroke k s).ports.attention = s.ports.attention ∧
    (openStroke k s).ports.feedAddress = s.ports.feedAddress ∧
    (openStroke k s).ports.courtChannel = s.ports.courtChannel ∧
    (openStroke k s).ports.lastOut = s.ports.lastOut := by
  by_cases h : s.power.part = .doze <;> simp [openStroke, h]

/-- `handStroke` changes a port by notices alone. -/
@[simp] theorem handStroke_port (a : Assembler) (n : Nat) (h : Bool) (s : State) (q : Port) :
    ((handStroke a n h s).ports.get q).answers = (s.ports.get q).answers ∧
    ((handStroke a n h s).ports.get q).receive = (s.ports.get q).receive ∧
    ((handStroke a n h s).ports.get q).enables = (s.ports.get q).enables ∧
    ((handStroke a n h s).ports.get q).requestsDropped = (s.ports.get q).requestsDropped ∧
    ((handStroke a n h s).ports.get q).turn = (s.ports.get q).turn ∧
    ((handStroke a n h s).ports.get q).sending = (s.ports.get q).sending := by
  unfold handStroke
  split
  · simp
  · split <;> simp

/-- `handStroke` leaves the outputs and settings of the ports. -/
@[simp] theorem handStroke_outputs (a : Assembler) (n : Nat) (h : Bool) (s : State) :
    (handStroke a n h s).ports.attention = s.ports.attention ∧
    (handStroke a n h s).ports.feedAddress = s.ports.feedAddress ∧
    (handStroke a n h s).ports.courtChannel = s.ports.courtChannel ∧
    (handStroke a n h s).ports.lastOut = s.ports.lastOut := by
  unfold handStroke
  split
  · simp
  · split <;> simp

/-- `closeStroke` changes a port by notices alone. -/
@[simp] theorem closeStroke_port (s : State) (q : Port) :
    ((closeStroke s).ports.get q).answers = (s.ports.get q).answers ∧
    ((closeStroke s).ports.get q).receive = (s.ports.get q).receive ∧
    ((closeStroke s).ports.get q).enables = (s.ports.get q).enables ∧
    ((closeStroke s).ports.get q).requestsDropped = (s.ports.get q).requestsDropped ∧
    ((closeStroke s).ports.get q).turn = (s.ports.get q).turn ∧
    ((closeStroke s).ports.get q).sending = (s.ports.get q).sending := by
  simp [closeStroke]

/-- `closeStroke` leaves the outputs and settings of the ports. -/
@[simp] theorem closeStroke_outputs (s : State) :
    (closeStroke s).ports.attention = s.ports.attention ∧
    (closeStroke s).ports.feedAddress = s.ports.feedAddress ∧
    (closeStroke s).ports.courtChannel = s.ports.courtChannel ∧ (closeStroke s).ports.lastOut = s.ports.lastOut := by
  simp [closeStroke]

/-- `assemble` changes a port by notices alone. -/
@[simp] theorem assemble_port (a b : Chord) (s : State) (q : Port) :
    ((assemble a b s).ports.get q).answers = (s.ports.get q).answers ∧
    ((assemble a b s).ports.get q).receive = (s.ports.get q).receive ∧
    ((assemble a b s).ports.get q).enables = (s.ports.get q).enables ∧
    ((assemble a b s).ports.get q).requestsDropped = (s.ports.get q).requestsDropped ∧
    ((assemble a b s).ports.get q).turn = (s.ports.get q).turn ∧
    ((assemble a b s).ports.get q).sending = (s.ports.get q).sending := by
  unfold assemble
  dsimp only
  split <;> split <;> simp

/-- `assemble` leaves the outputs and settings of the ports. -/
@[simp] theorem assemble_outputs (a b : Chord) (s : State) :
    (assemble a b s).ports.attention = s.ports.attention ∧
    (assemble a b s).ports.feedAddress = s.ports.feedAddress ∧
    (assemble a b s).ports.courtChannel = s.ports.courtChannel ∧
    (assemble a b s).ports.lastOut = s.ports.lastOut := by
  unfold assemble
  dsimp only
  split <;> split <;> simp

/-- `scanEvent` changes a port by notices alone. -/
@[simp] theorem scanEvent_port (d : List Byte) (s : State) (q : Port) :
    ((scanEvent d s).ports.get q).answers = (s.ports.get q).answers ∧
    ((scanEvent d s).ports.get q).receive = (s.ports.get q).receive ∧
    ((scanEvent d s).ports.get q).enables = (s.ports.get q).enables ∧
    ((scanEvent d s).ports.get q).requestsDropped = (s.ports.get q).requestsDropped ∧
    ((scanEvent d s).ports.get q).turn = (s.ports.get q).turn ∧
    ((scanEvent d s).ports.get q).sending = (s.ports.get q).sending := by
  simp [scanEvent]

/-- `scanEvent` leaves the outputs and settings of the ports. -/
@[simp] theorem scanEvent_outputs (d : List Byte) (s : State) :
    (scanEvent d s).ports.attention = s.ports.attention ∧
    (scanEvent d s).ports.feedAddress = s.ports.feedAddress ∧
    (scanEvent d s).ports.courtChannel = s.ports.courtChannel ∧ (scanEvent d s).ports.lastOut = s.ports.lastOut := by
  simp [scanEvent]

/-- `strokeLimitEvent` changes a port by notices alone. -/
@[simp] theorem strokeLimitEvent_port (s : State) (q : Port) :
    ((strokeLimitEvent s).ports.get q).answers = (s.ports.get q).answers ∧
    ((strokeLimitEvent s).ports.get q).receive = (s.ports.get q).receive ∧
    ((strokeLimitEvent s).ports.get q).enables = (s.ports.get q).enables ∧
    ((strokeLimitEvent s).ports.get q).requestsDropped = (s.ports.get q).requestsDropped ∧
    ((strokeLimitEvent s).ports.get q).turn = (s.ports.get q).turn ∧
    ((strokeLimitEvent s).ports.get q).sending = (s.ports.get q).sending := by
  unfold strokeLimitEvent
  split <;> simp

/-- `strokeLimitEvent` leaves the outputs and settings of the ports. -/
@[simp] theorem strokeLimitEvent_outputs (s : State) :
    (strokeLimitEvent s).ports.attention = s.ports.attention ∧
    (strokeLimitEvent s).ports.feedAddress = s.ports.feedAddress ∧
    (strokeLimitEvent s).ports.courtChannel = s.ports.courtChannel ∧
    (strokeLimitEvent s).ports.lastOut = s.ports.lastOut := by
  unfold strokeLimitEvent
  split <;> simp

/-- `lastKeyReleased` changes a port by notices alone. -/
@[simp] theorem lastKeyReleased_port (s : State) (q : Port) :
    ((lastKeyReleased s).ports.get q).answers = (s.ports.get q).answers ∧
    ((lastKeyReleased s).ports.get q).receive = (s.ports.get q).receive ∧
    ((lastKeyReleased s).ports.get q).enables = (s.ports.get q).enables ∧
    ((lastKeyReleased s).ports.get q).requestsDropped = (s.ports.get q).requestsDropped ∧
    ((lastKeyReleased s).ports.get q).turn = (s.ports.get q).turn ∧
    ((lastKeyReleased s).ports.get q).sending = (s.ports.get q).sending := by
  unfold lastKeyReleased
  split <;> simp

/-- `lastKeyReleased` leaves the outputs and settings of the ports. -/
@[simp] theorem lastKeyReleased_outputs (s : State) :
    (lastKeyReleased s).ports.attention = s.ports.attention ∧
    (lastKeyReleased s).ports.feedAddress = s.ports.feedAddress ∧
    (lastKeyReleased s).ports.courtChannel = s.ports.courtChannel ∧
    (lastKeyReleased s).ports.lastOut = s.ports.lastOut := by
  unfold lastKeyReleased
  split <;> simp

/-- `reportReleases` changes a port by notices alone. -/
@[simp] theorem reportReleases_port (a b : List Line) (s : State) (q : Port) :
    ((reportReleases a b s).ports.get q).answers = (s.ports.get q).answers ∧
    ((reportReleases a b s).ports.get q).receive = (s.ports.get q).receive ∧
    ((reportReleases a b s).ports.get q).enables = (s.ports.get q).enables ∧
    ((reportReleases a b s).ports.get q).requestsDropped = (s.ports.get q).requestsDropped ∧
    ((reportReleases a b s).ports.get q).turn = (s.ports.get q).turn ∧
    ((reportReleases a b s).ports.get q).sending = (s.ports.get q).sending := by
  unfold reportReleases
  dsimp only
  split <;> simp

/-- `reportReleases` leaves the outputs and settings of the ports. -/
@[simp] theorem reportReleases_outputs (a b : List Line) (s : State) :
    (reportReleases a b s).ports.attention = s.ports.attention ∧
    (reportReleases a b s).ports.feedAddress = s.ports.feedAddress ∧
    (reportReleases a b s).ports.courtChannel = s.ports.courtChannel ∧
    (reportReleases a b s).ports.lastOut = s.ports.lastOut := by
  unfold reportReleases
  dsimp only
  split <;> simp

/-- `replaceLines` changes a port by notices alone. -/
@[simp] theorem replaceLines_port (a : List Line) (s : State) (q : Port) :
    ((replaceLines a s).ports.get q).answers = (s.ports.get q).answers ∧
    ((replaceLines a s).ports.get q).receive = (s.ports.get q).receive ∧
    ((replaceLines a s).ports.get q).enables = (s.ports.get q).enables ∧
    ((replaceLines a s).ports.get q).requestsDropped = (s.ports.get q).requestsDropped ∧
    ((replaceLines a s).ports.get q).turn = (s.ports.get q).turn ∧
    ((replaceLines a s).ports.get q).sending = (s.ports.get q).sending := by
  simp [replaceLines]

/-- `replaceLines` leaves the outputs and settings of the ports. -/
@[simp] theorem replaceLines_outputs (a : List Line) (s : State) :
    (replaceLines a s).ports.attention = s.ports.attention ∧
    (replaceLines a s).ports.feedAddress = s.ports.feedAddress ∧
    (replaceLines a s).ports.courtChannel = s.ports.courtChannel ∧
    (replaceLines a s).ports.lastOut = s.ports.lastOut := by
  simp [replaceLines]

/-! ### Time -/

/-- `rejudge` changes a port by notices alone. -/
@[simp] theorem rejudge_port (s : State) (q : Port) :
    ((rejudge s).ports.get q).answers = (s.ports.get q).answers ∧
    ((rejudge s).ports.get q).receive = (s.ports.get q).receive ∧
    ((rejudge s).ports.get q).enables = (s.ports.get q).enables ∧
    ((rejudge s).ports.get q).requestsDropped = (s.ports.get q).requestsDropped ∧
    ((rejudge s).ports.get q).turn = (s.ports.get q).turn ∧
    ((rejudge s).ports.get q).sending = (s.ports.get q).sending := by
  unfold rejudge
  dsimp only
  split <;> simp

/-- `rejudge` leaves the outputs and settings of the ports. -/
@[simp] theorem rejudge_outputs (s : State) :
    (rejudge s).ports.attention = s.ports.attention ∧ (rejudge s).ports.feedAddress = s.ports.feedAddress ∧
    (rejudge s).ports.courtChannel = s.ports.courtChannel ∧ (rejudge s).ports.lastOut = s.ports.lastOut := by
  unfold rejudge
  dsimp only
  split <;> simp

/-- `lockAt` changes a port by notices alone. -/
@[simp] theorem lockAt_port (p : BitVec 6) (s : State) (q : Port) :
    ((lockAt p s).ports.get q).answers = (s.ports.get q).answers ∧
    ((lockAt p s).ports.get q).receive = (s.ports.get q).receive ∧
    ((lockAt p s).ports.get q).enables = (s.ports.get q).enables ∧
    ((lockAt p s).ports.get q).requestsDropped = (s.ports.get q).requestsDropped ∧
    ((lockAt p s).ports.get q).turn = (s.ports.get q).turn ∧
    ((lockAt p s).ports.get q).sending = (s.ports.get q).sending := by
  unfold lockAt
  dsimp only
  split <;> simp

/-- `lockAt` leaves the outputs and settings of the ports. -/
@[simp] theorem lockAt_outputs (p : BitVec 6) (s : State) :
    (lockAt p s).ports.attention = s.ports.attention ∧ (lockAt p s).ports.feedAddress = s.ports.feedAddress ∧
    (lockAt p s).ports.courtChannel = s.ports.courtChannel ∧ (lockAt p s).ports.lastOut = s.ports.lastOut := by
  unfold lockAt
  dsimp only
  split <;> simp

/-- `moveTo` changes a port by notices alone. -/
@[simp] theorem moveTo_port (p : BitVec 6) (s : State) (q : Port) :
    ((moveTo p s).ports.get q).answers = (s.ports.get q).answers ∧
    ((moveTo p s).ports.get q).receive = (s.ports.get q).receive ∧
    ((moveTo p s).ports.get q).enables = (s.ports.get q).enables ∧
    ((moveTo p s).ports.get q).requestsDropped = (s.ports.get q).requestsDropped ∧
    ((moveTo p s).ports.get q).turn = (s.ports.get q).turn ∧
    ((moveTo p s).ports.get q).sending = (s.ports.get q).sending := by
  simp [moveTo]

/-- `moveTo` leaves the outputs and settings of the ports. -/
@[simp] theorem moveTo_outputs (p : BitVec 6) (s : State) :
    (moveTo p s).ports.attention = s.ports.attention ∧ (moveTo p s).ports.feedAddress = s.ports.feedAddress ∧
    (moveTo p s).ports.courtChannel = s.ports.courtChannel ∧ (moveTo p s).ports.lastOut = s.ports.lastOut := by
  simp [moveTo]

/-- `judgeCell` changes a port by notices alone. -/
@[simp] theorem judgeCell_port (s : State) (q : Port) :
    ((judgeCell s).ports.get q).answers = (s.ports.get q).answers ∧
    ((judgeCell s).ports.get q).receive = (s.ports.get q).receive ∧
    ((judgeCell s).ports.get q).enables = (s.ports.get q).enables ∧
    ((judgeCell s).ports.get q).requestsDropped = (s.ports.get q).requestsDropped ∧
    ((judgeCell s).ports.get q).turn = (s.ports.get q).turn ∧
    ((judgeCell s).ports.get q).sending = (s.ports.get q).sending := by
  unfold judgeCell
  dsimp only
  split
  · split <;> simp
  · split <;> simp
  · simp

/-- `judgeCell` leaves the outputs and settings of the ports. -/
@[simp] theorem judgeCell_outputs (s : State) :
    (judgeCell s).ports.attention = s.ports.attention ∧ (judgeCell s).ports.feedAddress = s.ports.feedAddress ∧
    (judgeCell s).ports.courtChannel = s.ports.courtChannel ∧ (judgeCell s).ports.lastOut = s.ports.lastOut := by
  unfold judgeCell
  dsimp only
  split
  · split <;> simp
  · split <;> simp
  · simp

/-- `judgeSync` changes a port by notices alone. -/
@[simp] theorem judgeSync_port (f : TimeFrame) (s : State) (q : Port) :
    ((judgeSync f s).ports.get q).answers = (s.ports.get q).answers ∧
    ((judgeSync f s).ports.get q).receive = (s.ports.get q).receive ∧
    ((judgeSync f s).ports.get q).enables = (s.ports.get q).enables ∧
    ((judgeSync f s).ports.get q).requestsDropped = (s.ports.get q).requestsDropped ∧
    ((judgeSync f s).ports.get q).turn = (s.ports.get q).turn ∧
    ((judgeSync f s).ports.get q).sending = (s.ports.get q).sending := by
  unfold judgeSync
  split
  · simp
  · dsimp only
    split <;> simp

/-- `judgeSync` leaves the outputs and settings of the ports. -/
@[simp] theorem judgeSync_outputs (f : TimeFrame) (s : State) :
    (judgeSync f s).ports.attention = s.ports.attention ∧
    (judgeSync f s).ports.feedAddress = s.ports.feedAddress ∧
    (judgeSync f s).ports.courtChannel = s.ports.courtChannel ∧ (judgeSync f s).ports.lastOut = s.ports.lastOut := by
  unfold judgeSync
  split
  · simp
  · dsimp only
    split <;> simp

/-- `judgeCheck` changes a port by notices alone. -/
@[simp] theorem judgeCheck_port (f : TimeFrame) (s : State) (q : Port) :
    ((judgeCheck f s).ports.get q).answers = (s.ports.get q).answers ∧
    ((judgeCheck f s).ports.get q).receive = (s.ports.get q).receive ∧
    ((judgeCheck f s).ports.get q).enables = (s.ports.get q).enables ∧
    ((judgeCheck f s).ports.get q).requestsDropped = (s.ports.get q).requestsDropped ∧
    ((judgeCheck f s).ports.get q).turn = (s.ports.get q).turn ∧
    ((judgeCheck f s).ports.get q).sending = (s.ports.get q).sending := by
  unfold judgeCheck
  dsimp only
  split <;> split <;> simp

/-- `judgeCheck` leaves the outputs and settings of the ports. -/
@[simp] theorem judgeCheck_outputs (f : TimeFrame) (s : State) :
    (judgeCheck f s).ports.attention = s.ports.attention ∧
    (judgeCheck f s).ports.feedAddress = s.ports.feedAddress ∧
    (judgeCheck f s).ports.courtChannel = s.ports.courtChannel ∧
    (judgeCheck f s).ports.lastOut = s.ports.lastOut := by
  unfold judgeCheck
  dsimp only
  split <;> split <;> simp

/-- `declareBlock` changes a port by notices alone. -/
@[simp] theorem declareBlock_port (f : TimeFrame) (s : State) (q : Port) :
    ((declareBlock f s).ports.get q).answers = (s.ports.get q).answers ∧
    ((declareBlock f s).ports.get q).receive = (s.ports.get q).receive ∧
    ((declareBlock f s).ports.get q).enables = (s.ports.get q).enables ∧
    ((declareBlock f s).ports.get q).requestsDropped = (s.ports.get q).requestsDropped ∧
    ((declareBlock f s).ports.get q).turn = (s.ports.get q).turn ∧
    ((declareBlock f s).ports.get q).sending = (s.ports.get q).sending := by
  simp [declareBlock]

/-- `declareBlock` leaves the outputs and settings of the ports. -/
@[simp] theorem declareBlock_outputs (f : TimeFrame) (s : State) :
    (declareBlock f s).ports.attention = s.ports.attention ∧
    (declareBlock f s).ports.feedAddress = s.ports.feedAddress ∧
    (declareBlock f s).ports.courtChannel = s.ports.courtChannel ∧
    (declareBlock f s).ports.lastOut = s.ports.lastOut := by
  simp [declareBlock]

/-- `searchBlock` changes a port by notices alone. -/
@[simp] theorem searchBlock_port (b : Bool) (f : TimeFrame) (s : State) (q : Port) :
    ((searchBlock b f s).ports.get q).answers = (s.ports.get q).answers ∧
    ((searchBlock b f s).ports.get q).receive = (s.ports.get q).receive ∧
    ((searchBlock b f s).ports.get q).enables = (s.ports.get q).enables ∧
    ((searchBlock b f s).ports.get q).requestsDropped = (s.ports.get q).requestsDropped ∧
    ((searchBlock b f s).ports.get q).turn = (s.ports.get q).turn ∧
    ((searchBlock b f s).ports.get q).sending = (s.ports.get q).sending := by
  unfold searchBlock
  dsimp only
  split <;> simp

/-- `searchBlock` leaves the outputs and settings of the ports. -/
@[simp] theorem searchBlock_outputs (b : Bool) (f : TimeFrame) (s : State) :
    (searchBlock b f s).ports.attention = s.ports.attention ∧
    (searchBlock b f s).ports.feedAddress = s.ports.feedAddress ∧
    (searchBlock b f s).ports.courtChannel = s.ports.courtChannel ∧
    (searchBlock b f s).ports.lastOut = s.ports.lastOut := by
  unfold searchBlock
  dsimp only
  split <;> simp

/-- `judgeBlock` changes a port by notices alone. -/
@[simp] theorem judgeBlock_port (b : Bool) (f : TimeFrame) (s : State) (q : Port) :
    ((judgeBlock b f s).ports.get q).answers = (s.ports.get q).answers ∧
    ((judgeBlock b f s).ports.get q).receive = (s.ports.get q).receive ∧
    ((judgeBlock b f s).ports.get q).enables = (s.ports.get q).enables ∧
    ((judgeBlock b f s).ports.get q).requestsDropped = (s.ports.get q).requestsDropped ∧
    ((judgeBlock b f s).ports.get q).turn = (s.ports.get q).turn ∧
    ((judgeBlock b f s).ports.get q).sending = (s.ports.get q).sending := by
  unfold judgeBlock
  split
  · simp
  · dsimp only
    split <;> simp
  all_goals simp

/-- `judgeBlock` leaves the outputs and settings of the ports. -/
@[simp] theorem judgeBlock_outputs (b : Bool) (f : TimeFrame) (s : State) :
    (judgeBlock b f s).ports.attention = s.ports.attention ∧
    (judgeBlock b f s).ports.feedAddress = s.ports.feedAddress ∧
    (judgeBlock b f s).ports.courtChannel = s.ports.courtChannel ∧
    (judgeBlock b f s).ports.lastOut = s.ports.lastOut := by
  unfold judgeBlock
  split
  · simp
  · dsimp only
    split <;> simp
  all_goals simp

/-- `takeReference` changes a port by notices alone. -/
@[simp] theorem takeReference_port (d : Nat) (s : State) (q : Port) :
    ((takeReference d s).ports.get q).answers = (s.ports.get q).answers ∧
    ((takeReference d s).ports.get q).receive = (s.ports.get q).receive ∧
    ((takeReference d s).ports.get q).enables = (s.ports.get q).enables ∧
    ((takeReference d s).ports.get q).requestsDropped = (s.ports.get q).requestsDropped ∧
    ((takeReference d s).ports.get q).turn = (s.ports.get q).turn ∧
    ((takeReference d s).ports.get q).sending = (s.ports.get q).sending := by
  simp [takeReference]

/-- `takeReference` leaves the outputs and settings of the ports. -/
@[simp] theorem takeReference_outputs (d : Nat) (s : State) :
    (takeReference d s).ports.attention = s.ports.attention ∧
    (takeReference d s).ports.feedAddress = s.ports.feedAddress ∧
    (takeReference d s).ports.courtChannel = s.ports.courtChannel ∧
    (takeReference d s).ports.lastOut = s.ports.lastOut := by
  simp [takeReference]

/-- `takeStep` changes a port by notices alone. -/
@[simp] theorem takeStep_port (e d : Nat) (s : State) (q : Port) :
    ((takeStep e d s).ports.get q).answers = (s.ports.get q).answers ∧
    ((takeStep e d s).ports.get q).receive = (s.ports.get q).receive ∧
    ((takeStep e d s).ports.get q).enables = (s.ports.get q).enables ∧
    ((takeStep e d s).ports.get q).requestsDropped = (s.ports.get q).requestsDropped ∧
    ((takeStep e d s).ports.get q).turn = (s.ports.get q).turn ∧
    ((takeStep e d s).ports.get q).sending = (s.ports.get q).sending := by
  simp [takeStep]

/-- `takeStep` leaves the outputs and settings of the ports. -/
@[simp] theorem takeStep_outputs (e d : Nat) (s : State) :
    (takeStep e d s).ports.attention = s.ports.attention ∧
    (takeStep e d s).ports.feedAddress = s.ports.feedAddress ∧
    (takeStep e d s).ports.courtChannel = s.ports.courtChannel ∧
    (takeStep e d s).ports.lastOut = s.ports.lastOut := by
  simp [takeStep]

/-- `updateReference` changes a port by notices alone. -/
@[simp] theorem updateReference_port (d : Nat) (s : State) (q : Port) :
    ((updateReference d s).ports.get q).answers = (s.ports.get q).answers ∧
    ((updateReference d s).ports.get q).receive = (s.ports.get q).receive ∧
    ((updateReference d s).ports.get q).enables = (s.ports.get q).enables ∧
    ((updateReference d s).ports.get q).requestsDropped = (s.ports.get q).requestsDropped ∧
    ((updateReference d s).ports.get q).turn = (s.ports.get q).turn ∧
    ((updateReference d s).ports.get q).sending = (s.ports.get q).sending := by
  unfold updateReference
  dsimp only
  split
  · simp
  · split
    · simp
    · split <;> simp

/-- `updateReference` leaves the outputs and settings of the ports. -/
@[simp] theorem updateReference_outputs (d : Nat) (s : State) :
    (updateReference d s).ports.attention = s.ports.attention ∧
    (updateReference d s).ports.feedAddress = s.ports.feedAddress ∧
    (updateReference d s).ports.courtChannel = s.ports.courtChannel ∧
    (updateReference d s).ports.lastOut = s.ports.lastOut := by
  unfold updateReference
  dsimp only
  split
  · simp
  · split
    · simp
    · split <;> simp

/-- `updateTake` changes a port by notices alone. -/
@[simp] theorem updateTake_port (w : Nat) (s : State) (q : Port) :
    ((updateTake w s).ports.get q).answers = (s.ports.get q).answers ∧
    ((updateTake w s).ports.get q).receive = (s.ports.get q).receive ∧
    ((updateTake w s).ports.get q).enables = (s.ports.get q).enables ∧
    ((updateTake w s).ports.get q).requestsDropped = (s.ports.get q).requestsDropped ∧
    ((updateTake w s).ports.get q).turn = (s.ports.get q).turn ∧
    ((updateTake w s).ports.get q).sending = (s.ports.get q).sending := by
  unfold updateTake
  dsimp only
  split <;> simp

/-- `updateTake` leaves the outputs and settings of the ports. -/
@[simp] theorem updateTake_outputs (w : Nat) (s : State) :
    (updateTake w s).ports.attention = s.ports.attention ∧
    (updateTake w s).ports.feedAddress = s.ports.feedAddress ∧
    (updateTake w s).ports.courtChannel = s.ports.courtChannel ∧
    (updateTake w s).ports.lastOut = s.ports.lastOut := by
  unfold updateTake
  dsimp only
  split <;> simp

/-- `acceptFrame` changes a port by notices alone. -/
@[simp] theorem acceptFrame_port (f : TimeFrame) (s : State) (q : Port) :
    ((acceptFrame f s).ports.get q).answers = (s.ports.get q).answers ∧
    ((acceptFrame f s).ports.get q).receive = (s.ports.get q).receive ∧
    ((acceptFrame f s).ports.get q).enables = (s.ports.get q).enables ∧
    ((acceptFrame f s).ports.get q).requestsDropped = (s.ports.get q).requestsDropped ∧
    ((acceptFrame f s).ports.get q).turn = (s.ports.get q).turn ∧
    ((acceptFrame f s).ports.get q).sending = (s.ports.get q).sending := by
  simp [acceptFrame]

/-- `acceptFrame` leaves the outputs and settings of the ports. -/
@[simp] theorem acceptFrame_outputs (f : TimeFrame) (s : State) :
    (acceptFrame f s).ports.attention = s.ports.attention ∧
    (acceptFrame f s).ports.feedAddress = s.ports.feedAddress ∧
    (acceptFrame f s).ports.courtChannel = s.ports.courtChannel ∧
    (acceptFrame f s).ports.lastOut = s.ports.lastOut := by
  simp [acceptFrame]

/-- `judgeFrame` changes a port by notices alone. -/
@[simp] theorem judgeFrame_port (b : Bool) (f : TimeFrame) (s : State) (q : Port) :
    ((judgeFrame b f s).ports.get q).answers = (s.ports.get q).answers ∧
    ((judgeFrame b f s).ports.get q).receive = (s.ports.get q).receive ∧
    ((judgeFrame b f s).ports.get q).enables = (s.ports.get q).enables ∧
    ((judgeFrame b f s).ports.get q).requestsDropped = (s.ports.get q).requestsDropped ∧
    ((judgeFrame b f s).ports.get q).turn = (s.ports.get q).turn ∧
    ((judgeFrame b f s).ports.get q).sending = (s.ports.get q).sending := by
  unfold judgeFrame
  dsimp only
  split
  · simp
  · split <;> simp

/-- `judgeFrame` leaves the outputs and settings of the ports. -/
@[simp] theorem judgeFrame_outputs (b : Bool) (f : TimeFrame) (s : State) :
    (judgeFrame b f s).ports.attention = s.ports.attention ∧
    (judgeFrame b f s).ports.feedAddress = s.ports.feedAddress ∧
    (judgeFrame b f s).ports.courtChannel = s.ports.courtChannel ∧
    (judgeFrame b f s).ports.lastOut = s.ports.lastOut := by
  unfold judgeFrame
  dsimp only
  split
  · simp
  · split <;> simp

/-- `completeFrame` changes a port by notices alone. -/
@[simp] theorem completeFrame_port (s : State) (q : Port) :
    ((completeFrame s).ports.get q).answers = (s.ports.get q).answers ∧
    ((completeFrame s).ports.get q).receive = (s.ports.get q).receive ∧
    ((completeFrame s).ports.get q).enables = (s.ports.get q).enables ∧
    ((completeFrame s).ports.get q).requestsDropped = (s.ports.get q).requestsDropped ∧
    ((completeFrame s).ports.get q).turn = (s.ports.get q).turn ∧
    ((completeFrame s).ports.get q).sending = (s.ports.get q).sending := by
  unfold completeFrame
  dsimp only
  split <;> simp

/-- `completeFrame` leaves the outputs and settings of the ports. -/
@[simp] theorem completeFrame_outputs (s : State) :
    (completeFrame s).ports.attention = s.ports.attention ∧
    (completeFrame s).ports.feedAddress = s.ports.feedAddress ∧
    (completeFrame s).ports.courtChannel = s.ports.courtChannel ∧
    (completeFrame s).ports.lastOut = s.ports.lastOut := by
  unfold completeFrame
  dsimp only
  split <;> simp

/-- `frameEvent` changes a port by notices alone. -/
@[simp] theorem frameEvent_port (s : State) (q : Port) :
    ((frameEvent s).ports.get q).answers = (s.ports.get q).answers ∧
    ((frameEvent s).ports.get q).receive = (s.ports.get q).receive ∧
    ((frameEvent s).ports.get q).enables = (s.ports.get q).enables ∧
    ((frameEvent s).ports.get q).requestsDropped = (s.ports.get q).requestsDropped ∧
    ((frameEvent s).ports.get q).turn = (s.ports.get q).turn ∧
    ((frameEvent s).ports.get q).sending = (s.ports.get q).sending := by
  unfold frameEvent
  split <;> simp

/-- `frameEvent` leaves the outputs and settings of the ports. -/
@[simp] theorem frameEvent_outputs (s : State) :
    (frameEvent s).ports.attention = s.ports.attention ∧
    (frameEvent s).ports.feedAddress = s.ports.feedAddress ∧
    (frameEvent s).ports.courtChannel = s.ports.courtChannel ∧ (frameEvent s).ports.lastOut = s.ports.lastOut := by
  unfold frameEvent
  split <;> simp

/-- `cellEvent` changes a port by notices alone. -/
@[simp] theorem cellEvent_port (d : Bool) (s : State) (q : Port) :
    ((cellEvent d s).ports.get q).answers = (s.ports.get q).answers ∧
    ((cellEvent d s).ports.get q).receive = (s.ports.get q).receive ∧
    ((cellEvent d s).ports.get q).enables = (s.ports.get q).enables ∧
    ((cellEvent d s).ports.get q).requestsDropped = (s.ports.get q).requestsDropped ∧
    ((cellEvent d s).ports.get q).turn = (s.ports.get q).turn ∧
    ((cellEvent d s).ports.get q).sending = (s.ports.get q).sending := by
  simp [cellEvent]

/-- `cellEvent` leaves the outputs and settings of the ports. -/
@[simp] theorem cellEvent_outputs (d : Bool) (s : State) :
    (cellEvent d s).ports.attention = s.ports.attention ∧
    (cellEvent d s).ports.feedAddress = s.ports.feedAddress ∧
    (cellEvent d s).ports.courtChannel = s.ports.courtChannel ∧ (cellEvent d s).ports.lastOut = s.ports.lastOut := by
  simp [cellEvent]

/-- `fallSilent` changes a port by notices alone. -/
@[simp] theorem fallSilent_port (s : State) (q : Port) :
    ((fallSilent s).ports.get q).answers = (s.ports.get q).answers ∧
    ((fallSilent s).ports.get q).receive = (s.ports.get q).receive ∧
    ((fallSilent s).ports.get q).enables = (s.ports.get q).enables ∧
    ((fallSilent s).ports.get q).requestsDropped = (s.ports.get q).requestsDropped ∧
    ((fallSilent s).ports.get q).turn = (s.ports.get q).turn ∧
    ((fallSilent s).ports.get q).sending = (s.ports.get q).sending := by
  unfold fallSilent
  dsimp only
  split <;> simp

/-- `fallSilent` leaves the outputs and settings of the ports. -/
@[simp] theorem fallSilent_outputs (s : State) :
    (fallSilent s).ports.attention = s.ports.attention ∧
    (fallSilent s).ports.feedAddress = s.ports.feedAddress ∧
    (fallSilent s).ports.courtChannel = s.ports.courtChannel ∧ (fallSilent s).ports.lastOut = s.ports.lastOut := by
  unfold fallSilent
  dsimp only
  split <;> simp

/-- `silenceEvent` changes a port by notices alone. -/
@[simp] theorem silenceEvent_port (s : State) (q : Port) :
    ((silenceEvent s).ports.get q).answers = (s.ports.get q).answers ∧
    ((silenceEvent s).ports.get q).receive = (s.ports.get q).receive ∧
    ((silenceEvent s).ports.get q).enables = (s.ports.get q).enables ∧
    ((silenceEvent s).ports.get q).requestsDropped = (s.ports.get q).requestsDropped ∧
    ((silenceEvent s).ports.get q).turn = (s.ports.get q).turn ∧
    ((silenceEvent s).ports.get q).sending = (s.ports.get q).sending := by
  unfold silenceEvent
  split <;> simp

/-- `silenceEvent` leaves the outputs and settings of the ports. -/
@[simp] theorem silenceEvent_outputs (s : State) :
    (silenceEvent s).ports.attention = s.ports.attention ∧
    (silenceEvent s).ports.feedAddress = s.ports.feedAddress ∧
    (silenceEvent s).ports.courtChannel = s.ports.courtChannel ∧
    (silenceEvent s).ports.lastOut = s.ports.lastOut := by
  unfold silenceEvent
  split <;> simp

/-- `blockLimitEvent` changes a port by notices alone. -/
@[simp] theorem blockLimitEvent_port (s : State) (q : Port) :
    ((blockLimitEvent s).ports.get q).answers = (s.ports.get q).answers ∧
    ((blockLimitEvent s).ports.get q).receive = (s.ports.get q).receive ∧
    ((blockLimitEvent s).ports.get q).enables = (s.ports.get q).enables ∧
    ((blockLimitEvent s).ports.get q).requestsDropped = (s.ports.get q).requestsDropped ∧
    ((blockLimitEvent s).ports.get q).turn = (s.ports.get q).turn ∧
    ((blockLimitEvent s).ports.get q).sending = (s.ports.get q).sending := by
  unfold blockLimitEvent
  split <;> simp

/-- `blockLimitEvent` leaves the outputs and settings of the ports. -/
@[simp] theorem blockLimitEvent_outputs (s : State) :
    (blockLimitEvent s).ports.attention = s.ports.attention ∧
    (blockLimitEvent s).ports.feedAddress = s.ports.feedAddress ∧
    (blockLimitEvent s).ports.courtChannel = s.ports.courtChannel ∧
    (blockLimitEvent s).ports.lastOut = s.ports.lastOut := by
  unfold blockLimitEvent
  split <;> simp

/-- `coastEvent` changes a port by notices alone. -/
@[simp] theorem coastEvent_port (s : State) (q : Port) :
    ((coastEvent s).ports.get q).answers = (s.ports.get q).answers ∧
    ((coastEvent s).ports.get q).receive = (s.ports.get q).receive ∧
    ((coastEvent s).ports.get q).enables = (s.ports.get q).enables ∧
    ((coastEvent s).ports.get q).requestsDropped = (s.ports.get q).requestsDropped ∧
    ((coastEvent s).ports.get q).turn = (s.ports.get q).turn ∧
    ((coastEvent s).ports.get q).sending = (s.ports.get q).sending := by
  unfold coastEvent
  split <;> simp

/-- `coastEvent` leaves the outputs and settings of the ports. -/
@[simp] theorem coastEvent_outputs (s : State) :
    (coastEvent s).ports.attention = s.ports.attention ∧
    (coastEvent s).ports.feedAddress = s.ports.feedAddress ∧
    (coastEvent s).ports.courtChannel = s.ports.courtChannel ∧ (coastEvent s).ports.lastOut = s.ports.lastOut := by
  unfold coastEvent
  split <;> simp

/-- `judgeSettings` changes a port by notices alone. -/
@[simp] theorem judgeSettings_port (old : TimeFollower) (s : State) (q : Port) :
    ((judgeSettings old s).ports.get q).answers = (s.ports.get q).answers ∧
    ((judgeSettings old s).ports.get q).receive = (s.ports.get q).receive ∧
    ((judgeSettings old s).ports.get q).enables = (s.ports.get q).enables ∧
    ((judgeSettings old s).ports.get q).requestsDropped = (s.ports.get q).requestsDropped ∧
    ((judgeSettings old s).ports.get q).turn = (s.ports.get q).turn ∧
    ((judgeSettings old s).ports.get q).sending = (s.ports.get q).sending := by
  unfold judgeSettings
  split
  · simp
  · split <;> simp

/-- `judgeSettings` leaves the outputs and settings of the ports. -/
@[simp] theorem judgeSettings_outputs (old : TimeFollower) (s : State) :
    (judgeSettings old s).ports.attention = s.ports.attention ∧
    (judgeSettings old s).ports.feedAddress = s.ports.feedAddress ∧
    (judgeSettings old s).ports.courtChannel = s.ports.courtChannel ∧
    (judgeSettings old s).ports.lastOut = s.ports.lastOut := by
  unfold judgeSettings
  split
  · simp
  · split <;> simp

/-! ### The Dictionary Store -/

/-- `changeLayer` changes a port by notices alone. -/
@[simp] theorem changeLayer_port (d : Dictionary) (s : State) (q : Port) :
    ((changeLayer d s).ports.get q).answers = (s.ports.get q).answers ∧
    ((changeLayer d s).ports.get q).receive = (s.ports.get q).receive ∧
    ((changeLayer d s).ports.get q).enables = (s.ports.get q).enables ∧
    ((changeLayer d s).ports.get q).requestsDropped = (s.ports.get q).requestsDropped ∧
    ((changeLayer d s).ports.get q).turn = (s.ports.get q).turn ∧
    ((changeLayer d s).ports.get q).sending = (s.ports.get q).sending := by
  simp [changeLayer]

/-- `changeLayer` leaves the outputs and settings of the ports. -/
@[simp] theorem changeLayer_outputs (d : Dictionary) (s : State) :
    (changeLayer d s).ports.attention = s.ports.attention ∧
    (changeLayer d s).ports.feedAddress = s.ports.feedAddress ∧
    (changeLayer d s).ports.courtChannel = s.ports.courtChannel ∧
    (changeLayer d s).ports.lastOut = s.ports.lastOut := by
  simp [changeLayer]

/-- `endLoad` changes a port by notices alone. -/
@[simp] theorem endLoad_port (l : LayerState) (r : CheckResult) (h : Option ImageHeader) (s : State) (q : Port) :
    ((endLoad l r h s).ports.get q).answers = (s.ports.get q).answers ∧
    ((endLoad l r h s).ports.get q).receive = (s.ports.get q).receive ∧
    ((endLoad l r h s).ports.get q).enables = (s.ports.get q).enables ∧
    ((endLoad l r h s).ports.get q).requestsDropped = (s.ports.get q).requestsDropped ∧
    ((endLoad l r h s).ports.get q).turn = (s.ports.get q).turn ∧
    ((endLoad l r h s).ports.get q).sending = (s.ports.get q).sending := by
  simp [endLoad]

/-- `endLoad` leaves the outputs and settings of the ports. -/
@[simp] theorem endLoad_outputs (l : LayerState) (r : CheckResult) (h : Option ImageHeader) (s : State) :
    (endLoad l r h s).ports.attention = s.ports.attention ∧
    (endLoad l r h s).ports.feedAddress = s.ports.feedAddress ∧
    (endLoad l r h s).ports.courtChannel = s.ports.courtChannel ∧
    (endLoad l r h s).ports.lastOut = s.ports.lastOut := by
  simp [endLoad]

/-- `inactivityEvent` changes a port by notices alone. -/
@[simp] theorem inactivityEvent_port (s : State) (q : Port) :
    ((inactivityEvent s).ports.get q).answers = (s.ports.get q).answers ∧
    ((inactivityEvent s).ports.get q).receive = (s.ports.get q).receive ∧
    ((inactivityEvent s).ports.get q).enables = (s.ports.get q).enables ∧
    ((inactivityEvent s).ports.get q).requestsDropped = (s.ports.get q).requestsDropped ∧
    ((inactivityEvent s).ports.get q).turn = (s.ports.get q).turn ∧
    ((inactivityEvent s).ports.get q).sending = (s.ports.get q).sending := by
  unfold inactivityEvent
  split <;> simp

/-- `inactivityEvent` leaves the outputs and settings of the ports. -/
@[simp] theorem inactivityEvent_outputs (s : State) :
    (inactivityEvent s).ports.attention = s.ports.attention ∧
    (inactivityEvent s).ports.feedAddress = s.ports.feedAddress ∧
    (inactivityEvent s).ports.courtChannel = s.ports.courtChannel ∧
    (inactivityEvent s).ports.lastOut = s.ports.lastOut := by
  unfold inactivityEvent
  split <;> simp

/-- `completeCheck` changes a port by notices alone. -/
@[simp] theorem completeCheck_port (r : CheckResult) (s : State) (q : Port) :
    ((completeCheck r s).ports.get q).answers = (s.ports.get q).answers ∧
    ((completeCheck r s).ports.get q).receive = (s.ports.get q).receive ∧
    ((completeCheck r s).ports.get q).enables = (s.ports.get q).enables ∧
    ((completeCheck r s).ports.get q).requestsDropped = (s.ports.get q).requestsDropped ∧
    ((completeCheck r s).ports.get q).turn = (s.ports.get q).turn ∧
    ((completeCheck r s).ports.get q).sending = (s.ports.get q).sending := by
  unfold completeCheck
  split <;> simp

/-- `completeCheck` leaves the outputs and settings of the ports. -/
@[simp] theorem completeCheck_outputs (r : CheckResult) (s : State) :
    (completeCheck r s).ports.attention = s.ports.attention ∧
    (completeCheck r s).ports.feedAddress = s.ports.feedAddress ∧
    (completeCheck r s).ports.courtChannel = s.ports.courtChannel ∧
    (completeCheck r s).ports.lastOut = s.ports.lastOut := by
  unfold completeCheck
  split <;> simp

/-- `checkEvent` changes a port by notices alone. -/
@[simp] theorem checkEvent_port (s : State) (q : Port) :
    ((checkEvent s).ports.get q).answers = (s.ports.get q).answers ∧
    ((checkEvent s).ports.get q).receive = (s.ports.get q).receive ∧
    ((checkEvent s).ports.get q).enables = (s.ports.get q).enables ∧
    ((checkEvent s).ports.get q).requestsDropped = (s.ports.get q).requestsDropped ∧
    ((checkEvent s).ports.get q).turn = (s.ports.get q).turn ∧
    ((checkEvent s).ports.get q).sending = (s.ports.get q).sending := by
  unfold checkEvent
  split <;> simp

/-- `checkEvent` leaves the outputs and settings of the ports. -/
@[simp] theorem checkEvent_outputs (s : State) :
    (checkEvent s).ports.attention = s.ports.attention ∧
    (checkEvent s).ports.feedAddress = s.ports.feedAddress ∧
    (checkEvent s).ports.courtChannel = s.ports.courtChannel ∧ (checkEvent s).ports.lastOut = s.ports.lastOut := by
  unfold checkEvent
  split <;> simp

/-! ### Counters and transmitters -/

/-- `snapshot` changes a port by notices alone. -/
@[simp] theorem snapshot_port (c : SnapCause) (s : State) (q : Port) :
    ((snapshot c s).ports.get q).answers = (s.ports.get q).answers ∧
    ((snapshot c s).ports.get q).receive = (s.ports.get q).receive ∧
    ((snapshot c s).ports.get q).enables = (s.ports.get q).enables ∧
    ((snapshot c s).ports.get q).requestsDropped = (s.ports.get q).requestsDropped ∧
    ((snapshot c s).ports.get q).turn = (s.ports.get q).turn ∧
    ((snapshot c s).ports.get q).sending = (s.ports.get q).sending := by
  simp [snapshot]

/-- `snapshot` leaves the outputs and settings of the ports. -/
@[simp] theorem snapshot_outputs (c : SnapCause) (s : State) :
    (snapshot c s).ports.attention = s.ports.attention ∧
    (snapshot c s).ports.feedAddress = s.ports.feedAddress ∧
    (snapshot c s).ports.courtChannel = s.ports.courtChannel ∧ (snapshot c s).ports.lastOut = s.ports.lastOut := by
  simp [snapshot]

/-- `intervalEvent` changes a port by notices alone. -/
@[simp] theorem intervalEvent_port (s : State) (q : Port) :
    ((intervalEvent s).ports.get q).answers = (s.ports.get q).answers ∧
    ((intervalEvent s).ports.get q).receive = (s.ports.get q).receive ∧
    ((intervalEvent s).ports.get q).enables = (s.ports.get q).enables ∧
    ((intervalEvent s).ports.get q).requestsDropped = (s.ports.get q).requestsDropped ∧
    ((intervalEvent s).ports.get q).turn = (s.ports.get q).turn ∧
    ((intervalEvent s).ports.get q).sending = (s.ports.get q).sending := by
  unfold intervalEvent
  split <;> simp

/-- `intervalEvent` leaves the outputs and settings of the ports. -/
@[simp] theorem intervalEvent_outputs (s : State) :
    (intervalEvent s).ports.attention = s.ports.attention ∧
    (intervalEvent s).ports.feedAddress = s.ports.feedAddress ∧
    (intervalEvent s).ports.courtChannel = s.ports.courtChannel ∧
    (intervalEvent s).ports.lastOut = s.ports.lastOut := by
  unfold intervalEvent
  split <;> simp

/-- `setAuto` changes a port by notices alone. -/
@[simp] theorem setAuto_port (b : Bool) (s : State) (q : Port) :
    ((setAuto b s).ports.get q).answers = (s.ports.get q).answers ∧
    ((setAuto b s).ports.get q).receive = (s.ports.get q).receive ∧
    ((setAuto b s).ports.get q).enables = (s.ports.get q).enables ∧
    ((setAuto b s).ports.get q).requestsDropped = (s.ports.get q).requestsDropped ∧
    ((setAuto b s).ports.get q).turn = (s.ports.get q).turn ∧
    ((setAuto b s).ports.get q).sending = (s.ports.get q).sending := by
  unfold setAuto
  dsimp only
  split <;> simp

/-- `setAuto` leaves the outputs and settings of the ports. -/
@[simp] theorem setAuto_outputs (b : Bool) (s : State) :
    (setAuto b s).ports.attention = s.ports.attention ∧ (setAuto b s).ports.feedAddress = s.ports.feedAddress ∧
    (setAuto b s).ports.courtChannel = s.ports.courtChannel ∧ (setAuto b s).ports.lastOut = s.ports.lastOut := by
  unfold setAuto
  dsimp only
  split <;> simp

/-- `changeView` changes a port by notices alone. -/
@[simp] theorem changeView_port (port : Port) (m : Option ViewMode) (b : Option Bool) (s : State) (q : Port) :
    ((changeView port m b s).ports.get q).answers = (s.ports.get q).answers ∧
    ((changeView port m b s).ports.get q).receive = (s.ports.get q).receive ∧
    ((changeView port m b s).ports.get q).enables = (s.ports.get q).enables ∧
    ((changeView port m b s).ports.get q).requestsDropped = (s.ports.get q).requestsDropped ∧
    ((changeView port m b s).ports.get q).turn = (s.ports.get q).turn ∧
    ((changeView port m b s).ports.get q).sending = (s.ports.get q).sending := by
  unfold changeView
  cases b <;> cases m <;> simp

/-- `changeView` leaves the outputs and settings of the ports. -/
@[simp] theorem changeView_outputs (port : Port) (m : Option ViewMode) (b : Option Bool) (s : State) :
    (changeView port m b s).ports.attention = s.ports.attention ∧
    (changeView port m b s).ports.feedAddress = s.ports.feedAddress ∧
    (changeView port m b s).ports.courtChannel = s.ports.courtChannel ∧
    (changeView port m b s).ports.lastOut = s.ports.lastOut := by
  unfold changeView
  cases b <;> cases m <;> simp

end Sys2Proof.Machine
end

