-- ==== Sys2Proof/Laws/Owners.lean ====
section
/-! SUPPORT. For each request's owner: the blocks it leaves unchanged, and that it leaves every answer
queue as it is, its own answer being added by the port (R171). -/

namespace Sys2Proof.Machine

@[simp] theorem lineSetOwner_answers (n : Nat) (f : LineFunction) (k a b : Option Nat) (s : State) (q : Port) :
    ((lineSetOwner n f k a b s).1.ports.get q).answers = (s.ports.get q).answers := by
  unfold lineSetOwner
  split <;> simp

/-- What the owner leaves unchanged. -/
@[simp] theorem lineSetOwner_frame (n : Nat) (f : LineFunction) (k a b : Option Nat) (s : State) :
    ((lineSetOwner n f k a b s).1).time = s.time ∧ ((lineSetOwner n f k a b s).1).dict = s.dict ∧
    ((lineSetOwner n f k a b s).1).trans = s.trans ∧ ((lineSetOwner n f k a b s).1).pending = s.pending := by
  unfold lineSetOwner
  split <;> simp

@[simp] theorem lineToggleOwner_answers (l : BitVec 32) (s : State) (q : Port) :
    ((lineToggleOwner l s).1.ports.get q).answers = (s.ports.get q).answers := by
  simp [lineToggleOwner]

/-- What the owner leaves unchanged. -/
@[simp] theorem lineToggleOwner_frame (l : BitVec 32) (s : State) :
    ((lineToggleOwner l s).1).time = s.time ∧ ((lineToggleOwner l s).1).dict = s.dict ∧
    ((lineToggleOwner l s).1).trans = s.trans ∧ ((lineToggleOwner l s).1).pending = s.pending := by
  simp [lineToggleOwner]

@[simp] theorem captureSetOwner_answers (a b c : Option Nat) (s : State) (q : Port) :
    ((captureSetOwner a b c s).1.ports.get q).answers = (s.ports.get q).answers := by
  simp [captureSetOwner]

/-- What the owner leaves unchanged. -/
@[simp] theorem captureSetOwner_frame (a b c : Option Nat) (s : State) :
    ((captureSetOwner a b c s).1).log = s.log ∧ ((captureSetOwner a b c s).1).time = s.time ∧
    ((captureSetOwner a b c s).1).dict = s.dict ∧ ((captureSetOwner a b c s).1).trans = s.trans ∧
    ((captureSetOwner a b c s).1).journal = s.journal ∧ ((captureSetOwner a b c s).1).holds = s.holds ∧
    ((captureSetOwner a b c s).1).power = s.power ∧ ((captureSetOwner a b c s).1).wake = s.wake ∧
    ((captureSetOwner a b c s).1).counters = s.counters ∧ ((captureSetOwner a b c s).1).ports = s.ports ∧
    ((captureSetOwner a b c s).1).pending = s.pending := by
  simp [captureSetOwner]

@[simp] theorem jobOpenOwner_answers (j : Nat) (k : Bool) (s : State) (q : Port) :
    ((jobOpenOwner j k s).1.ports.get q).answers = (s.ports.get q).answers := by
  unfold jobOpenOwner
  split
  · simp
  · split
    · simp
    · split <;> simp [appendJob, emptyJobTable]

/-- What the owner leaves unchanged. -/
@[simp] theorem jobOpenOwner_frame (j : Nat) (k : Bool) (s : State) :
    ((jobOpenOwner j k s).1).capture = s.capture ∧ ((jobOpenOwner j k s).1).time = s.time ∧
    ((jobOpenOwner j k s).1).trans = s.trans ∧ ((jobOpenOwner j k s).1).journal = s.journal ∧
    ((jobOpenOwner j k s).1).holds = s.holds ∧ ((jobOpenOwner j k s).1).power = s.power ∧
    ((jobOpenOwner j k s).1).wake = s.wake ∧ ((jobOpenOwner j k s).1).pending = s.pending := by
  unfold jobOpenOwner
  split
  · simp
  · split
    · simp
    · split <;> simp [appendJob, emptyJobTable]

@[simp] theorem jobCloseOwner_answers (s : State) (q : Port) :
    ((jobCloseOwner s).1.ports.get q).answers = (s.ports.get q).answers := by
  unfold jobCloseOwner
  split <;> simp [appendJob]

/-- What the owner leaves unchanged. -/
@[simp] theorem jobCloseOwner_frame (s : State) :
    ((jobCloseOwner s).1).capture = s.capture ∧ ((jobCloseOwner s).1).time = s.time ∧
    ((jobCloseOwner s).1).dict = s.dict ∧ ((jobCloseOwner s).1).trans = s.trans ∧
    ((jobCloseOwner s).1).journal = s.journal ∧ ((jobCloseOwner s).1).holds = s.holds ∧
    ((jobCloseOwner s).1).power = s.power ∧ ((jobCloseOwner s).1).wake = s.wake ∧
    ((jobCloseOwner s).1).pending = s.pending := by
  unfold jobCloseOwner
  split <;> simp [appendJob]

@[simp] theorem strokesOnOwner_answers (port : Port) (a : StartPoint) (x : Option Nat) (s : State) (q : Port) :
    ((strokesOnOwner port a x s).1.ports.get q).answers = (s.ports.get q).answers := by
  unfold strokesOnOwner
  split <;> simp

/-- What the owner leaves unchanged. -/
@[simp] theorem strokesOnOwner_frame (port : Port) (a : StartPoint) (x : Option Nat) (s : State) :
    ((strokesOnOwner port a x s).1).capture = s.capture ∧ ((strokesOnOwner port a x s).1).time = s.time ∧
    ((strokesOnOwner port a x s).1).dict = s.dict ∧ ((strokesOnOwner port a x s).1).trans = s.trans ∧
    ((strokesOnOwner port a x s).1).journal = s.journal ∧ ((strokesOnOwner port a x s).1).holds = s.holds ∧
    ((strokesOnOwner port a x s).1).power = s.power ∧ ((strokesOnOwner port a x s).1).wake = s.wake ∧
    ((strokesOnOwner port a x s).1).pending = s.pending := by
  unfold strokesOnOwner
  split <;> simp

@[simp] theorem strokesOffOwner_answers (port : Port) (s : State) (q : Port) :
    ((strokesOffOwner port s).1.ports.get q).answers = (s.ports.get q).answers := by
  unfold strokesOffOwner
  split
  · dsimp only
    split <;> simp
  · simp

/-- What the owner leaves unchanged. -/
@[simp] theorem strokesOffOwner_frame (port : Port) (s : State) :
    ((strokesOffOwner port s).1).capture = s.capture ∧ ((strokesOffOwner port s).1).time = s.time ∧
    ((strokesOffOwner port s).1).dict = s.dict ∧ ((strokesOffOwner port s).1).trans = s.trans ∧
    ((strokesOffOwner port s).1).journal = s.journal ∧ ((strokesOffOwner port s).1).holds = s.holds ∧
    ((strokesOffOwner port s).1).power = s.power ∧ ((strokesOffOwner port s).1).wake = s.wake ∧
    ((strokesOffOwner port s).1).counters = s.counters ∧ ((strokesOffOwner port s).1).ports = s.ports ∧
    ((strokesOffOwner port s).1).pending = s.pending := by
  unfold strokesOffOwner
  split
  · dsimp only
    split <;> simp
  · simp

@[simp] theorem timeSetOwner_answers (a b c : Option Nat) (d : Option Bool) (e : Option SyncErrorMode) (s : State) (q : Port) :
    ((timeSetOwner a b c d e s).1.ports.get q).answers = (s.ports.get q).answers := by
  unfold timeSetOwner
  split <;> simp

/-- What the owner leaves unchanged. -/
@[simp] theorem timeSetOwner_frame (a b c : Option Nat) (d : Option Bool) (e : Option SyncErrorMode) (s : State) :
    ((timeSetOwner a b c d e s).1).capture = s.capture ∧ ((timeSetOwner a b c d e s).1).log = s.log ∧
    ((timeSetOwner a b c d e s).1).dict = s.dict ∧ ((timeSetOwner a b c d e s).1).trans = s.trans ∧
    ((timeSetOwner a b c d e s).1).journal = s.journal ∧ ((timeSetOwner a b c d e s).1).holds = s.holds ∧
    ((timeSetOwner a b c d e s).1).power = s.power ∧ ((timeSetOwner a b c d e s).1).wake = s.wake ∧
    ((timeSetOwner a b c d e s).1).counters = s.counters ∧ ((timeSetOwner a b c d e s).1).pending = s.pending := by
  unfold timeSetOwner
  split <;> simp

@[simp] theorem loadBeginOwner_answers (port : Port) (n : Nat) (s : State) (q : Port) :
    ((loadBeginOwner port n s).1.ports.get q).answers = (s.ports.get q).answers := by
  unfold loadBeginOwner
  (repeat' split) <;> simp

/-- What the owner leaves unchanged. -/
@[simp] theorem loadBeginOwner_frame (port : Port) (n : Nat) (s : State) :
    ((loadBeginOwner port n s).1).capture = s.capture ∧ ((loadBeginOwner port n s).1).log = s.log ∧
    ((loadBeginOwner port n s).1).time = s.time ∧ ((loadBeginOwner port n s).1).journal = s.journal ∧
    ((loadBeginOwner port n s).1).holds = s.holds ∧ ((loadBeginOwner port n s).1).power = s.power ∧
    ((loadBeginOwner port n s).1).wake = s.wake ∧ ((loadBeginOwner port n s).1).counters = s.counters ∧
    ((loadBeginOwner port n s).1).pending = s.pending := by
  unfold loadBeginOwner
  (repeat' split) <;> simp

@[simp] theorem loadDataOwner_answers (port : Port) (o : Nat) (d : List Byte) (s : State) (q : Port) :
    ((loadDataOwner port o d s).1.ports.get q).answers = (s.ports.get q).answers := by
  unfold loadDataOwner
  split
  · simp
  · (repeat' split) <;> simp

/-- What the owner leaves unchanged. -/
@[simp] theorem loadDataOwner_frame (port : Port) (o : Nat) (d : List Byte) (s : State) :
    ((loadDataOwner port o d s).1).capture = s.capture ∧ ((loadDataOwner port o d s).1).log = s.log ∧
    ((loadDataOwner port o d s).1).time = s.time ∧ ((loadDataOwner port o d s).1).trans = s.trans ∧
    ((loadDataOwner port o d s).1).journal = s.journal ∧ ((loadDataOwner port o d s).1).holds = s.holds ∧
    ((loadDataOwner port o d s).1).power = s.power ∧ ((loadDataOwner port o d s).1).wake = s.wake ∧
    ((loadDataOwner port o d s).1).counters = s.counters ∧ ((loadDataOwner port o d s).1).ports = s.ports ∧
    ((loadDataOwner port o d s).1).pending = s.pending := by
  unfold loadDataOwner
  split
  · simp
  · (repeat' split) <;> simp

@[simp] theorem loadEndOwner_answers (port : Port) (s : State) (q : Port) :
    ((loadEndOwner port s).1.ports.get q).answers = (s.ports.get q).answers := by
  unfold loadEndOwner
  split
  · simp
  · split <;> simp

/-- What the owner leaves unchanged. -/
@[simp] theorem loadEndOwner_frame (port : Port) (s : State) :
    ((loadEndOwner port s).1).capture = s.capture ∧ ((loadEndOwner port s).1).log = s.log ∧
    ((loadEndOwner port s).1).time = s.time ∧ ((loadEndOwner port s).1).trans = s.trans ∧
    ((loadEndOwner port s).1).journal = s.journal ∧ ((loadEndOwner port s).1).holds = s.holds ∧
    ((loadEndOwner port s).1).power = s.power ∧ ((loadEndOwner port s).1).wake = s.wake ∧
    ((loadEndOwner port s).1).counters = s.counters ∧ ((loadEndOwner port s).1).pending = s.pending := by
  unfold loadEndOwner
  split
  · simp
  · split <;> simp

@[simp] theorem loadAbortOwner_answers (port : Port) (s : State) (q : Port) :
    ((loadAbortOwner port s).1.ports.get q).answers = (s.ports.get q).answers := by
  unfold loadAbortOwner
  split <;> simp

/-- What the owner leaves unchanged. -/
@[simp] theorem loadAbortOwner_frame (port : Port) (s : State) :
    ((loadAbortOwner port s).1).capture = s.capture ∧ ((loadAbortOwner port s).1).log = s.log ∧
    ((loadAbortOwner port s).1).time = s.time ∧ ((loadAbortOwner port s).1).power = s.power ∧
    ((loadAbortOwner port s).1).wake = s.wake ∧ ((loadAbortOwner port s).1).pending = s.pending := by
  unfold loadAbortOwner
  split <;> simp

@[simp] theorem defineOwner_answers (k : List Nat) (e : Entry) (r : Nat) (s : State) (q : Port) :
    ((defineOwner k e r s).1.ports.get q).answers = (s.ports.get q).answers := by
  unfold defineOwner
  split
  · split <;> simp
  · simp

/-- What the owner leaves unchanged. -/
@[simp] theorem defineOwner_frame (k : List Nat) (e : Entry) (r : Nat) (s : State) :
    ((defineOwner k e r s).1).capture = s.capture ∧ ((defineOwner k e r s).1).log = s.log ∧
    ((defineOwner k e r s).1).time = s.time ∧ ((defineOwner k e r s).1).power = s.power ∧
    ((defineOwner k e r s).1).wake = s.wake ∧ ((defineOwner k e r s).1).pending = s.pending := by
  unfold defineOwner
  split
  · split <;> simp
  · simp

@[simp] theorem undefineOwner_answers (k : List Nat) (s : State) (q : Port) :
    ((undefineOwner k s).1.ports.get q).answers = (s.ports.get q).answers := by
  unfold undefineOwner
  split <;> simp

/-- What the owner leaves unchanged. -/
@[simp] theorem undefineOwner_frame (k : List Nat) (s : State) :
    ((undefineOwner k s).1).capture = s.capture ∧ ((undefineOwner k s).1).log = s.log ∧
    ((undefineOwner k s).1).time = s.time ∧ ((undefineOwner k s).1).power = s.power ∧
    ((undefineOwner k s).1).wake = s.wake ∧ ((undefineOwner k s).1).pending = s.pending := by
  unfold undefineOwner
  split <;> simp

@[simp] theorem foldSetOwner_answers (r : Nat) (u : Bool) (k : Option Nat) (t : Option Text) (s : State) (q : Port) :
    ((foldSetOwner r u k t s).1.ports.get q).answers = (s.ports.get q).answers := by
  unfold foldSetOwner
  split <;> simp

/-- What the owner leaves unchanged. -/
@[simp] theorem foldSetOwner_frame (r : Nat) (u : Bool) (k : Option Nat) (t : Option Text) (s : State) :
    ((foldSetOwner r u k t s).1).capture = s.capture ∧ ((foldSetOwner r u k t s).1).log = s.log ∧
    ((foldSetOwner r u k t s).1).time = s.time ∧ ((foldSetOwner r u k t s).1).power = s.power ∧
    ((foldSetOwner r u k t s).1).wake = s.wake ∧ ((foldSetOwner r u k t s).1).pending = s.pending := by
  unfold foldSetOwner
  split <;> simp

@[simp] theorem speakerSetOwner_answers (n : Nat) (t : Text) (s : State) (q : Port) :
    ((speakerSetOwner n t s).1.ports.get q).answers = (s.ports.get q).answers := by
  unfold speakerSetOwner
  split <;> simp

/-- What the owner leaves unchanged. -/
@[simp] theorem speakerSetOwner_frame (n : Nat) (t : Text) (s : State) :
    ((speakerSetOwner n t s).1).capture = s.capture ∧ ((speakerSetOwner n t s).1).log = s.log ∧
    ((speakerSetOwner n t s).1).time = s.time ∧ ((speakerSetOwner n t s).1).power = s.power ∧
    ((speakerSetOwner n t s).1).wake = s.wake ∧ ((speakerSetOwner n t s).1).pending = s.pending := by
  unfold speakerSetOwner
  split <;> simp

@[simp] theorem translateSetOwner_answers (d c : Option Nat) (s : State) (q : Port) :
    ((translateSetOwner d c s).1.ports.get q).answers = (s.ports.get q).answers := by
  unfold translateSetOwner
  split <;> simp

/-- What the owner leaves unchanged. -/
@[simp] theorem translateSetOwner_frame (d c : Option Nat) (s : State) :
    ((translateSetOwner d c s).1).capture = s.capture ∧ ((translateSetOwner d c s).1).log = s.log ∧
    ((translateSetOwner d c s).1).time = s.time ∧ ((translateSetOwner d c s).1).dict = s.dict ∧
    ((translateSetOwner d c s).1).journal = s.journal ∧ ((translateSetOwner d c s).1).holds = s.holds ∧
    ((translateSetOwner d c s).1).power = s.power ∧ ((translateSetOwner d c s).1).wake = s.wake ∧
    ((translateSetOwner d c s).1).counters = s.counters ∧ ((translateSetOwner d c s).1).ports = s.ports ∧
    ((translateSetOwner d c s).1).pending = s.pending := by
  unfold translateSetOwner
  split <;> simp

@[simp] theorem repaintOwner_answers (port : Port) (s : State) (q : Port) :
    ((repaintOwner port s).1.ports.get q).answers = (s.ports.get q).answers := by
  unfold repaintOwner
  dsimp only
  split
  · simp
  · split <;> simp

/-- What the owner leaves unchanged. -/
@[simp] theorem repaintOwner_frame (port : Port) (s : State) :
    ((repaintOwner port s).1).capture = s.capture ∧ ((repaintOwner port s).1).log = s.log ∧
    ((repaintOwner port s).1).time = s.time ∧ ((repaintOwner port s).1).dict = s.dict ∧
    ((repaintOwner port s).1).trans = s.trans ∧ ((repaintOwner port s).1).holds = s.holds ∧
    ((repaintOwner port s).1).power = s.power ∧ ((repaintOwner port s).1).wake = s.wake ∧
    ((repaintOwner port s).1).pending = s.pending := by
  unfold repaintOwner
  dsimp only
  split
  · simp
  · split <;> simp

@[simp] theorem viewSetOwner_answers (port : Port) (m : Option ViewMode) (b : Option Bool) (s : State) (q : Port) :
    ((viewSetOwner port m b s).1.ports.get q).answers = (s.ports.get q).answers := by
  simp [viewSetOwner]

/-- What the owner leaves unchanged. -/
@[simp] theorem viewSetOwner_frame (port : Port) (m : Option ViewMode) (b : Option Bool) (s : State) :
    ((viewSetOwner port m b s).1).capture = s.capture ∧ ((viewSetOwner port m b s).1).log = s.log ∧
    ((viewSetOwner port m b s).1).time = s.time ∧ ((viewSetOwner port m b s).1).dict = s.dict ∧
    ((viewSetOwner port m b s).1).trans = s.trans ∧ ((viewSetOwner port m b s).1).holds = s.holds ∧
    ((viewSetOwner port m b s).1).power = s.power ∧ ((viewSetOwner port m b s).1).wake = s.wake ∧
    ((viewSetOwner port m b s).1).pending = s.pending := by
  simp [viewSetOwner]

@[simp] theorem holdOwner_answers (port : Port) (s : State) (q : Port) :
    ((holdOwner port s).1.ports.get q).answers = (s.ports.get q).answers := by
  unfold holdOwner
  split <;> simp

/-- What the owner leaves unchanged. -/
@[simp] theorem holdOwner_frame (port : Port) (s : State) :
    ((holdOwner port s).1).capture = s.capture ∧ ((holdOwner port s).1).log = s.log ∧
    ((holdOwner port s).1).time = s.time ∧ ((holdOwner port s).1).dict = s.dict ∧
    ((holdOwner port s).1).trans = s.trans ∧ ((holdOwner port s).1).power = s.power ∧
    ((holdOwner port s).1).wake = s.wake ∧ ((holdOwner port s).1).pending = s.pending := by
  unfold holdOwner
  split <;> simp

@[simp] theorem unholdOwner_answers (port : Port) (s : State) (q : Port) :
    ((unholdOwner port s).1.ports.get q).answers = (s.ports.get q).answers := by
  unfold unholdOwner
  split <;> simp

/-- What the owner leaves unchanged. -/
@[simp] theorem unholdOwner_frame (port : Port) (s : State) :
    ((unholdOwner port s).1).capture = s.capture ∧ ((unholdOwner port s).1).log = s.log ∧
    ((unholdOwner port s).1).time = s.time ∧ ((unholdOwner port s).1).dict = s.dict ∧
    ((unholdOwner port s).1).trans = s.trans ∧ ((unholdOwner port s).1).power = s.power ∧
    ((unholdOwner port s).1).wake = s.wake ∧ ((unholdOwner port s).1).pending = s.pending := by
  unfold unholdOwner
  split <;> simp

@[simp] theorem holdLimitSetOwner_answers (m : Nat) (s : State) (q : Port) :
    ((holdLimitSetOwner m s).1.ports.get q).answers = (s.ports.get q).answers := by
  simp [holdLimitSetOwner]

/-- What the owner leaves unchanged. -/
@[simp] theorem holdLimitSetOwner_frame (m : Nat) (s : State) :
    ((holdLimitSetOwner m s).1).capture = s.capture ∧ ((holdLimitSetOwner m s).1).log = s.log ∧
    ((holdLimitSetOwner m s).1).time = s.time ∧ ((holdLimitSetOwner m s).1).dict = s.dict ∧
    ((holdLimitSetOwner m s).1).trans = s.trans ∧ ((holdLimitSetOwner m s).1).power = s.power ∧
    ((holdLimitSetOwner m s).1).wake = s.wake ∧ ((holdLimitSetOwner m s).1).pending = s.pending := by
  simp [holdLimitSetOwner]

@[simp] theorem idleSetOwner_answers (m : Nat) (s : State) (q : Port) :
    ((idleSetOwner m s).1.ports.get q).answers = (s.ports.get q).answers := by
  simp [idleSetOwner]

/-- What the owner leaves unchanged. -/
@[simp] theorem idleSetOwner_frame (m : Nat) (s : State) :
    ((idleSetOwner m s).1).capture = s.capture ∧ ((idleSetOwner m s).1).log = s.log ∧
    ((idleSetOwner m s).1).time = s.time ∧ ((idleSetOwner m s).1).dict = s.dict ∧
    ((idleSetOwner m s).1).wake = s.wake ∧ ((idleSetOwner m s).1).pending = s.pending := by
  simp [idleSetOwner]

@[simp] theorem dozeOwner_answers (s : State) (q : Port) :
    ((dozeOwner s).1.ports.get q).answers = (s.ports.get q).answers := by
  simp [dozeOwner]

/-- What the owner leaves unchanged. -/
@[simp] theorem dozeOwner_frame (s : State) :
    ((dozeOwner s).1).capture = s.capture ∧ ((dozeOwner s).1).log = s.log ∧ ((dozeOwner s).1).time = s.time ∧
    ((dozeOwner s).1).dict = s.dict ∧ ((dozeOwner s).1).pending = s.pending := by
  simp [dozeOwner]

@[simp] theorem wakeOwner_answers (port : Port) (s : State) (q : Port) :
    ((wakeOwner port s).1.ports.get q).answers = (s.ports.get q).answers := by
  unfold wakeOwner
  split <;> simp

/-- What the owner leaves unchanged. -/
@[simp] theorem wakeOwner_frame (port : Port) (s : State) :
    ((wakeOwner port s).1).capture = s.capture ∧ ((wakeOwner port s).1).time = s.time ∧
    ((wakeOwner port s).1).dict = s.dict ∧ ((wakeOwner port s).1).journal = s.journal ∧
    ((wakeOwner port s).1).holds = s.holds ∧ ((wakeOwner port s).1).pending = s.pending := by
  unfold wakeOwner
  split <;> simp

@[simp] theorem wakeCausesClearOwner_answers (c : Option Bool) (s : State) (q : Port) :
    ((wakeCausesClearOwner c s).1.ports.get q).answers = (s.ports.get q).answers := by
  simp [wakeCausesClearOwner]

/-- What the owner leaves unchanged. -/
@[simp] theorem wakeCausesClearOwner_frame (c : Option Bool) (s : State) :
    ((wakeCausesClearOwner c s).1).capture = s.capture ∧ ((wakeCausesClearOwner c s).1).log = s.log ∧
    ((wakeCausesClearOwner c s).1).time = s.time ∧ ((wakeCausesClearOwner c s).1).dict = s.dict ∧
    ((wakeCausesClearOwner c s).1).trans = s.trans ∧ ((wakeCausesClearOwner c s).1).journal = s.journal ∧
    ((wakeCausesClearOwner c s).1).holds = s.holds ∧ ((wakeCausesClearOwner c s).1).wake = s.wake ∧
    ((wakeCausesClearOwner c s).1).counters = s.counters ∧ ((wakeCausesClearOwner c s).1).ports = s.ports ∧
    ((wakeCausesClearOwner c s).1).pending = s.pending := by
  simp [wakeCausesClearOwner]

@[simp] theorem wakeSetOwner_answers (c n g : Option Nat) (s : State) (q : Port) :
    ((wakeSetOwner c n g s).1.ports.get q).answers = (s.ports.get q).answers := by
  unfold wakeSetOwner
  split <;> simp

/-- What the owner leaves unchanged. -/
@[simp] theorem wakeSetOwner_frame (c n g : Option Nat) (s : State) :
    ((wakeSetOwner c n g s).1).capture = s.capture ∧ ((wakeSetOwner c n g s).1).log = s.log ∧
    ((wakeSetOwner c n g s).1).time = s.time ∧ ((wakeSetOwner c n g s).1).dict = s.dict ∧
    ((wakeSetOwner c n g s).1).trans = s.trans ∧ ((wakeSetOwner c n g s).1).journal = s.journal ∧
    ((wakeSetOwner c n g s).1).holds = s.holds ∧ ((wakeSetOwner c n g s).1).power = s.power ∧
    ((wakeSetOwner c n g s).1).counters = s.counters ∧ ((wakeSetOwner c n g s).1).ports = s.ports ∧
    ((wakeSetOwner c n g s).1).pending = s.pending := by
  unfold wakeSetOwner
  split <;> simp

@[simp] theorem countersSnapOwner_answers (port : Port) (s : State) (q : Port) :
    ((countersSnapOwner port s).1.ports.get q).answers = (s.ports.get q).answers := by
  simp [countersSnapOwner]

/-- What the owner leaves unchanged. -/
@[simp] theorem countersSnapOwner_frame (port : Port) (s : State) :
    ((countersSnapOwner port s).1).capture = s.capture ∧ ((countersSnapOwner port s).1).log = s.log ∧
    ((countersSnapOwner port s).1).time = s.time ∧ ((countersSnapOwner port s).1).dict = s.dict ∧
    ((countersSnapOwner port s).1).trans = s.trans ∧ ((countersSnapOwner port s).1).journal = s.journal ∧
    ((countersSnapOwner port s).1).holds = s.holds ∧ ((countersSnapOwner port s).1).power = s.power ∧
    ((countersSnapOwner port s).1).wake = s.wake ∧ ((countersSnapOwner port s).1).pending = s.pending := by
  simp [countersSnapOwner]

@[simp] theorem countersAutoOwner_answers (a : Bool) (s : State) (q : Port) :
    ((countersAutoOwner a s).1.ports.get q).answers = (s.ports.get q).answers := by
  simp [countersAutoOwner]

/-- What the owner leaves unchanged. -/
@[simp] theorem countersAutoOwner_frame (a : Bool) (s : State) :
    ((countersAutoOwner a s).1).capture = s.capture ∧ ((countersAutoOwner a s).1).log = s.log ∧
    ((countersAutoOwner a s).1).time = s.time ∧ ((countersAutoOwner a s).1).dict = s.dict ∧
    ((countersAutoOwner a s).1).trans = s.trans ∧ ((countersAutoOwner a s).1).journal = s.journal ∧
    ((countersAutoOwner a s).1).holds = s.holds ∧ ((countersAutoOwner a s).1).power = s.power ∧
    ((countersAutoOwner a s).1).wake = s.wake ∧ ((countersAutoOwner a s).1).pending = s.pending := by
  simp [countersAutoOwner]

@[simp] theorem countersReadOwner_answers (s : State) (q : Port) :
    ((countersReadOwner s).1.ports.get q).answers = (s.ports.get q).answers := by
  simp [countersReadOwner]

/-- What the owner leaves unchanged. -/
@[simp] theorem countersReadOwner_frame (s : State) :
    ((countersReadOwner s).1).capture = s.capture ∧ ((countersReadOwner s).1).log = s.log ∧
    ((countersReadOwner s).1).time = s.time ∧ ((countersReadOwner s).1).dict = s.dict ∧
    ((countersReadOwner s).1).trans = s.trans ∧ ((countersReadOwner s).1).journal = s.journal ∧
    ((countersReadOwner s).1).holds = s.holds ∧ ((countersReadOwner s).1).power = s.power ∧
    ((countersReadOwner s).1).wake = s.wake ∧ ((countersReadOwner s).1).counters = s.counters ∧
    ((countersReadOwner s).1).ports = s.ports ∧ ((countersReadOwner s).1).pending = s.pending := by
  simp [countersReadOwner]

@[simp] theorem noticesSetOwner_answers (port : Port) (k : NoticeSet) (s : State) (q : Port) :
    ((noticesSetOwner port k s).1.ports.get q).answers = (s.ports.get q).answers := by
  cases port <;> cases q <;> simp [noticesSetOwner, Ports.get, Ports.set]

/-- What the owner leaves unchanged. -/
@[simp] theorem noticesSetOwner_frame (port : Port) (k : NoticeSet) (s : State) :
    ((noticesSetOwner port k s).1).capture = s.capture ∧ ((noticesSetOwner port k s).1).log = s.log ∧
    ((noticesSetOwner port k s).1).time = s.time ∧ ((noticesSetOwner port k s).1).dict = s.dict ∧
    ((noticesSetOwner port k s).1).trans = s.trans ∧ ((noticesSetOwner port k s).1).journal = s.journal ∧
    ((noticesSetOwner port k s).1).holds = s.holds ∧ ((noticesSetOwner port k s).1).power = s.power ∧
    ((noticesSetOwner port k s).1).wake = s.wake ∧ ((noticesSetOwner port k s).1).counters = s.counters ∧
    ((noticesSetOwner port k s).1).pending = s.pending := by
  simp [noticesSetOwner]

@[simp] theorem feedSetOwner_answers (a c : Option Nat) (s : State) (q : Port) :
    ((feedSetOwner a c s).1.ports.get q).answers = (s.ports.get q).answers := by
  unfold feedSetOwner
  split
  · cases q <;> simp [Ports.get]
  · simp

/-- What the owner leaves unchanged. -/
@[simp] theorem feedSetOwner_frame (a c : Option Nat) (s : State) :
    ((feedSetOwner a c s).1).capture = s.capture ∧ ((feedSetOwner a c s).1).log = s.log ∧
    ((feedSetOwner a c s).1).time = s.time ∧ ((feedSetOwner a c s).1).dict = s.dict ∧
    ((feedSetOwner a c s).1).trans = s.trans ∧ ((feedSetOwner a c s).1).journal = s.journal ∧
    ((feedSetOwner a c s).1).holds = s.holds ∧ ((feedSetOwner a c s).1).power = s.power ∧
    ((feedSetOwner a c s).1).wake = s.wake ∧ ((feedSetOwner a c s).1).counters = s.counters ∧
    ((feedSetOwner a c s).1).pending = s.pending := by
  unfold feedSetOwner
  split
  · simp
  · simp

@[simp] theorem statusOwner_answers (port : Port) (s : State) (q : Port) :
    ((statusOwner port s).1.ports.get q).answers = (s.ports.get q).answers := by
  cases port <;> cases q <;> simp [statusOwner, Ports.get, Ports.set]

/-- What the owner leaves unchanged. -/
@[simp] theorem statusOwner_frame (port : Port) (s : State) :
    ((statusOwner port s).1).capture = s.capture ∧ ((statusOwner port s).1).log = s.log ∧
    ((statusOwner port s).1).time = s.time ∧ ((statusOwner port s).1).dict = s.dict ∧
    ((statusOwner port s).1).trans = s.trans ∧ ((statusOwner port s).1).journal = s.journal ∧
    ((statusOwner port s).1).holds = s.holds ∧ ((statusOwner port s).1).power = s.power ∧
    ((statusOwner port s).1).wake = s.wake ∧ ((statusOwner port s).1).counters = s.counters ∧
    ((statusOwner port s).1).pending = s.pending := by
  simp [statusOwner]

end Sys2Proof.Machine
end

