-- ==== Sys2Proof/Laws/Transmit.lean ====
section
/-! SUPPORT. What the arbiter can choose and what beginning a message changes (R174), said once. -/

namespace Sys2Proof.Machine

/-- A STROKE message begun: the reader of the port is on with a record under its cursor, which it passes
(R32). -/
theorem readerChoice_cases {port : Port} {s t : State} {m : Byte × List Byte}
    (h : readerChoice port s = some (m, t)) :
    ∃ name r, ownReader port = some name ∧ readerOffer s.log name = some r ∧
      m = (130, strokeBody (s.log.reader name).lost r) ∧
      t = setTurn port .listener (s.setReader name (passRecord (s.log.reader name))) := by
  unfold readerChoice at h
  split at h
  · cases h
  · rename_i name hname
    split at h
    · cases h
    · rename_i r hr
      cases h
      exact ⟨name, r, hname, hr, rfl, rfl⟩

/-- A listener's message begun (R122, R123, R128). -/
theorem listenerChoice_cases {port : Port} {s t : State} {m : Byte × List Byte}
    (h : listenerChoice port s = some (m, t)) :
    ∃ l, listenerOffer s.journal (s.listener port) = some (m, l) ∧
      t = setTurn port .stroke (s.setListener port l) := by
  unfold listenerChoice at h
  split at h
  · cases h
  · rename_i m' l hl
    cases h
    exact ⟨l, hl, rfl⟩

/-- A stream message chosen is the reader's or the listener's (R174). -/
theorem streamChoice_cases {port : Port} {s t : State} {m : Byte × List Byte}
    (h : streamChoice port s = some (m, t)) :
    readerChoice port s = some (m, t) ∨ listenerChoice port s = some (m, t) := by
  unfold streamChoice at h
  split at h
  · cases hr : readerChoice port s with
    | none => rw [hr] at h; exact .inr h
    | some x => rw [hr] at h; cases h; exact .inl rfl
  · cases hl : listenerChoice port s with
    | none => rw [hl] at h; exact .inl h
    | some x => rw [hl] at h; cases h; exact .inr rfl

/-- The arbiter chooses an answer, a notice or a stream message, in this order (R174). -/
theorem chooseMessage_cases {port : Port} {s t : State} {m : Byte × List Byte}
    (h : chooseMessage port s = some (m, t)) :
    (∃ r rest, (s.port port).answers = r :: rest ∧ m = replyMessage r ∧ t = setAnswers port rest s) ∨
    ((s.port port).answers = [] ∧
      ∃ n rest, (s.port port).notices = n :: rest ∧ m = noticeMessage n ∧ t = setNotices port rest s) ∨
    ((s.port port).answers = [] ∧ (s.port port).notices = [] ∧
      (readerChoice port s = some (m, t) ∨ listenerChoice port s = some (m, t))) := by
  unfold chooseMessage at h
  split at h
  · rename_i ha
    cases h
    exact .inl ⟨_, _, ha, rfl, rfl⟩
  · rename_i ha hn
    cases h
    exact .inr (.inl ⟨ha, _, _, hn, rfl, rfl⟩)
  · rename_i ha hn
    exact .inr (.inr ⟨ha, hn, streamChoice_cases h⟩)

/-- A transmitter that is busy or has nothing to choose is left as it is; otherwise the message chosen is
begun (R174). -/
theorem beginMessage_cases (port : Port) (s : State) :
    beginMessage port s = s ∨
    ∃ m t, (s.port port).sending = none ∧ chooseMessage port s = some (m, t) ∧
      beginMessage port s
        = setSending port (some { frame := buildFrame m.1 (portBody port s m.2), sent := 0 }) t := by
  unfold beginMessage
  split
  · rename_i kind body t hs hc
    exact .inr ⟨(kind, body), t, hs, hc, rfl⟩
  · exact .inl rfl

/-- What a choice leaves unchanged. -/
theorem chooseMessage_frame {port : Port} {s t : State} {m : Byte × List Byte}
    (h : chooseMessage port s = some (m, t)) :
    t.capture = s.capture ∧ t.time = s.time ∧ t.dict = s.dict ∧ t.trans = s.trans ∧ t.holds = s.holds ∧
    t.power = s.power ∧ t.wake = s.wake ∧ t.counters = s.counters ∧ t.pending = s.pending := by
  rcases chooseMessage_cases h with ⟨_, _, _, _, rfl⟩ | ⟨_, _, _, _, _, rfl⟩ | ⟨_, _, hr | hl⟩
  · simp
  · simp
  · obtain ⟨_, _, _, _, _, rfl⟩ := readerChoice_cases hr
    simp
  · obtain ⟨_, _, rfl⟩ := listenerChoice_cases hl
    simp

/-- What beginning a message leaves unchanged. -/
@[simp] theorem beginMessage_frame (port : Port) (s : State) :
    (beginMessage port s).capture = s.capture ∧ (beginMessage port s).time = s.time ∧
    (beginMessage port s).dict = s.dict ∧ (beginMessage port s).trans = s.trans ∧
    (beginMessage port s).holds = s.holds ∧ (beginMessage port s).power = s.power ∧
    (beginMessage port s).wake = s.wake ∧ (beginMessage port s).counters = s.counters ∧
    (beginMessage port s).pending = s.pending := by
  rcases beginMessage_cases port s with h | ⟨m, t, _, hc, h⟩
  · rw [h]
    simp
  · rw [h]
    simpa using chooseMessage_frame hc

/-- What the end of a frame leaves unchanged. -/
@[simp] theorem endFrame_frame (port : Port) (s : State) :
    (endFrame port s).capture = s.capture ∧ (endFrame port s).time = s.time ∧
    (endFrame port s).dict = s.dict ∧ (endFrame port s).trans = s.trans ∧
    (endFrame port s).holds = s.holds ∧ (endFrame port s).power = s.power ∧
    (endFrame port s).wake = s.wake ∧ (endFrame port s).counters = s.counters ∧
    (endFrame port s).pending = s.pending := by
  cases port <;> simp [endFrame]

/-- What the sending side of an exchange leaves unchanged. -/
@[simp] theorem exchange_frame (s : State) :
    (exchange s).capture = s.capture ∧ (exchange s).time = s.time ∧ (exchange s).dict = s.dict ∧
    (exchange s).trans = s.trans ∧ (exchange s).holds = s.holds ∧ (exchange s).power = s.power ∧
    (exchange s).wake = s.wake ∧ (exchange s).counters = s.counters ∧ (exchange s).pending = s.pending := by
  simp [exchange]

end Sys2Proof.Machine
end

