-- ==== Sys2Proof/Laws/Keeps.lean ====
section
/-! SUPPORT. The induction over commands, made once: a property that every event, every request's owner
and every act of the ports keeps is kept by every step. -/

namespace Sys2Proof.Machine

/-- What a property must keep for every step to keep it. -/
structure Keeps (P : State → Prop) : Prop where
  reset : ∀ s, P s → P { State.reset with pending := s.pending }
  queue : ∀ s l, P s → P { s with pending := l }
  tick : ∀ s, P s → P (passTick s)
  doze : ∀ s, P s → P (dozeIfReady s)
  reach : ∀ s, P s → P (reachAll s)
  attention : ∀ s, P s → P (driveAttention s)
  push : ∀ port r s, (s.ports.get port).answers.length < Config.answerCapacity → P s → P (pushReply port r s)
  drop : ∀ port s, P s → P (dropRequest port s)
  hear : ∀ port r s, (ReceiveOk (s.ports.get port).receive → ReceiveOk r) → P s → P (setReceive port r s)
  bad : ∀ s, P s → P (countOne .badFrames s)
  begin : ∀ port s, P s → P (beginMessage port s)
  free : ∀ port s, P s → P (setSending port none s)
  exchange : ∀ s, P s → P (Machine.exchange s)
  scan : ∀ d s, P s → P (scanEvent d s)
  strokeLimit : ∀ s, P s → P (strokeLimitEvent s)
  cell : ∀ b s, P s → P (cellEvent b s)
  frame : ∀ s, P s → P (frameEvent s)
  silence : ∀ s, P s → P (silenceEvent s)
  blockLimit : ∀ s, P s → P (blockLimitEvent s)
  coast : ∀ s, P s → P (coastEvent s)
  rebase : ∀ s, P s → P (rebaseEvent s)
  inactivity : ∀ s, P s → P (inactivityEvent s)
  check : ∀ s, P s → P (checkEvent s)
  take : ∀ s, P s → P (takeEvent s)
  settle : ∀ s, P s → P (settleEvent s)
  holdLimit : ∀ id s, P s → P (holdLimitEvent id s)
  idle : ∀ s, P s → P (idleEvent s)
  gap : ∀ s, P s → P (gapEvent s)
  interval : ∀ s, P s → P (intervalEvent s)
  lineSet : ∀ n f k a b s, P s → P (lineSetOwner n f k a b s).1
  lineToggle : ∀ l s, P s → P (lineToggleOwner l s).1
  captureSet : ∀ a b c s, P s → P (captureSetOwner a b c s).1
  jobOpen : ∀ j k s, P s → P (jobOpenOwner j k s).1
  jobClose : ∀ s, P s → P (jobCloseOwner s).1
  strokesOn : ∀ port a q s, P s → P (strokesOnOwner port a q s).1
  strokesOff : ∀ port s, P s → P (strokesOffOwner port s).1
  timeSet : ∀ a b c d e s, P s → P (timeSetOwner a b c d e s).1
  loadBegin : ∀ port n s, permitted .loadBegin port = true → P s → P (loadBeginOwner port n s).1
  loadData : ∀ port o d s, P s → P (loadDataOwner port o d s).1
  loadEnd : ∀ port s, P s → P (loadEndOwner port s).1
  loadAbort : ∀ port s, P s → P (loadAbortOwner port s).1
  define : ∀ k e r s, P s → P (defineOwner k e r s).1
  undefine : ∀ k s, P s → P (undefineOwner k s).1
  foldSet : ∀ r u k t s, P s → P (foldSetOwner r u k t s).1
  speakerSet : ∀ n t s, P s → P (speakerSetOwner n t s).1
  translateSet : ∀ d c s, P s → P (translateSetOwner d c s).1
  repaint : ∀ port s, P s → P (repaintOwner port s).1
  viewSet : ∀ port m b s, P s → P (viewSetOwner port m b s).1
  hold : ∀ port s, P s → P (holdOwner port s).1
  unhold : ∀ port s, P s → P (unholdOwner port s).1
  holdLimitSet : ∀ m s, P s → P (holdLimitSetOwner m s).1
  idleSet : ∀ m s, P s → P (idleSetOwner m s).1
  dozeAsked : ∀ s, P s → P (dozeOwner s).1
  wake : ∀ port s, P s → P (wakeOwner port s).1
  causesClear : ∀ c s, P s → P (wakeCausesClearOwner c s).1
  wakeSet : ∀ c n g s, P s → P (wakeSetOwner c n g s).1
  countersSnap : ∀ port s, P s → P (countersSnapOwner port s).1
  countersAuto : ∀ a s, P s → P (countersAutoOwner a s).1
  noticesSet : ∀ port k s, P s → P (noticesSetOwner port k s).1
  feedSet : ∀ a c s, P s → P (feedSetOwner a c s).1
  status : ∀ port s, P s → P (statusOwner port s).1

/-- An answer queue that is not full has room. -/
theorem room_of_not_full {s : State} {port : Port} (h : ¬answersFull s port = true) :
    (s.ports.get port).answers.length < Config.answerCapacity := by
  exact Nat.lt_of_not_le fun hle => h (decide_eq_true hle)

variable {P : State → Prop}

/-- The end of an event keeps what its three parts keep. -/
theorem Keeps.eventEnd (K : Keeps P) {s : State} (h : P s) : P (eventEnd s) :=
  K.attention _ (K.reach _ (K.doze _ h))

/-- A request taken keeps what its owner keeps. -/
theorem Keeps.takeRequest (K : Keeps P) {port : Port} {k : RequestKind} {owner : State → State × Verdict}
    {s : State} (h : P s)
    (hroom : ((owner s).1.ports.get port).answers = (s.ports.get port).answers)
    (ho : permitted k port = true → P s → P (owner s).1) : P (takeRequest port k owner s) := by
  unfold Machine.takeRequest
  apply K.eventEnd
  split
  · exact K.drop _ _ h
  · rename_i hfull
    replace hfull := room_of_not_full hfull
    split
    · rename_i hp
      exact K.push _ _ _ (by simpa [hroom] using hfull) (ho hp h)
    · exact K.push _ _ _ hfull h

/-- A request whose kind names none keeps the property. -/
theorem Keeps.unknownKind (K : Keeps P) (port : Port) (kind : Byte) {s : State} (h : P s) :
    P (unknownKindRequest port kind s) := by
  unfold unknownKindRequest
  apply K.eventEnd
  split
  · exact K.drop _ _ h
  · rename_i hfull
    replace hfull := room_of_not_full hfull
    exact K.push _ _ _ hfull h

/-- A FEED QUERY keeps the property. -/
theorem Keeps.feedQuery (K : Keeps P) (port : Port) (fields : List Byte) {s : State} (h : P s) :
    P (feedQueryRequest port fields s) := by
  unfold feedQueryRequest
  apply K.eventEnd
  split
  · exact K.drop _ _ h
  · rename_i hfull
    replace hfull := room_of_not_full hfull
    split
    · rename_i hp
      have hport : port = .feed := by simpa [permitted] using hp
      subst hport
      unfold answerQuery
      split
      · split
        · exact K.push _ _ _ hfull h
        · exact h
      · exact h
    · exact K.push _ _ _ hfull h

/-- Every request, taken as its command takes it, keeps the property. -/
theorem Keeps.requestOf (K : Keeps P) (i : Instr) {s : State} (h : P s) : P (requestOf i s) := by
  cases i with
  | lineSet port n f k a b => exact K.takeRequest h (by simp) fun _ h => K.lineSet _ _ _ _ _ _ h
  | lineToggle port l => exact K.takeRequest h (by simp) fun _ h => K.lineToggle _ _ h
  | captureSet port a b c => exact K.takeRequest h (by simp) fun _ h => K.captureSet _ _ _ _ h
  | jobOpen port j k => exact K.takeRequest h (by simp) fun _ h => K.jobOpen _ _ _ h
  | jobClose port => exact K.takeRequest h (by simp) fun _ h => K.jobClose _ h
  | strokesOn port a q => exact K.takeRequest h (by simp) fun _ h => K.strokesOn _ _ _ _ h
  | strokesOff port => exact K.takeRequest h (by simp) fun _ h => K.strokesOff _ _ h
  | timeSet port a b c d e => exact K.takeRequest h (by simp) fun _ h => K.timeSet _ _ _ _ _ _ h
  | loadBegin port n => exact K.takeRequest h (by simp) fun hp h => K.loadBegin _ _ _ hp h
  | loadData port o d => exact K.takeRequest h (by simp) fun _ h => K.loadData _ _ _ _ h
  | loadEnd port => exact K.takeRequest h (by simp) fun _ h => K.loadEnd _ _ h
  | loadAbort port => exact K.takeRequest h (by simp) fun _ h => K.loadAbort _ _ h
  | define port k e r => exact K.takeRequest h (by simp) fun _ h => K.define _ _ _ _ h
  | undefine port k => exact K.takeRequest h (by simp) fun _ h => K.undefine _ _ h
  | foldSet port r u k t => exact K.takeRequest h (by simp) fun _ h => K.foldSet _ _ _ _ _ h
  | speakerSet port n t => exact K.takeRequest h (by simp) fun _ h => K.speakerSet _ _ _ h
  | translateSet port d c => exact K.takeRequest h (by simp) fun _ h => K.translateSet _ _ _ h
  | repaint port => exact K.takeRequest h (by simp) fun _ h => K.repaint _ _ h
  | viewSet port m b => exact K.takeRequest h (by simp) fun _ h => K.viewSet _ _ _ _ h
  | hold port => exact K.takeRequest h (by simp) fun _ h => K.hold _ _ h
  | unhold port => exact K.takeRequest h (by simp) fun _ h => K.unhold _ _ h
  | holdLimitSet port m => exact K.takeRequest h (by simp) fun _ h => K.holdLimitSet _ _ h
  | idleSet port m => exact K.takeRequest h (by simp) fun _ h => K.idleSet _ _ h
  | doze port => exact K.takeRequest h (by simp) fun _ h => K.dozeAsked _ h
  | wake port => exact K.takeRequest h (by simp) fun _ h => K.wake _ _ h
  | wakeCausesClear port c => exact K.takeRequest h (by simp) fun _ h => K.causesClear _ _ h
  | wakeSet port c n g => exact K.takeRequest h (by simp) fun _ h => K.wakeSet _ _ _ _ h
  | countersSnap port => exact K.takeRequest h (by simp) fun _ h => K.countersSnap _ _ h
  | countersAuto port a => exact K.takeRequest h (by simp) fun _ h => K.countersAuto _ _ h
  | countersRead port => exact K.takeRequest h (by simp) fun _ h => h
  | noticesSet port k => exact K.takeRequest h (by simp) fun _ h => K.noticesSet _ _ _ h
  | feedSet port a c => exact K.takeRequest h (by simp) fun _ h => K.feedSet _ _ _ h
  | feedQuery port f => exact K.feedQuery port f h
  | status port => exact K.takeRequest h (by simp) fun _ h => K.status _ _ h
  | unknownKind port k => exact K.unknownKind port k h
  | _ => exact h

/-- A good frame keeps the property. -/
theorem Keeps.takeKind (K : Keeps P) (port : Port) (kind : Byte) (body : List Byte) {s : State} (h : P s) :
    P (takeKind port kind body s) := by
  unfold Machine.takeKind
  split
  · exact K.unknownKind _ _ h
  · split
    · exact K.requestOf _ h
    · exact K.takeRequest h rfl fun _ h => h

/-- A good frame on any port keeps the property. -/
theorem Keeps.takeFrame (K : Keeps P) (port : Port) (kind : Byte) (body : List Byte) {s : State} (h : P s) :
    P (takeFrame port kind body s) := by
  cases port with
  | machine => exact K.takeKind _ _ _ h
  | station => exact K.takeKind _ _ _ h
  | feed =>
    show P (takeFeedFrame kind body s)
    unfold takeFeedFrame
    split
    · exact h
    · split
      · exact K.takeKind _ _ _ h
      · split
        · exact K.takeKind _ _ _ h
        · exact h

/-- One byte judged keeps the property. -/
theorem Keeps.judgeByte (K : Keeps P) (port : Port) (b : Byte) {s : State} (h : P s) :
    P (judgeByte port b s).2 := by
  unfold Machine.judgeByte
  split
  · dsimp only
    split
    · exact K.hear _ _ _ (fun _ => trivial) h
    · exact h
  · rename_i hr
    unfold judgeLength
    split
    · exact K.bad _ (K.hear _ _ _ (fun _ => trivial) h)
    · rename_i h0
      split
      · rename_i h251
        have hb : b.toNat ≠ 0 := fun hz => h0 (BitVec.eq_of_toNat_eq (by simpa using hz))
        refine K.hear _ _ _ (fun _ => ?_) h
        simp only [ReceiveOk, List.getD_cons_zero, List.length_cons, List.length_nil]
        omega
      · exact K.hear _ _ _ (fun _ => trivial) h
  · rename_i held hr
    dsimp only
    split
    · rename_i hlt
      refine K.hear _ _ _ (fun hok => ?_) h
      rw [← State.port_eq, hr] at hok
      simp only [ReceiveOk] at hok
      cases held with
      | nil => simp at hok
      | cons x xs =>
        simp only [List.cons_append, List.getD_cons_zero, List.length_cons, List.length_append,
          List.length_nil] at hlt hok
        simp only [ReceiveOk, List.cons_append, List.getD_cons_zero, List.length_cons, List.length_append,
          List.length_nil]
        omega
    · unfold judgeFrameHeld
      dsimp only
      split
      · exact K.takeFrame _ _ _ (K.hear _ _ _ (fun _ => trivial) h)
      · exact K.bad _ (K.hear _ _ _ (fun _ => trivial) h)

/-- Bytes judged keep the property. -/
theorem Keeps.judgeBytes (K : Keeps P) (port : Port) (n : Nat) (l : List Byte) {s : State} (h : P s) :
    P (judgeBytes port n l s) := by
  induction n generalizing l s with
  | zero => exact h
  | succ n ih =>
    cases l with
    | nil => exact h
    | cons b rest => exact ih _ (K.judgeByte port b h)

/-- A byte received keeps the property. -/
theorem Keeps.receive (K : Keeps P) (port : Port) (b : Byte) {s : State} (h : P s) :
    P (receiveEvent port b s) := by
  unfold receiveEvent
  apply K.judgeBytes
  cases port with
  | machine => exact K.reach _ (K.exchange _ h)
  | station => exact h
  | feed => exact h

/-- The end of a sent frame keeps the property. -/
theorem Keeps.frameSent (K : Keeps P) (port : Port) {s : State} (h : P s) : P (frameSentEvent port s) := by
  unfold frameSentEvent
  split
  · cases port with
    | machine => exact K.free _ _ h
    | station => exact K.begin _ _ (K.free _ _ h)
    | feed => exact K.begin _ _ (K.free _ _ h)
  · exact h

/-- Every command keeps the property. -/
theorem Keeps.exec (K : Keeps P) (i : Instr) {s t : State} (h : P s) (he : exec i s = .next t) : P t := by
  have hr := K.requestOf i h
  cases i with
  | reset => cases he; exact K.reset _ h
  | scan d => cases he; exact K.eventEnd (K.scan _ _ h)
  | strokeLimitExpiry => cases he; exact K.eventEnd (K.strokeLimit _ h)
  | cellDecoded b => cases he; exact K.eventEnd (K.cell _ _ h)
  | frameCompletion => cases he; exact K.eventEnd (K.frame _ h)
  | silenceTimerExpiry => cases he; exact K.eventEnd (K.silence _ h)
  | blockLimitExpiry => cases he; exact K.eventEnd (K.blockLimit _ h)
  | coastLimitPassed => cases he; exact K.eventEnd (K.coast _ h)
  | referenceRebase => cases he; exact K.eventEnd (K.rebase _ h)
  | inactivityTimeout => cases he; exact K.eventEnd (K.inactivity _ h)
  | checkCompletion => cases he; exact K.eventEnd (K.check _ h)
  | translatorTake => cases he; exact K.eventEnd (K.take _ h)
  | settleTimerExpiry => cases he; exact K.eventEnd (K.settle _ h)
  | holdLimitExpiry id => cases he; exact K.eventEnd (K.holdLimit _ _ h)
  | idleTimerExpiry => cases he; exact K.eventEnd (K.idle _ h)
  | gapTimerExpiry => cases he; exact K.eventEnd (K.gap _ h)
  | intervalExpiry => cases he; exact K.eventEnd (K.interval _ h)
  | receiveByte port b => cases he; exact K.eventEnd (K.receive _ _ h)
  | transmitBegin port => cases he; exact K.eventEnd (K.begin _ _ h)
  | frameSent port => cases he; exact K.eventEnd (K.frameSent _ h)
  | _ => cases he; exact hr

/-- Every step keeps the property. -/
theorem Keeps.step (K : Keeps P) {s t : State} (h : P s) (he : step s = .next t) : P t := by
  unfold Machine.step at he
  split at he
  · cases he
    exact K.queue _ _ (K.tick _ h)
  · exact K.exec _ (K.queue _ _ h) he

end Sys2Proof.Machine
end

