-- ==== Sys2Proof/Laws/Memory.lean ====
section
/-! SUPPORT. Dictionary memory: every operation keeps its canonical form, a byte written reads back, and
every other byte reads as before. -/

namespace Sys2Proof.Machine

/-- A lower bound is a bound. -/
theorem risingFrom_lower {a b : Nat} (hab : a ≤ b) {m : List Host.Cell} (h : risingFrom b m = true) :
    risingFrom a m = true := by
  cases m with
  | nil => rfl
  | cons c rest =>
    simp only [risingFrom, Bool.and_eq_true, decide_eq_true_eq] at h ⊢
    exact ⟨⟨Nat.le_trans hab h.1.1, h.1.2⟩, h.2⟩

/-- A write keeps rising addresses above a bound at or below the address written. -/
theorem writeByte_rising {bound : Nat} {m : List Host.Cell} (h : risingFrom bound m = true) {n : Nat}
    (hn : bound ≤ n) (v : Byte) : risingFrom bound (writeByte m n v) = true := by
  induction m generalizing bound with
  | nil =>
    unfold writeByte
    split
    · rfl
    · rename_i hv
      simp [risingFrom, hn, hv]
  | cons c rest ih =>
    obtain ⟨a, b⟩ := c
    have h' := h
    simp only [risingFrom, Bool.and_eq_true, decide_eq_true_eq, bne_iff_ne] at h'
    obtain ⟨⟨hba, hb⟩, hrest⟩ := h'
    unfold writeByte
    split
    · rename_i hlt
      split
      · exact h
      · rename_i hv
        simp [risingFrom, hn, hv, hb, hrest]
        omega
    · split
      · rename_i heq
        subst heq
        split
        · exact risingFrom_lower (by omega) hrest
        · rename_i hv
          simp [risingFrom, hn, hv, hrest]
      · have hna : a + 1 ≤ n := by omega
        simp [risingFrom, hba, hb, ih hrest hna]

/-- A write of one byte keeps the canonical form. -/
theorem writeByte_wf {m : List Host.Cell} (h : memoryWf m = true) (n : Nat) (v : Byte) :
    memoryWf (writeByte m n v) = true := writeByte_rising h (Nat.zero_le n) v

/-- A write of bytes keeps the canonical form. -/
theorem writeBytes_wf {m : List Host.Cell} (h : memoryWf m = true) (n : Nat) (l : List Byte) :
    memoryWf (writeBytes m n l) = true := by
  induction l generalizing m n with
  | nil => exact h
  | cons v rest ih => exact ih (writeByte_wf h n v) (n + 1)

/-- Memory after reset has the canonical form. -/
theorem reset_memory_wf : memoryWf State.reset.dict.memory = true := rfl

/-- Below the first listed address a byte reads as an unlisted one. -/
theorem readByte_below {bound : Nat} {m : List Host.Cell} (h : risingFrom bound m = true) {n : Nat}
    (hn : n < bound) : readByte m n = unlistedByte := by
  induction m generalizing bound with
  | nil => rfl
  | cons c rest ih =>
    obtain ⟨a, b⟩ := c
    simp only [risingFrom, Bool.and_eq_true, decide_eq_true_eq] at h
    unfold readByte
    rw [if_neg (by omega)]
    exact ih h.2 (by omega)

/-- A byte written reads back. -/
theorem readByte_writeByte_same {m : List Host.Cell} (h : memoryWf m = true) (n : Nat) (v : Byte) :
    readByte (writeByte m n v) n = v := by
  suffices ∀ bound, risingFrom bound m = true → readByte (writeByte m n v) n = v from this 0 h
  induction m with
  | nil =>
    intro _ _
    unfold writeByte
    split
    · rename_i hv
      simp [readByte, hv]
    · simp [readByte]
  | cons c rest ih =>
    obtain ⟨a, b⟩ := c
    intro bound hb
    simp only [risingFrom, Bool.and_eq_true, decide_eq_true_eq] at hb
    unfold writeByte
    split
    · rename_i hlt
      split
      · rename_i hv
        rw [hv]
        unfold readByte
        rw [if_neg (by omega)]
        exact readByte_below hb.2 (by omega)
      · simp [readByte]
    · split
      · rename_i heq
        subst heq
        split
        · rename_i hv
          rw [hv]
          exact readByte_below hb.2 (by omega)
        · simp [readByte]
      · rename_i hne
        unfold readByte
        rw [if_neg (fun h => hne h.symm)]
        exact ih (risingFrom_lower (Nat.zero_le _) hb.2) (a + 1) hb.2

/-- Every other byte reads as before a write. -/
theorem readByte_writeByte_other {m : List Host.Cell} (h : memoryWf m = true) {n k : Nat} (hk : k ≠ n)
    (v : Byte) : readByte (writeByte m n v) k = readByte m k := by
  suffices ∀ bound, risingFrom bound m = true → readByte (writeByte m n v) k = readByte m k from this 0 h
  induction m with
  | nil =>
    intro _ _
    unfold writeByte
    split
    · rfl
    · simp [readByte, hk.symm]
  | cons c rest ih =>
    obtain ⟨a, b⟩ := c
    intro bound hb
    simp only [risingFrom, Bool.and_eq_true, decide_eq_true_eq] at hb
    unfold writeByte
    split
    · split
      · rfl
      · simp [readByte, hk.symm]
    · split
      · rename_i heq
        subst heq
        split
        · simp only [readByte]
          rw [if_neg hk.symm]
        · simp only [readByte]
          rw [if_neg hk.symm, if_neg hk.symm]
      · simp only [readByte]
        rw [ih (risingFrom_lower (Nat.zero_le _) hb.2) (a + 1) hb.2]

/-- Bytes outside those written read as before. -/
theorem readByte_writeBytes_outside {m : List Host.Cell} (h : memoryWf m = true) {n k : Nat} (l : List Byte)
    (hk : k < n ∨ n + l.length ≤ k) : readByte (writeBytes m n l) k = readByte m k := by
  induction l generalizing m n with
  | nil => rfl
  | cons v rest ih =>
    simp only [List.length_cons] at hk
    unfold writeBytes
    rw [ih (writeByte_wf h n v) (by omega), readByte_writeByte_other h (by omega)]

/-- The bytes written read back in order. -/
theorem readByte_writeBytes_inside {m : List Host.Cell} (h : memoryWf m = true) (n : Nat) (l : List Byte)
    {i : Nat} (hi : i < l.length) : readByte (writeBytes m n l) (n + i) = l.getD i unlistedByte := by
  induction l generalizing m n i with
  | nil => simp at hi
  | cons v rest ih =>
    unfold writeBytes
    cases i with
    | zero =>
      rw [readByte_writeBytes_outside (writeByte_wf h n v) rest (by omega)]
      simp [readByte_writeByte_same h]
    | succ i =>
      have := ih (writeByte_wf h n v) (n + 1) (i := i) (by simpa using hi)
      rw [show n + (i + 1) = n + 1 + i by omega, this]
      simp

end Sys2Proof.Machine
end

