-- ==== Sys2Proof/Laws/Holds.lean ====
section
/-! SUPPORT. The Hold Table: opening and closing keep it, and the id of a hold opened is free. -/

namespace Sys2Proof.Machine

/-- The id found is free, or every id tried is used. -/
theorem firstFreeId_or_used (hs : List OpenHold) (n id : Nat) : hs.any (fun h => h.id == firstFreeId hs n id) =
    false ∨ ∀ k ≤ n, hs.any (fun h => h.id == (idAfter^[k]) id) = true := by
  induction n generalizing id with
  | zero =>
    unfold firstFreeId
    cases h : hs.any (fun h => h.id == id)
    · left; rfl
    · right; intro k hk; obtain rfl : k = 0 := by omega
      simpa using h
  | succ n ih =>
    unfold firstFreeId
    cases h : hs.any (fun h => h.id == id)
    · left; simpa using h
    · simp only [if_true]
      rcases ih (idAfter id) with h1 | h1
      · left; exact h1
      · right; intro k hk
        cases k with
        | zero => simpa using h
        | succ k => exact h1 k (by omega)

/-- The id after one lies in 1 to 255. -/
theorem idAfter_range (id) (h : 1 ≤ id ∧ id ≤ 255) : 1 ≤ idAfter id ∧ idAfter id ≤ 255 := by
  unfold idAfter; split <;> omega

/-- The id found lies in 1 to 255. -/
theorem firstFreeId_range (hs n id) (h : 1 ≤ id ∧ id ≤ 255) : 1 ≤ firstFreeId hs n id ∧ firstFreeId hs n id ≤
    255 := by
  induction n generalizing id with
  | zero => exact h
  | succ n ih => unfold firstFreeId; split; exact ih _ (idAfter_range _ h); exact h

/-- With fewer than 8 holds open, the id found is free (R135). -/
theorem firstFreeId_free (hs : List OpenHold) (id) (h : 1 ≤ id ∧ id ≤ 255) (hl : hs.length < 8) : hs.any (fun h
    => h.id == firstFreeId hs 255 id) = false := by
  rcases firstFreeId_or_used hs 255 id with h1 | h1
  · exact h1
  · exfalso
    have key : ∀ k ≤ 7, (idAfter^[k]) id = if id + k ≤ 255 then id + k else id + k - 255 := by
      intro k hk
      induction k with
      | zero => simp; omega
      | succ k ih => rw [Function.iterate_succ_apply', ih (by omega)]; unfold idAfter; split <;> split <;> split <;> omega
    have hnd : ((List.range 8).map (fun k => (idAfter^[k]) id)).Nodup := by
      rw [List.nodup_map_iff_inj_on (List.nodup_range)]
      intro a ha b hb hab
      simp at ha hb
      rw [key a (by omega), key b (by omega)] at hab
      split at hab <;> split at hab <;> omega
    have hsub : ((List.range 8).map (fun k => (idAfter^[k]) id)) ⊆ hs.map (fun h => h.id) := by
      intro x hx
      rw [List.mem_map] at hx
      obtain ⟨k, hk, hx⟩ := hx
      rw [List.mem_range] at hk
      have := h1 k (by omega)
      rw [hx] at this
      simpa using this
    have := (List.subperm_of_subset hnd hsub).length_le
    simp at this; omega

/-- An open keeps the Hold Table (R136). -/
theorem openHold_holdsOk (source owner) (s : State) (ho : owner.isSome = true ↔ source = .command) (hI : HoldsOk
    s.holds) : HoldsOk (openHold source owner s).1.holds := by
  unfold openHold
  split
  · exact hI
  · rename_i hex
    split
    · exact hI
    · rename_i hlt
      simp [Config.holdCapacity] at hlt
      unfold takeHold
      dsimp only
      simp only [reachAll_frame, raiseNotice_frame, placeInJournal_frame]
      obtain ⟨h1, h2, h3, h4, h5, h6⟩ := hI
      have hr := firstFreeId_range s.holds.holds 255 _ ⟨h2, h3⟩
      have hn := firstFreeId_free s.holds.holds _ ⟨h2, h3⟩ hlt
      have ha := idAfter_range _ hr
      refine ⟨by simp [Config.holdCapacity]; omega, ha.1, ha.2, ?_, ?_, ?_⟩
      · simp only [List.map_append, List.map_cons, List.map_nil]
        rw [List.nodup_append]
        refine ⟨h4, by simp, ?_⟩
        intro a ha b hb hab
        simp at hb; subst hb; subst hab
        simp at ha hn
        obtain ⟨x, hx, hx2⟩ := ha
        exact hn x hx hx2
      · intro h hh
        simp at hh
        rcases hh with hh | rfl
        · exact h5 h hh
        · exact ⟨hr.1, hr.2, ho⟩
      · intro src hsrc
        rw [List.countP_append]
        by_cases he : source = src
        · subst he
          unfold existingHold at hex
          rw [if_neg hsrc] at hex
          have : List.countP (fun h => h.source == source) s.holds.holds = 0 := by
            rw [List.countP_eq_zero]
            intro a ha; rw [List.find?_eq_none] at hex; exact hex a ha
          rw [this]; simp
        · have := h6 src hsrc
          simp [he]; exact this

/-- A close keeps the Hold Table (R141). -/
theorem closeThis_holdsOk (h c) (s : State) (hI : HoldsOk s.holds) : HoldsOk (closeThis h c s).holds := by
  unfold closeThis
  dsimp only
  simp only [reachAll_frame, raiseNotice_frame, resumeIfOn_frame, appendEntry_frame]
  obtain ⟨h1, h2, h3, h4, h5, h6⟩ := hI
  refine ⟨le_trans (List.length_filter_le ..) h1, h2, h3, ?_, ?_, ?_⟩
  · exact (List.Sublist.map _ List.filter_sublist).nodup h4
  · intro x hx; exact h5 x (List.mem_of_mem_filter hx)
  · intro src hs; exact le_trans (List.Sublist.countP_le List.filter_sublist) (h6 src hs)

end Sys2Proof.Machine
end

