-- ==== Sys2Proof/Laws/JobTable.lean ====
section
/-! SUPPORT. The Job table: DEFINE and UNDEFINE keep its keys, counts and prefixes. -/

namespace Sys2Proof.Machine

/-- A key of the Job table. -/
abbrev JobKey := List Chord

/-- A slot is real and its key has a key as a proper prefix (R76). -/
def extendsKey (k : JobKey) (x : JobSlot) : Bool := x.entry.isSome && decide (k.length < x.key.length) &&
    k.isPrefixOf x.key

/-- The extension count of R76, by that test. -/
theorem extensionsOf_eq (S k) : extensionsOf S k = S.countP (extendsKey k) := rfl

/-- The proper prefixes of a key. -/
theorem mem_properPrefixes (p k : JobKey) : p ∈ properPrefixes k ↔ 1 ≤ p.length ∧ p.length < k.length ∧ p <+: k
    := by
  unfold properPrefixes
  rw [List.mem_map]
  constructor
  · rintro ⟨n, hn, rfl⟩
    simp only [List.mem_range'_1] at hn
    refine ⟨by simp; omega, by simp; omega, List.take_prefix _ _⟩
  · rintro ⟨h1, h2, h3⟩
    refine ⟨p.length, by simp only [List.mem_range'_1]; omega, (List.prefix_iff_eq_take.mp h3).symm⟩

/-- A key has a slot in use exactly when some slot holds it. -/
theorem jobSlot_isSome_iff (S : List JobSlot) (k : JobKey) : (jobSlot S k).isSome = true ↔ k ∈ S.map (fun x =>
    x.key) := by
  unfold jobSlot
  rw [List.find?_isSome]; simp

/-- A key has no slot exactly when no slot holds it. -/
theorem jobSlot_eq_none_iff (S : List JobSlot) (k : JobKey) : jobSlot S k = none ↔ k ∉ S.map (fun x => x.key) :=
    by
  rw [← jobSlot_isSome_iff]; cases jobSlot S k <;> simp

/-- A slot extends a key exactly when it is real and the key is among its proper prefixes. -/
theorem extendsKey_iff (k x) (hk : 1 ≤ k.length) : extendsKey k x = true ↔ x.entry.isSome = true ∧ k ∈
    properPrefixes x.key := by
  unfold extendsKey
  rw [mem_properPrefixes]; simp; tauto
-- setEntry keys

/-- Setting an entry leaves the keys. -/
theorem setEntry_keys (k e S) : (setEntry k e S).map (fun x => x.key) = S.map (fun x => x.key) := by
  unfold setEntry; rw [List.map_map]; apply List.map_congr_left; intro x _; simp only [Function.comp]; split <;> rfl

/-- Raising counts leaves the keys. -/
theorem raiseCounts_keys (ks S) : (raiseCounts ks S).map (fun x => x.key) = S.map (fun x => x.key) := by
  unfold raiseCounts; rw [List.map_map]; apply List.map_congr_left; intro x _; simp only [Function.comp]; split <;> rfl

/-- Lowering counts leaves the keys. -/
theorem lowerCounts_keys (ks S) : (lowerCounts ks S).map (fun x => x.key) = S.map (fun x => x.key) := by
  unfold lowerCounts; rw [List.map_map]; apply List.map_congr_left; intro x _; simp only [Function.comp]; split <;> rfl

/-- Raising counts leaves the real slots. -/
theorem raiseCounts_extensions (ks S k) : extensionsOf (raiseCounts ks S) k = extensionsOf S k := by
  unfold raiseCounts extensionsOf; rw [List.countP_map]; congr 1; funext x; simp only [Function.comp]; split <;> rfl

/-- Lowering counts leaves the real slots. -/
theorem lowerCounts_extensions (ks S k) : extensionsOf (lowerCounts ks S) k = extensionsOf S k := by
  unfold lowerCounts extensionsOf; rw [List.countP_map]; congr 1; funext x; simp only [Function.comp]; split <;> rfl

/-- Setting the entry of an absent key changes nothing. -/
theorem setEntry_absent (k e S) (h : k ∉ S.map (fun x => x.key)) : setEntry k e S = S := by
  unfold setEntry
  conv => rhs; rw [← List.map_id S]
  apply List.map_congr_left
  intro x hx
  rw [if_neg]; rfl
  simp; intro e; exact h (List.mem_map.mpr ⟨x, hx, e⟩)
-- the count after the one slot of key becomes real

/-- A slot made real adds one extension to each of its proper prefixes. -/
theorem setEntry_makes_real (k e S p) (hn : (S.map (fun x => x.key)).Nodup) (x : JobSlot) (hx : x ∈ S) (hk :
    x.key = k) (hxe : x.entry = none) :
    extensionsOf (setEntry k (some e) S) p = extensionsOf S p + if p.length < k.length ∧ p <+: k then 1 else 0
       := by
  induction S with
  | nil => simp at hx
  | cons y r ih =>
    simp only [List.map_cons, List.nodup_cons] at hn
    rw [show setEntry k (some e) (y :: r) = (if y.key == k then { y with entry := some e } else y) :: setEntry k (some e) r from rfl]
    simp only [extensionsOf_eq, List.countP_cons]
    simp only [List.mem_cons] at hx
    rcases hx with rfl | hx
    · rw [setEntry_absent _ _ _ (by rw [← hk]; exact hn.1)]
      rw [show (x.key == k) = true by simpa using hk]
      simp only [if_true, extendsKey, hxe, hk]
      simp
    · have hy : y.key ≠ k := fun h => hn.1 (List.mem_map.mpr ⟨x, hx, hk.trans h.symm⟩)
      have := ih hn.2 hx
      simp only [extensionsOf_eq] at this
      rw [this, show (y.key == k) = false by simpa using hy]; simp only [Bool.false_eq_true, if_false]; omega

/-- A slot made prefix-only takes one extension from each of its proper prefixes. -/
theorem setEntry_makes_prefix (k S p) (hn : (S.map (fun x => x.key)).Nodup) (x : JobSlot) (hx : x ∈ S) (hk :
    x.key = k) (hxe : x.entry.isSome = true) :
   extensionsOf S p = extensionsOf (setEntry k none S) p + if p.length < k.length ∧ p <+: k then 1 else 0 := by
  induction S with
  | nil => simp at hx
  | cons y r ih =>
    simp only [List.map_cons, List.nodup_cons] at hn
    rw [show setEntry k none (y :: r) = (if y.key == k then { y with entry := none } else y) :: setEntry k none r from rfl]
    simp only [extensionsOf_eq, List.countP_cons]
    simp only [List.mem_cons] at hx
    rcases hx with rfl | hx
    · rw [setEntry_absent _ _ _ (by rw [← hk]; exact hn.1)]
      rw [show (x.key == k) = true by simpa using hk]
      simp only [if_true, extendsKey, hxe, hk]
      simp
    · have hy : y.key ≠ k := fun h => hn.1 (List.mem_map.mpr ⟨x, hx, hk.trans h.symm⟩)
      have := ih hn.2 hx
      simp only [extensionsOf_eq] at this
      rw [this, show (y.key == k) = false by simpa using hy]; simp only [Bool.false_eq_true, if_false]; omega

/-- A real slot given another entry leaves every extension count. -/
theorem setEntry_stays_real (k e S p) (hn : (S.map (fun x => x.key)).Nodup) (x : JobSlot) (hx : x ∈ S) (hk :
    x.key = k) (hxe : x.entry.isSome = true) :
   extensionsOf (setEntry k (some e) S) p = extensionsOf S p := by
  unfold extensionsOf setEntry
  rw [List.countP_map]
  apply List.countP_congr
  intro y hy
  simp only [Function.comp]
  split
  · rename_i h
    have : y = x := by
      have h2 : y.key = x.key := by rw [hk]; simpa using h
      exact List.inj_on_of_nodup_map hn hy hx h2
    subst this; simp [hxe]
  · rfl

/-- The slots after setting an entry. -/
theorem mem_setEntry (k e S) (y : JobSlot) (h : y ∈ setEntry k e S) : ∃ x ∈ S, y.key = x.key ∧ y.extensions =
    x.extensions ∧ (x.key = k → y.entry = e) ∧ (x.key ≠ k → y.entry = x.entry) := by
  unfold setEntry at h
  rw [List.mem_map] at h
  obtain ⟨x, hx, rfl⟩ := h
  refine ⟨x, hx, ?_⟩
  split <;> simp_all

/-- The slots after raising counts. -/
theorem mem_raiseCounts (ks S) (y : JobSlot) (h : y ∈ raiseCounts ks S) : ∃ x ∈ S, y.key = x.key ∧ y.entry =
    x.entry ∧ y.extensions = x.extensions + if x.key ∈ ks then 1 else 0 := by
  unfold raiseCounts at h
  rw [List.mem_map] at h
  obtain ⟨x, hx, rfl⟩ := h
  refine ⟨x, hx, ?_⟩
  split <;> simp_all

/-- The slots after lowering counts. -/
theorem mem_lowerCounts (ks S) (y : JobSlot) (h : y ∈ lowerCounts ks S) : ∃ x ∈ S, y.key = x.key ∧ y.entry =
    x.entry ∧ y.extensions = x.extensions - if x.key ∈ ks then 1 else 0 := by
  unfold lowerCounts at h
  rw [List.mem_map] at h
  obtain ⟨x, hx, rfl⟩ := h
  refine ⟨x, hx, ?_⟩
  split <;> simp_all

/-- The test of a proper prefix, spelled. -/
theorem ite_properPrefix (p k : JobKey) (hp : 1 ≤ p.length) : (if p ∈ properPrefixes k then 1 else 0) = if
    p.length < k.length ∧ p <+: k then (1:Nat) else 0 := by
  simp only [mem_properPrefixes, hp, true_and]

/-- A real slot counts for each of its proper prefixes. -/
theorem one_le_extensions (S k) (x : JobSlot) (hx : x ∈ S) (hr : x.entry.isSome = true) (hk : k ∈ properPrefixes
    x.key) : 1 ≤ extensionsOf S k := by
  rw [extensionsOf_eq, Nat.one_le_iff_ne_zero, Ne, List.countP_eq_zero]
  intro h
  exact h x hx ((extendsKey_iff _ _ ((mem_properPrefixes _ _).mp hk).1).mpr ⟨hr, hk⟩)

/-- A count above 0 names a real slot. -/
theorem extension_of_pos (S k) (hk : 1 ≤ k.length) (h : 1 ≤ extensionsOf S k) : ∃ x ∈ S, x.entry.isSome = true ∧
    k ∈ properPrefixes x.key := by
  rw [extensionsOf_eq, Nat.one_le_iff_ne_zero, Ne, List.countP_eq_zero] at h
  push Not at h
  obtain ⟨x, hx, h2⟩ := h
  exact ⟨x, hx, (extendsKey_iff _ _ hk).mp h2⟩

/-- A proper prefix of a proper prefix is one. -/
theorem properPrefixes_trans {p q k : JobKey} (h1 : p ∈ properPrefixes q) (h2 : q ∈ properPrefixes k) : p ∈
    properPrefixes k := by
  rw [mem_properPrefixes] at *; exact ⟨h1.1, by omega, h1.2.2.trans h2.2.2⟩

/-- No key is its own proper prefix. -/
theorem not_mem_properPrefixes_self (k : JobKey) : k ∉ properPrefixes k := by rw [mem_properPrefixes]; omega

/-- A table whose slots are ready for a key keeps its form when the key becomes real (R78). -/
theorem JobTableOk.define (k : JobKey) (e) (T : List JobSlot) (hl : T.length ≤ 1024) (hn : (T.map (fun x =>
    x.key)).Nodup) (hlen : ∀ x ∈ T, 1 ≤ x.key.length ∧ x.key.length ≤ 8)
    (hext : ∀ x ∈ T, x.extensions = extensionsOf T x.key) (hnone : ∀ x ∈ T, x.entry = none → 1 ≤ x.extensions ∨
       x.key = k ∨ x.key ∈ properPrefixes k)
    (hcl : ∀ x ∈ T, x.entry.isSome = true → ∀ p ∈ properPrefixes x.key, (jobSlot T p).isSome = true) (hck : ∀ p
       ∈ properPrefixes k, (jobSlot T p).isSome = true)
    (x : JobSlot) (hx : x ∈ T) (hk : x.key = k) (hxe : x.entry = none) : JobTableOk (raiseCounts (properPrefixes
       k) (setEntry k (some e) T)) := by
  have hkeys : (raiseCounts (properPrefixes k) (setEntry k (some e) T)).map (fun x => x.key) = T.map (fun x => x.key) := by rw [raiseCounts_keys, setEntry_keys]
  refine ⟨by simpa [raiseCounts, setEntry, Config.jobCapacity] using hl, by rw [hkeys]; exact hn, ?_, ?_, ?_, ?_⟩
  · intro y hy; obtain ⟨z, hz, e1, e2, e3⟩ := mem_raiseCounts _ _ _ hy; obtain ⟨w, hw, f1, f2, -⟩ := mem_setEntry _ _ _ _ hz
    rw [e1, f1]; exact hlen w hw
  · intro y hy; obtain ⟨z, hz, e1, e2, e3⟩ := mem_raiseCounts _ _ _ hy; obtain ⟨w, hw, f1, f2, -⟩ := mem_setEntry _ _ _ _ hz
    rw [e3, f2, raiseCounts_extensions, setEntry_makes_real k e T _ hn x hx hk hxe, e1, f1, hext w hw, ite_properPrefix _ _ (hlen w hw).1]
  · intro y hy hye; obtain ⟨z, hz, e1, e2, e3⟩ := mem_raiseCounts _ _ _ hy; obtain ⟨w, hw, f1, f2, f3, f4⟩ := mem_setEntry _ _ _ _ hz
    by_cases hwk : w.key = k
    · rw [e2, f3 hwk] at hye; cases hye
    · rw [e2, f4 hwk] at hye
      rw [e3, f2, f1]
      rcases hnone w hw hye with h | h | h
      · omega
      · exact absurd h hwk
      · rw [if_pos h]; omega
  · intro y hy hye p hp; obtain ⟨z, hz, e1, e2, e3⟩ := mem_raiseCounts _ _ _ hy; obtain ⟨w, hw, f1, f2, f3, f4⟩ := mem_setEntry _ _ _ _ hz
    rw [jobSlot_isSome_iff, hkeys, ← jobSlot_isSome_iff]
    rw [e1, f1] at hp
    by_cases hwk : w.key = k
    · rw [hwk] at hp; exact hck p hp
    · rw [e2, f4 hwk] at hye; exact hcl w hw hye p hp

/-- The proper prefixes of a key differ. -/
theorem properPrefixes_nodup (k : JobKey) : (properPrefixes k).Nodup := by
  unfold properPrefixes
  refine List.Nodup.map_on ?_ (List.nodup_range' ..)
  intro a ha b hb hab
  simp only [List.mem_range'_1] at ha hb
  have := congrArg List.length hab
  simp at this; omega

/-- DEFINE keeps the Job table (R76, R78). -/
theorem defineSlots_ok (k : JobKey) (e) (S S') (hk : 1 ≤ k.length ∧ k.length ≤ 8) (h : JobTableOk S) (hd :
    defineSlots k e S = some S') : JobTableOk S' := by
  obtain ⟨h1, h2, h3, h4, h5, h6⟩ := h
  unfold defineSlots at hd
  split at hd
  · rename_i x hx
    have hxm : x ∈ S := List.mem_of_find?_eq_some hx
    have hxk : x.key = k := by have := List.find?_some hx; simpa using this
    dsimp only at hd
    simp only [Option.some.injEq] at hd
    subst hd
    split
    · rename_i hr
      have hkeys : (setEntry k (some e) S).map (fun x => x.key) = S.map (fun x => x.key) := setEntry_keys _ _ _
      refine ⟨by simpa [setEntry] using h1, by rw [hkeys]; exact h2, ?_, ?_, ?_, ?_⟩
      · intro y hy; obtain ⟨w, hw, f1, f2, -⟩ := mem_setEntry _ _ _ _ hy; rw [f1]; exact h3 w hw
      · intro y hy; obtain ⟨w, hw, f1, f2, -⟩ := mem_setEntry _ _ _ _ hy; rw [f2, f1, setEntry_stays_real k e S _ h2 x hxm hxk hr]; exact h4 w hw
      · intro y hy hye; obtain ⟨w, hw, f1, f2, f3, f4⟩ := mem_setEntry _ _ _ _ hy
        by_cases hwk : w.key = k
        · rw [f3 hwk] at hye; cases hye
        · rw [f4 hwk] at hye; rw [f2]; exact h5 w hw hye
      · intro y hy hye p hp; obtain ⟨w, hw, f1, f2, f3, f4⟩ := mem_setEntry _ _ _ _ hy
        rw [jobSlot_isSome_iff, hkeys, ← jobSlot_isSome_iff]
        rw [f1] at hp
        by_cases hwk : w.key = k
        · have := h6 x hxm hr p (by rw [hxk, ← hwk]; exact hp); exact this
        · rw [f4 hwk] at hye; exact h6 w hw hye p hp
    · rename_i hr
      have hxe : x.entry = none := by simpa using hr
      refine JobTableOk.define k e S h1 h2 h3 h4 (fun y hy hye => .inl (h5 y hy hye)) h6 ?_ x hxm hxk hxe
      intro p hp
      have := h5 x hxm hxe
      rw [h4 x hxm] at this
      obtain ⟨y, hy, hyr, hyk⟩ := extension_of_pos _ _ (h3 x hxm).1 this
      exact h6 y hy hyr p (properPrefixes_trans (by rw [hxk]; exact hp) hyk)
  · rename_i hx
    rw [jobSlot_eq_none_iff] at hx
    dsimp only at hd
    split at hd
    · cases hd
    · rename_i hcap
      simp only [Option.some.injEq] at hd
      subst hd
      set T := takeSlots (properPrefixes k ++ [k]) S with hT
      have hTe : T = S ++ ((properPrefixes k ++ [k]).filter (fun q => (jobSlot S q).isNone)).map (fun q => { key := q, entry := none, extensions := 0 }) := rfl
      have hTk : T.map (fun x => x.key) = S.map (fun x => x.key) ++ (properPrefixes k ++ [k]).filter (fun q => (jobSlot S q).isNone) := by
        rw [hTe, List.map_append, List.map_map]; congr 1; simp [Function.comp_def]
      have hmem : ∀ y, y ∈ T ↔ y ∈ S ∨ ∃ q, (q ∈ properPrefixes k ∨ q = k) ∧ jobSlot S q = none ∧ y = { key := q, entry := none, extensions := 0 } := by
        intro y; rw [hTe]; simp only [List.mem_append, List.mem_map, List.mem_filter, List.mem_singleton, Option.isNone_iff_eq_none]
        constructor
        · rintro (h | ⟨q, ⟨h, h'⟩, rfl⟩); exact .inl h; exact .inr ⟨q, h, h', rfl⟩
        · rintro (h | ⟨q, h, h', rfl⟩); exact .inl h; exact .inr ⟨q, ⟨h, h'⟩, rfl⟩
      have hText : ∀ q, extensionsOf T q = extensionsOf S q := by
        intro q
        rw [hTe, extensionsOf_eq, List.countP_append]
        rw [show List.countP (extendsKey q) (List.map (fun q => ({ key := q, entry := none, extensions := 0 } : JobSlot)) _) = 0 from ?_]; rfl
        rw [List.countP_eq_zero]; intro y hy; rw [List.mem_map] at hy; obtain ⟨_, _, rfl⟩ := hy; simp [extendsKey]
      have hin : ∀ q, q ∈ properPrefixes k ∨ q = k → (jobSlot T q).isSome = true := by
        intro q hq
        rw [jobSlot_isSome_iff, hTk, List.mem_append, List.mem_filter]
        by_cases hS : q ∈ S.map (fun x => x.key)
        · exact .inl hS
        · right; refine ⟨by simpa using hq, ?_⟩; rw [(jobSlot_eq_none_iff S q).mpr hS]; rfl
      have hS0 : ∀ q, 1 ≤ q.length → jobSlot S q = none → extensionsOf S q = 0 := by
        intro q hq hqn
        by_contra hne
        obtain ⟨y, hy, hyr, hyk⟩ := extension_of_pos S q hq (by omega)
        have := h6 y hy hyr q hyk
        rw [hqn] at this; cases this
      have hkk : jobSlot S k = none := (jobSlot_eq_none_iff S k).mpr hx
      refine JobTableOk.define k e T ?_ ?_ ?_ ?_ ?_ ?_ (fun p hp => hin p (.inl hp)) { key := k, entry := none, extensions := 0 } ((hmem _).mpr (.inr ⟨k, .inr rfl, hkk, rfl⟩)) rfl rfl
      · have : (setEntry k (some e) T).length = T.length := by simp [setEntry]
        rw [this] at hcap; simp [Config.jobCapacity] at hcap; omega
      · rw [hTk, List.nodup_append]
        refine ⟨h2, ?_, ?_⟩
        · apply List.Nodup.filter
          rw [List.nodup_append]
          refine ⟨properPrefixes_nodup k, by simp, ?_⟩
          intro a ha b hb hab
          simp at hb; subst hb; subst hab; exact not_mem_properPrefixes_self _ ha
        · intro a ha b hb hab
          subst hab
          rw [List.mem_filter] at hb
          have := (jobSlot_isSome_iff S a).mpr ha
          cases hj : jobSlot S a <;> simp_all
      · intro y hy
        rcases (hmem y).mp hy with h | ⟨q, hq, -, rfl⟩
        · exact h3 y h
        · rcases hq with hq | rfl
          · rw [mem_properPrefixes] at hq; dsimp only; omega
          · exact hk
      · intro y hy
        rw [hText]
        rcases (hmem y).mp hy with h | ⟨q, hq, hqn, rfl⟩
        · exact h4 y h
        · dsimp only
          refine (hS0 q ?_ hqn).symm
          rcases hq with hq | rfl
          · rw [mem_properPrefixes] at hq; omega
          · exact hk.1
      · intro y hy hye
        rcases (hmem y).mp hy with h | ⟨q, hq, hqn, rfl⟩
        · exact .inl (h5 y h hye)
        · rcases hq with hq | rfl
          · exact .inr (.inr hq)
          · exact .inr (.inl rfl)
      · intro y hy hye p hp
        rcases (hmem y).mp hy with h | ⟨q, hq, hqn, rfl⟩
        · have := h6 y h hye p hp
          rw [jobSlot_isSome_iff] at *; rw [hTk, List.mem_append]; exact .inl this
        · cases hye

/-- UNDEFINE keeps the Job table (R76, R79). -/
theorem undefineSlots_ok (k : JobKey) (S) (hk : (realSlot S k).isSome = true) (h : JobTableOk S) : JobTableOk
    (undefineSlots k S) := by
  obtain ⟨h1, h2, h3, h4, h5, h6⟩ := h
  unfold realSlot at hk
  split at hk
  · rename_i x hx
    split at hk
    · rename_i hr
      have hxm : x ∈ S := List.mem_of_find?_eq_some hx
      have hxk : x.key = k := by have := List.find?_some hx; simpa using this
      unfold undefineSlots
      set L := lowerCounts (properPrefixes k) (setEntry k none S) with hL
      have hLk : L.map (fun x => x.key) = S.map (fun x => x.key) := by rw [hL, lowerCounts_keys, setEntry_keys]
      have hLe : ∀ p, extensionsOf S p = extensionsOf L p + if p.length < k.length ∧ p <+: k then 1 else 0 := by
        intro p; rw [hL, lowerCounts_extensions]; exact setEntry_makes_prefix k S p h2 x hxm hxk hr
      have hFe : ∀ p, extensionsOf (L.filter slotUsed) p = extensionsOf L p := by
        intro p
        rw [extensionsOf_eq, List.countP_filter, extensionsOf_eq]
        apply List.countP_congr
        intro y _
        simp only [extendsKey, slotUsed, Bool.and_eq_true, Bool.or_eq_true]
        tauto
      have hmem : ∀ y ∈ L, ∃ w ∈ S, y.key = w.key ∧ (w.key = k → y.entry = none) ∧ (w.key ≠ k → y.entry = w.entry) ∧ y.extensions = extensionsOf L w.key := by
        intro y hy
        obtain ⟨z, hz, e1, e2, e3⟩ := mem_lowerCounts _ _ _ hy
        obtain ⟨w, hw, f1, f2, f3, f4⟩ := mem_setEntry _ _ _ _ hz
        refine ⟨w, hw, e1.trans f1, fun h => e2.trans (f3 h), fun h => e2.trans (f4 h), ?_⟩
        rw [e3, f2, f1, h4 w hw, hLe, ite_properPrefix _ _ (h3 w hw).1]; omega
      refine ⟨?_, ?_, ?_, ?_, ?_, ?_⟩
      · refine le_trans (List.length_filter_le ..) ?_; rw [hL]; simpa [lowerCounts, setEntry] using h1
      · refine (List.Sublist.map _ List.filter_sublist).nodup ?_; rw [hLk]; exact h2
      · intro y hy; obtain ⟨w, hw, f1, -⟩ := hmem y (List.mem_of_mem_filter hy); rw [f1]; exact h3 w hw
      · intro y hy; obtain ⟨w, hw, f1, -, -, f4⟩ := hmem y (List.mem_of_mem_filter hy); rw [f4, hFe, f1]
      · intro y hy hye
        have := (List.mem_filter.mp hy).2
        simp [slotUsed, hye] at this; omega
      · intro y hy hye p hp
        have hyL := List.mem_of_mem_filter hy
        obtain ⟨w, hw, f1, f2, f3, f4⟩ := hmem y hyL
        have hwk : w.key ≠ k := by intro h; rw [f2 h] at hye; cases hye
        have hpS := h6 w hw (by rw [← f3 hwk]; exact hye) p (by rw [← f1]; exact hp)
        rw [jobSlot_isSome_iff, ← hLk, List.mem_map] at hpS
        obtain ⟨v, hv, hvk⟩ := hpS
        rw [jobSlot_isSome_iff, List.mem_map]
        refine ⟨v, List.mem_filter.mpr ⟨hv, ?_⟩, hvk⟩
        obtain ⟨u, hu, g1, -, -, g4⟩ := hmem v hv
        have := one_le_extensions L p y hyL hye hp
        simp only [slotUsed, Bool.or_eq_true, decide_eq_true_eq]
        right; rw [g4, ← g1, hvk]; omega
    · cases hk
  · cases hk

end Sys2Proof.Machine
end

