-- ==== Sys2Proof/Laws/Journal.lean ====
section
/-! SUPPORT. The Text Journal and its listeners: every operation keeps the ring, the tails and what each listener
stands on. -/

namespace Sys2Proof.Machine

/-- Replacing one listener by one that stands keeps the journal. -/
theorem JournalOk.set {j : Journal} (h : JournalOk j) (port : Port) (l : Listener) (hl : ListenerStands j l) :
    JournalOk (j.setListener port l) := by
  obtain ⟨h1, h2, h3, h4⟩ := h
  have e : ∀ x, ListenerStands j x → ListenerStands (j.setListener port l) x := by
    intro x hx; unfold ListenerStands at *; simpa using hx
  refine ⟨by unfold JournalRing at *; simpa using h1, by simpa using h2, by simpa using h3, ?_⟩
  intro q
  by_cases hq : q = port
  · subst hq; rw [Journal.listener_set_self]; exact e _ hl
  · rw [Journal.listener_set_other _ _ hq]; exact e _ (h4 q)

/-- The entries waiting for a listener are as many as lie between its cursor and the head. -/
theorem waitingEntries_length (j : Journal) (l : Listener) (h : (j.head - l.cursor).toNat ≤ j.entries.length) :
    (waitingEntries j l).length = (j.head - l.cursor).toNat := by
  unfold waitingEntries; simp only [List.length_drop]; omega

/-- A listener that passes an entry stands on the next. -/
theorem pass_stands {j : Journal} {l : Listener} (h : ListenerStands j l) (hw : (j.head -
    l.cursor).toNat ≠ 0) (hm : l.mode ≠ .off) : ListenerStands j { l with cursor := l.cursor + 1 } := by
  obtain ⟨h1, h2, h3, h4⟩ := h
  exact ⟨by simp only; bv_omega, h2, h3, fun hx => absurd hx hm⟩

/-- A listener that stops at an open hold stands. -/
theorem stopAt_stands {j : Journal} {l : Listener} (e : JournalEntry) (h : ListenerStands j l) (hc :
    canReach l = true) (ho : l.obeys = true) : ListenerStands j (stopAt e l) := by
  unfold stopAt; split
  · obtain ⟨h1, h2, h3, h4⟩ := h
    simp [canReach] at hc
    refine ⟨h1, ?_, fun _ => ho, fun hx => absurd hx hc.1.1.1⟩
    simp [NotesStand, hc.1.2]
  · exact h

/-- A listener that reaches as far as it can stands. -/
theorem reachThrough_stands (j : Journal) (holds) (es : List JournalEntry) (l : Listener) (h :
    ListenerStands j l) (hl : es.length = (j.head - l.cursor).toNat) : ListenerStands j (reachThrough holds es
    l) := by
  induction es generalizing l with
  | nil => exact h
  | cons e rest ih =>
    have hne : (j.head - l.cursor).toNat ≠ 0 := by rw [← hl]; simp
    have hl2 : rest.length = (j.head - (l.cursor + 1)).toNat := by simp at hl; bv_omega
    unfold reachThrough
    split
    · rename_i hc
      have hm : l.mode ≠ .off := by simp [canReach] at hc; exact hc.1.1.1
      split
      · exact h
      · exact ih _ (pass_stands h hne hm) hl2
      · rename_i ho
        split
        · refine stopAt_stands _ h hc ?_
          unfold entryOutcome at ho
          split at ho <;> (try split at ho) <;> simp_all
        · exact ih _ (pass_stands h hne hm) hl2
    · exact h

/-- The reach of one listener keeps the journal (R121). -/
theorem reachOne_journalOk (port) (s : State) (h : JournalOk s.journal) : JournalOk (reachOne port s).journal :=
    by
  unfold reachOne; dsimp only
  exact JournalOk.set h _ _ (reachThrough_stands _ _ _ _ (h.2.2.2 port) (waitingEntries_length _ _ (h.2.2.2 port).1))

/-- The reach of every listener keeps the journal (R121). -/
theorem reachAll_journalOk (s : State) (h : JournalOk s.journal) : JournalOk (reachAll s).journal :=
  reachOne_journalOk _ _ (reachOne_journalOk _ _ (reachOne_journalOk _ _ h))

/-- A listener paused on a hold stands (R124). -/
theorem pauseOn_stands {j : Journal} {l : Listener} (hold : OpenHold) (b : Bool) (h : ListenerStands j
    l) (hp : l.paused = none) (ho : l.obeys = true) (hm : l.mode ≠ .off) : ListenerStands j { pauseOn hold l
    with repaintPending := b } := by
  obtain ⟨h1, h2, h3, h4⟩ := h
  refine ⟨h1, ?_, fun _ => ho, fun hx => absurd hx hm⟩
  unfold NotesStand at *
  rw [hp] at h2
  simp only [pauseOn]
  rcases hn : l.notes with _ | ⟨n, _ | ⟨n2, r⟩⟩
  · simp
  · rw [hn] at h2; cases n <;> simp_all
  · rw [hn] at h2; cases n <;> simp_all

/-- A repaint run started keeps the journal (R127). -/
theorem startRun_journalOk (port) (s : State) (h : JournalOk s.journal) (hm : (s.journal.listener port).mode ≠
    .off) : JournalOk (startRun port s).journal := by
  unfold startRun; dsimp only
  obtain ⟨h1, h2, h3, h4⟩ := h.2.2.2 port
  simp only [countOne_frame, State.setListener_journal]
  exact JournalOk.set h _ _ ⟨by simp, h2, h3, fun hx => absurd hx hm⟩

/-- A repaint called for keeps the journal (R127). -/
theorem callRepaint_journalOk (port) (s : State) (h : JournalOk s.journal) : JournalOk (callRepaint port
    s).journal := by
  unfold callRepaint; dsimp only
  split
  · exact h
  · rename_i hm
    split
    · rename_i hp ho _
      exact JournalOk.set h _ _ (pauseOn_stands _ _ (h.2.2.2 port) hp ho hm)
    · exact startRun_journalOk _ _ h hm

/-- A listener whose pause ends stands (R125). -/
theorem endPause_stands {j : Journal} {l : Listener} (h : ListenerStands j l) : ListenerStands j
    (endPause l) := by
  unfold endPause; split
  · exact h
  · rename_i id hp
    obtain ⟨h1, h2, h3, h4⟩ := h
    refine ⟨h1, ?_, by simp, ?_⟩
    · unfold NotesStand at *
      rw [hp] at h2
      rcases hn : l.notes with _ | ⟨n, _ | ⟨n2, _ | ⟨n3, r⟩⟩⟩
      · simp
      · rw [hn] at h2; cases n <;> simp_all [isPausedNote]
      · rw [hn] at h2; cases n <;> cases n2 <;> simp_all [isPausedNote]
      · rw [hn] at h2; cases n <;> cases n2 <;> simp_all
    · intro hm; have := (h4 hm).2.1; rw [hp] at this; cases this

/-- What the end of a pause leaves. -/
theorem endPause_fields (l : Listener) : (endPause l).paused = none ∧ (endPause l).obeys = l.obeys ∧ (endPause
    l).mode = l.mode := by
  unfold endPause; split <;> simp [*]

/-- A listener resumed keeps the journal (R125). -/
theorem resumeListener_journalOk (port) (s : State) (h : JournalOk s.journal) (hp : (s.journal.listener
    port).paused.isSome = true) : JournalOk (resumeListener port s).journal := by
  have hl := h.2.2.2 port
  have e := endPause_fields (s.journal.listener port)
  have h1 : JournalOk (s.setListener port (endPause (s.listener port))).journal := JournalOk.set h _ _ (endPause_stands hl)
  unfold resumeListener; dsimp only
  split
  · refine JournalOk.set h1 _ _ ?_
    have := pauseOn_stands (j := s.journal) ‹_› (endPause (s.listener port)).repaintPending (endPause_stands hl) e.1 (by rw [e.2.1]; exact hl.2.2.1 hp) (by
      rw [e.2.2]; intro hm; have := (hl.2.2.2 hm).2.1; rw [this] at hp; cases hp)
    unfold ListenerStands at *; simpa [pauseOn] using this
  · split
    · exact callRepaint_journalOk _ _ h1
    · exact h1

/-- A listener resumed from one hold keeps the journal. -/
theorem resumeIfOn_journalOk (id port) (s : State) (h : JournalOk s.journal) : JournalOk (resumeIfOn id port
    s).journal := by
  unfold resumeIfOn; split
  · rename_i hx; exact resumeListener_journalOk _ _ h (by rw [State.listener_eq] at hx; rw [hx]; rfl)
  · exact h

/-- Setting the obedience of a listener keeps the journal (R130). -/
theorem setObedience_journalOk (port b) (s : State) (h : JournalOk s.journal) : JournalOk (setObedience port b
    s).journal := by
  have hl := h.2.2.2 port
  unfold setObedience; dsimp only
  split
  · exact h
  · rename_i hne
    cases b with
    | true =>
      simp only [if_true]
      have hno : (s.journal.listener port).obeys = false := by
        rw [State.listener_eq] at hne; cases hx : (s.journal.listener port).obeys <;> simp_all
      have hnp : (s.journal.listener port).paused = none := by
        cases hx : (s.journal.listener port).paused with
        | none => rfl
        | some i => have := hl.2.2.1 (by rw [hx]; rfl); rw [hno] at this; cases this
      split
      · rename_i hm _
        replace hm := of_decide_eq_false hm
        refine JournalOk.set h _ _ ?_
        exact pauseOn_stands (l := { s.journal.listener port with obeys := true }) _ _ ⟨hl.1, hl.2.1, fun _ => rfl, hl.2.2.2⟩ hnp rfl hm
      · exact JournalOk.set h _ _ ⟨hl.1, hl.2.1, fun _ => rfl, hl.2.2.2⟩
    | false =>
      simp
      have h1 : JournalOk (s.setListener port (endPause { s.listener port with obeys := false })).journal := by
        refine JournalOk.set h _ _ ?_
        have := endPause_stands hl
        unfold endPause ListenerStands NotesStand at *
        simp only [State.listener_eq] at *
        cases hp : (s.journal.listener port).paused with
        | none => simp_all
        | some id => simp_all
      split
      · exact callRepaint_journalOk _ _ h1
      · exact h1

/-- Setting the mode of a listener keeps the journal (R130). -/
theorem setMode_journalOk (port m) (s : State) (h : JournalOk s.journal) : JournalOk (setMode port m s).journal
    := by
  have hl := h.2.2.2 port
  unfold setMode; dsimp only
  split
  · exact h
  · split
    · refine JournalOk.set h _ _ ⟨by simp, by simp [NotesStand], by simp, by simp⟩
    all_goals
      split
      · exact JournalOk.set h _ _ ⟨hl.1, hl.2.1, hl.2.2.1, by simp⟩
      · exact callRepaint_journalOk _ _ (JournalOk.set h _ _ ⟨hl.1, hl.2.1, hl.2.2.1, by simp⟩)

/-- A full ring without its oldest entry is a ring, and that entry stood 1,024 below the head. -/
theorem JournalRing.drop {j : Journal} {o : JournalEntry} {rest : List JournalEntry} (h : JournalRing j) (hr :
    j.entries = o :: rest) (hl : j.entries.length = 1024) :
    JournalRing { j with entries := rest } ∧ o.position = j.head - 1024 := by
  obtain ⟨h1, h2⟩ := h
  rw [hr] at h1 h2 hl
  simp only [List.length_cons] at hl
  have hl2 : rest.length = 1023 := by omega
  simp only [List.map_cons, List.length_cons, List.range_succ_eq_map, List.map_map] at h2
  simp only [List.cons.injEq] at h2
  obtain ⟨h3, h4⟩ := h2
  refine ⟨⟨by simp [hl2, Config.journalCapacity], ?_⟩, ?_⟩
  · simp only [h4]
    apply List.map_congr_left
    intro i _
    simp only [Function.comp, hl2]
    have : BitVec.ofNat 32 (i+1) = BitVec.ofNat 32 i + 1 := by simp [BitVec.ofNat_add]
    simp only [Nat.succ_eq_add_one, this]
    bv_omega
  · rw [h3]; simp [hl2]

/-- A listener of a full ring whose oldest entry has just been removed, before it is judged (R126). -/
def ListenerBefore (j : Journal) (o : Word) (l : Listener) : Prop :=
  ((j.head - l.cursor).toNat ≤ 1024) ∧ ((j.head - l.cursor).toNat = 1024 ↔ l.cursor = o) ∧ NotesStand l ∧
  (l.paused.isSome = true → l.obeys = true) ∧
  (l.mode = .off → l.cursor = j.head ∧ l.paused = none ∧ l.repaintPending = false ∧ l.notes = [] ∧ l.run = none)

/-- A repaint called for changes one listener alone. -/
theorem callRepaint_frame_journal (port) (s : State) : (callRepaint port s).journal.entries = s.journal.entries
    ∧ (callRepaint port s).journal.head = s.journal.head ∧ (callRepaint port s).journal.liveTail =
    s.journal.liveTail ∧ (callRepaint port s).journal.settledTail = s.journal.settledTail ∧ ∀ q, q ≠ port →
    (callRepaint port s).journal.listener q = s.journal.listener q := by
  unfold callRepaint startRun; dsimp only
  split
  · simp
  · split <;> simp <;> intro q hq <;> exact Journal.listener_set_other _ _ hq

/-- The listener a repaint is called for on stands. -/
theorem callRepaint_stands (port) (s : State) (h : ListenerStands s.journal (s.journal.listener port)) :
    ListenerStands s.journal ((callRepaint port s).journal.listener port) := by
  unfold callRepaint startRun; dsimp only
  split
  · exact h
  · rename_i hm
    split
    · rename_i hp ho _
      simp only [State.setListener_journal, Journal.listener_set_self]
      exact pauseOn_stands _ _ h hp ho hm
    · simp only [countOne_frame, State.setListener_journal, Journal.listener_set_self]
      obtain ⟨h1, h2, h3, h4⟩ := h
      exact ⟨by simp, h2, h3, fun hx => absurd hx hm⟩

/-- A listener overrun stands again (R126). -/
theorem overrunOne_stands (port o) (s : State) (hl : s.journal.entries.length = 1023) (h : ListenerBefore
    s.journal o (s.journal.listener port)) :
   let t := overrunOne o port s
   t.journal.entries = s.journal.entries ∧ t.journal.head = s.journal.head ∧ t.journal.liveTail = s.journal.liveTail ∧ t.journal.settledTail = s.journal.settledTail ∧ (∀ q, q ≠ port → t.journal.listener q = s.journal.listener q) ∧ ListenerStands s.journal (t.journal.listener port) := by
  obtain ⟨h1, h2, h3, h4, h5⟩ := h
  dsimp only; unfold overrunOne; dsimp only
  split
  · rename_i hc
    rw [State.listener_eq] at hc
    have hw := h2.2 hc
    have hm : (s.journal.listener port).mode ≠ .off := by intro hm; have := (h5 hm).1; simp [this] at hw
    have hcur : (s.journal.head - (o + 1)).toNat ≤ s.journal.entries.length := by rw [hl, ← hc]; bv_omega
    split
    · simp only [State.setListener_journal, Journal.setListener_entries, Journal.setListener_head, Journal.setListener_liveTail, Journal.setListener_settledTail, Journal.listener_set_self, true_and]
      refine ⟨fun q hq => Journal.listener_set_other _ _ hq, hcur, h3, h4, fun hx => absurd hx hm⟩
    · obtain ⟨e1, e2, e3, e4, e5⟩ := callRepaint_frame_journal port (s.setListener port { s.listener port with cursor := o + 1 })
      have hL := callRepaint_stands port (s.setListener port { s.listener port with cursor := o + 1 }) (by
        simp only [State.setListener_journal, Journal.listener_set_self]
        refine ⟨by simpa using hcur, h3, h4, fun hx => absurd hx hm⟩)
      refine ⟨by simpa using e1, by simpa using e2, by simpa using e3, by simpa using e4, ?_, ?_⟩
      · intro q hq; rw [e5 q hq]; exact Journal.listener_set_other _ _ hq
      · unfold ListenerStands at *; simpa using hL
  · rename_i hc
    rw [State.listener_eq] at hc
    have hw : (s.journal.head - (s.journal.listener port).cursor).toNat ≠ 1024 := fun hx => hc (h2.1 hx)
    exact ⟨rfl, rfl, rfl, rfl, fun _ _ => rfl, by rw [hl]; omega, h3, h4, h5⟩

/-- Removing the oldest entry of a full ring keeps the journal and leaves room (R117, R126). -/
theorem dropOldestEntry_journalOk (s : State) (h : JournalOk s.journal) : JournalOk (dropOldestEntry s).journal
    ∧ (dropOldestEntry s).journal.entries.length ≤ 1023 := by
  obtain ⟨h1, h2, h3, h4⟩ := h
  unfold dropOldestEntry
  split
  · rename_i he; exact ⟨⟨h1, h2, h3, h4⟩, by simp [he]⟩
  · rename_i o rest hr
    split
    · rename_i hlt; simp [Config.journalCapacity] at hlt; exact ⟨⟨h1, h2, h3, h4⟩, by omega⟩
    · rename_i hge
      have hl : s.journal.entries.length = 1024 := by have := h1.1; simp [Config.journalCapacity] at this hge; omega
      obtain ⟨hring, ho⟩ := JournalRing.drop h1 hr hl
      dsimp only
      generalize hu : ({ s with journal := { s.journal with entries := rest } } : State) = u
      have hul : u.journal = { s.journal with entries := rest } := by rw [← hu]
      have hlen : u.journal.entries.length = 1023 := by rw [hul]; simp [hr] at hl ⊢; omega
      have half : ∀ q, ListenerBefore u.journal o.position (u.journal.listener q) := by
        intro q
        have hrd : u.journal.listener q = s.journal.listener q := by rw [hul]; cases q <;> rfl
        have hhd : u.journal.head = s.journal.head := by rw [hul]
        obtain ⟨a1, a2, a3, a4⟩ := h4 q
        rw [hl] at a1
        unfold ListenerBefore; rw [hrd, hhd]
        refine ⟨a1, ?_, a2, a3, a4⟩
        rw [ho]; constructor <;> intro hx <;> bv_omega
      have tr : ∀ {a b : Journal} {l}, a.head = b.head → ListenerBefore a o.position l → ListenerBefore b o.position l := by
        intro a b l e hh; unfold ListenerBefore at *; rw [← e]; exact hh
      have ts : ∀ {a b : Journal} {l}, a.head = b.head → a.entries = b.entries → ListenerStands a l → ListenerStands b l := by
        intro a b l e e2 hh; unfold ListenerStands at *; rw [← e, ← e2]; exact hh
      obtain ⟨a1, a2, a3, a4, a5, a6⟩ := overrunOne_stands .machine o.position u hlen (half _)
      generalize overrunOne o.position .machine u = v at *
      obtain ⟨b1, b2, b3, b4, b5, b6⟩ := overrunOne_stands .station o.position v (by rw [a1]; exact hlen) (by rw [a5 _ (by simp)]; exact tr a2.symm (half _))
      generalize overrunOne o.position .station v = w at *
      obtain ⟨c1, c2, c3, c4, c5, c6⟩ := overrunOne_stands .feed o.position w (by rw [b1, a1]; exact hlen) (by rw [b5 _ (by simp), a5 _ (by simp)]; exact tr (a2.symm.trans b2.symm) (half _))
      generalize overrunOne o.position .feed w = x at *
      have er : x.journal.entries = u.journal.entries := by rw [c1, b1, a1]
      have eh : x.journal.head = u.journal.head := by rw [c2, b2, a2]
      refine ⟨⟨?_, ?_, ?_, ?_⟩, ?_⟩
      · unfold JournalRing at *; rw [er, eh, hul]; exact hring
      · rw [c3, b3, a3, hul]; exact h2
      · rw [c4, b4, a4, hul]; exact h3
      · intro q; cases q
        · rw [c5 _ (by simp), b5 _ (by simp)]; exact ts (by rw [c2, b2]; exact a2 ▸ rfl) (by rw [c1, b1, a1]) a6
        · rw [c5 _ (by simp)]; exact ts (by rw [c2, b2]) (by rw [c1, b1]) b6
        · exact ts c2.symm c1.symm c6
      · exact Nat.le_of_eq (by rw [er, hlen])

/-- A tail holds at most 2,048 characters after an addition (R119). -/
theorem tailAdd_length_le (t x : Text) : (tailAdd t x).length ≤ Config.tailCapacity := by
  unfold tailAdd; simp; omega

/-- A tail holds at most 2,048 characters after a removal (R119). -/
theorem tailRemove_length_le (t : Text) (n) (h : t.length ≤ Config.tailCapacity) : (tailRemove t n).length ≤
    Config.tailCapacity := by
  unfold tailRemove; simp; omega

/-- The views of an append leave the ring and the listeners, and bounded tails bounded. -/
theorem applyViews_frame (b) (j : Journal) : (applyViews b j).entries = j.entries ∧ (applyViews b j).head =
    j.head ∧ (applyViews b j).machine = j.machine ∧ (applyViews b j).station = j.station ∧ (applyViews b j).feed
    = j.feed ∧ (j.liveTail.length ≤ Config.tailCapacity → (applyViews b j).liveTail.length ≤
    Config.tailCapacity) ∧ (j.settledTail.length ≤ Config.tailCapacity → (applyViews b j).settledTail.length ≤
    Config.tailCapacity) := by
  unfold applyViews; split <;> simp [tailAdd_length_le] <;> (try constructor) <;> exact tailRemove_length_le _ _

/-- An append keeps the journal (R117). -/
theorem placeInJournal_journalOk (b) (s : State) (h : JournalOk s.journal) : JournalOk (placeInJournal b
    s).journal := by
  obtain ⟨⟨h1, h2, h3, h4⟩, hl⟩ := dropOldestEntry_journalOk s h
  unfold placeInJournal; dsimp only
  generalize dropOldestEntry s = u at *
  unfold placeEntry; dsimp only
  obtain ⟨v1, v2, v3, v4, v5, v6, v7⟩ := applyViews_frame b { u.journal with entries := u.journal.entries ++ [{ position := u.journal.head, body := b }], head := u.journal.head + 1 }
  refine ⟨⟨?_, ?_⟩, v6 h2, v7 h3, ?_⟩
  · simp only [v1]; simp [Config.journalCapacity]; omega
  · simp only [v1, v2]
    simp only [List.map_append, List.length_append, List.length_cons, List.length_nil, List.range_succ, List.map_cons, List.map_nil, h1.2]
    congr 1
    · apply List.map_congr_left; intro i _; simp [BitVec.ofNat_add]
    · simp [BitVec.ofNat_add]
  · have key : ∀ (j : Journal) (l : Listener), j.head = u.journal.head + 1 → j.entries.length = u.journal.entries.length + 1 → ListenerStands u.journal l → ListenerStands j (followJournal (u.journal.head+1) l) := by
      intro j l e1 e2 ⟨a1, a2, a3, a4⟩
      unfold followJournal
      split
      · rename_i hm
        exact ⟨by simp [e1], a2, a3, fun _ => ⟨by simp [e1], (a4 hm).2⟩⟩
      · rename_i hm
        exact ⟨by rw [e1, e2]; bv_omega, a2, a3, fun hx => absurd hx hm⟩
    intro q; cases q <;> simp only [Journal.listener]
    · rw [v3]; exact key _ _ v2 (by rw [v1]; simp) (h4 .machine)
    · rw [v4]; exact key _ _ v2 (by rw [v1]; simp) (h4 .station)
    · rw [v5]; exact key _ _ v2 (by rw [v1]; simp) (h4 .feed)

/-- Notes with the oldest sent still stand. -/
theorem NotesStand.pop {l : Listener} {n rest} (h : NotesStand l) (hn : l.notes = n :: rest) : NotesStand { l
    with notes := rest } := by
  unfold NotesStand at *; simp only [hn] at *
  cases hp : l.paused <;> rw [hp] at h <;> rcases rest with _ | ⟨n2, _ | ⟨n3, r⟩⟩ <;> cases n <;> (try cases n2) <;> simp_all

/-- A listener whose message is begun stands (R122, R123). -/
theorem offer_stands (j : Journal) (l : Listener) (h : ListenerStands j l) {m} {l'} (ho : listenerOffer
    j l = some (m, l')) : ListenerStands j l' := by
  obtain ⟨h1, h2, h3, h4⟩ := h
  unfold listenerOffer at ho
  split at ho
  · rename_i hn
    cases ho
    exact ⟨h1, NotesStand.pop h2 hn, h3, fun hm => by have := (h4 hm).2.2.2.1; rw [hn] at this; cases this⟩
  · rename_i hn hr
    cases ho
    refine ⟨h1, h2, h3, fun hm => ?_⟩
    have := (h4 hm).2.2.2.2; rw [this] at hr; cases hr
  · rename_i e hn hr he
    cases ho
    unfold reachedEntry at he
    split at he
    · rename_i hc
      split at he
      · rename_i hw
        have hwl := waitingEntries_length j l h1
        rw [hw] at hwl; simp at hwl
        have hm : l.mode ≠ .off := by simp [canReach] at hc; exact hc.1.1.1
        exact pass_stands ⟨h1, h2, h3, h4⟩ (by simp; omega) hm
      · cases he
    · cases he
  · cases ho

/-- An append and the reach after it keep the journal. -/
theorem appendEntry_journalOk (b) (s : State) (h : JournalOk s.journal) :
    JournalOk (appendEntry b s).journal :=
  reachAll_journalOk _ (placeInJournal_journalOk b s h)

end Sys2Proof.Machine
end

