-- ==== Sys2Proof/Laws/Log.lean ====
section
/-! SUPPORT. The Stroke Log: every operation keeps the ring, what each reader stands on, and its balance. -/

namespace Sys2Proof.Machine

/-- A full ring without its oldest record is a ring, and that record was 4,096 below the head. -/
theorem LogRing.drop {g : StrokeLog} {o : LogRecord} {rest : List LogRecord} (h : LogRing g) (hr : g.records = o
    :: rest) (hl : g.records.length = 4096) :
    LogRing { g with records := rest } ∧ o.seq = g.head - 4096 := by
  obtain ⟨h1, h2⟩ := h
  rw [hr] at h1 h2 hl
  simp only [List.length_cons] at hl
  have hl2 : rest.length = 4095 := by omega
  simp only [List.map_cons, List.length_cons, List.range_succ_eq_map, List.map_map] at h2
  simp only [List.cons.injEq] at h2
  obtain ⟨h3, h4⟩ := h2
  refine ⟨⟨by simp [hl2, Config.logCapacity], ?_⟩, ?_⟩
  · simp only [h4]
    apply List.map_congr_left
    intro i _
    simp only [Function.comp, oldestSeq, hr, List.length_cons, hl2]
    have : BitVec.ofNat 32 (i+1) = BitVec.ofNat 32 i + 1 := by simp [BitVec.ofNat_add]
    simp only [Nat.succ_eq_add_one, this]
    bv_omega
  · rw [h3]; simp [oldestSeq, hr, hl2]

/-- The balance of R33, read from the cursor. -/
theorem readerBalances_iff (g : StrokeLog) (r : Reader) : ReaderBalances g r ↔ r.cursor = r.passed + r.lost :=
    by
  unfold ReaderBalances recordsWaiting
  rw [BitVec.ofNat_toNat, BitVec.setWidth_eq]
  constructor <;> intro h <;> bv_omega

/-- A loss changes one reader of the log (R25, R26). -/
theorem takeLoss_log (name r) (s : State) : ∃ b, (takeLoss name r s).log = s.log.setReader name { r with inRun
    := b } := by
  cases name
  · exact ⟨r.inRun, by simp [takeLoss, readerPort]⟩
  all_goals
    refine ⟨true, ?_⟩
    simp only [takeLoss, readerPort]
    split <;> simp

/-- A reader of a full ring whose oldest record has just been removed, before it is moved (R25). -/
def ReaderBefore (g : StrokeLog) (o : Word) (r : Reader) : Prop :=
  (recordsWaiting g r ≤ 4096) ∧ (recordsWaiting g r = 4096 ↔ r.cursor = o) ∧ (r.on = false → r.cursor = g.head) ∧ ReaderBalances g r

/-- A reader moved by an overwrite stands, and its balance holds (R25, R33). -/
theorem overwriteReader_stands (name o) (s : State) (hl : s.log.records.length = 4095) (h : ReaderBefore s.log o
    (s.log.reader name)) :
     (∃ r, (overwriteReader name o s).log = s.log.setReader name r ∧ r.on = (s.log.reader name).on ∧
        ReaderStands s.log r ∧ ReaderBalances s.log r) := by
  unfold overwriteReader; dsimp only
  obtain ⟨h1, h2, h3, h4⟩ := h
  generalize hr : s.log.reader name = r at *
  split
  · rename_i hc
    have hw := h2.2 hc
    obtain ⟨b, hb⟩ := takeLoss_log name { r with cursor := r.cursor + 1, lost := r.lost + 1, sinceTaken := if name = .translator then r.sinceTaken + 1 else r.sinceTaken } s
    refine ⟨_, hb, rfl, ⟨?_, ?_⟩, ?_⟩
    · rw [hl]; simp only [recordsWaiting] at *; bv_omega
    · intro ho; have := h3 ho; simp [recordsWaiting, this] at hw
    · rw [readerBalances_iff] at *; simp only; rw [h4]; bv_omega
  · rename_i hc
    have hw : recordsWaiting s.log r ≠ 4096 := fun hx => hc (h2.1 hx)
    refine ⟨r, ?_, rfl, ⟨by rw [hl]; omega, h3⟩, h4⟩
    cases name <;> simp only [StrokeLog.reader, StrokeLog.setReader] at hr ⊢ <;> subst hr <;> rfl

/-- An overwrite judged for one reader leaves the others. -/
theorem overwriteReader_other {name other : ReaderName} (o) (s : State) (h : other ≠ name) : (overwriteReader
    name o s).log.reader other = s.log.reader other := by
  unfold overwriteReader; dsimp only; split
  · obtain ⟨b, hb⟩ := takeLoss_log name { s.log.reader name with cursor := (s.log.reader name).cursor + 1, lost := (s.log.reader name).lost + 1, sinceTaken := if name = .translator then (s.log.reader name).sinceTaken + 1 else (s.log.reader name).sinceTaken } s
    rw [hb, StrokeLog.reader_set_other _ _ h]
  · rfl

/-- Removing the oldest record of a full ring keeps the log and leaves room (R25). -/
theorem makeRoom_logOk (s : State) (h : LogOk s.log) : LogOk (makeRoom s).log ∧ (makeRoom s).log.records.length
    ≤ 4095 ∧ (makeRoom s).log.head = s.log.head ∧ (makeRoom s).log.job = s.log.job ∧ (makeRoom s).log.wrapped =
    s.log.wrapped := by
  obtain ⟨h1, h2, h3⟩ := h
  unfold makeRoom
  split
  · rename_i he; exact ⟨⟨h1, h2, h3⟩, by simp [he], rfl, rfl, rfl⟩
  · rename_i o rest hr
    split
    · rename_i hlt; simp [Config.logCapacity] at hlt; exact ⟨⟨h1, h2, h3⟩, by omega, rfl, rfl, rfl⟩
    · rename_i hge
      have hl : s.log.records.length = 4096 := by have := h1.1; simp [Config.logCapacity] at this hge; omega
      obtain ⟨hring, ho⟩ := LogRing.drop h1 hr hl
      dsimp only
      generalize hu : ({ s with log := { s.log with records := rest } } : State) = u
      have hul : u.log = { s.log with records := rest } := by rw [← hu]
      have hlen : u.log.records.length = 4095 := by rw [hul]; simp [hr] at hl ⊢; omega
      have half : ∀ name, ReaderBefore u.log o.seq (u.log.reader name) := by
        intro name
        have hrd : u.log.reader name = s.log.reader name := by rw [hul]; cases name <;> rfl
        have hhd : u.log.head = s.log.head := by rw [hul]
        obtain ⟨⟨a1, a2⟩, a3⟩ := h3 name
        rw [readerBalances_iff] at a3
        unfold ReaderBefore; rw [readerBalances_iff, hrd, hhd]
        rw [hl] at a1
        simp only [recordsWaiting, hhd] at *
        refine ⟨a1, ?_, a2, a3⟩
        rw [ho]; constructor <;> intro hx <;> bv_omega
      have ov : ∀ name (v : State), v.log.records.length = 4095 → ReaderBefore v.log o.seq (v.log.reader name) → (overwriteReader name o.seq v).log.records = v.log.records ∧ (overwriteReader name o.seq v).log.head = v.log.head ∧ (overwriteReader name o.seq v).log.job = v.log.job ∧ (overwriteReader name o.seq v).log.wrapped = v.log.wrapped ∧ ((overwriteReader name o.seq v).log.reader name).on = (v.log.reader name).on ∧ ReaderStands (overwriteReader name o.seq v).log ((overwriteReader name o.seq v).log.reader name) ∧ ReaderBalances (overwriteReader name o.seq v).log ((overwriteReader name o.seq v).log.reader name) := by
        intro name v hv1 hv2
        obtain ⟨r, hr1, hr2, hr3, hr4⟩ := overwriteReader_stands name o.seq v hv1 hv2
        rw [hr1]
        refine ⟨by simp, by simp, by simp, by simp, by simpa using hr2, ?_, ?_⟩
        · rw [StrokeLog.reader_set_self]; unfold ReaderStands recordsWaiting at *; simpa using hr3
        · rw [StrokeLog.reader_set_self]; rw [readerBalances_iff] at *; exact hr4
      have hm : ∀ {a b : State} {r : Reader}, a.log.records = b.log.records → a.log.head = b.log.head → ReaderBefore a.log o.seq r → ReaderBefore b.log o.seq r := by
        intro a b r e1 e2 hh; unfold ReaderBefore recordsWaiting at *; rw [readerBalances_iff] at *; rw [← e2]; exact hh
      have sm : ∀ {a b : State} {r : Reader}, a.log.records = b.log.records → a.log.head = b.log.head → (ReaderStands a.log r ∧ ReaderBalances a.log r) → (ReaderStands b.log r ∧ ReaderBalances b.log r) := by
        intro a b r e1 e2 hh; unfold ReaderStands recordsWaiting at *; rw [readerBalances_iff] at *; rw [← e1, ← e2]; exact hh
      obtain ⟨t1, t2, t3, t4, t5, t6⟩ := ov .translator u hlen (half _)
      generalize hv : overwriteReader .translator o.seq u = v at *
      have hmV : ReaderBefore v.log o.seq (v.log.reader .machine) := by
        have : v.log.reader .machine = u.log.reader .machine := by rw [← hv]; exact overwriteReader_other _ _ (by simp)
        rw [this]; exact hm t1.symm t2.symm (half _)
      obtain ⟨m1, m2, m3, m4, m5, m6⟩ := ov .machine v (by rw [t1]; exact hlen) hmV
      generalize hw : overwriteReader .machine o.seq v = w at *
      have hsW : ReaderBefore w.log o.seq (w.log.reader .station) := by
        have e1 : w.log.reader .station = v.log.reader .station := by rw [← hw]; exact overwriteReader_other _ _ (by simp)
        have e2 : v.log.reader .station = u.log.reader .station := by rw [← hv]; exact overwriteReader_other _ _ (by simp)
        rw [e1, e2]; exact hm (t1.symm.trans m1.symm) (t2.symm.trans m2.symm) (half _)
      obtain ⟨s1, s2, s3, s4, s5, s6⟩ := ov .station w (by rw [m1, t1]; exact hlen) hsW
      have eM : (overwriteReader .station o.seq w).log.reader .machine = w.log.reader .machine := overwriteReader_other _ _ (by simp)
      have eT : (overwriteReader .station o.seq w).log.reader .translator = v.log.reader .translator := by
        rw [overwriteReader_other _ _ (by simp), ← hw, overwriteReader_other _ _ (by simp)]
      generalize hx : overwriteReader .station o.seq w = x at *
      have er : x.log.records = u.log.records := by rw [s1, m1, t1]
      have eh : x.log.head = u.log.head := by rw [s2, m2, t2]
      refine ⟨⟨?_, ?_, ?_⟩, ?_, ?_, ?_, ?_⟩
      · unfold LogRing oldestSeq at *; rw [er, eh, hul]; exact hring
      · have : x.log.translator.on = u.log.translator.on := by
          have : x.log.translator = v.log.translator := eT
          rw [this]; exact t5
        rw [this, hul]; exact h2
      · intro name; cases name
        · rw [eT]; exact sm (by rw [s1, m1]) (by rw [s2, m2]) t6
        · rw [eM]; exact sm s1.symm s2.symm m6
        · exact s6
      · exact Nat.le_of_eq (by rw [er, hlen])
      · rw [eh, hul]
      · rw [s3, m3, t3, hul]
      · rw [s4, m4, t4, hul]

/-- An append keeps the log (R24). -/
theorem appendRecord_logOk (b) (s : State) (h : LogOk s.log) : LogOk (appendRecord b s).log := by
  obtain ⟨⟨h1, h2, h3⟩, hl, hh, -, -⟩ := makeRoom_logOk s h
  unfold appendRecord; dsimp only
  generalize makeRoom s = u at *
  clear h hh s
  refine ⟨⟨?_, ?_⟩, h2, ?_⟩
  · simp [Config.logCapacity]; omega
  · have e : oldestSeq { u.log with records := u.log.records ++ [{ seq := u.log.head, body := b }], head := u.log.head + 1, wrapped := u.log.wrapped || u.log.head + 1 == 0, machine := followHead (u.log.head + 1) u.log.machine, station := followHead (u.log.head + 1) u.log.station } = oldestSeq u.log := by
      simp [oldestSeq, BitVec.ofNat_add]
    rw [e]
    simp only [List.map_append, List.length_append, List.length_cons, List.length_nil, List.range_succ, List.map_cons, List.map_nil, h1.2]
    congr 1
    simp only [oldestSeq, List.cons.injEq, and_true]
    exact (BitVec.sub_add_cancel _ _).symm
  · have key : ∀ r : Reader, ReaderStands u.log r ∧ ReaderBalances u.log r → ∀ r', (r' = r ∧ r.on = true ∨ r' = followHead (u.log.head+1) r) → recordsWaiting { u.log with head := u.log.head+1 } r' ≤ u.log.records.length + 1 ∧ (r'.on = false → r'.cursor = u.log.head + 1) ∧ r'.cursor = r'.passed + r'.lost := by
      intro r ⟨⟨a1, a2⟩, a3⟩ r' hr'
      rw [readerBalances_iff] at a3
      unfold recordsWaiting at *
      have : r' = r ∧ r.on = true ∨ r' = { r with cursor := u.log.head+1, passed := r.passed + 1 } ∧ r.on = false := by
        rcases hr' with hr' | hr'
        · exact .inl hr'
        · unfold followHead at hr'
          cases ho : r.on <;> simp [ho] at hr'
          · exact .inr ⟨hr', rfl⟩
          · exact .inl ⟨hr', rfl⟩
      rcases this with ⟨e1, e2⟩ | ⟨e1, e2⟩
      · subst e1; simp [e2]; exact ⟨by bv_omega, a3⟩
      · subst e1; simp [e2]; have := a2 e2; bv_omega
    have fin : ∀ (g : StrokeLog) (r' : Reader), g.head = u.log.head+1 → g.records.length = u.log.records.length+1 → (recordsWaiting { u.log with head := u.log.head+1 } r' ≤ u.log.records.length + 1 ∧ (r'.on = false → r'.cursor = u.log.head + 1) ∧ r'.cursor = r'.passed + r'.lost) → ReaderStands g r' ∧ ReaderBalances g r' := by
      intro g r' e1 e2 ⟨b1, b2, b3⟩
      rw [readerBalances_iff]; unfold ReaderStands recordsWaiting at *; rw [e1, e2]; exact ⟨⟨b1, b2⟩, b3⟩
    intro name; cases name
    · exact fin _ _ rfl (by simp) (key u.log.translator (h3 .translator) _ (.inl ⟨rfl, h2⟩))
    · exact fin _ _ rfl (by simp) (key u.log.machine (h3 .machine) _ (.inr rfl))
    · exact fin _ _ rfl (by simp) (key u.log.station (h3 .station) _ (.inr rfl))

/-- Replacing one reader by one that stands keeps the log. -/
theorem LogOk.setReader {g : StrokeLog} (h : LogOk g) (name : ReaderName) (r : Reader) (ht : name = .translator
    → r.on = true)
    (hr : recordsWaiting g r ≤ g.records.length ∧ (r.on = false → r.cursor = g.head) ∧ r.cursor = r.passed +
       r.lost) : LogOk (g.setReader name r) := by
  obtain ⟨h1, h2, h3⟩ := h
  refine ⟨?_, ?_, ?_⟩
  · unfold LogRing oldestSeq at *; simpa using h1
  · cases name
    · exact ht rfl
    · exact h2
    · exact h2
  · intro other
    by_cases ho : other = name
    · subst ho; rw [StrokeLog.reader_set_self, readerBalances_iff]; unfold ReaderStands recordsWaiting at *; simpa using ⟨⟨hr.1, hr.2.1⟩, hr.2.2⟩
    · rw [StrokeLog.reader_set_other _ _ ho]; have := h3 other; rw [readerBalances_iff] at *; unfold ReaderStands recordsWaiting at *; simpa using this

/-- STROKES ON keeps the log (R30). -/
theorem startReader_logOk (port) (st : StartPoint) (q) (name) (x : StreamStart) (s : State) (h : LogOk s.log)
    (ho : ownReader port = some name) (hj : judgeStart s.log st q = some x) : LogOk (startReader name x s).log
    := by
  have hx : (s.log.head - x.start).toNat ≤ s.log.records.length ∧ x.start = x.asked + BitVec.ofNat 32 x.lost := by
    have hle := h.1.1
    simp [Config.logCapacity] at hle
    unfold judgeStart at hj
    split at hj
    · cases hj; simp
    · cases hj; simp [oldestSeq]; omega
    · unfold judgeSequence at hj; dsimp only at hj
      split at hj
      · cases hj; rename_i h0
        simp; bv_omega
      · split at hj
        · cases hj; exact ⟨by assumption, by simp⟩
        · split at hj
          · cases hj
            simp only [oldestSeq]
            refine ⟨by bv_omega, ?_⟩
            bv_omega
          · cases hj
    · cases hj
  have hn : name ≠ .translator := by cases port <;> simp [ownReader] at ho <;> subst ho <;> simp
  have hb := (h.2.2 name).2
  rw [readerBalances_iff] at hb
  unfold startReader; dsimp only
  split
  · rename_i h0
    refine LogOk.setReader h _ _ (fun hc => absurd hc hn) ⟨hx.1, by simp, ?_⟩
    have := hx.2; simp [h0] at this ⊢; bv_omega
  · obtain ⟨b, hb2⟩ := takeLoss_log name { s.log.reader name with on := true, cursor := x.start, inRun := false, lost := (s.log.reader name).lost + BitVec.ofNat 32 x.lost, passed := (s.log.reader name).passed + (x.asked - (s.log.reader name).cursor) } s
    rw [hb2]
    refine LogOk.setReader h _ _ (fun hc => absurd hc hn) ⟨hx.1, by simp, ?_⟩
    have := hx.2; simp; bv_omega

/-- STROKES OFF keeps the log (R31). -/
theorem stopReader_logOk (name) (s : State) (h : LogOk s.log) (hn : name ≠ .translator) : LogOk (stopReader name
    s).log := by
  have hb := (h.2.2 name).2
  rw [readerBalances_iff] at hb
  unfold stopReader; dsimp only
  refine LogOk.setReader h _ _ (fun hc => absurd hc hn) ⟨by simp [recordsWaiting], by simp, ?_⟩
  simp; bv_omega

/-- A record delivered or taken keeps the log (R29, R32). -/
theorem passRecord_logOk (name) {g : StrokeLog} (h : LogOk g) (hc : (g.reader name).cursor ≠ g.head) (hon :
    (g.reader name).on = true) : LogOk (g.setReader name (passRecord (g.reader name))) := by
  have hb := h.2.2 name
  rw [readerBalances_iff] at hb
  refine LogOk.setReader h _ _ (fun _ => hon) ⟨?_, by simp [passRecord, hon], ?_⟩
  · have := hb.1.1; simp only [recordsWaiting, passRecord] at *; bv_omega
  · simp only [passRecord]; bv_omega

end Sys2Proof.Machine
end

