-- ==== Sys2Proof/Laws/Rest.lean ====
section
/-! SUPPORT. The end of an event on a part that was at rest: which changes leave nothing to reach, no
passage to DOZE, and the attention output as it was. -/

namespace Sys2Proof.Machine

/-- An answer queue is full when it holds 4 answers (R171). -/
theorem answersFull_iff (s : State) (port : Port) :
    answersFull s port = true ↔ 4 ≤ (s.port port).answers.length :=
  decide_eq_true_iff

/-- The reach of every listener depends on the journal and the open holds alone. -/
theorem reachAll_congr {s t : State} (hj : t.journal = s.journal) (hh : t.holds = s.holds)
    (h : reachAll s = s) : reachAll t = t := by
  have ht : (reachAll t).journal = t.journal := by
    have hs : (reachAll s).journal = s.journal := by rw [h]
    rw [hj, ← hs]
    simp only [reachAll, reachOne, State.setListener, State.listener, hj, hh]
  exact State.eq_of_blocks (by simp [ht])

/-- The end of an event when nothing is left to do but to drive the attention output. -/
theorem eventEnd_quiet {t : State} (hd : dozeReady t = false) (hr : reachAll t = t) :
    eventEnd t = driveAttention t := by
  unfold eventEnd dozeIfReady
  rw [if_neg (by simp [hd]), hr]

/-- The end of an event that leaves the journal and the holds, on a part that was at rest. -/
theorem eventEnd_rested {s t : State} (hr : Rested s) (hj : t.journal = s.journal) (hh : t.holds = s.holds)
    (hd : dozeReady t = false) : eventEnd t = driveAttention t :=
  eventEnd_quiet hd (reachAll_congr hj hh hr.2.1)

/-- The attention output stands when nothing it is driven by has changed. -/
theorem driveAttention_rested {s t : State} (hr : Rested s) (hp : t.ports = s.ports)
    (hj : t.journal = s.journal) (hl : t.log = s.log) : driveAttention t = t := by
  have h : attentionLevel t = t.ports.attention := by
    rw [hp, hr.2.2]
    simp only [attentionLevel, streamOffered, State.listener, hp, hj, hl]
  rw [driveAttention, h]

/-- The end of an event that touches neither ports, journal, holds nor log, on a part that was at rest. -/
theorem eventEnd_same {s t : State} (hr : Rested s) (hp : t.ports = s.ports) (hj : t.journal = s.journal)
    (hh : t.holds = s.holds) (hl : t.log = s.log) (hd : dozeReady t = false) : eventEnd t = t := by
  rw [eventEnd_rested hr hj hh hd, driveAttention_rested hr hp hj hl]

/-- The attention output after an answer is queued, when nothing else on the Machine port has changed. -/
theorem driveAttention_pushReply {s t : State} {port : Port} {r : Reply}
    (hs : s.ports.attention = attentionLevel s) (hp : t.ports = s.ports)
    (hj : t.journal = s.journal) (hl : t.log = s.log) :
    driveAttention (pushReply port r t) = replied port r t := by
  have hlevel : attentionLevel t = s.ports.attention := by
    rw [hs]
    simp only [attentionLevel, streamOffered, State.listener, hp, hj, hl]
  cases port
  · simp [driveAttention, replied, pushReply, attentionLevel, State.setPort, State.port, Ports.set, Ports.get]
  · rw [driveAttention, show attentionLevel (pushReply .station _ t) = attentionLevel t from rfl, hlevel, ← hp]
    rfl
  · rw [driveAttention, show attentionLevel (pushReply .feed _ t) = attentionLevel t from rfl, hlevel, ← hp]
    rfl

/-- A request on a part at rest whose owner leaves ports, journal, log and holds as they are. -/
theorem takeRequest_quiet {s t : State} {port : Port} {k : RequestKind} {owner : State → State × Verdict}
    {v : Verdict} (hr : Rested s) (ht : Takes port k s) (ho : owner s = (t, v)) (hp : t.ports = s.ports)
    (hj : t.journal = s.journal) (hh : t.holds = s.holds) (hl : t.log = s.log)
    (hd : dozeReady t = false) :
    takeRequest port k owner s = answered port k v.status v.fields t := by
  unfold takeRequest answerWith
  rw [if_neg (by simp [ht.1]), if_pos ht.2, ho]
  have hd' : dozeReady (pushReply port (.answer (kindCode k) v.status v.fields) t) = false := by
    simpa [dozeReady, loadPaused] using hd
  rw [eventEnd_quiet hd' (reachAll_congr (s := s) (by simpa using hj) (by simpa using hh) hr.2.1)]
  exact driveAttention_pushReply hr.2.2 hp hj hl

/-- A request that is taken, whatever its owner does. -/
theorem takeRequest_taken {s : State} {port : Port} {k : RequestKind} {owner : State → State × Verdict}
    (ht : Takes port k s) :
    takeRequest port k owner s
      = eventEnd (pushReply port (.answer (kindCode k) (owner s).2.status (owner s).2.fields) (owner s).1) := by
  unfold takeRequest answerWith
  rw [if_neg (by simp [ht.1]), if_pos ht.2]

/-- A request on a part at rest whose owner leaves the journal and the holds as they are. -/
theorem takeRequest_rested {s t : State} {port : Port} {k : RequestKind} {owner : State → State × Verdict}
    {v : Verdict} (hr : Rested s) (ht : Takes port k s) (ho : owner s = (t, v))
    (hj : t.journal = s.journal) (hh : t.holds = s.holds) (hd : dozeReady t = false) :
    takeRequest port k owner s
      = driveAttention (pushReply port (.answer (kindCode k) v.status v.fields) t) := by
  rw [takeRequest_taken ht, ho]
  exact eventEnd_rested hr (by simpa using hj) (by simpa using hh) (by simpa [dozeReady, loadPaused] using hd)

/-- A request on a part at rest that its owner refuses. -/
theorem takeRequest_refused {s : State} {port : Port} {k : RequestKind} {owner : State → State × Verdict}
    {v : Verdict} (hr : Rested s) (ht : Takes port k s) (ho : owner s = (s, v)) :
    takeRequest port k owner s = answered port k v.status v.fields s :=
  takeRequest_quiet hr ht ho rfl rfl rfl rfl hr.1

end Sys2Proof.Machine
end

