-- ==== Sys2Proof/Laws/Reach.lean ====
section
/-! SUPPORT. The reach of the listeners: what it makes of each, that it leaves nothing to reach, and that the
end of an event leaves the part at rest. -/

namespace Sys2Proof.Machine

/-- What waits after one entry is passed. -/
theorem waitingEntries_pass (j : Journal) (l : Listener) (e es) (h : ListenerStands j l) (hw : waitingEntries j
    l = e :: es) : waitingEntries j { l with cursor := l.cursor + 1 } = es := by
  have hlen := waitingEntries_length j l h.1
  have h1 := h.1
  rw [hw, List.length_cons] at hlen
  have hz : (j.head - l.cursor).toNat ≠ 0 := by omega
  unfold waitingEntries at *
  dsimp only
  have e1 : (j.head - (l.cursor + 1)).toNat = (j.head - l.cursor).toNat - 1 := by clear hw hlen h1; bv_omega
  have e2 : j.entries.length - (j.head - (l.cursor + 1)).toNat = (j.entries.length - (j.head - l.cursor).toNat) + 1 := by omega
  rw [e2, ← List.drop_drop, hw]; rfl

/-- A listener that can reach nothing stays. -/
theorem reachThrough_stopped (holds) (es) (l : Listener) (h : canReach l = false) : reachThrough holds es l = l
    := by
  cases es with
  | nil => rfl
  | cons e r => unfold reachThrough; rw [if_neg (by simp [h])]

/-- A listener that has reached as far as it can reaches no further. -/
theorem reachThrough_again (holds) (j : Journal) (es) (l : Listener) (h : ListenerStands j l) (hw :
    waitingEntries j l = es) :
    reachThrough holds (waitingEntries j (reachThrough holds es l)) (reachThrough holds es l) = reachThrough
       holds es l := by
  induction es generalizing l with
  | nil => show reachThrough holds (waitingEntries j l) l = l; rw [hw]; rfl
  | cons e rest ih =>
    have hne : (j.head - l.cursor).toNat ≠ 0 := by rw [← waitingEntries_length j l h.1, hw]; simp
    cases hc : canReach l with
    | false => rw [reachThrough_stopped _ _ _ hc, reachThrough_stopped _ _ _ hc]
    | true =>
      have hm : l.mode ≠ .off := by simp [canReach] at hc; exact hc.1.1.1
      have hs := pass_stands h hne hm
      have step := ih _ hs (waitingEntries_pass j l e rest h hw)
      have hun : reachThrough holds (e :: rest) l = match entryOutcome l e.body with
        | .deliver => l
        | .pass => reachThrough holds rest { l with cursor := l.cursor + 1 }
        | .judgeHold => if holdEntryOpen holds e then stopAt e l else reachThrough holds rest { l with cursor := l.cursor + 1 } := by
        conv => lhs; unfold reachThrough
        exact if_pos hc
      cases ho : entryOutcome l e.body with
      | deliver =>
        rw [ho] at hun
        dsimp only at hun
        rw [hun, hw, hun]
      | pass => rw [ho] at hun; dsimp only at hun; rw [hun]; exact step
      | judgeHold =>
        rw [ho] at hun; dsimp only at hun
        split at hun
        · rename_i hopen
          rw [hun]
          apply reachThrough_stopped
          unfold holdEntryOpen at hopen
          unfold stopAt
          split at hopen
          · simp [canReach]
          · cases hopen
        · rw [hun]; exact step

/-- The reach of one listener leaves the others. -/
theorem reachOne_other (p q : Port) (s : State) (h : q ≠ p) : (reachOne p s).listener q = s.listener q := by
  unfold reachOne; dsimp only; cases p <;> cases q <;> simp_all [State.setListener, State.listener, Journal.setListener, Journal.listener]

/-- The reach of one listener leaves the ring. -/
theorem reachOne_ring (p : Port) (s : State) : (reachOne p s).journal.head = s.journal.head ∧ (reachOne p
    s).journal.entries = s.journal.entries := by
  unfold reachOne; cases p <;> simp [State.setListener, Journal.setListener]

/-- What waits depends on the ring and the listener alone. -/
theorem waitingEntries_congr (j k : Journal) (l : Listener) (h1 : k.head = j.head) (h2 : k.entries = j.entries)
    : waitingEntries k l = waitingEntries j l := by
  unfold waitingEntries; rw [h1, h2]

/-- Each listener after every listener has reached what it can. -/
theorem reachAll_listener (q : Port) (s : State) : (reachAll s).listener q = reachThrough s.holds.holds
    (waitingEntries s.journal (s.listener q)) (s.listener q) := by
  have self : ∀ (p : Port) (s : State), (reachOne p s).listener p = reachThrough s.holds.holds (waitingEntries s.journal (s.listener p)) (s.listener p) := by
    intro p s; unfold reachOne; cases p <;> simp [State.setListener, State.listener, Journal.setListener, Journal.listener]
  unfold reachAll
  cases q with
  | machine => rw [reachOne_other _ _ _ (by simp), reachOne_other _ _ _ (by simp), self]
  | station =>
    rw [reachOne_other _ _ _ (by simp), self, reachOne_other _ _ _ (by simp)]
    rw [waitingEntries_congr _ _ _ (reachOne_ring .machine s).1 (reachOne_ring .machine s).2]; rfl
  | feed =>
    rw [self, reachOne_other _ _ _ (by simp), reachOne_other _ _ _ (by simp)]
    rw [waitingEntries_congr _ _ _ (reachOne_ring .station _).1 (reachOne_ring .station _).2, waitingEntries_congr _ _ _ (reachOne_ring .machine s).1 (reachOne_ring .machine s).2]; rfl

/-- When no listener reaches further, nothing changes. -/
theorem reachAll_of_fixed (s : State) (h : ∀ q, reachThrough s.holds.holds (waitingEntries s.journal (s.listener
    q)) (s.listener q) = s.listener q) : reachAll s = s := by
  have one : ∀ p, reachOne p s = s := by
    intro p; unfold reachOne; dsimp only; rw [h p]; cases p <;> rfl
  unfold reachAll; rw [one, one, one]

/-- After every listener has reached what it can, nothing is left to reach. -/
theorem reachAll_again (s : State) (h : JournalOk s.journal) : reachAll (reachAll s) = reachAll s := by
  apply reachAll_of_fixed
  intro q
  have e1 : (reachAll s).journal.head = s.journal.head ∧ (reachAll s).journal.entries = s.journal.entries := by
    unfold reachAll
    have a := reachOne_ring .machine s
    have b := reachOne_ring .station (reachOne .machine s)
    have c := reachOne_ring .feed (reachOne .station (reachOne .machine s))
    exact ⟨c.1.trans (b.1.trans a.1), c.2.trans (b.2.trans a.2)⟩
  rw [reachAll_listener, waitingEntries_congr _ _ _ e1.1 e1.2, show (reachAll s).holds = s.holds by simp]
  exact reachThrough_again _ _ _ _ (h.2.2.2 q) rfl

/-- The end of an event leaves the part between events. -/
theorem eventEnd_journal_rested (s : State) (h : JournalOk s.journal) : Rested (eventEnd s) := by
  have hd : dozeReady (dozeIfReady s) = false := by
    unfold dozeIfReady
    split
    · unfold enterDoze; simp [dozeReady]
    · rename_i h; simpa using h
  have hj : JournalOk (dozeIfReady s).journal := by simpa using h
  unfold eventEnd
  refine ⟨?_, ?_, ?_⟩
  · rw [← hd]; simp [dozeReady, loadPaused]
  · exact reachAll_congr (s := reachAll (dozeIfReady s)) (by simp) (by simp) (reachAll_again _ hj)
  · simp [driveAttention, attentionLevel, streamOffered, State.listener]

end Sys2Proof.Machine
end

