-- ==== Sys2Proof/Tests/Slice0.lean ====
section
/-! SUPPORT. Tests: an ill-formed command for each check of WellFormed, and the worked examples of the
spec. Every expected value is the spec's own; the chapter of each stands in its docstring. -/

namespace Sys2Proof.Tests

open Sys2Proof.Machine

-- One test after another: each runs in the kernel, and many at once would hold a thread each.
set_option Elab.async false

/-! ### WellFormed refuses -/

/-- An entry with a text. -/
def entryOf (text : Text) : Entry :=
  { text := text, flags := ⟨false, false, false, false, false⟩, condition := 0, alternate := none,
    command := .none }

theorem test_wellFormed_scan : wellFormed (.scan (List.replicate 31 0)) = false := by decide

theorem test_wellFormed_lineSet : wellFormed (.lineSet .machine 256 .mark none none none) = false ∧
    wellFormed (.lineSet .machine 0 .steno (some 256) none none) = false ∧
    wellFormed (.lineSet .machine 0 .mark none (some 256) none) = false ∧
    wellFormed (.lineSet .machine 0 .mark none none (some 256)) = false := by decide

theorem test_wellFormed_captureSet :
    wellFormed (.captureSet .machine (some 65536) none none) = false ∧
    wellFormed (.captureSet .machine none (some 256) none) = false ∧
    wellFormed (.captureSet .machine none none (some 65536)) = false := by decide

theorem test_wellFormed_jobs : wellFormed (.jobOpen .machine 65536 true) = false ∧
    wellFormed (.strokesOn .machine .sequence (some 4294967296)) = false := by decide

theorem test_wellFormed_timeSet : wellFormed (.timeSet .machine (some 256) none none none none) = false ∧
    wellFormed (.timeSet .machine none (some 256) none none none) = false ∧
    wellFormed (.timeSet .machine none none (some 65536) none none) = false := by decide

theorem test_wellFormed_load : wellFormed (.loadBegin .machine 4294967296) = false ∧
    wellFormed (.loadData .machine 4294967296 []) = false ∧
    wellFormed (.loadData .machine 0 (List.replicate 247 0)) = false := by decide +kernel

theorem test_wellFormed_define : wellFormed (.define .station (List.replicate 256 1) (entryOf []) 0) = false ∧
    wellFormed (.define .station [16777216] (entryOf []) 0) = false ∧
    wellFormed (.define .station [1] (entryOf (List.replicate 256 65)) 0) = false ∧
    wellFormed (.define .station [1] { entryOf [] with condition := 256 } 0) = false ∧
    wellFormed (.define .station [1] { entryOf [] with alternate := some (List.replicate 256 65) } 0) = false ∧
    wellFormed (.define .station [1] { entryOf [] with command := .speaker 256 } 0) = false ∧
    wellFormed (.define .station [1] (entryOf []) 256) = false ∧
    wellFormed (.undefine .station [16777216]) = false := by decide +kernel

theorem test_wellFormed_tables : wellFormed (.foldSet .station 256 true none none) = false ∧
    wellFormed (.foldSet .station 0 true (some 256) none) = false ∧
    wellFormed (.foldSet .station 0 true none (some (List.replicate 256 65))) = false ∧
    wellFormed (.speakerSet .station 256 []) = false ∧
    wellFormed (.speakerSet .station 0 (List.replicate 256 65)) = false := by decide +kernel

theorem test_wellFormed_settings : wellFormed (.translateSet .station (some 65536) none) = false ∧
    wellFormed (.translateSet .station none (some 16777216)) = false ∧
    wellFormed (.holdLimitExpiry 0) = false ∧ wellFormed (.holdLimitExpiry 256) = false ∧
    wellFormed (.holdLimitSet .machine 256) = false ∧ wellFormed (.idleSet .machine 256) = false ∧
    wellFormed (.wakeSet .machine (some 16777216) none none) = false ∧
    wellFormed (.wakeSet .machine none (some 256) none) = false ∧
    wellFormed (.wakeSet .machine none none (some 65536)) = false := by decide

theorem test_wellFormed_ports : wellFormed (.unknownKind .machine 1) = false ∧
    wellFormed (.feedSet .machine (some 256) none) = false ∧
    wellFormed (.feedSet .machine none (some 256)) = false ∧
    wellFormed (.feedQuery .feed (List.replicate 250 0)) = false := by decide +kernel

/-! ### Helpers -/

/-- The chord of a list of key indexes. -/
def chord (keys : List Nat) : Chord := keys.foldl (fun c k => c ||| keyChord k) 0

/-- The part after one command; no command of this model faults or is refused. -/
def after (i : Instr) (s : State) : State :=
  match exec i s with
  | .next t => t
  | .fault _ => s
  | .refused _ => s

/-- The part at a tick. -/
def atTick (n : Nat) (s : State) : State := { s with time := { s.time with tick := BitVec.ofNat 32 n } }

/-- Depths with 200 on the lines given and 0 elsewhere. -/
def depths (lines : List Nat) : List Byte := (List.range 32).map (fun n => if lines.contains n then 200 else 0)

/-- The part after reset with some lines accepted pressed. -/
def pressing (lines : List Nat) : State :=
  { State.reset with capture := { State.reset.capture with
      lines := (List.range 32).map (fun n => { Line.atReset n with pressed := lines.contains n }) } }

/-- The part with an open stroke of destination LOG. -/
def opened (keys : Chord) (tick : Tick) (stamp : Stamp) (s : State) : State :=
  { s with capture := { s.capture with assembler :=
      { state := .gathering, chord := keys, openTick := tick, stamp := some stamp, limit := 1500,
        destination := .log } } }

/-- The part with the reference of the examples of chapters 1 and 3. -/
def referenced (tref : Nat) (lref : Tick) (s : State) : State :=
  { s with time := { s.time with
      state := .frame, present := true, quality := .unchecked, tref := tref, lref := lref } }

/-! ### Key sensing and stroke assembly (chapter 1) -/

/-- Chapter 1, a stroke with rollover: the second scan accepts the press and stamps the opening. -/
theorem test_rollover_opens :
    let s := referenced 43509500 39900 (atTick 40000 (after (.scan (depths [3])) State.reset))
    (after (.scan (depths [3])) s).capture.assembler
      = { state := .gathering, chord := chord [3], openTick := 40000,
          stamp := some { ms := 43509524, quality := .unchecked }, limit := 1500, destination := .log } := by
  decide

/-- Chapter 1, a stroke with rollover: the record of the close at tick 40,410. -/
theorem test_rollover_closes :
    let s := opened (chord [3, 8, 19, 20]) 40000 { ms := 43509524, quality := .unchecked } (pressing [8, 20])
    let t := after (.scan (depths [])) (atTick 40410 (after (.scan (depths [])) s))
    t.log.records.map (fun r => r.body)
      = [.stroke 1573128 { ms := 43509524, quality := .unchecked } 100 false] ∧
    (runningTally t.counters .strokes).value = 1 := by decide

/-- Chapter 1, a held stroke: the limit of 1,500 ms is 6,144 ticks. -/
theorem test_held_stroke :
    let s := opened (chord [1, 2]) 100000 { ms := 0, quality := .free } (pressing [1, 2])
    (after .strokeLimitExpiry (atTick 106143 s)).log.records = [] ∧
    ((after .strokeLimitExpiry (atTick 106144 s)).log.records.map (fun r => r.body)
      = [.stroke (chord [1, 2]) { ms := 0, quality := .free } 1500 true]) := by decide

/-- Chapter 1, a line disabled in the middle of a stroke: the request closes it with duration 49 ms. -/
theorem test_line_toggle_closes :
    let s := atTick 60200 (opened (chord [2, 15]) 60000 { ms := 0, quality := .free } (pressing [15]))
    let t := after (.lineToggle .machine 0x00008000) s
    t.log.records.map (fun r => r.body) = [.stroke 32772 { ms := 0, quality := .free } 49 false] ∧
    t.ports.machine.answers = [.answer 19 .ok [0xFF, 0x7F, 0xFF, 0xFF]] := by decide

/-- Chapter 1, configuring a split key: line 23 as a second S- key. -/
theorem test_line_set :
    (after (.lineSet .machine 23 .steno (some 1) (some 128) (some 96)) State.reset).capture.lines[23]?
      = some { role := .steno 1, press := 128, release := 96, enabled := true, pressed := false, count := 0 } := by
  decide

/-! ### The Stroke Log (chapter 2) -/

/-- Chapter 2, marks and a job boundary: JOB OPEN 7 while job 6 is open. -/
theorem test_job_open :
    let s := { State.reset with log := { State.reset.log with job := 6 } }
    let t := after (.jobOpen .machine 7 false) s
    t.log.records.map (fun r => r.body) = [.job 7 6 false { ms := 0, quality := .free }] ∧ t.log.job = 7 ∧
    t.ports.machine.answers = [.answer 11 .ok [0, 0, 0, 0, 6, 0]] := by decide

/-- Chapter 2, a station copy begun from an old sequence, with 1,000 records held for 4,096: the distance
is 5,000 and 4,000 are lost. -/
theorem test_strokes_on_old_sequence :
    let g := State.reset.log
    let s := { State.reset with log := { g with
      head := 10000, records := (List.range 1000).map (fun i => { seq := BitVec.ofNat 32 (9000 + i), body := .mark { ms := 0, quality := .free } }) } }
    let t := after (.strokesOn .station .sequence (some 5000)) s
    t.log.station.cursor = 9000 ∧ t.log.station.lost = 4000 ∧ t.log.station.inRun = true ∧
    (runningTally t.counters .logLosses).value = 1 := by decide +kernel

/-- Chapter 11, copying the record: record 5,001 with the head at 120 is out of range. -/
theorem test_strokes_on_unwritten :
    let s := { State.reset with log := { State.reset.log with head := 120 } }
    (after (.strokesOn .station .sequence (some 5001)) s).ports.station.answers
      = [.answer 9 .outOfRange []] := by decide

/-! ### Time following (chapter 3) -/

/-- Cells of a number, most significant first. -/
def cellsOf (width v : Nat) : List Bool := (List.range width).map (fun i => v.testBit (width - 1 - i))

/-- The 64 cells of a frame, as the table of R183 lays them out. -/
def frame (hours minutes seconds number position take check : Nat) : List Bool :=
  syncPattern ++ cellsOf 5 hours ++ cellsOf 6 minutes ++ cellsOf 6 seconds ++ cellsOf 5 number
    ++ cellsOf 3 position ++ cellsOf 16 take ++ cellsOf 8 check ++ [false, false, false]

/-- The follower in FRAME at the end of a frame of given cells and frame tick. -/
def frameEnded (cells : List Bool) (tick : Tick) (s : State) : State :=
  { s with time := { s.time with state := .frame, cells := cells, frameTick := tick, frameDue := true } }

/-- Chapter 3, stamping a stroke: frame 12:05:09:14 gives the reference 43,509,467. -/
theorem test_first_reference :
    let t := after .frameCompletion (frameEnded (frame 12 5 9 14 1 770 0) 1000000 State.reset)
    t.time.tref = 43509467 ∧ t.time.lref = 1000000 ∧ t.time.quality = .unchecked ∧ t.log.records = [] := by
  decide

/-- Chapter 3, stamping a stroke: 73 ticks later the stamp is 43,509,485. -/
theorem test_stamp : stampMs (referenced 43509467 1000000 State.reset).time 1000073 = 43509485 := by decide

/-- Chapter 3, a step confirmed: the first frame becomes the candidate. -/
theorem test_step_candidate :
    let s := referenced 43509500 1000137 State.reset
    let t := after .frameCompletion (frameEnded (frame 12 6 40 0 1 770 0) 1000274 s)
    t.time.step = some (43600000, 1000274) ∧ t.time.tref = 43509500 := by decide

/-- Chapter 3, a step confirmed: the second frame takes the step. -/
theorem test_step_taken :
    let s := referenced 43509500 1000137 State.reset
    let s := { s with time := { s.time with step := some (43600000, 1000274) } }
    let t := after .frameCompletion (frameEnded (frame 12 6 40 1 1 770 0) 1000411 s)
    t.time.tref = 43600033 ∧ t.time.step = none ∧
    t.log.records.map (fun r => r.body) = [.timestep 43509567 43600033 .unchecked] ∧
    (runningTally t.counters .timeSteps).value = 1 := by decide

/-- Chapter 3, midnight: 205 ticks after a reference of 86,399,990 the stamp is 40. -/
theorem test_stamp_midnight : stampMs (referenced 86399990 0 State.reset).time 205 = 40 := by decide

/-- Chapter 3, the block sum: 8 frames of 12:05:09, take word 770, numbers 0 to 7 sum to 20. -/
theorem test_block_sum :
    blockSum ((List.range 8).map (fun n => (decodeFrame (frame 12 5 9 n n 770 0)).summary)) = 20 := by decide

/-- Chapter 3, lock: the third sync word at the candidate declares frame lock without ALIGN_CHANGES. -/
theorem test_frame_lock :
    let t0 := State.reset.time
    let s := { State.reset with time := { t0 with
      cellCounter := 11, candidate := some { position := 12, count := 2 }, cells := syncPattern.dropLast } }
    let t := after (.cellDecoded true) s
    t.time.state = .frame ∧ t.time.alignment = 12 ∧ t.time.window = 1 ∧ t.time.quality = .free ∧
    (runningTally t.counters .alignChanges).value = 0 := by decide

/-! ### The Dictionary Store (chapter 4) -/

/-- Chapter 4, hashing two keys: buckets 273 and 8,480. -/
theorem test_buckets :
    bucketOf { exponent := 16, seed := 0, probe := 4 } [524552] = 273 ∧
    bucketOf { exponent := 16, seed := 0, probe := 4 } [524552, 1048576] = 8480 := by decide

/-- The CRC of chapter 4 over the characters 1 to 9, the check value of its polynomial. -/
theorem test_crc : crc32 [0x31, 0x32, 0x33, 0x34, 0x35, 0x36, 0x37, 0x38, 0x39] = 0xCBF43926 := by decide +kernel

/-- The slots of a Job table: key, whether real, extension count. -/
def slots (s : State) : List (List Nat × Bool × Nat) :=
  s.dict.job.map (fun x => (x.key.map (fun c => c.toNat), x.entry.isSome, x.extensions))

/-- The part with KAL, HRAOE and -R defined. -/
def defined : State := after (.define .station [131336, 3008, 16384] (entryOf [0x4B]) 0) State.reset

/-- Chapter 4, defining a name: three slots, two of them prefix-only with count 1. -/
theorem test_define : slots defined = [([131336], false, 1), ([131336, 3008], false, 1), ([131336, 3008, 16384], true, 0)] ∧
    defined.ports.station.answers = [.answer 29 .ok [0, 3, 0]] := by decide

/-- Chapter 4, removing a name: UNDEFINE frees its slot and lowers its prefixes. -/
theorem test_undefine :
    let s := after (.define .station [131336, 3008] (entryOf [0x4B]) 0) defined
    slots s = [([131336], false, 2), ([131336, 3008], true, 1), ([131336, 3008, 16384], true, 0)] ∧
    slots (after (.undefine .station [131336, 3008, 16384]) s)
      = [([131336], false, 1), ([131336, 3008], true, 0)] := by decide

/-- The part loading from the Machine port, 480 bytes received. -/
def loading : State :=
  { State.reset with dict := { State.reset.dict with
      layer := .loading, claim := .machine, total := 3000000, received := 480, inactivity := some 0 } }

/-- Chapter 4, a load left to time out: the answers of the other port and of a resent block. -/
theorem test_load_refusals :
    (after (.loadBegin .station 1000000) loading).ports.station.answers = [.answer 13 .busy []] ∧
    (after (.loadData .machine 240 (List.replicate 240 1)) loading).ports.machine.answers
      = [.answer 14 .outOfOrder [0xE0, 1, 0, 0]] := by decide +kernel

/-- Chapter 4, a load left to time out: 5 s are 20,480 ticks. -/
theorem test_inactivity :
    (after .inactivityTimeout (atTick 20479 loading)).dict.layer = .loading ∧
    (after .inactivityTimeout (atTick 20480 loading)).dict.layer = .empty ∧
    (after .inactivityTimeout (atTick 20480 loading)).dict.received = 480 := by decide

/-! ### Translation (chapter 5) -/

/-- Chapter 5, the table of number conversion. -/
theorem test_numbers :
    [[0, 1, 2], [0, 8, 9], [0, 1, 11, 12, 19], [0, 5, 21], [0, 6, 21], [0, 1, 2, 22], [0, 2, 11]].map
      (fun k => isNumber (chord k)) = [true, true, true, false, true, true, false] ∧
    numberText (chord [0, 1, 2]) = [0x31, 0x32] ∧ numberText (chord [0, 8, 9]) = [0x35, 0x30] ∧
    numberText (chord [0, 1, 11, 12, 19]) = [0x39, 0x31] ∧ numberText (chord [0, 6, 21]) = [0x34, 0x34] ∧
    numberText (chord [0, 6, 21, 22]) = [0x34, 0x34, 0x30, 0x30] ∧
    numberText (chord [0, 1, 2, 22]) = [0x31, 0x32, 0x30, 0x30] := by decide

/-- Chapter 1: the untranslate of the stroke with rollover is KATS. -/
theorem test_outline : outline 1573128 = [0x4B, 0x41, 0x54, 0x53] := by decide

/-- The part with one stroke logged, to be taken next. -/
def logged (c : Chord) (s : State) : State :=
  appendRecord (.stroke c { ms := 0, quality := .free } 100 false) s

/-- Chapter 5, a two-stroke word: HAOEU waits as provisional text "High". -/
theorem test_stroke_waits :
    let s := after (.define .station [6976, 264] (entryOf [0x68, 0x69, 0x67, 0x68, 0x20, 0x73]) 0)
      (after (.define .station [6976] (entryOf [0x68, 0x69, 0x67, 0x68]) 0) State.reset)
    let t := after .translatorTake (logged 6976 s)
    t.journal.entries.map (fun e => e.body) = [.put 1 0 [0x48, 0x69, 0x67, 0x68]] ∧
    t.trans.settleTimer = some 0 ∧ t.trans.window.length = 1 := by decide

/-- Chapter 5, a name defined after it was written: KAL is settled at once as a RAW unit. -/
theorem test_untranslate :
    let t := after .translatorTake (logged 131336 State.reset)
    t.journal.entries.map (fun e => e.body)
      = [.put 1 0 [0x4B, 0x41, 0x4C], .fix 1 [0x4B, 0x41, 0x4C] { ms := 0, quality := .free }] ∧
    (runningTally t.counters .untranslates).value = 1 := by decide

/-- Chapter 5: a delete with nothing to take back is dead. -/
theorem test_dead_delete :
    let t := after .translatorTake (logged 1024 State.reset)
    t.journal.entries = [] ∧ (runningTally t.counters .deletes).value = 1 ∧
    (runningTally t.counters .deadDeletes).value = 1 := by decide

/-! ### The journal, holds and power (chapters 6 to 8) -/

/-- Chapter 6, a tail drained by deletes: 40 characters taken from a tail of 11 leave it empty. -/
theorem test_tail_drained : tailRemove (List.replicate 11 0x61) 40 = [] ∧
    tailAdd [] (List.replicate 12 0x61) = List.replicate 12 0x61 := by decide

/-- The part with two holds open and the next id 14. -/
def held : State :=
  let h (id : Nat) (source : HoldSource) : OpenHold :=
    { id := id, source := source, owner := none, position := 0, openTick := 0, age := 491520 }
  { State.reset with holds := { holds := [h 12 .machine, h 255 .line], nextId := 255, limit := 2 } }

/-- Chapter 7: ids wrap from 255 to 1, passing those of open holds. -/
theorem test_hold_id : (after (.hold .station) held).ports.station.answers = [.answer 7 .ok [1, 1]] ∧
    (after (.hold .machine) held).ports.machine.answers = [.answer 7 .ok [12, 0]] := by decide

/-- Chapter 7, a sidebar cut short: 2 min are 491,520 ticks. -/
theorem test_hold_limit :
    ((after (.holdLimitExpiry 12) held).holds.holds.map (fun h => h.id)) = [255] ∧
    ((after (.unhold .machine) held).journal.entries.map (fun e => e.body)) = [.release 12] := by decide

/-- Chapter 8: 30 min are 7,372,800 ticks, and an idle part with nothing open dozes at once. -/
theorem test_idle_doze :
    (after .idleTimerExpiry (atTick 7372799 State.reset)).power.part = .ready ∧
    (after .idleTimerExpiry (atTick 7372800 State.reset)).power.part = .doze ∧
    (after .idleTimerExpiry (atTick 7372800 State.reset)).power.reason = .idle := by decide

/-- Chapter 8, the wake pattern: the third stroke within the gap wakes the part. -/
theorem test_wake_pattern :
    let s := after (.doze .machine) State.reset
    let s := { s with wake := { s.wake with count := 2, lastMatch := 1022500, gapTimer := true } }
    let t := judgeWake 254 1025000 (atTick 1025180 s)
    t.power.part = .ready ∧ t.power.causes.pattern = true ∧ t.wake.count = 0 ∧
    t.log.records.map (fun r => r.body) = [.wake .pattern { ms := 250288, quality := .free }] := by decide

/-- Chapter 8, the wake pattern with a bump: another chord counts the stroke and the run of 1. -/
theorem test_wake_bump :
    let s := after (.doze .machine) State.reset
    let s := { s with wake := { s.wake with count := 1, lastMatch := 1000000, gapTimer := true } }
    let t := judgeWake (chord [3, 8, 19]) 1002000 s
    (runningTally t.counters .bumps).value = 2 ∧ t.wake.count = 0 ∧ t.wake.gapTimer = false := by decide

/-! ### Counters and ports (chapters 9 and 10) -/

/-- Chapter 9, saturation: 9 wrong cells bring 65,530 to 65,535 with the notice of counter 7. -/
theorem test_saturation :
    let q := State.reset.counters
    let s := after (.noticesSet .machine 127) { State.reset with counters :=
      { q with snapNumber := 57, running := q.running.set 6 { value := 65530, mark := false } } }
    let t := countEvents .syncErrors 9 s
    runningTally t.counters .syncErrors = { value := 65535, mark := true } ∧
    t.ports.machine.notices.map (fun n => n.fields.take 5) = [[7, 58, 0, 0, 0]] ∧
    (countEvents .syncErrors 4 t).ports = t.ports := by decide

/-- Chapter 9, saturation: 1,228,800 ticks are 300,000 ms. -/
theorem test_snapshot :
    let q := State.reset.counters
    let s := { State.reset with counters := { q with auto := false, intervalAge := 1228800, snapNumber := 57 } }
    let t := after (.countersSnap .machine) s
    t.counters.snapInterval = 300000 ∧ t.counters.snapNumber = 58 ∧ t.counters.snapCause = .machine ∧
    t.counters.intervalAge = 0 := by decide

/-- The bytes received one after another on a port. -/
def heardOn (port : Port) (l : List Byte) : State :=
  l.foldl (fun s b => after (.receiveByte port b) s) State.reset

/-- Chapter 10, frames on the Station port: a broken frame is judged again and the next is found. -/
theorem test_rescan :
    let t := heardOn .station [0xC3, 1, 247, 0xC3, 1, 1, 254]
    t.ports.station.receive = .hunt ∧ t.ports.station.answers.length = 1 ∧
    (runningTally t.counters .badFrames).value = 1 := by decide

/-- Chapter 10: a query to address 1 is 0xC3, 3, 34, 1, 0, 218, and it is answered. -/
theorem test_feed_query : buildFrame 34 [1, 0] = [0xC3, 3, 34, 1, 0, 218] ∧
    (heardOn .feed [0xC3, 3, 34, 1, 0, 218]).ports.feed.answers.length = 1 ∧
    (heardOn .feed [0xC3, 3, 34, 2, 0, 217]).ports.feed.answers = [] := by decide

/-- Chapter 10: the Machine port sends the start code of what waits, and 0 with nothing waiting. -/
theorem test_exchange : (heardOn .machine [0]).ports.lastOut = 0 ∧
    (after (.receiveByte .machine 0) (after (.status .machine) State.reset)).ports.lastOut = 0xC3 := by decide

/-! ### The step -/

/-- No row of the operation table has bits (log entry 34). -/
theorem test_no_word : decodeTableWord 8 0 = none ∧ State.reset.withFetchWord 8 0 = State.reset := by decide

/-- On an empty queue one tick passes (log entry 1). -/
theorem test_tick : (match step State.reset with
    | .next t => t.time.tick == 1 && t.pending == []
    | .fault _ => false
    | .refused _ => false) = true := by decide

end Sys2Proof.Tests
end

