-- ==== Sys2Proof/Tests/Witnesses.lean ====
section
/-! SUPPORT. Witnesses: for each statement with hypotheses, concrete states and operands that meet them,
clause by clause, at the boundaries where the clauses meet. -/

namespace Sys2Proof.Tests

open Sys2Proof.Machine

-- One test after another: each runs in the kernel, and many at once would hold a thread each.
set_option Elab.async false

/-! ### Deciding the invariants -/

/-- Decides Rested. -/
def restedB (s : State) : Bool :=
  !dozeReady s && decide (reachAll s = s) && s.ports.attention == attentionLevel s

theorem rested_of {s : State} (h : restedB s = true) : Rested s := by
  simp only [restedB, Bool.and_eq_true, Bool.not_eq_true', decide_eq_true_eq, beq_iff_eq] at h
  exact ⟨h.1.1, h.1.2, h.2⟩

/-- Decides Takes. -/
def takesB (port : Port) (k : RequestKind) (s : State) : Bool := !answersFull s port && permitted k port

theorem takes_of {s : State} {port : Port} {k : RequestKind} (h : takesB port k s = true) : Takes port k s := by
  simp only [takesB, Bool.and_eq_true, Bool.not_eq_true'] at h
  exact h

/-- A part at rest with a decidable property. -/
theorem at_rest {s : State} {p : Prop} [Decidable p] (h : (restedB s && decide p) = true) : Rested s ∧ p := by
  simp only [Bool.and_eq_true, decide_eq_true_eq] at h
  exact ⟨rested_of h.1, h.2⟩

/-- A part at rest that takes a request, with a decidable property. -/
theorem asked {s : State} {port : Port} {k : RequestKind} {p : Prop} [Decidable p]
    (h : (restedB s && takesB port k s && decide p) = true) : Rested s ∧ Takes port k s ∧ p := by
  simp only [Bool.and_eq_true, decide_eq_true_eq] at h
  exact ⟨rested_of h.1.1, takes_of h.1.2, h.2⟩

/-- Decides LogOk. -/
def logOkB (g : StrokeLog) : Bool :=
  decide (g.records.length ≤ Config.logCapacity) &&
  decide (g.records.map (fun r => r.seq)
    = (List.range g.records.length).map (fun i => oldestSeq g + BitVec.ofNat 32 i)) &&
  g.translator.on &&
  [ReaderName.translator, .machine, .station].all (fun name =>
    let r := g.reader name
    decide (recordsWaiting g r ≤ g.records.length) && decide (r.on = false → r.cursor = g.head) &&
    decide (g.head = r.passed + r.lost + BitVec.ofNat 32 (recordsWaiting g r)))

theorem logOk_of {g : StrokeLog} (h : logOkB g = true) : LogOk g := by
  simp only [logOkB, Bool.and_eq_true, decide_eq_true_eq, List.all_cons, List.all_nil, Bool.and_true] at h
  obtain ⟨⟨⟨h1, h2⟩, h3⟩, ⟨⟨a1, a2⟩, a3⟩, ⟨⟨b1, b2⟩, b3⟩, ⟨c1, c2⟩, c3⟩ := h
  refine ⟨⟨h1, h2⟩, h3, fun name => ?_⟩
  cases name
  · exact ⟨⟨a1, a2⟩, a3⟩
  · exact ⟨⟨b1, b2⟩, b3⟩
  · exact ⟨⟨c1, c2⟩, c3⟩

/-- Decides NotesStand. -/
def notesB (l : Listener) : Bool :=
  match l.paused, l.notes with
  | none, [] => true
  | none, [.resumed _] => true
  | some _, [] => true
  | some id, [.paused h _] => h == id
  | some id, [.resumed _, .paused h _] => h == id
  | _, _ => false

theorem notes_of {l : Listener} (h : notesB l = true) : NotesStand l := by
  unfold notesB at h
  unfold NotesStand
  split at h <;> simp_all

/-- Decides ListenerStands. -/
def listenerB (j : Journal) (l : Listener) : Bool :=
  decide ((j.head - l.cursor).toNat ≤ j.entries.length) && notesB l &&
  decide (l.paused.isSome = true → l.obeys = true) &&
  decide (l.mode = .off → l.cursor = j.head ∧ l.paused = none ∧ l.repaintPending = false ∧ l.notes = [] ∧ l.run = none)

theorem listener_of {j : Journal} {l : Listener} (h : listenerB j l = true) : ListenerStands j l := by
  simp only [listenerB, Bool.and_eq_true, decide_eq_true_eq] at h
  exact ⟨h.1.1.1, notes_of h.1.1.2, h.1.2, h.2⟩

/-- Decides JournalOk. -/
def journalOkB (j : Journal) : Bool :=
  decide (j.entries.length ≤ Config.journalCapacity) &&
  decide (j.entries.map (fun e => e.position)
    = (List.range j.entries.length).map (fun i =>
        j.head - BitVec.ofNat 32 j.entries.length + BitVec.ofNat 32 i)) &&
  decide (j.liveTail.length ≤ Config.tailCapacity) && decide (j.settledTail.length ≤ Config.tailCapacity) &&
  listenerB j j.machine && listenerB j j.station && listenerB j j.feed

theorem journalOk_of {j : Journal} (h : journalOkB j = true) : JournalOk j := by
  simp only [journalOkB, Bool.and_eq_true, decide_eq_true_eq] at h
  obtain ⟨⟨⟨⟨⟨⟨h1, h2⟩, h3⟩, h4⟩, h5⟩, h6⟩, h7⟩ := h
  refine ⟨⟨h1, h2⟩, h3, h4, fun port => ?_⟩
  cases port
  · exact listener_of h5
  · exact listener_of h6
  · exact listener_of h7

/-- Decides TalliesOk. -/
def talliesB (l : List Tally) : Bool :=
  decide (l.length = 13) &&
  l.all (fun t => decide (t.value ≤ Config.countCeiling) && decide (t.mark = true ↔ t.value = Config.countCeiling))

theorem tallies_of {l : List Tally} (h : talliesB l = true) : TalliesOk l := by
  simp only [talliesB, Bool.and_eq_true, decide_eq_true_eq, List.all_eq_true] at h
  exact h

theorem countersOk_of {q : Counters} (h : (talliesB q.running && talliesB q.snapshot) = true) : CountersOk q := by
  simp only [Bool.and_eq_true] at h
  exact ⟨tallies_of h.1, tallies_of h.2⟩

/-- Decides HoldsOk. -/
def holdsOkB (t : HoldTable) : Bool :=
  decide (t.holds.length ≤ Config.holdCapacity) && decide (1 ≤ t.nextId) && decide (t.nextId ≤ 255) &&
  decide (t.holds.map (fun h => h.id)).Nodup &&
  t.holds.all (fun h => decide (1 ≤ h.id) && decide (h.id ≤ 255) && decide (h.owner.isSome = true ↔ h.source = .command)) &&
  [HoldSource.line, .machine, .station].all (fun x => decide (t.holds.countP (fun h => h.source == x) ≤ 1))

theorem holdsOk_of {t : HoldTable} (h : holdsOkB t = true) : HoldsOk t := by
  simp only [holdsOkB, Bool.and_eq_true, decide_eq_true_eq, List.all_eq_true, List.all_cons, List.all_nil,
    Bool.and_true] at h
  obtain ⟨⟨⟨⟨⟨h1, h2⟩, h3⟩, h4⟩, h5⟩, a, b, c⟩ := h
  refine ⟨h1, h2, h3, h4, fun x hx => ⟨(h5 x hx).1.1, (h5 x hx).1.2, (h5 x hx).2⟩, fun source hs => ?_⟩
  cases source
  · exact a
  · exact b
  · exact c
  · exact absurd rfl hs

/-! ### States -/

/-- A state at the end of its event. -/
abbrev rest (s : State) : State := eventEnd s

/-- The part in a part state with a reason and no idle timer. -/
def powered (part : PartState) (reason : DozeReason) (s : State) : State :=
  { s with
    power := { s.power with part := part, reason := reason, idleTimer := none }
    trans := { s.trans with settleAll := part == .settling } }

/-- The part in SETTLING, kept there by a load that pauses the Translator. -/
def settling (reason : DozeReason) : State := powered .settling reason loading

/-- The part in DOZE. -/
def dozing : State := powered .doze .request State.reset

/-- A port's answer queue holding a number of answers. -/
def withAnswers (port : Port) (n : Nat) (s : State) : State :=
  rest (s.setPort port { s.port port with answers := List.replicate n (.answer 1 .ok []) })

/-- The part with a debounce count of 1. -/
def quick (s : State) : State := { s with capture := { s.capture with debounce := 1 } }

/-- The part with some lines accepted pressed. -/
def press (lines : List Nat) (s : State) : State :=
  { s with capture := { s.capture with
      lines := (List.range 32).map (fun n => { Line.atReset n with pressed := lines.contains n }) } }

/-- The part with the assembler in a state. -/
def assembling (a : AssemblerState) (keys : Chord) (destination : Destination) (s : State) : State :=
  { s with capture := { s.capture with assembler :=
      { state := a, chord := keys, openTick := 0, stamp := some { ms := 0, quality := .free }, limit := 1500,
        destination := destination } } }

/-! ### The queue and what all requests share -/

theorem witness_StepRunsTheFrontCommand :
    { State.reset with pending := [.reset] }.pending = Instr.reset :: [] := rfl

theorem witness_EmptyQueuePassesOneTick : State.reset.pending = [] := rfl

theorem witness_RequestsTurnedAwayHaveNoEffect :
    (requestKind (.hold .station) = some (.station, .hold) ∧ Rested (withAnswers .station 4 State.reset) ∧
      4 ≤ ((withAnswers .station 4 State.reset).port .station).answers.length) ∧
    (requestKind (.hold .feed) = some (.feed, .hold) ∧ Rested (withAnswers .feed 3 State.reset) ∧
      ((withAnswers .feed 3 State.reset).port .feed).answers.length < 4 ∧ permitted .hold .feed = false) :=
  ⟨⟨rfl, at_rest (by decide +kernel)⟩, rfl, at_rest (by decide +kernel)⟩

theorem witness_AttentionFollowsTheMachinePort :
    exec (.status .machine) State.reset = .next (statusRequest .machine State.reset) := rfl

/-! ### Key sensing and stroke assembly -/

/-- Line 0 with a count, pressed or not. -/
def lineZero (pressed : Bool) (count : Nat) (enabled : Bool) : State :=
  let l : Line := { Line.atReset 0 with pressed := pressed, count := count, enabled := enabled }
  { State.reset with capture := { State.reset.capture with lines := State.reset.capture.lines.set 0 l } }

theorem witness_ScanJudgesEveryLine :
    State.reset.capture.lines[23]? = some (Line.atReset 23) ∧ (Line.atReset 23).role = .unused ∧
    ((lineZero false 0 false).capture.lines[0]?.map (fun l => l.enabled)) = some false ∧
    ((lineZero false 0 true).capture.lines[0]?.map (fun l => (l.press, l.count))) = some (128, 0) ∧
    ((lineZero false 1 true).capture.lines[0]?.map (fun l => (l.press, l.count))) = some (128, 1) ∧
    ((lineZero true 1 true).capture.lines[0]?.map (fun l => (l.release, l.pressed))) = some (96, true) ∧
    ¬(128 ≤ (127#8).toNat) ∧ 128 ≤ (128#8).toNat ∧ (95#8).toNat < 96 ∧ ¬((96#8).toNat < 96) := by decide +kernel

/-- What the scan statements assume of a scan: no mark press, no change of the HOLD group. -/
def plainScan (d : List Byte) (s : State) : Bool :=
  let next := scanLines s.capture.debounce s.capture.lines d
  markPresses s.capture.lines next == 0 && holdPressed next == holdPressed s.capture.lines

/-- The keys pressed after a scan. -/
def keysAfter (d : List Byte) (s : State) : Chord :=
  pressedKeys (scanLines s.capture.debounce s.capture.lines d)

theorem witness_ScanOpensAStroke :
    (Rested State.reset ∧ State.reset.capture.assembler.state = .idle ∧ plainScan (depths []) State.reset = true ∧
      keysAfter (depths []) State.reset = 0) ∧
    (Rested (quick State.reset) ∧ (quick State.reset).capture.assembler.state = .idle ∧
      plainScan (depths [1]) (quick State.reset) = true ∧ keysAfter (depths [1]) (quick State.reset) ≠ 0 ∧
      (quick State.reset).power.part = .ready) ∧
    (Rested (quick (settling .request)) ∧ (quick (settling .request)).capture.assembler.state = .idle ∧
      plainScan (depths [1]) (quick (settling .request)) = true ∧
      keysAfter (depths [1]) (quick (settling .request)) ≠ 0 ∧
      (quick (settling .request)).power.part = .settling ∧ (quick (settling .request)).power.reason = .request) ∧
    (Rested (quick (settling .idle)) ∧ (quick (settling .idle)).capture.assembler.state = .idle ∧
      plainScan (depths [1]) (quick (settling .idle)) = true ∧
      keysAfter (depths [1]) (quick (settling .idle)) ≠ 0 ∧ (quick (settling .idle)).power.reason = .idle) ∧
    (Rested (quick dozing) ∧ (quick dozing).capture.assembler.state = .idle ∧
      plainScan (depths [1]) (quick dozing) = true ∧ keysAfter (depths [1]) (quick dozing) ≠ 0 ∧
      (quick dozing).power.part = .doze) :=
  ⟨at_rest (by decide +kernel), at_rest (by decide +kernel), at_rest (by decide +kernel),
    at_rest (by decide +kernel), at_rest (by decide +kernel)⟩

/-- A part with L1 pressed and the assembler in a state. -/
def inStroke (a : AssemblerState) : State := quick (press [1] (assembling a 2 .log State.reset))

theorem witness_ScanJoinsAndClosesTheStroke :
    (Rested (inStroke .gathering) ∧ plainScan (depths [1, 2]) (inStroke .gathering) = true ∧
      (inStroke .gathering).capture.assembler.state = .gathering ∧
      keysAfter (depths [1, 2]) (inStroke .gathering) ≠ 0) ∧
    (Rested (inStroke .gathering) ∧ plainScan (depths []) (inStroke .gathering) = true ∧
      keysAfter (depths []) (inStroke .gathering) = 0 ∧
      (inStroke .gathering).capture.assembler.destination = .log ∧
      (inStroke .gathering).capture.assembler.stamp = some { ms := 0, quality := .free }) ∧
    LogOk (inStroke .gathering).log ∧
    (Rested (inStroke .drain) ∧ plainScan (depths [1]) (inStroke .drain) = true ∧
      (inStroke .drain).capture.assembler.state = .drain ∧ keysAfter (depths [1]) (inStroke .drain) ≠ 0) ∧
    (Rested (inStroke .drain) ∧ plainScan (depths []) (inStroke .drain) = true ∧
      keysAfter (depths []) (inStroke .drain) = 0 ∧ (inStroke .drain).power.part ≠ .settling) :=
  ⟨at_rest (by decide +kernel), at_rest (by decide +kernel), logOk_of (by decide +kernel),
    at_rest (by decide +kernel), at_rest (by decide +kernel)⟩

theorem witness_StrokeLimitClosesTheStroke :
    (Rested State.reset ∧ State.reset.capture.assembler.state ≠ .gathering) ∧
    (Rested (atTick 6143 (inStroke .gathering)) ∧ ¬(1500 * 4096 ≤ 6143 * 1000)) ∧
    (Rested (atTick 6144 (inStroke .gathering)) ∧
      (atTick 6144 (inStroke .gathering)).capture.assembler.state = .gathering ∧ 1500 * 4096 ≤ 6144 * 1000 ∧
      (atTick 6144 (inStroke .gathering)).capture.assembler.destination = .log ∧
      (atTick 6144 (inStroke .gathering)).capture.assembler.stamp = some { ms := 0, quality := .free }) ∧
    LogOk (inStroke .gathering).log :=
  ⟨at_rest (by decide +kernel), at_rest (by decide +kernel), at_rest (by decide +kernel),
    logOk_of (by decide +kernel)⟩

theorem witness_LineSetConfiguresALine :
    (Rested State.reset ∧ Takes .machine .lineSet State.reset ∧
      State.reset.capture.lines[31]? = some (Line.atReset 31) ∧ (Line.atReset 31).pressed = false ∧
      (∀ v, v ∈ (some 0 : Option Nat) → v ≤ 255) ∧ (∀ v, v ∈ (some 255 : Option Nat) → v ≤ 255) ∧
      1 ≤ (Line.atReset 31).press ∧ (Line.atReset 31).press ≤ 255) ∧
    31 < 32 ∧ (∀ k, some 23 = some k → 22 < k) ∧ (∃ k, k ≤ 22 ∧ some 22 = some k) :=
  ⟨asked (by decide +kernel), by decide, by intro k hk; cases hk; decide, 22, by decide, rfl⟩

/-- A part with an open stroke whose last pressed key is on L15. -/
def lastKey : State := press [15] (assembling .gathering 32772 .log State.reset)

theorem witness_LineToggleFlipsTheSet :
    (Rested State.reset ∧ Takes .machine .lineToggle State.reset ∧
      ∀ l ∈ State.reset.capture.lines, l.pressed = false) ∧
    (Rested lastKey ∧ Takes .machine .lineToggle lastKey ∧ pressedKeys lastKey.capture.lines ≠ 0 ∧
      pressedKeys (toggleLines 32768 0 lastKey.capture.lines) = 0 ∧
      holdPressed (toggleLines 32768 0 lastKey.capture.lines) = holdPressed lastKey.capture.lines ∧
      lastKey.capture.assembler.state = .gathering ∧ lastKey.capture.assembler.destination = .log ∧
      lastKey.capture.assembler.stamp = some { ms := 0, quality := .free }) ∧ LogOk lastKey.log :=
  ⟨asked (by decide +kernel), asked (by decide +kernel), logOk_of (by decide +kernel)⟩

theorem witness_CaptureSetTakesTheNearestValues :
    Rested State.reset ∧ Takes .machine .captureSet State.reset ∧ True := asked (by decide +kernel)

/-! ### The Stroke Log -/

/-- A full log whose oldest record is the one the TRANSLATOR and MACHINE readers stand on. -/
def fullLog : StrokeLog :=
  { State.reset.log with
    head := 4096,
    records := (List.range 4096).map (fun i => { seq := BitVec.ofNat 32 i, body := .mark { ms := 0, quality := .free } }),
    machine := { Reader.atReset true with cursor := 0 },
    station := { Reader.atReset false with cursor := 4096, passed := 4096 } }

theorem fullLog_ok : LogOk fullLog := by
  have hl : fullLog.records.length = 4096 := by simp [fullLog]
  refine ⟨⟨by rw [hl]; decide, ?_⟩, rfl, fun name => ?_⟩
  · have ho : oldestSeq fullLog = 0 := by rw [oldestSeq, hl]; rfl
    rw [hl, ho]
    simp [fullLog, List.map_map, Function.comp_def]
  · cases name <;> refine ⟨⟨?_, ?_⟩, ?_⟩ <;> (try rw [hl]) <;> (try unfold ReaderBalances) <;> decide

theorem witness_AppendPlacesTheRecordAtTheHead :
    LogOk State.reset.log ∧ CountersOk State.reset.counters ∧ LogOk fullLog ∧
    (fullLog.records.length = 4096 ∧ fullLog.translator.on = true ∧
      fullLog.translator.cursor = fullLog.head - 4096 ∧ fullLog.station.on = false ∧
      State.reset.log.translator.on = true ∧ State.reset.log.records.length ≠ 4096) :=
  ⟨logOk_of (by decide +kernel), countersOk_of (by decide +kernel), fullLog_ok,
    by simp [fullLog], by decide +kernel⟩

/-- The part with a job open. -/
def inJob (n : Nat) (s : State) : State := { s with log := { s.log with job := n } }

theorem witness_JobOpenAndCloseAppendAJobRecord_open :
    (Rested dozing ∧ Takes .station .jobOpen dozing ∧ dozing.power.part = .doze) ∧ LogOk dozing.log ∧
    (Rested State.reset ∧ Takes .station .jobOpen State.reset ∧ State.reset.power.part ≠ .doze ∧ 1 ≤ 1) ∧
    LogOk State.reset.log :=
  ⟨asked (by decide +kernel), logOk_of (by decide +kernel), asked (by decide +kernel), logOk_of (by decide +kernel)⟩

theorem witness_JobOpenAndCloseAppendAJobRecord_close :
    (Rested State.reset ∧ Takes .machine .jobClose State.reset ∧ State.reset.log.job = 0) ∧ LogOk State.reset.log ∧
    (Rested (inJob 1 dozing) ∧ Takes .machine .jobClose (inJob 1 dozing) ∧ (inJob 1 dozing).power.part = .doze) ∧
    LogOk (inJob 1 dozing).log ∧
    (Rested (inJob 1 State.reset) ∧ Takes .machine .jobClose (inJob 1 State.reset) ∧
      (inJob 1 State.reset).power.part ≠ .doze ∧ (inJob 1 State.reset).log.job ≠ 0) ∧ LogOk (inJob 1 State.reset).log :=
  ⟨asked (by decide +kernel), logOk_of (by decide +kernel), asked (by decide +kernel),
    logOk_of (by decide +kernel), asked (by decide +kernel), logOk_of (by decide +kernel)⟩

/-- The part with two records held of three written. -/
def threeWritten : State :=
  { State.reset with log := { State.reset.log with
      head := 3,
      records := [{ seq := 1, body := .mark { ms := 0, quality := .free } },
        { seq := 2, body := .mark { ms := 0, quality := .free } }] } }

theorem witness_StrokesOnAndOffMoveTheReader_on :
    (Rested threeWritten ∧ Takes .station .strokesOn threeWritten ∧ ownReader .station = some .station ∧
      threeWritten.log.records.length = 2 ∧ threeWritten.log.wrapped = false) ∧
    (threeWritten.log.head - BitVec.ofNat 32 1).toNat = 2 ∧ (threeWritten.log.head - BitVec.ofNat 32 0).toNat = 3 ∧
    3 ≤ min threeWritten.log.head.toNat 2147483648 ∧
    min threeWritten.log.head.toNat 2147483648 < (threeWritten.log.head - BitVec.ofNat 32 4).toNat :=
  ⟨asked (by decide +kernel), by decide +kernel⟩

/-- The part with its STATION reader on. -/
def streaming : State :=
  { State.reset with log := { State.reset.log with station := Reader.atReset true } }

theorem witness_StrokesOnAndOffMoveTheReader_off :
    (Rested State.reset ∧ Takes .station .strokesOff State.reset ∧ ownReader .station = some .station ∧
      (State.reset.log.reader .station).on = false) ∧
    (Rested streaming ∧ Takes .station .strokesOff streaming ∧ (streaming.log.reader .station).on = true) :=
  ⟨asked (by decide +kernel), asked (by decide +kernel)⟩

/-! ### Time following -/

/-- The part with its Time Follower changed. -/
def timed (f : TimeFollower → TimeFollower) : State := { State.reset with time := f State.reset.time }

/-- A search whose next cell completes the sync pattern at counter value 12, with a candidate or none. -/
def searching (k : Option Candidate) (previous : Option (BitVec 6)) : State := timed (fun t => { t with
  cellCounter := 11, cells := syncPattern.dropLast, candidate := k, previousLock := previous })

/-- A follower locked at alignment 12, the next cell having a counter value. -/
def lockedAt (counter : BitVec 6) : State := timed (fun t => { t with
  state := .frame, alignment := 12, cellCounter := counter - 1 })

/-- The last 12 of a list of cells are the sync pattern. -/
def foundIn (cells : List Bool) : Bool := cells.drop (cells.length - 12) == syncPattern

theorem witness_CellDecodedSearchesForTheLock :
    (Rested (searching none none) ∧ (searching none none).time.frameDue = false ∧
      (searching none none).time.state = .search ∧ (searching none none).time.candidate = none ∧
      foundIn ((searching none none).time.cells ++ [true]) = true ∧
      foundIn ((searching none none).time.cells ++ [false]) = false) ∧
    (Rested (searching (some { position := 13, count := 1 }) none) ∧ (13#6) ≠ 11 + 1) ∧
    (Rested (searching (some { position := 12, count := 1 }) none) ∧
      (searching (some { position := 12, count := 1 }) none).time.cellCounter + 1 = 12) ∧
    (Rested (searching (some { position := 12, count := 2 }) none) ∧
      (searching (some { position := 12, count := 2 }) none).time.present = false ∧
      (searching (some { position := 12, count := 2 }) none).time.quality = .free) ∧
    (Rested { searching (some { position := 12, count := 2 }) (some 40) with time :=
        { (searching (some { position := 12, count := 2 }) (some 40)).time with present := true, quality := .coast } } ∧
      Quality.coast ≠ .unchecked) ∧
    (Rested (lockedAt 12) ∧ (lockedAt 12).time.state ≠ .search ∧ (lockedAt 12).time.alternate = .inactive ∧
      (lockedAt 12).time.cellCounter + 1 = (lockedAt 12).time.alignment) ∧
    (Rested (lockedAt 0) ∧ (lockedAt 0).time.cellCounter + 1 = (lockedAt 0).time.alignment + 52) ∧
    (Rested (lockedAt 13) ∧ (lockedAt 13).time.cellCounter + 1 ≠ (lockedAt 13).time.alignment ∧
      (lockedAt 13).time.cellCounter + 1 ≠ (lockedAt 13).time.alignment + 52) :=
  ⟨at_rest (by decide +kernel), at_rest (by decide +kernel), at_rest (by decide +kernel),
    at_rest (by decide +kernel), at_rest (by decide +kernel), at_rest (by decide +kernel),
    at_rest (by decide +kernel), at_rest (by decide +kernel)⟩

/-- A frame due in FRAME_ONLY, of given cells. -/
def frameOnly (cells : List Bool) (f : TimeFollower → TimeFollower) : State :=
  timed (fun t => f { t with state := .frameOnly, cells := cells, frameDue := true })

theorem witness_SyncErrorsLoseTheLock :
    let spoiled := List.replicate 64 false
    (Rested (frameOnly spoiled (fun t => { t with syncRun := 1 })) ∧ 1 ≤ (decodeFrame spoiled).wrong ∧ 1 + 1 < 3 ∧
      (frameOnly spoiled (fun t => { t with syncRun := 1 })).time.quality = .free) ∧
    (Rested (frameOnly spoiled (fun t => { t with syncRun := 2 })) ∧ 3 ≤ 2 + 1 ∧
      (frameOnly spoiled (fun t => { t with syncRun := 2 })).time.present = false ∧
      (frameOnly spoiled (fun t => { t with syncRun := 2 })).time.quality = .free) ∧
    (Rested (frameOnly spoiled (fun t => { t with syncRun := 2, present := true, quality := .unchecked })) ∧
      0 ≤ 10 * 4096 ∧ Quality.unchecked ≠ .coast) :=
  ⟨at_rest (by decide +kernel), at_rest (by decide +kernel), at_rest (by decide +kernel)⟩

/-- A frame due in FRAME_ONLY under the reference of chapter 3, with the take word 770 in force. -/
def underReference (cells : List Bool) (step : Option (Nat × Tick)) : State :=
  frameOnly cells (fun t => { t with
    present := true, quality := .unchecked, tref := 43509500, lref := 1000137, frameTick := 1000274,
    take := some 770, step := step })

theorem witness_AcceptedFrameKeepsTheReference :
    let near (a b : Nat) : Bool := decide ((normalised ((a : Int) - (b : Int))).natAbs ≤ 100)
    (Rested (underReference (frame 24 5 9 16 1 770 0) none) ∧
      (decodeFrame (frame 24 5 9 16 1 770 0)).wrong = 0 ∧ ¬(decodeFrame (frame 24 5 9 16 1 770 0)).hours ≤ 23) ∧
    (Rested (underReference (frame 12 5 9 16 1 770 0) none) ∧
      (decodeFrame (frame 12 5 9 16 1 770 0)).inRange 30 = true ∧
      (decodeFrame (frame 12 5 9 16 1 770 0)).take = 770 ∧
      (decodeFrame (frame 12 5 9 16 1 770 0)).decoded 30 = 43509533 ∧ near 43509533 43509533 = true) ∧
    (Rested (underReference (frame 12 6 40 0 1 770 0) none) ∧
      (decodeFrame (frame 12 6 40 0 1 770 0)).decoded 30 = 43600000 ∧ near 43600000 43509533 = false) ∧
    (Rested (underReference (frame 12 6 40 0 1 770 0) (some (1, 1000137))) ∧ near 43600000 34 = false) ∧
    (Rested (underReference (frame 12 6 40 0 1 770 0) (some (43599967, 1000137))) ∧
      near 43600000 43600000 = true ∧
      stampMs (underReference (frame 12 6 40 0 1 770 0) none).time 1000274 = 43509533) ∧
    LogOk State.reset.log :=
  ⟨at_rest (by decide +kernel), at_rest (by decide +kernel), at_rest (by decide +kernel),
    at_rest (by decide +kernel), at_rest (by decide +kernel), logOk_of (by decide +kernel)⟩

theorem witness_FirstFrameAndTakeWord :
    let f := frame 12 5 9 16 1 770 0
    (Rested (frameOnly f id) ∧ (decodeFrame f).wrong = 0 ∧ (decodeFrame f).inRange 30 = true ∧
      (frameOnly f id).time.present = false ∧ (frameOnly f id).time.quality = .free ∧
      (frameOnly f id).time.pendingTake ≠ some (decodeFrame f).take) ∧
    (Rested (frameOnly f (fun t => { t with
        present := true, quality := .unchecked, tref := 43509500, lref := 1000137, frameTick := 1000274,
        pendingTake := some 770 })) ∧
      (decodeFrame f).take = 770 ∧ (none : Option Nat) ≠ some 770 ∧
      (normalised ((43509533 : Int) - 43509533)).natAbs ≤ 100) ∧ LogOk State.reset.log :=
  ⟨at_rest (by decide +kernel), at_rest (by decide +kernel), logOk_of (by decide +kernel)⟩

/-- A frame due of 24 hours at position 0, in a state of the follower. -/
def checkFrame (f : TimeFollower → TimeFollower) : State :=
  timed (fun t => f { t with cells := frame 24 5 9 16 0 770 0, frameDue := true, present := true })

theorem witness_BlockCheckIsJudged :
    let f := decodeFrame (frame 24 5 9 16 0 770 0)
    let inBlock (history : List Bool) := checkFrame (fun t => { t with
      state := .block, expected := 0, quality := .locked, history := history })
    let inFrame := checkFrame (fun t => { t with state := .frame, blockRun := some 7, quality := .unchecked })
    (Rested (inBlock [false, false]) ∧ f.wrong = 0 ∧ 23 < f.hours ∧ ([false, false] ++ [false]).count false < 4) ∧
    (Rested inFrame ∧ f.position = 0 ∧ inFrame.time.blockRun = some 7) :=
  ⟨at_rest (by decide +kernel), at_rest (by decide +kernel)⟩

/-- A follower whose silence timer started at tick 0, at a tick. -/
def silent (tick : Nat) (f : TimeFollower → TimeFollower) : State :=
  atTick tick (timed (fun t => f { t with silence := some 0 }))

theorem witness_SilenceDropsTheLock :
    (Rested State.reset ∧ State.reset.time.frameDue = false ∧ State.reset.time.silence = none) ∧
    (Rested (silent 409 id) ∧ (silent 409 id).time.silence = some 0 ∧
      ((silent 409 id).time.tick - 0).toNat ≤ 409) ∧
    (Rested (silent 410 id) ∧ 410 ≤ ((silent 410 id).time.tick - 0).toNat ∧ (silent 410 id).time.state = .search) ∧
    (Rested (silent 410 (fun t => { t with state := .frame })) ∧ State.reset.time.quality = .free) ∧
    (Rested (silent 410 (fun t => { t with state := .frame, present := true, quality := .unchecked })) ∧
      Quality.unchecked ≠ .coast) :=
  ⟨at_rest (by decide +kernel), at_rest (by decide +kernel), at_rest (by decide +kernel),
    at_rest (by decide +kernel), at_rest (by decide +kernel)⟩

/-- A follower in FRAME whose block limit started at tick 0, at a tick. -/
def limited (tick : Nat) : State := atTick tick (timed (fun t => { t with state := .frame, blockLimit := some 0 }))

/-- A follower coasting with a reference age. -/
def coasting (age : Nat) : State := timed (fun t => { t with present := true, quality := .coast, age := age })

theorem witness_BlockLimitAndCoastLimitExpire :
    (Rested (limited 8191) ∧ QualityOk (limited 8191).time ∧ ((limited 8191).time.tick - 0).toNat < 8192) ∧
    (Rested (limited 8192) ∧ QualityOk (limited 8192).time ∧ (limited 8192).time.state = .frame ∧
      (limited 8192).time.blockLimit = some 0 ∧ 8192 ≤ ((limited 8192).time.tick - 0).toNat) ∧
    (Rested (coasting 40960) ∧ QualityOk (coasting 40960).time ∧ (coasting 40960).time.age ≤ 10 * 4096) ∧
    (Rested (coasting 40961) ∧ QualityOk (coasting 40961).time ∧ (coasting 40961).time.state = .search ∧
      (coasting 40961).time.coast * 4096 < (coasting 40961).time.age ∧ (coasting 40961).time.quality ≠ .free) := by
  refine ⟨⟨rested_of ?_, ?_⟩, ⟨rested_of ?_, ?_⟩, ⟨rested_of ?_, ?_⟩, rested_of ?_, ?_⟩ <;>
    (try unfold QualityOk) <;> decide +kernel

theorem witness_BlockLimitAndCoastLimitExpire_rebase :
    Rested (atTick 2147483647 State.reset) ∧
      ((atTick 2147483647 State.reset).time.tick - State.reset.time.lref).toNat < 2147483648 :=
  at_rest (by decide +kernel)

theorem witness_RebaseKeepsTheStamp :
    Rested (atTick 2147483648 State.reset) ∧
      2147483648 ≤ ((atTick 2147483648 State.reset).time.tick - State.reset.time.lref).toNat :=
  at_rest (by decide +kernel)

theorem witness_TimeSetTakesTheSettings :
    (Rested State.reset ∧ Takes .machine .timeSet State.reset ∧ (29 ≠ 25 ∧ 29 ≠ 30)) ∧
    (Rested (coasting 40960) ∧ Takes .machine .timeSet (coasting 40960) ∧
      (9 ≠ (coasting 40960).time.coast ∧ 9 * 4096 < (coasting 40960).time.age ∧
        (coasting 40960).time.quality ≠ .free)) ∧
    (Rested (coasting 40960) ∧ Takes .machine .timeSet (coasting 40960) ∧
      (25 ≠ (coasting 40960).time.rate ∧ (coasting 40960).time.age ≤ 10 * 4096)) :=
  ⟨asked (by decide +kernel), asked (by decide +kernel), asked (by decide +kernel)⟩

/-! ### The Dictionary Store -/

/-- The part in CHECKING after a load from the Machine port. -/
def checking : State :=
  { State.reset with dict := { State.reset.dict with
      layer := .checking, claim := .machine, total := 20, received := 20 } }

theorem witness_LoadBeginStartsALoad :
    (Rested loading ∧ Takes .machine .loadBegin loading ∧ loading.dict.claim = ownClaim .machine) ∧
    (Rested loading ∧ Takes .station .loadBegin loading ∧
      (loading.dict.claim ≠ .none ∧ loading.dict.claim ≠ ownClaim .station)) ∧
    (Rested State.reset ∧ Takes .machine .loadBegin State.reset ∧ (State.reset.dict.claim = .none ∧
      67108864 < 67108865 ∧ 1 ≤ 67108864 ∧ 67108864 ≤ 67108864)) :=
  ⟨asked (by decide +kernel), asked (by decide +kernel), asked (by decide +kernel)⟩

theorem witness_LoadDataWritesInOrder :
    (Rested loading ∧ Takes .station .loadData loading ∧
      (loading.dict.claim ≠ .none ∧ loading.dict.claim ≠ ownClaim .station)) ∧
    (Rested State.reset ∧ Takes .machine .loadData State.reset ∧ State.reset.dict.claim = .none) ∧
    (Rested checking ∧ Takes .machine .loadData checking ∧
      (checking.dict.claim = ownClaim .machine ∧ checking.dict.layer ≠ .loading)) ∧
    (Rested loading ∧ Takes .machine .loadData loading ∧ (loading.dict.claim = ownClaim .machine ∧
      loading.dict.layer = .loading ∧ loading.dict.total < 2999761 + 240 ∧ 479 + 240 ≤ loading.dict.total ∧
      479 ≠ loading.dict.received ∧ 480 = loading.dict.received ∧ memoryWf loading.dict.memory = true)) :=
  ⟨asked (by decide +kernel), asked (by decide +kernel), asked (by decide +kernel), asked (by decide +kernel)⟩

theorem witness_LoadEndAndTheCheck :
    (Rested loading ∧ Takes .station .loadEnd loading ∧
      (loading.dict.claim ≠ .none ∧ loading.dict.claim ≠ ownClaim .station)) ∧
    (Rested State.reset ∧ Takes .machine .loadEnd State.reset ∧ State.reset.dict.claim = .none) ∧
    (Rested checking ∧ Takes .machine .loadEnd checking ∧
      (checking.dict.claim = ownClaim .machine ∧ checking.dict.layer ≠ .loading)) ∧
    (Rested loading ∧ Takes .machine .loadEnd loading ∧
      (loading.dict.claim = ownClaim .machine ∧ loading.dict.layer = .loading)) ∧
    (Rested State.reset ∧ State.reset.dict.layer ≠ .checking) ∧
    (Rested checking ∧ checking.dict.layer = .checking ∧ checking.trans.window = [] ∧
      checking.trans.provisional = [] ∧ checking.power.part ≠ .settling) :=
  ⟨asked (by decide +kernel), asked (by decide +kernel), asked (by decide +kernel), asked (by decide +kernel),
    at_rest (by decide +kernel), at_rest (by decide +kernel)⟩

theorem witness_LoadsAreAbandoned :
    (Rested (atTick 20479 loading) ∧ (atTick 20479 loading).dict.inactivity = some 0 ∧
      ¬(20480 ≤ ((atTick 20479 loading).time.tick - 0).toNat)) ∧
    (Rested (atTick 20480 loading) ∧ (atTick 20480 loading).dict.layer = .loading ∧
      (atTick 20480 loading).dict.inactivity = some 0 ∧ 20480 ≤ ((atTick 20480 loading).time.tick - 0).toNat ∧
      (atTick 20480 loading).trans.window = [] ∧ (atTick 20480 loading).trans.provisional = [] ∧
      (atTick 20480 loading).power.part ≠ .settling) ∧
    (Rested loading ∧ Takes .station .loadAbort loading ∧
      (loading.dict.claim ≠ .none ∧ loading.dict.claim ≠ ownClaim .station)) ∧
    (Rested State.reset ∧ Takes .station .loadAbort State.reset ∧ State.reset.dict.claim = .none) ∧
    (Rested loading ∧ Takes .machine .loadAbort loading ∧ loading.dict.claim = ownClaim .machine) :=
  ⟨at_rest (by decide +kernel), at_rest (by decide +kernel), asked (by decide +kernel),
    asked (by decide +kernel), asked (by decide +kernel)⟩

/-- A Job table full of real slots of one stroke each. -/
def fullSlots : List JobSlot :=
  (List.range 1024).map (fun i => { key := [BitVec.ofNat 23 i], entry := some (entryOf [0x41]), extensions := 0 })

theorem fullSlots_ok : JobTableOk fullSlots := by
  have hlen : ∀ x ∈ fullSlots, x.key.length = 1 := by simp [fullSlots]
  have hzero : ∀ x ∈ fullSlots, x.extensions = 0 := by simp [fullSlots]
  have hreal : ∀ x ∈ fullSlots, x.entry.isSome = true := by simp [fullSlots]
  refine ⟨by simp [fullSlots, Config.jobCapacity], ?_, ?_, ?_, ?_, ?_⟩
  · rw [fullSlots, List.map_map]
    refine List.pairwise_map.2 (List.Pairwise.imp_of_mem ?_ List.nodup_range)
    intro a b ha hb hne h
    refine hne ?_
    have h' : BitVec.ofNat 23 a = BitVec.ofNat 23 b := by simpa using h
    have := congrArg BitVec.toNat h'
    simp only [BitVec.toNat_ofNat] at this
    have := List.mem_range.1 ha
    have := List.mem_range.1 hb
    omega
  · intro x hx
    rw [hlen x hx]
    decide
  · intro x hx
    rw [hzero x hx, extensionsOf, eq_comm, List.countP_eq_zero]
    intro y hy
    simp [hlen x hx, hlen y hy]
  · intro x hx he
    have := hreal x hx
    rw [he] at this
    simp at this
  · intro x hx _ p hp
    have h1 := hlen x hx
    obtain ⟨c, hc⟩ := List.length_eq_one_iff.1 h1
    rw [hc] at hp
    simp [properPrefixes] at hp

/-- The part with a full Job table. -/
def fullTable : State := { State.reset with dict := { State.reset.dict with job := fullSlots } }

theorem fullTable_rested : Rested fullTable :=
  ⟨rfl, reachAll_congr (s := State.reset) rfl rfl (rested_of (by decide +kernel)).2.1, rfl⟩

theorem fullTable_job : JobTableOk fullTable.dict.job ∧ fullTable.dict.job.length = 1024 := by
  unfold fullTable
  dsimp only
  exact ⟨fullSlots_ok, by simp [fullSlots]⟩

theorem witness_DefineAndUndefineChangeTheJobTable :
    (Rested State.reset ∧ Takes .station .define State.reset ∧ (entryWellFormed (entryOf [0x41]) = true ∧
      entryWellFormed (entryOf [7]) = false ∧ jobSlot State.reset.dict.job [8388607] = none)) ∧
    JobTableOk State.reset.dict.job ∧
    (Rested fullTable ∧ Takes .station .define fullTable) ∧
    JobTableOk fullTable.dict.job ∧ fullTable.dict.job.length = 1024 ∧
    (Rested (rest (withAnswers .station 0 defined)) ∧ Takes .station .undefine (rest (withAnswers .station 0 defined)) ∧
      ((jobSlot (rest (withAnswers .station 0 defined)).dict.job [131336, 3008, 16384]).bind (fun x => x.entry)).isSome
        = true) ∧
    JobTableOk (rest (withAnswers .station 0 defined)).dict.job := by
  refine ⟨asked (by decide +kernel), ?_, ⟨fullTable_rested, takes_of (by decide +kernel)⟩, fullTable_job.1, fullTable_job.2,
    asked (by decide +kernel), ?_⟩ <;> unfold JobTableOk <;> decide +kernel

theorem witness_FoldAndSpeakerTablesAreSet :
    (Rested State.reset ∧ Takes .station .foldSet State.reset ∧
      (3 < 4 ∧ 1 ≤ 22 ∧ (List.replicate 8 (0x7E#8)).length ≤ 8 ∧ ∀ c ∈ List.replicate 8 (0x7E#8), 32 ≤ c.toNat ∧ c.toNat ≤ 126)) ∧
    (Rested State.reset ∧ Takes .station .speakerSet State.reset ∧
      (15 < 16 ∧ (List.replicate 32 (0x80#8)).length ≤ 32 ∧ ∀ c ∈ List.replicate 32 (0x80#8), 128 ≤ c.toNat)) :=
  ⟨asked (by decide +kernel), asked (by decide +kernel)⟩

/-! ### Translation -/

/-- The part in READY with one record waiting for the Translator. -/
def waiting (b : RecordBody) (s : State) : State := rest (appendRecord b s)

/-- A stamp. -/
def noon : Stamp := { ms := 43200000, quality := .unchecked }

/-- A stroke of a window. -/
def windowed (c : Chord) : WindowStroke := { chord := c, seq := 0, stamp := noon }

/-- A unit of one stroke with a text. -/
def unitOf (text : Text) : TextUnit :=
  { id := 7, kind := .raw, strokes := [windowed 2], source := none, text := text,
    before := FormatState.lineCap, after := FormatState.lineCap, holdId := none }

/-- What the record statements assume of a part with a record waiting. -/
def ready (s : State) : Bool :=
  s.dict.layer != .loading && s.dict.layer != .checking && s.power.part == .ready &&
  s.log.translator.cursor != s.log.head && (recordAt s.log s.log.translator.cursor).isSome

/-- The Translator changed. -/
def translating (f : Translator → Translator) : State := { State.reset with trans := f State.reset.trans }

/-- A stroke of the delete chord. -/
def deleted : RecordBody := .stroke 1024 noon 100 false

theorem witness_TranslatorTakesARecord :
    let found (s : State) : Option RecordBody := (recordAt s.log s.log.translator.cursor).map (fun r => r.body)
    (Rested loading ∧ loading.dict.layer = .loading) ∧ JournalOk loading.journal ∧
    (Rested State.reset ∧ State.reset.log.translator.cursor = State.reset.log.head) ∧
    (Rested (waiting (.wake .machine noon) State.reset) ∧ ready (waiting (.wake .machine noon) State.reset) = true ∧
      found (waiting (.wake .machine noon) State.reset) = some (.wake .machine noon)) ∧
    (Rested (waiting (.mark noon) State.reset) ∧ ready (waiting (.mark noon) State.reset) = true ∧
      found (waiting (.mark noon) State.reset) = some (.mark noon)) ∧
    (Rested (waiting (.job 1 0 true noon) State.reset) ∧ ready (waiting (.job 1 0 true noon) State.reset) = true ∧
      found (waiting (.job 1 0 true noon) State.reset) = some (.job 1 0 true noon)) ∧
    (Rested (waiting deleted State.reset) ∧ ready (waiting deleted State.reset) = true ∧
      found (waiting deleted State.reset) = some deleted ∧ (waiting deleted State.reset).trans.undo = []) ∧
    (Rested (waiting deleted (translating (fun t => { t with undo := [unitOf [0x41]] }))) ∧
      ready (waiting deleted (translating (fun t => { t with undo := [unitOf [0x41]] }))) = true ∧
      (unitOf [0x41]).strokes.length = 1 ∧ (unitOf [0x41]).holdId = none) ∧
    (Rested (waiting deleted (translating (fun t => { t with window := [windowed 2], provisional := [unitOf []] }))) ∧
      ready (waiting deleted (translating (fun t => { t with window := [windowed 2], provisional := [unitOf []] }))) = true) ∧
    (Rested (waiting (.wake .machine noon) (translating (fun t => { t with recomputePending := true }))) ∧
      ready (waiting (.wake .machine noon) (translating (fun t => { t with recomputePending := true }))) = true) ∧
    (Rested (waiting (.wake .machine noon) { State.reset with log := { State.reset.log with
        translator := { State.reset.log.translator with sinceTaken := 1 } } }) ∧
      ready (waiting (.wake .machine noon) { State.reset with log := { State.reset.log with
        translator := { State.reset.log.translator with sinceTaken := 1 } } }) = true) ∧
    JournalOk State.reset.journal :=
  ⟨at_rest (by decide +kernel), journalOk_of (by decide +kernel), at_rest (by decide +kernel),
    at_rest (by decide +kernel), at_rest (by decide +kernel), at_rest (by decide +kernel),
    at_rest (by decide +kernel), at_rest (by decide +kernel), at_rest (by decide +kernel),
    at_rest (by decide +kernel), at_rest (by decide +kernel), journalOk_of (by decide +kernel)⟩

/-- The part with HAOEU defined, extendable or not. -/
def withHigh (extendable : Bool) : State :=
  let s := after (.define .station [6976] (entryOf [0x68, 0x69, 0x67, 0x68]) 0) State.reset
  withAnswers .station 0 (if extendable then after (.define .station [6976, 264] (entryOf [0x68]) 0) s else s)

theorem witness_TakenStrokeIsPutAndSettled :
    let stroke (c : Chord) : RecordBody := .stroke c noon 100 false
    (Rested (waiting (stroke 6976) (withHigh true)) ∧ ready (waiting (stroke 6976) (withHigh true)) = true ∧
      (waiting (stroke 6976) (withHigh true)).log.translator.sinceTaken = 0 ∧
      (waiting (stroke 6976) (withHigh true)).trans = State.reset.trans ∧ (6976 : Chord) ≠ 1024 ∧
      (lookup (withHigh true).dict [6976]).entry.isSome = true ∧ (lookup (withHigh true).dict [6976]).extendable = true) ∧
    (Rested (waiting (stroke 6976) (withHigh false)) ∧ ready (waiting (stroke 6976) (withHigh false)) = true ∧
      (lookup (withHigh false).dict [6976]).extendable = false) ∧
    (Rested (waiting (stroke 7) State.reset) ∧ ready (waiting (stroke 7) State.reset) = true ∧
      (lookup State.reset.dict [7]).entry = none ∧ isNumber 7 = true) ∧
    (Rested (waiting (stroke 2) State.reset) ∧ ready (waiting (stroke 2) State.reset) = true ∧
      (lookup State.reset.dict [2]).entry = none ∧ isNumber 2 = false ∧
      ∀ x ∈ State.reset.dict.folds, x.inUse = false) ∧
    JournalOk State.reset.journal :=
  ⟨at_rest (by decide +kernel), at_rest (by decide +kernel), at_rest (by decide +kernel),
    at_rest (by decide +kernel), journalOk_of (by decide +kernel)⟩

/-- A window of one stroke whose settle timer started at tick 0, at a tick. -/
def settlingAt (tick : Nat) : State := atTick tick (translating (fun t => { t with
  window := [windowed 2], provisional := [unitOf [0x53]], settleTimer := some 0 }))

theorem witness_SettleTimerAndTranslateSet :
    (Rested (settlingAt 6143) ∧ ¬(1500 * 4096 ≤ ((settlingAt 6143).time.tick - 0).toNat * 1000)) ∧
    (Rested (settlingAt 6144) ∧ (settlingAt 6144).trans.settleTimer = some 0 ∧
      (settlingAt 6144).trans.settleDelay * 4096 ≤ ((settlingAt 6144).time.tick - 0).toNat * 1000 ∧
      (settlingAt 6144).power.part = .ready ∧ (settlingAt 6144).trans.undo.length ≤ 32 ∧
      ∀ u ∈ (settlingAt 6144).trans.provisional, isFeedControl u = false) ∧
    JournalOk State.reset.journal ∧ CountersOk State.reset.counters ∧
    (Rested State.reset ∧ Takes .station .translateSet State.reset ∧
      (8388607 < 8388608 ∧ 1 ≤ 8388607 ∧ min 10000 (max 100 99) = 100 ∧ min 10000 (max 100 10001) = 10000)) :=
  ⟨at_rest (by decide +kernel), at_rest (by decide +kernel), journalOk_of (by decide +kernel),
    countersOk_of (by decide +kernel), asked (by decide +kernel)⟩

/-! ### Listeners -/

/-- An open hold. -/
def openHold_ (id : Nat) (source : HoldSource) (position : Word) (age : Nat) : OpenHold :=
  { id := id, source := source, owner := none, position := position, openTick := 0, age := age }

/-- The part with open holds and a hold limit. -/
def holding (l : List OpenHold) (limit : Nat) : State :=
  { State.reset with holds := { holds := l, nextId := 20, limit := limit } }

/-- The part with the FEED listener changed. -/
def listening (f : Listener → Listener) (s : State) : State :=
  { s with journal := { s.journal with feed := f s.journal.feed } }

/-- FEED paused on hold 7. -/
def pausedFeed (pending : Bool) : State :=
  listening (fun l => { l with paused := some 7, repaintPending := pending }) (holding [openHold_ 7 .line 0 0] 0)

theorem witness_RepaintStartsARun :
    (Rested (listening (fun l => { l with mode := .off }) State.reset) ∧
      Takes .feed .repaint (listening (fun l => { l with mode := .off }) State.reset) ∧
      ((listening (fun l => { l with mode := .off }) State.reset).journal.listener .feed).mode = .off) ∧
    (Rested (pausedFeed false) ∧ Takes .feed .repaint (pausedFeed false) ∧
      (((pausedFeed false).journal.listener .feed).mode ≠ .off ∧
        ((pausedFeed false).journal.listener .feed).paused ≠ none)) ∧
    (Rested (holding [openHold_ 7 .line 0 0] 0) ∧ Takes .feed .repaint (holding [openHold_ 7 .line 0 0] 0) ∧
      (((holding [openHold_ 7 .line 0 0] 0).journal.listener .feed).paused = none ∧
        ((holding [openHold_ 7 .line 0 0] 0).journal.listener .feed).obeys = true ∧
        (holding [openHold_ 7 .line 0 0] 0).holds.holds = openHold_ 7 .line 0 0 :: [])) ∧
    (Rested State.reset ∧ Takes .feed .repaint State.reset ∧
      ((State.reset.journal.listener .feed).paused = none ∧ State.reset.holds.holds = [])) :=
  ⟨asked (by decide +kernel), asked (by decide +kernel), asked (by decide +kernel), asked (by decide +kernel)⟩

/-- FEED in a mode, not obeying holds, with hold 7 open at position 0. -/
def freeFeed (mode : ViewMode) : State :=
  listening (fun l => { l with mode := mode, obeys := false }) (holding [openHold_ 7 .line 0 0] 0)

theorem witness_ViewSetSetsTheListener :
    let l := (pausedFeed false).journal.listener .feed
    (Rested State.reset ∧ Takes .feed .viewSet State.reset ∧
      ((State.reset.journal.listener .feed).mode = .settled ∧ ViewMode.live ≠ .off ∧ ViewMode.live ≠ .settled)) ∧
    (Rested (freeFeed .off) ∧ Takes .feed .viewSet (freeFeed .off) ∧
      (((freeFeed .off).journal.listener .feed).obeys = false ∧ ((freeFeed .off).journal.listener .feed).mode = .off)) ∧
    (Rested (freeFeed .live) ∧ Takes .feed .viewSet (freeFeed .live) ∧
      (((freeFeed .live).journal.listener .feed).mode ≠ .off ∧
        (freeFeed .live).holds.holds.find? (fun x =>
          decide (((freeFeed .live).journal.head - ((freeFeed .live).journal.listener .feed).cursor).toNat
            ≤ (x.position - ((freeFeed .live).journal.listener .feed).cursor).toNat)) = some (openHold_ 7 .line 0 0))) ∧
    (Rested (pausedFeed false) ∧ Takes .feed .viewSet (pausedFeed false) ∧
      (l.obeys = true ∧ l.paused = some 7 ∧ l.repaintPending = false)) ∧
    (Rested (pausedFeed true) ∧ Takes .feed .viewSet (pausedFeed true) ∧
      (((pausedFeed true).journal.listener .feed).repaintPending = true ∧
        ((pausedFeed true).journal.listener .feed).mode ≠ .off)) :=
  ⟨asked (by decide +kernel), asked (by decide +kernel), asked (by decide +kernel), asked (by decide +kernel),
    asked (by decide +kernel)⟩

/-! ### Holds -/

/-- Eight open holds, seven of them COMMAND holds. -/
def eightHolds : State :=
  holding (openHold_ 1 .station 0 0 :: (List.range 7).map (fun i =>
    { openHold_ (i + 2) .command 0 0 with owner := some 1 })) 0

theorem witness_HoldOpensAHold :
    (Rested eightHolds ∧ Takes .station .hold eightHolds ∧ (openHold_ 1 .station 0 0 ∈ eightHolds.holds.holds ∧
      (openHold_ 1 .station 0 0).source = .station)) ∧
    (Rested eightHolds ∧ Takes .machine .hold eightHolds ∧
      ((∀ h ∈ eightHolds.holds.holds, h.source ≠ .machine) ∧ eightHolds.holds.holds.length = 8)) ∧
    HoldsOk eightHolds.holds ∧ JournalOk eightHolds.journal ∧
    (Rested (holding [openHold_ 20 .line 0 0] 0) ∧ Takes .machine .hold (holding [openHold_ 20 .line 0 0] 0) ∧
      ((∀ h ∈ (holding [openHold_ 20 .line 0 0] 0).holds.holds, h.source ≠ .machine) ∧
        (holding [openHold_ 20 .line 0 0] 0).holds.holds.length < 8)) ∧
    HoldsOk (holding [openHold_ 20 .line 0 0] 0).holds :=
  ⟨asked (by decide +kernel), asked (by decide +kernel), holdsOk_of (by decide +kernel),
    journalOk_of (by decide +kernel), asked (by decide +kernel), holdsOk_of (by decide +kernel)⟩

theorem witness_UnholdClosesTheOwnHold :
    (Rested eightHolds ∧ Takes .machine .unhold eightHolds ∧
      ∀ h ∈ eightHolds.holds.holds, h.source ≠ .machine) ∧
    (Rested eightHolds ∧ Takes .station .unhold eightHolds ∧ openHold_ 1 .station 0 0 ∈ eightHolds.holds.holds) ∧
    HoldsOk eightHolds.holds ∧ JournalOk eightHolds.journal :=
  ⟨asked (by decide +kernel), asked (by decide +kernel), holdsOk_of (by decide +kernel),
    journalOk_of (by decide +kernel)⟩

theorem witness_HoldLimitClosesHolds :
    (Rested (holding [openHold_ 7 .line 0 491519] 2) ∧ ¬(2 * 245760 ≤ 491519)) ∧
    (Rested (holding [openHold_ 7 .line 0 491520] 2) ∧
      openHold_ 7 .line 0 491520 ∈ (holding [openHold_ 7 .line 0 491520] 2).holds.holds ∧ 2 * 245760 ≤ 491520) ∧
    HoldsOk (holding [openHold_ 7 .line 0 491519] 2).holds ∧ HoldsOk (holding [openHold_ 7 .line 0 491520] 2).holds ∧
    JournalOk State.reset.journal ∧
    (Rested (holding [openHold_ 7 .line 0 491520] 0) ∧ Takes .machine .holdLimitSet (holding [openHold_ 7 .line 0 491520] 0) ∧
      (min 60 61 = 60 ∧ 60 * 245760 > 491520 ∧ 2 * 245760 ≤ 491520)) :=
  ⟨at_rest (by decide +kernel), at_rest (by decide +kernel), holdsOk_of (by decide +kernel),
    holdsOk_of (by decide +kernel), journalOk_of (by decide +kernel), asked (by decide +kernel)⟩

/-! ### Power and waking -/

theorem witness_IdlingAndDozeBeginSettling :
    (Rested (atTick 7372799 State.reset) ∧ (atTick 7372799 State.reset).power.idleTimer = some 0 ∧
      ¬(30 * 60000 * 4096 ≤ ((atTick 7372799 State.reset).time.tick - 0).toNat * 1000)) ∧
    (Rested (atTick 7372800 State.reset) ∧ (atTick 7372800 State.reset).power.part = .ready ∧
      (atTick 7372800 State.reset).power.idleDelay = 30 ∧
      30 * 60000 * 4096 ≤ ((atTick 7372800 State.reset).time.tick - 0).toNat * 1000) ∧
    (Rested (atTick 245760 State.reset) ∧ Takes .machine .idleSet (atTick 245760 State.reset) ∧
      (1 * 60000 * 4096 ≤ ((atTick 245760 State.reset).time.tick - 0).toNat * 1000 ∧ min 240 241 = 240)) ∧
    (Rested State.reset ∧ Takes .machine .doze State.reset ∧ State.reset.power.part = .ready) ∧
    (Rested (settling .idle) ∧ Takes .machine .doze (settling .idle) ∧ (settling .idle).power.reason = .idle) ∧
    (Rested (settling .request) ∧ Takes .machine .doze (settling .request) ∧
      ((settling .request).power.part = .settling ∧ (settling .request).power.reason ≠ .idle)) ∧
    (Rested dozing ∧ Takes .machine .doze dozing ∧ dozing.power.part = .doze) :=
  ⟨at_rest (by decide +kernel), at_rest (by decide +kernel), asked (by decide +kernel), asked (by decide +kernel),
    asked (by decide +kernel), asked (by decide +kernel), asked (by decide +kernel)⟩

theorem witness_WakeRequestsAndSettings_wake :
    (Rested State.reset ∧ Takes .machine .wake State.reset ∧ State.reset.power.part = .ready) ∧
    (Rested (settling .idle) ∧ Takes .station .wake (settling .idle) ∧ (settling .idle).power.part = .settling) ∧
    (Rested dozing ∧ Takes .station .wake dozing ∧ dozing.power.part = .doze) :=
  ⟨asked (by decide +kernel), asked (by decide +kernel), asked (by decide +kernel)⟩

/-- A part with a stroke of destination WAKE about to close, at tick 4,095 or so, and a run of the Wake
Detector. -/
def wakeStroke (keys : Chord) (tick : Nat) (f : WakeDetector → WakeDetector) (s : State) : State :=
  let s := quick (press [1] (assembling .gathering keys .wake (atTick tick s)))
  { s with wake := f s.wake }

/-- What the wake statement assumes of a scan. -/
def closing (s : State) : Bool :=
  plainScan (depths []) s && keysAfter (depths []) s == 0 && s.capture.assembler.state == .gathering &&
  s.capture.assembler.destination == .wake

theorem witness_WakeDetectorJudgesStrokes :
    let run (n : Nat) (held : Bool) : WakeDetector → WakeDetector :=
      fun w => { w with count := n, gapTimer := !held, heldOver := held }
    (Rested State.reset ∧ State.reset.wake.gapTimer = false) ∧
    (Rested (wakeStroke 254 4096 (run 1 false) dozing) ∧ (wakeStroke 254 4096 (run 1 false) dozing).wake.gapTimer = true ∧
      1000 * 4096 ≤ ((wakeStroke 254 4096 (run 1 false) dozing).time.tick - 0).toNat * 1000 ∧
      (wakeStroke 254 4096 (run 1 false) dozing).capture.assembler.state = .gathering) ∧
    (Rested (atTick 4096 { dozing with wake := run 1 false dozing.wake }) ∧
      (atTick 4096 { dozing with wake := run 1 false dozing.wake }).capture.assembler.state ≠ .gathering) ∧
    (Rested (wakeStroke 254 10 id State.reset) ∧ closing (wakeStroke 254 10 id State.reset) = true ∧
      (wakeStroke 254 10 id State.reset).power.part = .ready) ∧
    (Rested (wakeStroke 2 10 id dozing) ∧ closing (wakeStroke 2 10 id dozing) = true ∧
      (wakeStroke 2 10 id dozing).power.part = .doze ∧ (2 : Chord) ≠ (wakeStroke 2 10 id dozing).wake.chord) ∧
    (Rested (wakeStroke 254 4095 id dozing) ∧ closing (wakeStroke 254 4095 id dozing) = true ∧
      (wakeStroke 254 4095 id dozing).wake.count = 0 ∧ 1 < (wakeStroke 254 4095 id dozing).wake.needed ∧
      ¬(1000 * 4096 ≤ ((wakeStroke 254 4095 id dozing).time.tick - 0).toNat * 1000)) ∧
    (Rested (wakeStroke 254 4096 id dozing) ∧ closing (wakeStroke 254 4096 id dozing) = true ∧
      1000 * 4096 ≤ ((wakeStroke 254 4096 id dozing).time.tick - 0).toNat * 1000) ∧
    (Rested (wakeStroke 254 10 (run 2 true) dozing) ∧ closing (wakeStroke 254 10 (run 2 true) dozing) = true ∧
      (wakeStroke 254 10 (run 2 true) dozing).wake.needed ≤ 2 + 1) ∧
    (Rested (wakeStroke 254 10 (fun w => { run 2 false w with lastMatch := -4096 }) dozing) ∧
      closing (wakeStroke 254 10 (fun w => { run 2 false w with lastMatch := -4096 }) dozing) = true ∧
      1000 * 4096 ≤ ((0 : Tick) - (-4096)).toNat * 1000) :=
  ⟨at_rest (by decide +kernel), at_rest (by decide +kernel), at_rest (by decide +kernel),
    at_rest (by decide +kernel), at_rest (by decide +kernel), at_rest (by decide +kernel),
    at_rest (by decide +kernel), at_rest (by decide +kernel), at_rest (by decide +kernel)⟩

theorem witness_WakeRequestsAndSettings_settings :
    (Rested State.reset ∧ Takes .machine .wakeCausesClear State.reset ∧ True) ∧
    (Rested State.reset ∧ Takes .machine .wakeSet State.reset ∧
      (8388607 < 8388608 ∧ 1 ≤ 8388607 ∧ State.reset.power.part ≠ .doze)) ∧
    (Rested dozing ∧ Takes .machine .wakeSet dozing ∧
      (dozing.power.part = .doze ∧ min 8 (max 2 1) = 2 ∧ min 3000 (max 200 3001) = 3000)) :=
  ⟨asked (by decide +kernel), asked (by decide +kernel), asked (by decide +kernel)⟩

/-! ### Counters and ports -/

theorem witness_NoticesAndCounts : 1 ≤ 1 ∧ CountersOk State.reset.counters :=
  ⟨by decide, countersOk_of (by decide +kernel)⟩

/-- The part with an interval age. -/
def aged (auto : Bool) (age : Nat) : State :=
  { State.reset with counters := { State.reset.counters with auto := auto, intervalAge := age } }

theorem witness_SnapshotsAreTaken :
    (Rested (aged true 4095) ∧ ¬4096 ≤ (aged true 4095).counters.intervalAge) ∧
    (Rested (aged true 4096) ∧ (aged true 4096).counters.auto = true ∧ 4096 ≤ (aged true 4096).counters.intervalAge) ∧
    (Rested (aged true 0) ∧ Takes .feed .countersSnap (aged true 0) ∧ True) ∧
    (Rested (aged false 0) ∧ Takes .machine .countersAuto (aged false 0) ∧ (aged false 0).counters.auto = false) ∧
    (Rested (aged true 0) ∧ Takes .machine .countersAuto (aged true 0) ∧ (aged true 0).counters.auto = true) :=
  ⟨at_rest (by decide +kernel), at_rest (by decide +kernel), asked (by decide +kernel), asked (by decide +kernel),
    asked (by decide +kernel)⟩

theorem witness_ReadsReportTheState :
    (Rested (holding [openHold_ 7 .machine 0 4096] 0) ∧ Takes .machine .status (holding [openHold_ 7 .machine 0 4096] 0) ∧ True) ∧
    (Rested State.reset ∧ Takes .feed .countersRead State.reset ∧ True) :=
  ⟨asked (by decide +kernel), asked (by decide +kernel)⟩

theorem witness_NoticesSetReplacesTheEnables :
    Rested State.reset ∧ Takes .feed .noticesSet State.reset ∧ True := asked (by decide +kernel)

theorem witness_FeedSetAndFeedQuery :
    (Rested State.reset ∧ Takes .machine .feedSet State.reset ∧ (254 < 255 ∧ 1 ≤ 254 ∧ 254 ≤ 254)) ∧
    (Rested State.reset ∧ Takes .feed .feedQuery State.reset ∧
      (([] : List Byte).length ≠ 1 ∧ State.reset.ports.courtChannel = 0)) ∧
    (Rested { State.reset with ports := { State.reset.ports with courtChannel := 9 } } ∧
      Takes .feed .feedQuery { State.reset with ports := { State.reset.ports with courtChannel := 9 } } ∧
      ((8#8).toNat ≠ 9 ∧ 8#8 ≠ 0 ∧ (9#8).toNat = 9)) :=
  ⟨asked (by decide +kernel), asked (by decide +kernel), asked (by decide +kernel)⟩

/-- The part with a receive state on a port. -/
def hearing (port : Port) (r : Receive) : State :=
  State.reset.setPort port { State.reset.port port with receive := r }

theorem witness_ReceivedBytesMakeFrames :
    let sumsToZero (l : List Byte) : Bool := l.foldl (fun x y => x + y) 0 == 0
    (Rested (hearing .station .hunt) ∧ (0#8) ≠ 195) ∧
    (Rested (hearing .machine .length) ∧ ((hearing .machine .length).port .machine).receive = .length ∧
      (251#8).toNat ≤ 251 ∧ 252 ≤ (252#8).toNat) ∧
    (Rested (hearing .station (.body [1])) ∧ ([] : List Byte).length < (1#8).toNat) ∧
    (Rested (hearing .station (.body [1, 1])) ∧ ([1#8] : List Byte).length = (1#8).toNat ∧
      sumsToZero [1, 1, 254] = true ∧ kindOf 1 = some .status ∧ parseRequest .station .status [] = some (.status .station)) ∧
    (Rested (hearing .station (.body [2, 1, 9])) ∧ sumsToZero [2, 1, 9, 244] = true ∧
      parseRequest .station .status [9] = none ∧
      ((hearing .station (.body [2, 1, 9])).port .station).answers.length < 4) ∧
    (Rested (hearing .station (.body [1, 200])) ∧ sumsToZero [1, 200, 55] = true ∧ kindOf 200 = none) ∧
    (Rested (hearing .feed (.body [1, 1])) ∧ [(1#8 : Byte)] = 1#8 :: []) ∧
    (Rested (hearing .feed (.body [2, 1, 1])) ∧ sumsToZero [2, 1, 1, 252] = true ∧
      (1#8).toNat = (hearing .feed (.body [2, 1, 1])).ports.feedAddress ∧ (2#8).toNat ≠ 1) ∧
    (Rested (hearing .station (.body [1, 247])) ∧ sumsToZero [1, 247, 195] = false ∧
      sumsToZero [1, 247, 9] = false ∧ ∀ x ∈ [1#8, 247#8], x ≠ 195) ∧
    JournalOk State.reset.journal :=
  ⟨at_rest (by decide +kernel), at_rest (by decide +kernel), at_rest (by decide +kernel),
    at_rest (by decide +kernel), at_rest (by decide +kernel), at_rest (by decide +kernel),
    at_rest (by decide +kernel), at_rest (by decide +kernel), at_rest (by decide +kernel),
    journalOk_of (by decide +kernel)⟩

/-- The part with a port changed, at the end of its event. -/
def sendingOn (port : Port) (f : PortState → PortState) (s : State) : State :=
  rest (s.setPort port (f (s.port port)))

/-- The part with a record and an entry offered on the Station port. -/
def offering (turn : StreamTurn) : State :=
  sendingOn .station (fun p => { p with turn := turn }) (appendEntry (.gap 1) (appendRecord (.mark noon) streaming))

theorem witness_TransmittersSendWhatWaits :
    let busy (s : State) := sendingOn .station (fun p => { p with sending := some { frame := [195], sent := 0 } }) s
    (Rested (busy State.reset) ∧ ((busy State.reset).port .station).sending ≠ none) ∧
    (Rested (withAnswers .station 1 State.reset) ∧ ((withAnswers .station 1 State.reset).port .station).sending = none ∧
      ((withAnswers .station 1 State.reset).port .station).answers = [.answer 1 .ok []]) ∧
    (Rested (sendingOn .station (fun p => { p with notices := [{ kind := .dict, fields := [] }] }) State.reset) ∧
      ((sendingOn .station (fun p => { p with notices := [{ kind := .dict, fields := [] }] }) State.reset).port
        .station).answers = []) ∧
    (Rested (offering .stroke) ∧ (readerOffer (offering .stroke).log .station).isSome = true ∧
      (reachedEntry (offering .stroke).journal ((offering .stroke).journal.listener .station)).isSome = true ∧
      ((offering .stroke).port .station).turn = .stroke ∧ ((offering .stroke).port .station).notices = []) ∧
    (Rested (offering .listener) ∧ ((offering .listener).port .station).turn = .listener ∧
      (reachedEntry (offering .listener).journal ((offering .listener).journal.listener .station)).isSome = true) ∧
    (Rested (rest (listening (fun l => { l with notes := [.resumed 7] }) State.reset)) ∧
      ((rest (listening (fun l => { l with notes := [.resumed 7] }) State.reset)).journal.listener .feed).notes ≠ []) ∧
    (Rested (listening (fun l => { l with run := some {
        settled := true, copy := [0x41], viewLength := 1, position := 0, next := 0 } }) State.reset) ∧
      readerOffer State.reset.log .machine = none) ∧
    (Rested State.reset ∧ (State.reset.port .machine).sending = none ∧ readerOffer State.reset.log .machine = none ∧
      (State.reset.journal.listener .machine).notes = [] ∧
      reachedEntry State.reset.journal (State.reset.journal.listener .machine) = none) :=
  ⟨at_rest (by decide +kernel), at_rest (by decide +kernel), at_rest (by decide +kernel),
    at_rest (by decide +kernel), at_rest (by decide +kernel), at_rest (by decide +kernel),
    at_rest (by decide +kernel), at_rest (by decide +kernel)⟩

/-! ### What every step keeps -/

/-- A step on the empty queue after reset. -/
theorem reset_steps : step State.reset = .next (idleTick State.reset) := rfl

theorem witness_StepKeepsTheDictionary : memoryWf State.reset.dict.memory = true ∧ LoadOk State.reset.dict ∧
    JobTableOk State.reset.dict.job := by
  refine ⟨rfl, ?_, ?_⟩
  · unfold LoadOk; decide +kernel
  · unfold JobTableOk; decide +kernel

theorem witness_StepKeepsTheStrokeLog : LogOk State.reset.log := logOk_of (by decide +kernel)

theorem witness_StepKeepsTheJournal : JournalOk State.reset.journal ∧ Rested State.reset :=
  ⟨journalOk_of (by decide +kernel), rested_of (by decide +kernel)⟩

theorem witness_StepKeepsTheHoldTable : HoldsOk eightHolds.holds := holdsOk_of (by decide +kernel)

theorem witness_StepKeepsCountersAndPorts : CountersOk State.reset.counters ∧ PortsOk State.reset.ports := by
  refine ⟨countersOk_of (by decide +kernel), fun port => ?_⟩
  cases port <;> exact ⟨⟨by decide, by decide⟩, trivial⟩

theorem witness_StepKeepsTheTranslator : TranslatorOk (settlingAt 0).trans := by
  unfold TranslatorOk; decide +kernel

theorem witness_StepKeepsThePowerState : PowerOk State.reset ∧ WakeOk State.reset := by
  unfold PowerOk WakeOk; decide +kernel

theorem witness_StepKeepsSensingAndTime : AssemblerOk (inStroke .gathering).capture ∧ QualityOk State.reset.time := by
  unfold AssemblerOk QualityOk; decide +kernel

end Sys2Proof.Tests
end

