-- ==== Sys2Proof/Tests/Clauses.lean ====
section
/-! SUPPORT. Witnesses for the clauses that go beyond the plain forms: marks and the HOLD group in a scan,
strokes of destination WAKE, releases at LINE SET and LINE TOGGLE, the alternate search, frames in FRAME and
BLOCK, recomputations, retranslations, FEED_HOLD and FEED_RESUME, lookups, records taken with a window waiting,
the Text Journal and the reach of its listeners, listeners paused on a hold that closes, VIEW SET with both
fields, loads that end in DOZE, the passage to DOZE. Each gives states and operands that meet the hypotheses of its clauses. -/

namespace Sys2Proof.Tests

open Sys2Proof.Machine

-- One test after another: each runs in the kernel, and many at once would hold a thread each.
set_option Elab.async false

/-! ### Key sensing and stroke assembly -/

/-- The HOLD line accepted pressed, its open granted or not. -/
def holdLine (granted : Bool) (s : State) : State :=
  let s := quick (press [25] s)
  { s with capture := { s.capture with holdGranted := granted } }

/-- Whether the HOLD group is pressed before and after a scan. -/
def holdMove (d : List Byte) (s : State) : Bool × Bool :=
  (holdPressed s.capture.lines, holdPressed (scanLines s.capture.debounce s.capture.lines d))

theorem witness_ScanJudgesEveryLine_marksAndHolds :
    HoldsOk State.reset.holds ∧ HoldsOk eightHolds.holds ∧ HoldsOk (holding [openHold_ 20 .line 0 0] 0).holds ∧
    (let d := depths [24]
     (marksReported d (quick State.reset)).log.records.map (fun r => r.body) = [.mark { ms := 0, quality := .free }] ∧
      (marksReported d (quick dozing)).log.records = [] ∧ keysAfter d (quick State.reset) = 0) ∧
    (holdMove (depths [25]) (quick State.reset) = (false, true) ∧ State.reset.holds.holds.length < 8 ∧
      holdMove (depths [25]) (quick eightHolds) = (false, true) ∧ eightHolds.holds.holds.length = 8 ∧
      ∀ h ∈ eightHolds.holds.holds, h.source ≠ .line) ∧
    holdMove (depths [25]) (quick (holding [openHold_ 20 .line 0 0] 0)) = (false, true) ∧
    (holdMove (depths []) (holdLine false State.reset) = (true, false) ∧
      holdMove (depths []) (holdLine true State.reset) = (true, false) ∧
      (holdLine true State.reset).holds.holds = [] ∧
      holdMove (depths []) (holdLine true (holding [openHold_ 20 .line 0 0] 0)) = (true, false)) :=
  ⟨holdsOk_of (by decide +kernel), holdsOk_of (by decide +kernel), holdsOk_of (by decide +kernel),
    by decide +kernel⟩

theorem witness_ScanOpensAStroke_withMarks :
    let d := depths [1, 24, 25]
    ∀ s ∈ [quick State.reset, quick (settling .request), quick (settling .idle), quick dozing],
      s.capture.assembler.state = .idle ∧ plainScan d s = false ∧ keysAfter d s ≠ 0 ∧
      keysAfter (depths [24]) s = 0 := by decide +kernel

theorem witness_ScanJoinsAndClosesTheStroke_withMarks :
    (∀ a ∈ [AssemblerState.gathering, .drain],
      plainScan (depths [1, 24]) (inStroke a) = false ∧ keysAfter (depths [1, 24]) (inStroke a) ≠ 0 ∧
      keysAfter (depths [24, 25]) (inStroke a) = 0) ∧
    ((inStroke .gathering).capture.assembler.destination = .log ∧
      (wakeStroke 254 10 id State.reset).capture.assembler.destination = .wake ∧
      (wakeStroke 254 10 id State.reset).power.part ≠ .doze ∧ (wakeStroke 254 10 id dozing).power.part = .doze ∧
      (wakeStroke 254 10 id dozing).capture.assembler.chord = (wakeStroke 254 10 id dozing).wake.chord ∧
      (wakeStroke 2 10 id dozing).capture.assembler.chord ≠ (wakeStroke 2 10 id dozing).wake.chord) := by
  decide +kernel

theorem witness_StrokeLimitClosesTheStroke_wake :
    ∀ s ∈ [wakeStroke 254 6144 id State.reset, wakeStroke 254 6144 id dozing, wakeStroke 2 6144 id dozing],
      s.capture.assembler.state = .gathering ∧ s.capture.assembler.destination = .wake ∧
      s.capture.assembler.limit * 4096 ≤ (s.time.tick - s.capture.assembler.openTick).toNat * 1000 := by
  decide +kernel

/-- Lines before and after a request: whether the last pressed steno key was released, and the HOLD group. -/
def releases (after : List Line) (s : State) : Bool × Bool × Bool :=
  (pressedKeys s.capture.lines != 0 && pressedKeys after == 0, holdPressed s.capture.lines, holdPressed after)

/-- A line given up at LINE SET. -/
def givenUp (n : Nat) (s : State) : List Line :=
  s.capture.lines.set n { Line.atReset n with role := .unused }

theorem witness_LineSetConfiguresALine_pressed :
    (Rested lastKey ∧ Takes .machine .lineSet lastKey ∧
      lastKey.capture.lines[15]? = some { Line.atReset 15 with pressed := true } ∧
      releases (givenUp 15 lastKey) lastKey = (true, false, false) ∧
      lastKey.capture.assembler.state = .gathering ∧ lastKey.capture.assembler.destination = .log) ∧
    (Rested (inStroke .drain) ∧ Takes .machine .lineSet (inStroke .drain) ∧
      releases (givenUp 1 (inStroke .drain)) (inStroke .drain) = (true, false, false) ∧
      (inStroke .drain).capture.assembler.state = .drain) ∧
    (Rested (wakeStroke 254 10 id dozing) ∧ Takes .machine .lineSet (wakeStroke 254 10 id dozing) ∧
      releases (givenUp 1 (wakeStroke 254 10 id dozing)) (wakeStroke 254 10 id dozing) = (true, false, false)) ∧
    (Rested (holdLine true State.reset) ∧ Takes .machine .lineSet (holdLine true State.reset) ∧
      (holdLine true State.reset).capture.lines[25]? = some { Line.atReset 25 with pressed := true } ∧
      releases (givenUp 25 (holdLine true State.reset)) (holdLine true State.reset) = (false, true, false)) ∧
    HoldsOk State.reset.holds :=
  ⟨asked (by decide +kernel), asked (by decide +kernel), asked (by decide +kernel), asked (by decide +kernel),
    holdsOk_of (by decide +kernel)⟩

theorem witness_LineToggleFlipsTheSet_releases :
    (Rested lastKey ∧ Takes .machine .lineToggle lastKey ∧
      releases (toggleLines 32768 0 lastKey.capture.lines) lastKey = (true, false, false)) ∧
    (Rested (inStroke .drain) ∧ Takes .machine .lineToggle (inStroke .drain) ∧
      releases (toggleLines 2 0 (inStroke .drain).capture.lines) (inStroke .drain) = (true, false, false)) ∧
    (Rested (holdLine false State.reset) ∧ Takes .machine .lineToggle (holdLine false State.reset) ∧
      releases (toggleLines 33554432 0 (holdLine false State.reset).capture.lines) (holdLine false State.reset)
        = (false, true, false)) :=
  ⟨asked (by decide +kernel), asked (by decide +kernel), asked (by decide +kernel)⟩

/-! ### The Stroke Log -/

/-- A reader that stands and balances may take the place of the MACHINE reader. -/
theorem logOk_machine {g : StrokeLog} {r : Reader} (h : LogOk g) (hr : ReaderStands g r ∧ ReaderBalances g r) :
    LogOk { g with machine := r } := by
  refine ⟨h.1, h.2.1, fun name => ?_⟩
  cases name
  · exact h.2.2 .translator
  · exact hr
  · exact h.2.2 .station

theorem witness_AppendPlacesTheRecordAtTheHead_losses :
    (fullLog.machine.on = true ∧ fullLog.machine.cursor = fullLog.head - 4096 ∧ fullLog.machine.inRun = false) ∧
    LogOk { fullLog with machine := { fullLog.machine with inRun := true } } :=
  ⟨by decide +kernel, logOk_machine fullLog_ok (fullLog_ok.2.2 .machine)⟩

/-! ### Time following -/

/-- A locked follower whose frame has ended and is not completed. -/
def endedFrame : State :=
  { lockedAt 1 with time := { (lockedAt 1).time with frameDue := true, cells := frame 12 5 9 16 1 770 0 } }

theorem witness_CellDecodedSearchesForTheLock_frameDue :
    (Rested endedFrame ∧ endedFrame.time.frameDue = true ∧ endedFrame.time.state ≠ .search) ∧ LogOk endedFrame.log ∧
    ∃ t, exec .frameCompletion endedFrame = .next t :=
  ⟨at_rest (by decide +kernel), logOk_of (by decide +kernel), _, rfl⟩

/-- A follower in FRAME at alignment 40 in its alternate search, whose next cell completes the sync pattern at
counter value 12. -/
def alternateSearch (c : Option Candidate) : State := timed (fun t => { t with
  state := .frame, alignment := 40, cellCounter := 11, cells := syncPattern.dropLast, alternate := .searching c })

theorem witness_CellDecodedSearchesForTheLock_alternate :
    let found (digit : Bool) := foundIn ((alternateSearch none).time.cells ++ [digit])
    (Rested (alternateSearch none) ∧ (alternateSearch none).time.frameDue = false ∧ found true = true ∧
      found false = false ∧ (11 + 1 : BitVec 6) ≠ (alternateSearch none).time.alignment) ∧
    (Rested (alternateSearch (some { position := 13, count := 1 })) ∧ (13#6) ≠ 11 + 1) ∧
    (Rested (alternateSearch (some { position := 12, count := 1 })) ∧ (12#6) = 11 + 1 ∧ 1 < 2) ∧
    (Rested (alternateSearch (some { position := 12, count := 2 })) ∧ 2 ≤ 2) ∧
    (Rested (timed (fun t => { t with state := .frame, alignment := 12, cellCounter := 11, alternate := .searching none })) ∧
      (11 + 1 : BitVec 6) = 12) :=
  ⟨at_rest (by decide +kernel), at_rest (by decide +kernel), at_rest (by decide +kernel),
    at_rest (by decide +kernel), at_rest (by decide +kernel)⟩

theorem witness_SyncErrorsLoseTheLock_frameAndBlock :
    let spoiled (state : FollowerState) (q : Quality) := timed (fun t => { t with
      state := state, cells := List.replicate 64 false, frameDue := true, syncRun := 2, present := true, quality := q })
    (Rested (spoiled .frame .unchecked) ∧ (spoiled .frame .unchecked).time.age ≤ 10 * 4096 ∧
      1 ≤ (decodeFrame (List.replicate 64 false)).wrong) ∧
    (Rested (spoiled .block .locked) ∧ Quality.locked ≠ .coast) :=
  ⟨at_rest (by decide +kernel), at_rest (by decide +kernel)⟩

theorem witness_BlockCheckIsJudged_clauses :
    let f := decodeFrame (frame 24 5 9 16 0 770 0)
    let inFrame (run : Option Nat) (window : Nat) (first : Bool) := checkFrame (fun t => { t with
      state := .frame, blockRun := run, window := window, lockFrame := first, quality := .unchecked })
    let inBlock (history : List Bool) (expected : Nat) (reframe : Bool) := checkFrame (fun t => { t with
      state := .block, expected := expected, quality := .locked, history := history, reframe := reframe })
    let spoiled := checkFrame (fun t => { t with
      state := .frame, cells := List.replicate 64 false, syncRun := 1, quality := .unchecked })
    (Rested (inFrame none 1 true) ∧ f.wrong = 0 ∧ ¬f.hours ≤ 23 ∧ f.position = 0) ∧
    (Rested (inFrame (some 6) 23 false) ∧ min 24 (23 + 1) = 24 ∧ 23 ≠ 24) ∧
    (Rested (inFrame (some 7) 8 false) ∧ (inFrame (some 7) 8 false).time.blockRun = some 7) ∧
    (Rested spoiled ∧ 1 ≤ (decodeFrame spoiled.time.cells).wrong ∧ spoiled.time.syncRun + 1 < 3) ∧
    (Rested (inBlock [] 3 false) ∧ (inBlock [] 3 false).time.expected ≠ 0) ∧
    (Rested (inBlock [false, false] 0 false) ∧ (lastEight ([false, false] ++ [false])).count false < 4) ∧
    (Rested (inBlock [false, false, false] 0 false) ∧ 4 ≤ (lastEight ([false, false, false] ++ [false])).count false ∧
      checkPasses (inBlock [false, false, false] 0 false).time.lastFrames f = false) ∧
    (Rested (inBlock [false, false, false] 0 true) ∧ (inBlock [false, false, false] 0 true).time.reframe = true) :=
  ⟨at_rest (by decide +kernel), at_rest (by decide +kernel), at_rest (by decide +kernel),
    at_rest (by decide +kernel), at_rest (by decide +kernel), at_rest (by decide +kernel),
    at_rest (by decide +kernel), at_rest (by decide +kernel)⟩

/-- A good frame due in a locked state, under the reference of chapter 3 or none, the take word 770 in force. -/
def goodFrame (cells : List Bool) (state : FollowerState) (present : Bool) (f : TimeFollower → TimeFollower) : State :=
  timed (fun t => f { t with
    state := state, cells := cells, frameDue := true, present := present,
    quality := (if present then (if state = .block then .locked else .unchecked) else .free),
    tref := 43509500, lref := 1000137, frameTick := 1000274, take := some 770 })

/-- The state and the quality a frame completion leaves. -/
def completed (s : State) : Option (FollowerState × Quality) :=
  match exec .frameCompletion s with
  | .next t => some (t.time.state, t.time.quality)
  | _ => none

/-- A frame that agrees with the reference, at a position and with a take word, and one that does not. -/
def agreeing (position take : Nat) : List Bool := frame 12 5 9 16 position take 0

def differing (position : Nat) : List Bool := frame 12 6 40 0 position 770 0

theorem witness_AcceptedFrameKeepsTheReference_frameAndBlock :
    let declares (cells : List Bool) := goodFrame cells .frame true (fun t => { t with blockRun := some 7 })
    (∀ s ∈ [goodFrame (agreeing 3 770) .frame true id, declares (agreeing 0 770),
        goodFrame (agreeing 3 770) .block true (fun t => { t with expected := 3 }),
        goodFrame (differing 3) .frame true id, declares (differing 0),
        goodFrame (differing 3) .block true (fun t => { t with step := some (1, 1000137) }),
        goodFrame (differing 3) .block true (fun t => { t with expected := 3, step := some (43599967, 1000137) })],
      s.time.frameDue = true ∧ s.time.state ≠ .search ∧ s.time.quality = judgedQuality s.time ∧ s.time.age ≤ 2147483648 ∧
      s.time.present = true ∧ (decodeFrame s.time.cells).wrong = 0 ∧ (decodeFrame s.time.cells).inRange 30 = true ∧
      (decodeFrame s.time.cells).take = 770) ∧
    completed (declares (agreeing 0 770)) = some (.block, .locked) ∧
    completed (goodFrame (agreeing 3 770) .frame true id) = some (.frame, .unchecked) ∧
    completed (goodFrame (differing 3) .block true (fun t => { t with expected := 3 })) = some (.block, .locked) := by
  decide +kernel

theorem witness_FirstFrameAndTakeWord_frameAndBlock :
    let declares (present : Bool) := goodFrame (agreeing 0 771) .frame present
      (fun t => { t with blockRun := some 7, pendingTake := some 771 })
    (∀ s ∈ [goodFrame (agreeing 3 770) .frame false id, goodFrame (agreeing 3 770) .block false (fun t => { t with expected := 3 }),
        declares false, declares true,
        goodFrame (agreeing 3 771) .block true (fun t => { t with expected := 3, pendingTake := some 771 })],
      s.time.frameDue = true ∧ s.time.state ≠ .search ∧ s.time.quality = judgedQuality s.time ∧ s.time.age ≤ 2147483648 ∧
      (decodeFrame s.time.cells).wrong = 0 ∧ (decodeFrame s.time.cells).inRange 30 = true ∧ s.time.step = none) ∧
    completed (declares false) = some (.block, .locked) ∧ completed (declares true) = some (.block, .locked) ∧
    (declares true).time.pendingTake = some (decodeFrame (declares true).time.cells).take ∧
    (declares true).time.take ≠ some 771 := by decide +kernel

theorem witness_BlockCheckIsJudged_accepted :
    (∀ s ∈ [goodFrame (agreeing 3 770) .frameOnly false id, goodFrame (differing 3) .frameOnly true id,
        goodFrame (agreeing 3 770) .frame true (fun t => { t with blockRun := some 2, window := 23 }),
        goodFrame (agreeing 0 770) .frame false (fun t => { t with blockRun := some 7 }),
        goodFrame (agreeing 0 770) .block true (fun t => { t with history := [false, false, false] }),
        goodFrame (agreeing 0 770) .block true (fun t => { t with history := [false, false, false], reframe := true })],
      s.time.frameDue = true ∧ (decodeFrame s.time.cells).wrong = 0 ∧ (decodeFrame s.time.cells).inRange 30 = true ∧
      s.time.quality = judgedQuality s.time) ∧
    completed (goodFrame (agreeing 0 770) .block true (fun t => { t with history := [false, false, false] }))
      = some (.frame, .unchecked) ∧
    completed (goodFrame (agreeing 0 770) .block true (fun t =>
      { t with history := [false, false, false], reframe := true })) = some (.search, .coast) := by decide +kernel

theorem witness_BlockCheckIsJudged_frameOnly :
    let spoiled := checkFrame (fun t => { t with
      state := .frameOnly, cells := List.replicate 64 false, syncRun := 1, quality := .unchecked })
    Rested spoiled ∧ (decodeFrame spoiled.time.cells).wrong ≠ 0 ∧ spoiled.time.syncRun + 1 < 3 :=
  at_rest (by decide +kernel)

/-! ### Lookups -/

/-- An image of two slots, laid out by hand from R182 and R183: slot 0, marked as extended, holds the key of
chord code 1, whose record is the first of the entry region at 32 and whose entry A is the second, or which is
prefix only. Slot 1 is EMPTY, or holds the same key. -/
def image (prefixOnly slotOneUsed : Bool) : Dictionary :=
  { State.reset.dict with
    layer := .valid, header := some { exponent := 1, seed := 0, probe := 2 },
    memory := [(8, 85), (12, 32), (16, 1), (17, 1)] ++ (if slotOneUsed then [(24, 1)] else []) ++ [(32, 1), (33, 1)]
      ++ (if prefixOnly then [(57, 255), (58, 255), (59, 255), (60, 255)] else [(57, 29)]) ++ [(65, 1), (66, 0x41)] }

theorem witness_LookupSearchesBothLayers :
    let found (d : Dictionary) (c : Chord) := ((lookup d [c]).entry.map (fun x => (x.1, x.2.text)), (lookup d [c]).extendable)
    (State.reset.dict.layer ≠ .valid ∧ (State.reset.dict.job.map (fun x => x.key)).Nodup) ∧
    ((defined.dict.job.map (fun x => x.key)).Nodup ∧
      (defined.dict.job.map (fun x => (x.entry.isSome, decide (0 < x.extensions)))) = [(false, true), (false, true), (true, false)]) ∧
    (∀ d ∈ [image false false, image true false, image false true],
      memoryWf d.memory = true ∧ d.layer = .valid ∧ d.header.isSome = true ∧ (d.job.map (fun x => x.key)).Nodup) ∧
    found (image false false) 1 = (some (.main, [0x41]), true) ∧ found (image true false) 1 = (none, true) ∧
    found (image false false) 3 = (none, false) ∧ found (image false true) 3 = (none, false) ∧
    (readByte (image false false).memory 24 = 0 ∧ readByte (image false true).memory 24 ≠ 0) ∧
    found { image false false with job := [{ key := [1], entry := some (entryOf [0x42]), extensions := 0 }] } 1
      = (some (.job, [0x42]), true) :=
  ⟨by decide +kernel, by decide +kernel, by decide +kernel, by decide +kernel⟩

/-! ### The Dictionary Store and Translation -/

/-- The part with a unit waiting in its window of one stroke. -/
def unitWaits (s : State) : State :=
  { s with trans := { s.trans with window := [windowed 2], provisional := [unitOf [0x53]] } }

/-- An entry of a command. -/
def commandEntry (c : Command) : Entry := { entryOf [] with command := c }

/-- The part with a command entry for the stroke 6976. -/
def withCommand (c : Command) (s : State) : State :=
  { s with dict := { s.dict with job := [{ key := [6976], entry := some (commandEntry c), extensions := 0 }] } }

/-- The commands of the units a window divides into. -/
def commandsOf (s : State) (w : List Chord) : List Command :=
  (segment s.dict s.trans.base (w.map windowed)).map unitCommand

theorem witness_LoadEndAndTheCheck_window :
    (Rested (unitWaits checking) ∧ (unitWaits checking).dict.layer = .checking ∧
      (unitWaits checking).trans.undo.length ≤ 32 ∧ commandsOf checking [2] = [.none]) ∧
    (Rested (unitWaits (atTick 20480 loading)) ∧ Takes .machine .loadAbort (unitWaits (atTick 20480 loading)) ∧
      (unitWaits loading).dict.claim = ownClaim .machine ∧ (unitWaits loading).trans.undo.length ≤ 32) :=
  ⟨at_rest (by decide +kernel), asked (by decide +kernel)⟩

/-- A load ends in DOZE: the recomputation is left pending (R99, R152). -/
theorem witness_LoadEndAndTheCheck_doze :
    let asleep (s : State) : State := powered .doze .request s
    let leaves (i : Instr) (s : State) : Bool × Bool := (loadPaused (after i s).dict, (after i s).trans.recomputePending)
    (Rested (asleep checking) ∧ (asleep checking).dict.layer = .checking ∧ (asleep checking).power.part = .doze) ∧
    (Rested (asleep (atTick 20480 loading)) ∧ Takes .machine .loadAbort (asleep (atTick 20480 loading)) ∧
      (asleep (atTick 20480 loading)).dict.claim = ownClaim .machine ∧
      (asleep (atTick 20480 loading)).power.part = .doze) ∧
    leaves .checkCompletion (asleep checking) = (false, true) ∧
    leaves .inactivityTimeout (asleep (atTick 20480 loading)) = (false, true) ∧
    leaves (.loadAbort .machine) (asleep (atTick 20480 loading)) = (false, true) :=
  ⟨at_rest (by decide +kernel), asked (by decide +kernel), by decide +kernel⟩

/-- The part with two settled units, the newest of two strokes. -/
def twoSettled : State := translating (fun t => { t with
  undo := [unitOf [0x41], { unitOf [0x42] with strokes := [windowed 2, windowed 4] }] })

theorem witness_DefineAndUndefineChangeTheJobTable_retranslation :
    (Rested twoSettled ∧ Takes .station .define twoSettled ∧ 0 < 8 ∧ twoSettled.trans.undo ≠ [] ∧
      loadPaused twoSettled.dict = false ∧ twoSettled.power.part ≠ .doze ∧ twoSettled.trans.undo.length ≤ 32) ∧
    (Rested loading ∧ Takes .station .define loading ∧ loadPaused loading.dict = true) ∧
    (Rested dozing ∧ Takes .station .undefine dozing ∧ dozing.power.part = .doze) ∧
    (Rested (unitWaits State.reset) ∧ Takes .station .define (unitWaits State.reset) ∧
      loadPaused (unitWaits State.reset).dict = false ∧ (unitWaits State.reset).trans.window ≠ []) :=
  ⟨asked (by decide +kernel), asked (by decide +kernel), asked (by decide +kernel), asked (by decide +kernel)⟩

theorem witness_FoldAndSpeakerTablesAreSet_unused :
    (Rested loading ∧ Takes .station .foldSet loading ∧ loadPaused loading.dict = true) ∧
    (Rested (unitWaits State.reset) ∧ Takes .station .speakerSet (unitWaits State.reset) ∧
      loadPaused (unitWaits State.reset).dict = false ∧ (false = false ∧ (none : Option Nat) = none ∧ 0 ≤ 3)) :=
  ⟨asked (by decide +kernel), asked (by decide +kernel)⟩

/-- What the second clauses of the record statements assume of a part with a record waiting. -/
def takes (b : RecordBody) (s : State) : Bool :=
  s.dict.layer != .loading && s.dict.layer != .checking && s.power.part != .doze &&
  s.log.translator.cursor != s.log.head && s.log.translator.sinceTaken == 0 && !s.trans.recomputePending &&
  (recordAt s.log s.log.translator.cursor).map (fun r => r.body) == some b

theorem witness_TranslatorTakesARecord_deletes :
    takes deleted (waiting deleted (unitWaits State.reset)) = true ∧
    takes deleted (waiting deleted twoSettled) = true ∧
    (twoSettled.trans.undo.getLast?.map (fun u => u.strokes.length) = some 2) ∧
    takes deleted (waiting deleted (settling .request)) = false ∧ takes deleted (waiting deleted State.reset) = true := by
  decide +kernel

/-- The Translator having lost a record since its last take. -/
def afterLoss (s : State) : State :=
  { s with log := { s.log with translator := { s.log.translator with sinceTaken := 1 } } }

/-- A recomputation left pending. -/
def recomputing (s : State) : State := { s with trans := { s.trans with recomputePending := true } }

theorem witness_TranslatorTakesARecord_window :
    let job : RecordBody := .job 1 0 true noon
    let waits := waiting job (unitWaits State.reset)
    takes job waits = true ∧ waits.trans.window ≠ [] ∧ waits.trans.undo.length ≤ 32 ∧
    takes job (waiting job (unitWaits (settling .request))) = false ∧
    takes job (waiting job (powered .settling .request (unitWaits State.reset))) = true ∧
    (∀ s ∈ [waits, waiting (.mark noon) (unitWaits State.reset)],
      (afterLoss s).log.translator.sinceTaken = 1 ∧ ready (afterLoss s) = true ∧ (afterLoss s).trans.recomputePending = false ∧
      ready (recomputing s) = true ∧ (recomputing s).log.translator.sinceTaken = 0 ∧
      ready (afterLoss (recomputing s)) = true ∧ (afterLoss (recomputing s)).trans.recomputePending = true) := by
  decide +kernel

theorem witness_TakenStrokeIsPutAndSettled_window :
    let stroke (c : Chord) : RecordBody := .stroke c noon 100 false
    let command := fun (s : State) => takes (stroke 6976) (waiting (stroke 6976) s)
    (takes (stroke 4) (waiting (stroke 4) (unitWaits State.reset)) = true ∧ (4 : Chord) ≠ 1024 ∧
      commandsOf State.reset [2, 4] = [.none, .none]) ∧
    (command (withCommand .feedHold State.reset) = true ∧ commandsOf (withCommand .feedHold State.reset) [6976] = [.feedHold] ∧
      command (withCommand .feedHold eightHolds) = true ∧ eightHolds.holds.holds.length = 8) ∧
    (command (withCommand .feedResume State.reset) = true ∧
      commandsOf (withCommand .feedResume State.reset) [6976] = [.feedResume] ∧
      command (withCommand .feedResume eightHolds) = true ∧
      (eightHolds.holds.holds.getLast?.map (fun h => h.source)) = some .command) := by
  decide +kernel

theorem witness_TakenStrokeIsPutAndSettled_division :
    let kinds (s : State) (w : List Chord) := (segment s.dict s.trans.base (w.map windowed)).map
      (fun u => (u.kind, u.strokes.length))
    let folded : State := { withHigh false with dict := { (withHigh false).dict with
      folds := [{ inUse := true, key := 1, suffix := [0x73] }] } }
    kinds (withHigh true) [6976, 264] = [(.entry, 2)] ∧ kinds (withHigh true) [6976, 2] = [(.entry, 1), (.raw, 1)] ∧
    kinds (withHigh true) [7] = [(.number, 1)] ∧ kinds folded [6978] = [(.fold, 1)] ∧
    kinds (withCommand .feedHold State.reset) [6976] = [(.command, 1)] := by decide +kernel

/-- A settle timer that is due with a unit of a command and a plain unit in the list. -/
def commandSettles (c : Command) (s : State) : State :=
  let unit : TextUnit := { unitOf [] with
    kind := .command, source := some { layer := .job, entry := commandEntry c, rule := none } }
  { atTick 6144 s with trans := { s.trans with
      window := [windowed 2, windowed 2], provisional := [unit, { unitOf [0x53] with id := 8 }], settleTimer := some 0 } }

theorem witness_SettleTimerAndTranslateSet_feedControl :
    (∀ s ∈ [commandSettles .feedHold State.reset, commandSettles .feedHold eightHolds,
        commandSettles .feedResume State.reset, commandSettles .feedResume eightHolds],
      s.trans.settleTimer = some 0 ∧ s.trans.settleDelay * 4096 ≤ (s.time.tick - 0).toNat * 1000 ∧
      s.trans.undo.length ≤ 32 ∧ s.trans.provisional.map isFeedControl = [true, false] ∧ holdsOkB s.holds = true) ∧
    (fixesAppended (commandSettles .feedHold State.reset).trans.provisional State.reset).holds = State.reset.holds := by
  decide +kernel

/-- A settlement of a FEED_HOLD and a FEED_RESUME unit: they act in text order after both FIX entries (R104). The
places of the FIX, HOLD and RELEASE entries are given by 1, 2 and 3. -/
theorem witness_SettleTimerAndTranslateSet_feedControls :
    let both (first second : Command) (s : State) : State :=
      let unit (id : Word) (c : Command) : TextUnit := { unitOf [] with
        id := id, kind := .command, source := some { layer := .job, entry := commandEntry c, rule := none } }
      let u := commandSettles first s
      { u with trans := { u.trans with provisional := [unit 7 first, unit 8 second] } }
    let kinds (s : State) : List Nat × Nat :=
      ((after .settleTimerExpiry s).journal.entries.map (fun e =>
        match e.body with | .fix _ _ _ => 1 | .hold _ _ => 2 | .release _ => 3 | _ => 0),
       (after .settleTimerExpiry s).holds.holds.length)
    (∀ s ∈ [both .feedHold .feedResume State.reset, both .feedHold .feedHold State.reset],
      s.trans.undo.length ≤ 32 ∧ s.trans.provisional.map isFeedControl = [true, true] ∧ holdsOkB s.holds = true) ∧
    kinds (both .feedHold .feedResume State.reset) = ([1, 1, 2, 3], 0) ∧
    kinds (both .feedHold .feedHold State.reset) = ([1, 1, 2, 2], 2) := by decide +kernel

/-! ### The Text Journal, listeners and holds -/

/-- A full journal, FEED standing on its oldest entry, the other listeners OFF. -/
def fullJournal (f : Listener → Listener) : Journal :=
  let j := State.reset.journal
  let off : Listener := { j.machine with mode := .off, cursor := 1024 }
  { j with
    entries := (List.range 1024).map (fun i => { position := BitVec.ofNat 32 i, body := .release 1 }), head := 1024,
    machine := off, station := off, feed := f { j.feed with cursor := 0 } }

theorem fullJournal_ok {f : Listener → Listener} (h : listenerB (fullJournal f) (fullJournal f).feed = true) :
    JournalOk (fullJournal f) := by
  have hl : (fullJournal f).entries.length = 1024 := by simp [fullJournal]
  have off : ListenerStands (fullJournal f) (fullJournal f).machine := by
    refine ⟨?_, notes_of rfl, fun h => ?_, fun _ => ⟨rfl, rfl, rfl, rfl, rfl⟩⟩
    · rw [hl]
      show ((1024 : Word) - 1024).toNat ≤ 1024
      decide
    · rw [show (fullJournal f).machine.paused = none from rfl] at h
      cases h
  refine ⟨⟨by rw [hl]; decide, ?_⟩, Nat.zero_le _, Nat.zero_le _, fun port => ?_⟩
  · rw [hl]
    show _ = (List.range 1024).map (fun i => (1024 : Word) - 1024 + BitVec.ofNat 32 i)
    simp [fullJournal, List.map_map, Function.comp_def]
  · cases port
    · exact off
    · exact off
    · exact listener_of h

theorem witness_AppendPlacesTheEntryAtTheHead :
    (JournalOk State.reset.journal ∧ State.reset.journal.entries.length ≠ 1024) ∧
    JournalOk (fullJournal id) ∧ JournalOk (fullJournal (fun l => { l with obeys := false })) ∧
    JournalOk (fullJournal (fun l => { l with paused := some 7 })) ∧
    ((fullJournal id).entries.length = 1024 ∧ (fullJournal id).feed.cursor = (fullJournal id).head - 1024 ∧
      (fullJournal id).feed.mode ≠ .off ∧ (fullJournal id).feed.obeys = true ∧ (fullJournal id).feed.paused = none ∧
      (fullJournal id).station.mode = .off) ∧
    (eightHolds.holds.holds ≠ [] ∧ State.reset.holds.holds = []) :=
  ⟨⟨journalOk_of (by decide +kernel), by decide +kernel⟩, fullJournal_ok (by decide +kernel),
    fullJournal_ok (by decide +kernel), fullJournal_ok (by decide +kernel),
    ⟨by simp [fullJournal], by decide +kernel⟩, by decide +kernel⟩

/-- The part with entries in its journal, FEED standing on the first, and hold 7 open at position 1. -/
def reading (bodies : List EntryBody) (f : Listener → Listener) : State :=
  let s := listening f (holding [openHold_ 7 .line 1 0] 0)
  { s with journal := { s.journal with
      entries := bodies.zipIdx.map (fun x => { position := BitVec.ofNat 32 x.2, body := x.1 }),
      head := BitVec.ofNat 32 bodies.length } }

theorem witness_ListenersReachTheirEntries :
    let put : EntryBody := .put 1 0 [0x41]
    let fix : EntryBody := .fix 1 [0x41] noon
    let hold : EntryBody := .hold 7 .line
    let reached (s : State) := ((reachAll s).journal.feed.cursor, (reachAll s).journal.feed.paused)
    (∀ s ∈ [reading [put, fix] id, reading [put, hold] id, reading [put, .release 3] id, reading [] id,
        reading [fix, put] (fun l => { l with mode := .live }), reading [put, hold] (fun l => { l with obeys := false })],
      s.journal.feed.mode ≠ .off ∧ s.journal.feed.paused = none ∧ s.journal.feed.notes = [] ∧ s.journal.feed.run = none ∧
      s.journal.entries.length = (s.journal.head - s.journal.feed.cursor).toNat) ∧
    reached (reading [put, fix] id) = (1, none) ∧ reached (reading [put, hold] id) = (1, some 7) ∧
    reached (reading [put, .release 3] id) = (2, none) ∧ reached (reading [] id) = (0, none) ∧
    reached (reading [fix, put] (fun l => { l with mode := .live })) = (1, none) ∧
    reached (reading [put, hold] (fun l => { l with obeys := false })) = (1, none) ∧
    (∀ f ∈ [fun l : Listener => { l with mode := .off }, fun l => { l with paused := some 7 }],
      (reachAll (reading [put, fix] f)).journal.feed = (reading [put, fix] f).journal.feed) := by decide +kernel

theorem witness_HoldOpensAHold_listeners :
    let atHead (s : State) (obeys : Bool) : Prop :=
      let l := s.journal.listener .feed
      l.cursor = s.journal.head ∧ l.mode ≠ .off ∧ l.paused = none ∧ l.notes = [] ∧ l.run = none ∧ l.obeys = obeys ∧
      s.holds.holds.length < 8 ∧ (∀ h ∈ s.holds.holds, h.source ≠ .machine)
    (Rested State.reset ∧ Takes .machine .hold State.reset ∧ atHead State.reset true) ∧
    (Rested (freeFeed .live) ∧ Takes .machine .hold (freeFeed .live) ∧ atHead (freeFeed .live) false) ∧
    JournalOk (freeFeed .live).journal ∧ HoldsOk (freeFeed .live).holds ∧
    JournalOk State.reset.journal ∧ HoldsOk State.reset.holds :=
  ⟨asked (by decide +kernel), asked (by decide +kernel), journalOk_of (by decide +kernel),
    holdsOk_of (by decide +kernel), journalOk_of (by decide +kernel), holdsOk_of (by decide +kernel)⟩

theorem witness_ViewSetSetsTheListener_bothFields :
    let l (s : State) := s.journal.listener .feed
    (Rested State.reset ∧ Takes .feed .viewSet State.reset ∧ (l State.reset).obeys = true ∧
      (l State.reset).mode = .settled ∧ (l State.reset).paused = none ∧ State.reset.holds.holds = []) ∧
    (Rested (pausedFeed false) ∧ Takes .feed .viewSet (pausedFeed false) ∧ (l (pausedFeed false)).obeys = true ∧
      (l (pausedFeed false)).paused ≠ none) ∧
    (Rested (holding [openHold_ 7 .line 0 0] 0) ∧ Takes .feed .viewSet (holding [openHold_ 7 .line 0 0] 0) ∧
      (l (holding [openHold_ 7 .line 0 0] 0)).obeys = true ∧ (l (holding [openHold_ 7 .line 0 0] 0)).paused = none) ∧
    (Rested (listening (fun x => { x with mode := .off, obeys := false }) State.reset) ∧
      Takes .feed .viewSet (listening (fun x => { x with mode := .off, obeys := false }) State.reset) ∧
      (l (listening (fun x => { x with mode := .off, obeys := false }) State.reset)).mode = .off) :=
  ⟨asked (by decide +kernel), asked (by decide +kernel), asked (by decide +kernel), asked (by decide +kernel)⟩

/-- The FEED listener after its VIEW SET with an obedience: paused, repaint-pending, notes, and the view its run is
of, settled or live. -/
def viewSet (mode : Option ViewMode) (obeys : Bool) (s : State) : Option Nat × Bool × List Note × Option Bool :=
  let l := (after (.viewSet .feed mode (some obeys)) s).journal.feed
  (l.paused, l.repaintPending, l.notes, l.run.map (fun r => r.settled))

/-- FEED not obeying holds, none open. -/
def freeListener : State := listening (fun l => { l with obeys := false }) State.reset

/-- A change of obedience and one of mode in one VIEW SET, obedience first (R130): taken from a paused listener with
a repaint owed or not, given to one that has passed an open hold or none, and obedience alone. -/
theorem witness_ViewSetSetsTheListener_order :
    (∀ s ∈ [pausedFeed false, pausedFeed true, freeFeed .settled, freeListener, State.reset],
      takesB .feed .viewSet s = true) ∧
    viewSet (some .live) false (pausedFeed false) = (none, false, [.resumed 7], some false) ∧
    viewSet (some .settled) false (pausedFeed true) = (none, false, [.resumed 7], some true) ∧
    viewSet (some .live) true (freeFeed .settled) = (some 7, true, [.paused 7 .line], none) ∧
    viewSet (some .live) true freeListener = (none, false, [], some false) ∧
    viewSet none true freeListener = (none, false, [], none) ∧
    viewSet none false State.reset = (none, false, [], none) :=
  ⟨by decide +kernel, by decide +kernel, by decide +kernel, by decide +kernel, by decide +kernel,
    by decide +kernel, by decide +kernel⟩

/-- FEED paused on the machine's hold 7, the HOLD entries of `entered` standing in the journal from its cursor on,
and further holds open. -/
def pausedOnSeven (entered : List Nat) (others : List OpenHold) (pending : Bool) : State :=
  let s := reading (entered.map (fun id => .hold id .line)) (fun l => { l with paused := some 7, repaintPending := pending })
  rest { s with holds := { s.holds with holds := openHold_ 7 .machine 0 0 :: others } }

/-- The FEED listener after the machine's UNHOLD: paused, repaint-pending, notes, and whether a run is started. -/
def afterUnhold (s : State) : Option Nat × Bool × List Note × Bool :=
  let l := (after (.unhold .machine) s).journal.feed
  (l.paused, l.repaintPending, l.notes, l.run.isSome)

theorem witness_UnholdClosesTheOwnHold_listeners :
    let other (position : Word) := openHold_ 9 .line position 0
    let asks (s : State) : Prop := Rested s ∧ Takes .machine .unhold s ∧
      (openHold_ 7 .machine 0 0 ∈ s.holds.holds ∧ s.journal.feed.paused = some 7 ∧ s.journal.feed.obeys = true)
    (asks (pausedOnSeven [7] [] false) ∧ asks (pausedOnSeven [7] [] true) ∧
      asks (pausedOnSeven [7] [other 4294967295] true) ∧ asks (pausedOnSeven [7, 9] [other 1] true) ∧
      asks (pausedOnSeven [7, 9] [other 1] false)) ∧
    (afterUnhold (pausedOnSeven [7] [] false) = (none, false, [.resumed 7], false) ∧
      afterUnhold (pausedOnSeven [7] [] true) = (none, false, [.resumed 7], true) ∧
      afterUnhold (pausedOnSeven [7] [other 4294967295] true) = (some 9, true, [.resumed 7, .paused 9 .line], false) ∧
      afterUnhold (pausedOnSeven [7, 9] [other 1] true) = (some 9, true, [.resumed 7, .paused 9 .line], false) ∧
      afterUnhold (pausedOnSeven [7, 9] [other 1] false) = (none, false, [.resumed 7], false)) :=
  ⟨⟨asked (by decide +kernel), asked (by decide +kernel), asked (by decide +kernel), asked (by decide +kernel),
    asked (by decide +kernel)⟩, by decide +kernel⟩

theorem witness_ViewSetSetsTheListener_run :
    let s := listening (fun l => { l with run := some { settled := true, copy := [], viewLength := 0, position := 0, next := 0 } })
      (holding [openHold_ 7 .line 0 0] 0)
    (Rested s ∧ Takes .feed .viewSet s ∧
      (s.journal.feed.paused = none ∧ s.journal.feed.mode ≠ .live ∧ s.journal.feed.obeys = true)) ∧
    (after (.viewSet .feed (some .live) none) s).journal.feed.paused = some 7 ∧
    (after (.viewSet .feed (some .live) none) s).journal.feed.run = none :=
  ⟨asked (by decide +kernel), by decide +kernel⟩

theorem witness_HoldLimitClosesHolds_owned :
    HoldsOk eightHolds.holds ∧ { openHold_ 2 .command 0 0 with owner := some 1 } ∈ eightHolds.holds.holds ∧
    (∀ h ∈ eightHolds.holds.holds, ¬(h.id = 2 ∧ h.source = .command ∧ h.owner = some 9)) :=
  ⟨holdsOk_of (by decide +kernel), by decide +kernel⟩

/-- FEED paused with a repaint owed on hold 7, hold 9 open behind it, and HOLD LIMIT SET of 1 minute: with both
reached FEED is paused again on 9 at the first close and repainted at the second; with 7 alone it stays on 9. -/
theorem witness_HoldLimitClosesHolds_listeners :
    let old (age : Nat) : State :=
      let s := pausedOnSeven [7, 9] [] true
      { s with holds := { s.holds with holds := [openHold_ 7 .line 0 245760, openHold_ 9 .machine 1 age] } }
    let limited (s : State) : Option Nat × Bool × List Note × Bool :=
      let l := (after (.holdLimitSet .machine 1) s).journal.feed
      (l.paused, l.repaintPending, l.notes, l.run.isSome)
    (Rested (old 245760) ∧ Takes .machine .holdLimitSet (old 245760) ∧ (old 245760).journal.feed.paused = some 7) ∧
    (Rested (old 5) ∧ Takes .machine .holdLimitSet (old 5) ∧ (old 5).journal.feed.paused = some 7) ∧
    (JournalOk (old 245760).journal ∧ JournalOk (old 5).journal ∧ HoldsOk (old 245760).holds ∧ HoldsOk (old 5).holds) ∧
    limited (old 245760) = (none, false, [.resumed 7], true) ∧
    limited (old 5) = (some 9, true, [.resumed 7, .paused 9 .machine], false) :=
  ⟨asked (by decide +kernel), asked (by decide +kernel),
    ⟨journalOk_of (by decide +kernel), journalOk_of (by decide +kernel), holdsOk_of (by decide +kernel),
      holdsOk_of (by decide +kernel)⟩, by decide +kernel⟩

/-! ### Power and waking -/

theorem witness_IdlingAndDozeBeginSettling_clauses :
    let asleep : State := powered .settling .idle State.reset
    (Rested loading ∧ Takes .machine .doze loading ∧ loading.power.part = .ready ∧ loadPaused loading.dict = true) ∧
    (Rested (inStroke .gathering) ∧ Takes .machine .doze (inStroke .gathering) ∧
      (inStroke .gathering).capture.assembler.state ≠ .idle ∧ (inStroke .gathering).trans.window = []) ∧
    (Rested (unitWaits State.reset) ∧ Takes .machine .doze (unitWaits State.reset) ∧
      (unitWaits State.reset).trans.window ≠ []) ∧
    (asleep.power.part = .settling ∧ asleep.capture.assembler.state = .idle ∧
      asleep.log.translator.cursor = asleep.log.head ∧ asleep.dict.layer ≠ .loading ∧
      asleep.dict.layer ≠ .checking ∧ asleep.trans.window = [] ∧ State.reset.power.part ≠ .settling) :=
  ⟨asked (by decide +kernel), asked (by decide +kernel), asked (by decide +kernel), by decide +kernel⟩

theorem witness_IdlingAndDozeBeginSettling_window :
    let holds : State := { unitWaits State.reset with trans := (commandSettles .feedHold State.reset).trans }
    let dozes (s : State) := ((after (.doze .machine) s).power.part, (after (.doze .machine) s).holds.holds.length,
      (after (.doze .machine) s).journal.entries.map (fun e => match e.body with | .fix id _ _ => id | _ => 0))
    (∀ s ∈ [unitWaits State.reset, unitWaits (inStroke .gathering), holds],
      s.power.part = .ready ∧ loadPaused s.dict = false ∧ s.trans.window ≠ [] ∧ s.trans.undo.length ≤ 32) ∧
    holds.trans.provisional.map isFeedControl = [true, false] ∧
    dozes (unitWaits State.reset) = (.doze, 0, [7]) ∧ dozes (unitWaits (inStroke .gathering)) = (.settling, 0, [7]) ∧
    dozes holds = (.doze, 1, [7, 8, 0]) := by decide +kernel

theorem witness_WakeDetectorJudgesStrokes_settling :
    Rested (wakeStroke 254 10 id (settling .request)) ∧ closing (wakeStroke 254 10 id (settling .request)) = true ∧
    (wakeStroke 254 10 id (settling .request)).power.part = .settling :=
  at_rest (by decide +kernel)

theorem witness_NoticesSetReplacesTheEnables_kinds :
    (5#8).getLsbD (noticeCode .hold) = false ∧ (5#8).getLsbD (noticeCode .power) = true ∧
    (State.reset.port .feed).notices.length < 8 := by decide +kernel

end Sys2Proof.Tests
end

section
/-! PROOFS. Time following: re-basing the reference (R56) leaves the stamp of its tick as R49 gives it. -/

namespace Sys2Proof.Machine

/-! ### Stamps (R49) -/

/-- No ticks have passed since the tick itself. -/
@[simp] theorem ticksSince_self (l : Tick) : ticksSince l l = 0 := by
  simp [ticksSince]

/-- The stamp of the reference's own tick is its time of day. -/
theorem stampMs_lref (t : TimeFollower) : stampMs t t.lref = t.tref % Config.dayMs := by
  simp [stampMs, ticksToMs]

/-- A stamp is a time of day. -/
theorem stampMs_lt_dayMs (t : TimeFollower) (l : Tick) : stampMs t l < Config.dayMs :=
  Nat.mod_lt _ (by decide)

/-! ### The re-base (R56) -/

/-- The Time Follower with its reference moved to the tick `l` and the stamp of that tick. -/
def TimeFollower.rebasedAt (t : TimeFollower) (l : Tick) : TimeFollower :=
  { t with tref := stampMs t l, lref := l }

/-- Moving the reference to a tick keeps that tick's stamp: it is a time of day already. -/
theorem stampAt_rebasedAt (t : TimeFollower) (l : Tick) : stampAt (t.rebasedAt l) l = stampAt t l := by
  have hms : stampMs (t.rebasedAt l) l = stampMs t l :=
    calc stampMs (t.rebasedAt l) l
        = stampMs t l % Config.dayMs := stampMs_lref (t.rebasedAt l)
      _ = stampMs t l := Nat.mod_eq_of_lt (stampMs_lt_dayMs t l)
  rw [stampAt, hms]
  rfl

/-- The re-base is due from 2^31 ticks past Lref on. -/
theorem rebaseDue_iff (s : State) :
    rebaseDue s = true ↔ 2147483648 ≤ (s.time.tick - s.time.lref).toNat :=
  decide_eq_true_iff

/-- A re-base that is due moves the reference to the tick counter. -/
theorem rebaseEvent_of_due {s : State} (h : rebaseDue s = true) :
    rebaseEvent s = setTime (s.time.rebasedAt s.time.tick) s :=
  if_pos h

/-- REFERENCE_REBASE is its event and what ends every event. -/
theorem exec_referenceRebase (s : State) : exec .referenceRebase s = .next (eventEnd (rebaseEvent s)) := rfl

/-- A re-base that is due, on a part at rest: the end of the event adds nothing. -/
theorem exec_referenceRebase_of_due {s : State} (hr : Rested s) (h : rebaseDue s = true) :
    exec .referenceRebase s = .next (setTime (s.time.rebasedAt s.time.tick) s) := by
  have hend : eventEnd (setTime (s.time.rebasedAt s.time.tick) s) = setTime (s.time.rebasedAt s.time.tick) s :=
    eventEnd_same hr rfl rfl rfl rfl hr.1
  rw [exec_referenceRebase, rebaseEvent_of_due h, hend]

/-- Settles O24: the re-base is due, moves the reference to the tick counter, and keeps that tick's stamp. -/
theorem rebaseKeepsTheStamp : Obligations.RebaseKeepsTheStamp := by
  unfold Obligations.RebaseKeepsTheStamp
  intro s hr difference stamp hdue rebased
  exact ⟨exec_referenceRebase_of_due hr ((rebaseDue_iff s).mpr hdue), stampAt_rebasedAt s.time s.time.tick⟩

end Sys2Proof.Machine
end

section
/-! PROOFS. Notice enables: NOTICES SET replaces them (R177), and they decide which notices a port queues (R176). -/

namespace Sys2Proof.Machine

/-! ### Notices and the enables (R176) -/

/-- A notice whose kind is not enabled is dropped without a trace. -/
theorem queueNotice_of_disabled {n : Notice} {p : PortState}
    (h : p.enables.getLsbD (noticeCode n.kind) = false) : queueNotice n p = p :=
  if_neg (by simp [h])

/-- A notice whose kind is enabled goes to the end of a queue that has room. -/
theorem queueNotice_of_room {n : Notice} {p : PortState} (h : p.enables.getLsbD (noticeCode n.kind) = true)
    (hroom : p.notices.length < Config.noticeCapacity) :
    queueNotice n p = { p with notices := p.notices ++ [n] } := by
  rw [queueNotice, if_pos h, if_pos hroom]

/-- A notice raised on a port where its kind is not enabled changes nothing. -/
theorem noticeOn_of_disabled {port : Port} {n : Notice} {s : State}
    (h : (s.port port).enables.getLsbD (noticeCode n.kind) = false) : noticeOn port n s = s := by
  rw [noticeOn, queueNotice_of_disabled h, State.setPort, State.port, Ports.set_get]

/-- The port replaced is the one given. -/
theorem setPort_port_self (s : State) (port : Port) (v : PortState) : (s.setPort port v).port port = v :=
  Ports.get_set_self s.ports port v

/-- What a notice raised on a port makes of that port. -/
theorem noticeOn_port_self (port : Port) (n : Notice) (s : State) :
    (noticeOn port n s).port port = queueNotice n (s.port port) :=
  setPort_port_self s port _

/-! ### Replacing a port's enables (R177) -/

/-- The enables are no part of what drives the attention output (R175). -/
theorem attentionLevel_noticesSetOwner (port : Port) (kinds : NoticeSet) (s : State) :
    attentionLevel (noticesSetOwner port kinds s).1 = attentionLevel s := by
  cases port <;> rfl

/-- An answer changes nothing of its port but the answers. -/
theorem answered_port_self (port : Port) (k : RequestKind) (status : Status) (fields : List Byte) (t : State) :
    (answered port k status fields t).port port
      = { t.port port with answers := (t.port port).answers ++ [.answer (kindCode k) status fields] } := by
  cases port <;> rfl

/-- A request on a part at rest whose owner leaves the journal and the holds, and the attention output at its
level: the end of the event adds nothing to the answer. -/
theorem takeRequest_level {s : State} {port : Port} {k : RequestKind} {owner : State → State × Verdict}
    (hr : Rested s) (ht : Takes port k s) (hj : (owner s).1.journal = s.journal)
    (hh : (owner s).1.holds = s.holds) (hd : dozeReady (owner s).1 = false)
    (hlevel : (owner s).1.ports.attention = attentionLevel (owner s).1) :
    takeRequest port k owner s = answered port k (owner s).2.status (owner s).2.fields (owner s).1 :=
  calc takeRequest port k owner s
      = driveAttention (pushReply port (.answer (kindCode k) (owner s).2.status (owner s).2.fields) (owner s).1) :=
        takeRequest_rested hr ht rfl hj hh hd
    _ = answered port k (owner s).2.status (owner s).2.fields (owner s).1 :=
        driveAttention_pushReply hlevel rfl rfl rfl

/-- NOTICES SET is a request handed to its owner. -/
theorem exec_noticesSet (port : Port) (kinds : NoticeSet) (s : State) :
    exec (.noticesSet port kinds) s = .next (takeRequest port .noticesSet (noticesSetOwner port kinds) s) := rfl

/-- NOTICES SET taken on a part at rest replaces the enables and answers them. -/
theorem exec_noticesSet_of_takes {port : Port} {kinds : NoticeSet} {s : State} (hr : Rested s)
    (ht : Takes port .noticesSet s) :
    exec (.noticesSet port kinds) s
      = .next (answered port .noticesSet .ok (byte kinds.toNat)
          (s.setPort port { s.port port with enables := kinds })) := by
  have hlevel : (noticesSetOwner port kinds s).1.ports.attention
      = attentionLevel (noticesSetOwner port kinds s).1 := by
    rw [attentionLevel_noticesSetOwner, noticesSetOwner, State.setPort_ports, Ports.set_attention, hr.2.2]
  rw [exec_noticesSet, takeRequest_level hr ht rfl rfl hr.1 hlevel]
  rfl

/-- Settles O49: the answer leaves the enables NOTICES SET gave and the notices queued before it, and a notice
raised after it is judged by those enables. -/
theorem noticesSetReplacesTheEnables : Obligations.NoticesSetReplacesTheEnables := by
  unfold Obligations.NoticesSetReplacesTheEnables
  intro port kinds s hr ht enabled t
  have hport : t.port port = { enabled with answers := enabled.answers ++
      [.answer (kindCode .noticesSet) .ok (byte kinds.toNat)] } := by
    rw [answered_port_self, setPort_port_self]
  have henables : (t.port port).enables = kinds := by rw [hport]
  have hnotices : (t.port port).notices = (s.port port).notices := by rw [hport]
  refine ⟨exec_noticesSet_of_takes hr ht, hnotices, fun n => ⟨fun hoff => ?_, fun hon hroom => ?_⟩⟩
  · exact noticeOn_of_disabled (by rw [henables, hoff])
  · rw [noticeOn_port_self, queueNotice_of_room (by rw [henables, hon]) (by rw [hnotices]; exact hroom), hnotices]

end Sys2Proof.Machine
end

section
/-! PROOFS. The dictionary store: every step keeps its memory, its load and its Job table in order (R59, R65, R76). -/

namespace Sys2Proof.Machine

/-! ### The dictionary store (R59, R65, R76) -/

/-- The dictionary store in order: its memory, its load and its Job table. -/
def DictionaryOk (d : Dictionary) : Prop := memoryWf d.memory = true ∧ LoadOk d ∧ JobTableOk d.job

theorem jobTableOk_nil : JobTableOk [] := by simp [JobTableOk]

theorem dictionaryOk_atReset : DictionaryOk Dictionary.atReset :=
  ⟨reset_memory_wf, by simp [LoadOk, Dictionary.atReset, loadPaused], jobTableOk_nil⟩

/-- A change of the Job table alone keeps the rest of the store. -/
theorem DictionaryOk.withJob {slots : List JobSlot} {d : Dictionary} (h : DictionaryOk d) (hs : JobTableOk slots) :
    DictionaryOk { d with job := slots } :=
  ⟨h.1, h.2.1, hs⟩

/-- What the end of a load makes of the store: the Translator's resume does not touch it. -/
theorem endLoad_dict (layer : LayerState) (result : CheckResult) (header : Option ImageHeader) (s : State) :
    (endLoad layer result header s).dict
      = { s.dict with layer := layer, result := result, claim := .none, inactivity := none, header := header } := by
  simp [endLoad, changeLayer]

/-- A load ended leaves the layer out of LOADING and CHECKING, with a header in VALID alone (R65). -/
theorem endLoad_dictionaryOk {layer : LayerState} {header : Option ImageHeader} (result : CheckResult) {s : State}
    (hl : layer ≠ .loading ∧ layer ≠ .checking) (hh : header.isSome = true ↔ layer = .valid)
    (h : DictionaryOk s.dict) : DictionaryOk (endLoad layer result header s).dict := by
  obtain ⟨hm, ⟨_, _, _, hr, ht⟩, hj⟩ := h
  rw [endLoad_dict]
  exact ⟨hm, ⟨by simp [loadPaused, hl], by simp [hl], hh, hr, ht⟩, hj⟩

theorem inactivityEvent_dictionaryOk {s : State} (h : DictionaryOk s.dict) :
    DictionaryOk (inactivityEvent s).dict := by
  unfold inactivityEvent
  split
  · exact endLoad_dictionaryOk _ (by simp) (by simp) h
  · exact h

theorem checkEvent_dictionaryOk {s : State} (h : DictionaryOk s.dict) : DictionaryOk (checkEvent s).dict := by
  unfold checkEvent completeCheck
  split
  · split
    · exact endLoad_dictionaryOk _ (by simp) (by simp) h
    · exact endLoad_dictionaryOk _ (by simp) (by simp) h
  · exact h

theorem jobOpenOwner_dictionaryOk (job : Nat) (keep : Bool) {s : State} (h : DictionaryOk s.dict) :
    DictionaryOk (jobOpenOwner job keep s).1.dict := by
  unfold jobOpenOwner
  split
  · exact h
  · split
    · exact h
    · cases keep with
      | true => simpa [appendJob] using h
      | false => simpa [appendJob, emptyJobTable] using h.withJob jobTableOk_nil

/-- A load begun holds the port's claim, which is one of the two of R66 where the request is permitted. -/
theorem beginLoad_dictionaryOk {port : Port} {total : Nat} {d : Dictionary} (tick : Tick)
    (hp : permitted .loadBegin port = true) (ht : total ≤ Config.dictionaryBytes) (h : DictionaryOk d) :
    DictionaryOk (beginLoad port total tick d) := by
  have hclaim : ownClaim port ≠ .none := by
    cases port with
    | machine => simp [ownClaim]
    | station => simp [ownClaim]
    | feed => simp [permitted] at hp
  exact ⟨h.1, ⟨by simp [beginLoad, loadPaused, hclaim], by simp [beginLoad], by simp [beginLoad], Nat.zero_le _, ht⟩,
    h.2.2⟩

theorem loadBeginOwner_dictionaryOk {port : Port} (total : Nat) {s : State}
    (hp : permitted .loadBegin port = true) (h : DictionaryOk s.dict) :
    DictionaryOk (loadBeginOwner port total s).1.dict := by
  unfold loadBeginOwner
  split
  · exact h
  · split
    · exact h
    · split
      · exact h
      · rename_i hn
        simp only [Bool.or_eq_true, decide_eq_true_eq, not_or, not_lt] at hn
        simpa [changeLayer] using beginLoad_dictionaryOk s.time.tick hp hn.2 h

/-- A LOAD DATA taken lies within the declared total (R67). -/
theorem takeData_dictionaryOk {offset : Nat} {data : List Byte} (tick : Tick) {d : Dictionary}
    (hl : d.layer = .loading) (ho : offset = d.received) (hd : dataInRange d offset data = true)
    (h : DictionaryOk d) : DictionaryOk (takeData offset data tick d) := by
  obtain ⟨hm, ⟨hc, hi, hh, hr, ht⟩, hj⟩ := h
  simp only [dataInRange, Bool.and_eq_true, decide_eq_true_eq] at hd
  exact ⟨writeBytes_wf hm _ _, ⟨hc, by simp [takeData, hl], hh, by simp only [takeData]; omega, ht⟩, hj⟩

theorem loadDataOwner_dictionaryOk (port : Port) (offset : Nat) (data : List Byte) {s : State}
    (h : DictionaryOk s.dict) : DictionaryOk (loadDataOwner port offset data s).1.dict := by
  unfold loadDataOwner
  split
  · exact h
  · split
    · exact h
    · split
      · exact h
      · split
        · exact h
        · rename_i hl hd ho
          exact takeData_dictionaryOk _ (by simpa using hl) (by simpa using ho) (by simpa using hd) h

theorem loadEndOwner_dictionaryOk (port : Port) {s : State} (h : DictionaryOk s.dict) :
    DictionaryOk (loadEndOwner port s).1.dict := by
  unfold loadEndOwner
  split
  · exact h
  · split
    · exact h
    · rename_i hl
      obtain ⟨hm, ⟨hc, _, hh, hr, ht⟩, hj⟩ := h
      simp only [ne_eq, not_not] at hl
      have hclaim : s.dict.claim ≠ .none := fun hn => by simp [loadPaused, hl] at hc; exact hc hn
      have hheader : s.dict.header = none := by simpa [hl] using hh
      simp [changeLayer, DictionaryOk, LoadOk, loadPaused, hm, hj, hr, ht, hclaim, hheader]

theorem loadAbortOwner_dictionaryOk (port : Port) {s : State} (h : DictionaryOk s.dict) :
    DictionaryOk (loadAbortOwner port s).1.dict := by
  unfold loadAbortOwner
  split
  · exact h
  · exact endLoad_dictionaryOk _ (by simp) (by simp) h

theorem defineOwner_dictionaryOk (key : List Nat) (entry : Entry) (r : Nat) {s : State} (h : DictionaryOk s.dict) :
    DictionaryOk (defineOwner key entry r s).1.dict := by
  unfold defineOwner
  split
  · rename_i hin
    have hkey : 1 ≤ (chordsOf key).length ∧ (chordsOf key).length ≤ 8 := by
      simp only [defineInRange, keyLengthInRange, Bool.and_eq_true, decide_eq_true_eq] at hin
      simpa [chordsOf] using hin.1.1.1
    split
    · exact h
    · rename_i slots hslots
      simpa using h.withJob (defineSlots_ok _ _ _ _ hkey h.2.2 hslots)
  · exact h

theorem undefineOwner_dictionaryOk (key : List Nat) {s : State} (h : DictionaryOk s.dict) :
    DictionaryOk (undefineOwner key s).1.dict := by
  unfold undefineOwner
  split
  · rename_i hin
    simp only [Bool.and_eq_true] at hin
    simpa using h.withJob (undefineSlots_ok _ _ hin.2 h.2.2)
  · exact h

/-- The Fold and Speaker tables are outside the invariant. -/
theorem foldSetOwner_dictionaryOk (rule : Nat) (inUse : Bool) (key : Option Nat) (suffix : Option Text) {s : State}
    (h : DictionaryOk s.dict) : DictionaryOk (foldSetOwner rule inUse key suffix s).1.dict := by
  unfold foldSetOwner
  split
  · simp only [askRecompute_frame, setDict_dict]
    exact h
  · exact h

theorem speakerSetOwner_dictionaryOk (slot : Nat) (label : Text) {s : State} (h : DictionaryOk s.dict) :
    DictionaryOk (speakerSetOwner slot label s).1.dict := by
  unfold speakerSetOwner
  split
  · simp only [askRecompute_frame, setDict_dict]
    exact h
  · exact h

/-- Every owner and event of the Dictionary Store keeps it in order; the other commands do not touch it. -/
theorem keeps_dictionaryOk : Keeps (fun s => DictionaryOk s.dict) := by
  constructor
  case reset => exact fun _ _ => dictionaryOk_atReset
  case tick => exact fun _ h => h
  case inactivity => exact fun _ => inactivityEvent_dictionaryOk
  case check => exact fun _ => checkEvent_dictionaryOk
  case jobOpen => exact fun j k _ => jobOpenOwner_dictionaryOk j k
  case loadBegin => exact fun _ n _ => loadBeginOwner_dictionaryOk n
  case loadData => exact fun port o d _ => loadDataOwner_dictionaryOk port o d
  case loadEnd => exact fun port _ => loadEndOwner_dictionaryOk port
  case loadAbort => exact fun port _ => loadAbortOwner_dictionaryOk port
  case define => exact fun k e r _ => defineOwner_dictionaryOk k e r
  case undefine => exact fun k _ => undefineOwner_dictionaryOk k
  case foldSet => exact fun r u k t _ => foldSetOwner_dictionaryOk r u k t
  case speakerSet => exact fun n t _ => speakerSetOwner_dictionaryOk n t
  all_goals
    intros
    simpa

/-- Settles O53: the store is in order at reset, and every owner and event keeps it so. -/
theorem stepKeepsTheDictionary : Obligations.StepKeepsTheDictionary := by
  unfold Obligations.StepKeepsTheDictionary
  exact fun s t h he => keeps_dictionaryOk.step h he

end Sys2Proof.Machine
end

section
/-! PROOFS. The induction over commands for a property of the log, the journal, the holds, the counters and the
ports: what the shared operations keep, every event and every request's owner keeps. -/

namespace Sys2Proof.Machine

/-! ### What must be kept -/

/-- What a property of the log, the journal, the holds, the counters and the ports must keep: changes of the other
blocks, and the shared operations through which the Translator, Power Control, the Stroke Assembler and the Time
Follower act on these five. -/
structure ActsKept (P : State → Prop) : Prop where
  elsewhere : ∀ {s t : State}, P s → t.log = s.log → t.journal = s.journal →
    t.holds = s.holds → t.counters = s.counters → t.ports = s.ports → P t
  notice : ∀ n s, P s → P (raiseNotice n s)
  count : ∀ c n s, P s → P (countEvents c n s)
  record : ∀ b s, P s → P (appendRecord b s)
  entry : ∀ b s, P s → P (appendEntry b s)
  open_ : ∀ source owner s, (owner.isSome = true ↔ source = .command) → P s → P (openHold source owner s).1
  close : ∀ h c s, P s → P (closeThis h c s)
  taken : ∀ s, s.log.translator.cursor ≠ s.log.head → P s →
    P { s with log := { s.log with translator := { passRecord s.log.translator with sinceTaken := 0 } } }
  job : ∀ n s, P s → P { s with log := { s.log with job := n } }
  limit : ∀ n s, P s → P { s with holds := { s.holds with limit := n } }

variable {P : State → Prop} {s : State}

/-- A choice keeps what both its sides keep. -/
theorem ite_kept {c : Prop} [Decidable c] {a b : State} (ha : P a) (hb : P b) : P (if c then a else b) := by
  split
  · exact ha
  · exact hb

/-! ### Holds -/

theorem ActsKept.closeWhere (K : ActsKept P) (test : OpenHold → Bool) (c : CloseCause) (h : P s) :
    P (closeWhere test c s) := by
  unfold Machine.closeWhere
  split
  · exact h
  · exact K.close _ _ _ h

theorem ActsKept.closeNewestCommand (K : ActsKept P) (h : P s) : P (closeNewestCommand s) := by
  unfold Machine.closeNewestCommand
  split
  · exact h
  · exact K.close _ _ _ h

theorem ActsKept.closeOwned (K : ActsKept P) (holdId : Option Nat) (unitId : Word) (h : P s) :
    P (closeOwned holdId unitId s) := by
  cases holdId with
  | none => exact h
  | some _ => exact K.closeWhere _ _ h

theorem ActsKept.closeEach (K : ActsKept P) (c : CloseCause) (l : List OpenHold) (h : P s) :
    P (closeEach c l s) := by
  induction l generalizing s with
  | nil => exact h
  | cons x rest ih => exact ih (K.closeWhere _ _ h)

theorem ActsKept.setHoldLimit (K : ActsKept P) (minutes : Nat) (h : P s) : P (setHoldLimit minutes s) :=
  K.closeEach _ _ (K.limit _ _ h)

/-! ### Settlement (R101 to R105) -/

theorem ActsKept.settleUnit (K : ActsKept P) (u : TextUnit) (h : P s) : P (settleUnit u s) := by
  have hfix := K.entry (.fix u.id u.text (unitStamp u)) s h
  unfold Machine.settleUnit
  generalize appendEntry _ s = t at hfix ⊢
  have hmoved (x : Translator) : P { t with trans := x } := K.elsewhere hfix rfl rfl rfl rfl rfl
  dsimp only
  split
  · exact K.count _ _ _ (hmoved _)
  · exact hmoved _

theorem ActsKept.settleUnits (K : ActsKept P) (l : List TextUnit) (h : P s) : P (settleUnits l s) := by
  induction l generalizing s with
  | nil => exact h
  | cons u rest ih => exact ih (K.settleUnit u h)

theorem ActsKept.holdAction (K : ActsKept P) (u : TextUnit) (h : P s) : P (holdAction u s) := by
  unfold Machine.holdAction
  split
  · have hopen := K.open_ .command (some u.id) s (by simp) h
    split
    · rename_i t id heq
      rw [heq] at hopen
      exact K.elsewhere hopen rfl rfl rfl rfl rfl
    · rename_i t a _ heq
      rw [heq] at hopen
      exact hopen
  · exact K.closeNewestCommand h
  · exact h

theorem ActsKept.holdActions (K : ActsKept P) (l : List TextUnit) (h : P s) : P (holdActions l s) := by
  induction l generalizing s with
  | nil => exact h
  | cons u rest ih => exact ih (K.holdAction u h)

theorem ActsKept.settleEvery (K : ActsKept P) (h : P s) : P (settleEvery s) :=
  K.elsewhere (K.holdActions _ (K.settleUnits _ h)) rfl rfl rfl rfl rfl

theorem ActsKept.settleFront (K : ActsKept P) (l : List TextUnit) (h : P s) : P (settleFront l s).2 := by
  induction l generalizing s with
  | nil => exact h
  | cons u rest ih =>
    unfold Machine.settleFront
    split
    · exact ih (K.settleUnit u h)
    · exact h

theorem ActsKept.stopIfEmpty (K : ActsKept P) (h : P s) : P (stopIfEmpty s) := by
  unfold Machine.stopIfEmpty
  split
  · exact K.elsewhere h rfl rfl rfl rfl rfl
  · exact h

theorem ActsKept.restartSettle (K : ActsKept P) (h : P s) : P (restartSettle s) :=
  K.elsewhere h rfl rfl rfl rfl rfl

theorem ActsKept.settleWindow (K : ActsKept P) (h : P s) : P (settleWindow s) := by
  unfold Machine.settleWindow
  split
  · exact K.settleEvery h
  · exact K.stopIfEmpty (K.holdActions _ (K.settleFront _ h))

/-! ### Recomputation (R99, R100) -/

theorem ActsKept.putUnits (K : ActsKept P) (l : List TextUnit) (h : P s) : P (putUnits l s).2 := by
  induction l generalizing s with
  | nil => exact h
  | cons u rest ih => exact ih (K.entry _ _ (K.elsewhere h rfl rfl rfl rfl rfl))

theorem ActsKept.appendTake (K : ActsKept P) (n : Nat) (h : P s) : P (appendTake n s) := by
  unfold Machine.appendTake
  split
  · exact h
  · exact K.entry _ _ h

theorem ActsKept.applyDifference (K : ActsKept P) (l : List TextUnit) (h : P s) : P (applyDifference l s) :=
  K.elsewhere (K.putUnits _ (K.appendTake _ h)) rfl rfl rfl rfl rfl

theorem ActsKept.recompute (K : ActsKept P) (h : P s) : P (recompute s) :=
  K.settleWindow (K.applyDifference _ (K.elsewhere h rfl rfl rfl rfl rfl))

theorem ActsKept.askRecompute (K : ActsKept P) (h : P s) : P (askRecompute s) := by
  unfold Machine.askRecompute
  split
  · exact K.recompute h
  · exact K.elsewhere h rfl rfl rfl rfl rfl

theorem ActsKept.resumeTranslator (K : ActsKept P) (h : P s) : P (resumeTranslator s) := by
  unfold Machine.resumeTranslator
  split
  · exact K.restartSettle (K.recompute h)
  · exact K.askRecompute h

/-! ### Records (R85 to R89, R108 to R112) -/

theorem ActsKept.handleGap (K : ActsKept P) (n : Nat) (h : P s) : P (handleGap n s) :=
  K.entry _ _ (K.elsewhere (K.settleEvery h) rfl rfl rfl rfl rfl)

theorem ActsKept.handleJob (K : ActsKept P) (closed opened : Nat) (h : P s) : P (handleJob closed opened s) :=
  K.entry _ _ (K.elsewhere (K.settleEvery h) rfl rfl rfl rfl rfl)

theorem ActsKept.addStroke (K : ActsKept P) (w : WindowStroke) (h : P s) : P (addStroke w s) :=
  K.restartSettle (K.recompute (K.elsewhere h rfl rfl rfl rfl rfl))

theorem ActsKept.dropStroke (K : ActsKept P) (h : P s) : P (dropStroke s) :=
  K.restartSettle (K.recompute (K.elsewhere h rfl rfl rfl rfl rfl))

theorem ActsKept.reopenUnit (K : ActsKept P) (u : TextUnit) (h : P s) : P (reopenUnit u s) := by
  have hunfix := K.entry (.unfix u.id u.text.length)
    { s with trans := { s.trans with undo := s.trans.undo.dropLast } } (K.elsewhere h rfl rfl rfl rfl rfl)
  exact K.closeOwned _ _ (K.elsewhere hunfix rfl rfl rfl rfl rfl)

theorem ActsKept.undoUnit (K : ActsKept P) (u : TextUnit) (h : P s) : P (undoUnit u s) := by
  have hopen := K.reopenUnit u h
  unfold Machine.undoUnit
  dsimp only
  split
  · exact hopen
  · exact K.restartSettle (K.recompute (K.elsewhere hopen rfl rfl rfl rfl rfl))

theorem ActsKept.handleDelete (K : ActsKept P) (h : P s) : P (handleDelete s) := by
  have hcount := K.count .deletes 1 s h
  unfold Machine.handleDelete
  dsimp only
  split
  · exact K.dropStroke hcount
  · split
    · exact K.undoUnit _ hcount
    · exact K.count _ _ _ hcount

theorem ActsKept.handleRecord (K : ActsKept P) (r : LogRecord) (h : P s) : P (handleRecord r s) := by
  unfold Machine.handleRecord
  split
  · split
    · exact K.handleDelete h
    · exact K.addStroke _ h
  · exact K.entry _ _ h
  · exact K.handleJob _ _ h
  all_goals exact h

theorem ActsKept.takeEvent (K : ActsKept P) (h : P s) : P (takeEvent s) := by
  unfold Machine.takeEvent
  split
  · rename_i r hr
    have hc : s.log.translator.cursor ≠ s.log.head := by
      unfold recordToTake at hr
      split at hr
      · rename_i hcond
        simp only [Bool.and_eq_true, bne_iff_ne] at hcond
        exact hcond.2
      · cases hr
    have htaken := K.taken s hc h
    unfold takeRecord
    dsimp only
    apply K.handleRecord
    split <;> split
    · exact K.handleGap _ (K.recompute htaken)
    · exact K.handleGap _ htaken
    · exact K.recompute htaken
    · exact htaken
  · exact h

theorem ActsKept.settleEvent (K : ActsKept P) (h : P s) : P (settleEvent s) := by
  unfold Machine.settleEvent
  split
  · exact K.settleEvery h
  · exact h

theorem ActsKept.reopenUnits (K : ActsKept P) (r : Nat) (h : P s) : P (reopenUnits r s).2 := by
  induction r generalizing s with
  | zero => exact h
  | succ r ih =>
    unfold Machine.reopenUnits
    split
    · exact h
    · split
      · exact h
      · exact ih (K.elsewhere (K.reopenUnit _ h) rfl rfl rfl rfl rfl)

theorem ActsKept.askRetranslate (K : ActsKept P) (r : Nat) (h : P s) : P (askRetranslate r s).2 := by
  unfold Machine.askRetranslate
  split
  · exact K.restartSettle
      (K.recompute (K.reopenUnits r (K.elsewhere (K.appendTake _ h) rfl rfl rfl rfl rfl)))
  · exact K.askRecompute h

/-! ### Power Control and the Wake Detector -/

theorem ActsKept.enterSettling (K : ActsKept P) (r : DozeReason) (h : P s) : P (enterSettling r s) := by
  unfold Machine.enterSettling
  dsimp only
  split
  · exact K.notice _ _ (K.elsewhere h rfl rfl rfl rfl rfl)
  · exact K.settleEvery (K.notice _ _ (K.elsewhere h rfl rfl rfl rfl rfl))

theorem ActsKept.returnToReady (K : ActsKept P) (h : P s) : P (returnToReady s) :=
  K.notice _ _ (K.elsewhere h rfl rfl rfl rfl rfl)

theorem ActsKept.dozeIfReady (K : ActsKept P) (h : P s) : P (dozeIfReady s) := by
  unfold Machine.dozeIfReady
  split
  · exact K.notice _ _ (K.elsewhere h rfl rfl rfl rfl rfl)
  · exact h

theorem ActsKept.reportOpening (K : ActsKept P) (h : P s) : P (reportOpening s) := by
  unfold Machine.reportOpening
  split
  · exact K.elsewhere h rfl rfl rfl rfl rfl
  · exact K.returnToReady h
  · exact h

theorem ActsKept.wakePart (K : ActsKept P) (c : WakeCause) (h : P s) : P (wakePart c s) := by
  unfold Machine.wakePart
  apply K.notice
  refine K.elsewhere (K.record (.wake c _) _ (K.elsewhere h ?_ ?_ ?_ ?_ ?_)) rfl rfl rfl rfl rfl <;> rfl

theorem ActsKept.matchStroke (K : ActsKept P) (m : Nat) (tick : Tick) (h : P s) : P (matchStroke m tick s) := by
  unfold Machine.matchStroke
  split
  · exact K.wakePart _ h
  · split
    · exact K.count _ _ _ (K.elsewhere h rfl rfl rfl rfl rfl)
    · exact K.elsewhere h rfl rfl rfl rfl rfl

theorem ActsKept.judgeWake (K : ActsKept P) (c : Chord) (tick : Tick) (h : P s) : P (judgeWake c tick s) := by
  unfold Machine.judgeWake
  dsimp only
  split
  · split
    · exact K.matchStroke _ _ h
    · split
      · exact K.matchStroke _ _ h
      · exact K.matchStroke _ _ (K.count _ _ _ h)
  · exact K.count _ _ _ (K.elsewhere h rfl rfl rfl rfl rfl)

theorem ActsKept.gapEvent (K : ActsKept P) (h : P s) : P (gapEvent s) := by
  unfold Machine.gapEvent gapExpires
  split
  · dsimp only
    split
    · exact K.elsewhere h rfl rfl rfl rfl rfl
    · exact K.count _ _ _ (K.elsewhere h rfl rfl rfl rfl rfl)
  · exact h

theorem ActsKept.idleEvent (K : ActsKept P) (h : P s) : P (idleEvent s) := by
  unfold Machine.idleEvent
  split
  · exact K.enterSettling _ h
  · exact h

theorem ActsKept.askDoze (K : ActsKept P) (h : P s) : P (askDoze s) := by
  unfold Machine.askDoze
  split
  · exact K.dozeIfReady (K.enterSettling _ h)
  · exact K.elsewhere h rfl rfl rfl rfl rfl
  · exact h

theorem ActsKept.wakeOwner (K : ActsKept P) (port : Port) (h : P s) : P (wakeOwner port s).1 := by
  unfold Machine.wakeOwner
  split
  · exact K.wakePart _ h
  · exact K.returnToReady h
  · exact h

theorem ActsKept.wakeSetOwner (K : ActsKept P) (c n g : Option Nat) (h : P s) : P (wakeSetOwner c n g s).1 := by
  unfold Machine.wakeSetOwner
  split
  · exact K.elsewhere h rfl rfl rfl rfl rfl
  · exact h

/-! ### Sensing and assembly -/

theorem ActsKept.markPress (K : ActsKept P) (n : Nat) (h : P s) : P (markPress n s) := by
  induction n generalizing s with
  | zero => exact h
  | succ n ih =>
    unfold Machine.markPress
    apply ih
    split
    · exact h
    · exact K.record _ _ h

theorem ActsKept.holdGroup (K : ActsKept P) (before after : Bool) (h : P s) : P (holdGroup before after s) := by
  unfold Machine.holdGroup
  split
  · have hopen := K.open_ .line none s (by simp) h
    unfold holdGroupPress
    split
    · rename_i t heq
      rw [heq] at hopen
      exact K.elsewhere hopen rfl rfl rfl rfl rfl
    · rename_i t a _ heq
      rw [heq] at hopen
      exact K.elsewhere hopen rfl rfl rfl rfl rfl
  · split
    · unfold holdGroupRelease
      split
      · exact K.elsewhere (K.closeWhere _ _ h) rfl rfl rfl rfl rfl
      · exact h
    · exact h

theorem ActsKept.openStroke (K : ActsKept P) (keys : Chord) (h : P s) : P (openStroke keys s) := by
  have hset (a : Assembler) : P (setAssembler a s) := K.elsewhere h rfl rfl rfl rfl rfl
  exact ite_kept (hset _) (K.reportOpening (hset _))

theorem ActsKept.handStroke (K : ActsKept P) (a : Assembler) (n : Nat) (held : Bool) (h : P s) :
    P (handStroke a n held s) := by
  unfold Machine.handStroke
  split
  · exact K.count _ _ _ (K.record _ _ h)
  · split
    · exact K.judgeWake _ _ h
    · exact h

theorem ActsKept.closeStroke (K : ActsKept P) (h : P s) : P (closeStroke s) :=
  K.handStroke _ _ _ (K.elsewhere h rfl rfl rfl rfl rfl)

theorem ActsKept.assemble (K : ActsKept P) (after became : Chord) (h : P s) : P (assemble after became s) := by
  unfold Machine.assemble
  dsimp only
  split
  · split
    · exact h
    · exact K.openStroke _ h
  · split
    · exact K.closeStroke h
    · exact K.elsewhere h rfl rfl rfl rfl rfl
  · split
    · exact K.elsewhere h rfl rfl rfl rfl rfl
    · exact h

theorem ActsKept.scanEvent (K : ActsKept P) (depths : List Byte) (h : P s) : P (scanEvent depths s) :=
  K.assemble _ _ (K.holdGroup _ _ (K.markPress _ (K.elsewhere h rfl rfl rfl rfl rfl)))

theorem ActsKept.strokeLimitEvent (K : ActsKept P) (h : P s) : P (strokeLimitEvent s) := by
  unfold Machine.strokeLimitEvent
  split
  · exact K.handStroke _ _ _ (K.elsewhere (K.count .heldStrokes 1 s h) rfl rfl rfl rfl rfl)
  · exact h

theorem ActsKept.replaceLines (K : ActsKept P) (after : List Line) (h : P s) : P (replaceLines after s) := by
  have hgroup : P (Machine.holdGroup (holdPressed s.capture.lines) (holdPressed after)
      { s with capture := { s.capture with lines := after } }) :=
    K.holdGroup _ _ (K.elsewhere h rfl rfl rfl rfl rfl)
  unfold Machine.replaceLines reportReleases lastKeyReleased
  dsimp only
  split
  · split
    · exact hgroup
    · exact K.closeStroke hgroup
    · exact K.elsewhere hgroup rfl rfl rfl rfl rfl
  · exact hgroup

theorem ActsKept.lineSetOwner (K : ActsKept P) (n : Nat) (f : LineFunction) (k a b : Option Nat) (h : P s) :
    P (lineSetOwner n f k a b s).1 := by
  unfold Machine.lineSetOwner
  split
  · exact K.replaceLines _ h
  · exact h

/-! ### The Stroke Log's own requests -/

theorem ActsKept.appendJob (K : ActsKept P) (n : Nat) (keep : Bool) (h : P s) : P (appendJob n keep s) :=
  K.job _ _ (K.record _ _ h)

theorem ActsKept.jobOpenOwner (K : ActsKept P) (n : Nat) (keep : Bool) (h : P s) : P (jobOpenOwner n keep s).1 := by
  unfold Machine.jobOpenOwner
  split
  · exact h
  · split
    · exact h
    · cases keep with
      | true => exact K.appendJob _ _ h
      | false => exact K.elsewhere (K.appendJob n false h) rfl rfl rfl rfl rfl

theorem ActsKept.jobCloseOwner (K : ActsKept P) (h : P s) : P (jobCloseOwner s).1 := by
  unfold Machine.jobCloseOwner
  split
  · exact h
  · exact K.appendJob _ _ h

/-! ### Time -/

theorem ActsKept.setTime (K : ActsKept P) (t : TimeFollower) (h : P s) : P (setTime t s) :=
  K.elsewhere h rfl rfl rfl rfl rfl

theorem ActsKept.rejudge (K : ActsKept P) (h : P s) : P (rejudge s) := by
  unfold Machine.rejudge
  dsimp only
  split
  · exact h
  · exact K.notice _ _ (K.setTime _ h)

theorem ActsKept.lockAt (K : ActsKept P) (p : BitVec 6) (h : P s) : P (lockAt p s) := by
  unfold Machine.lockAt
  dsimp only
  split
  · exact K.rejudge (K.setTime _ (K.count _ _ _ h))
  · exact K.rejudge (K.setTime _ h)

theorem ActsKept.frameCell (K : ActsKept P) (h : P s) : P (frameCell s) := by
  unfold Machine.frameCell
  dsimp only
  split
  · exact K.setTime _ h
  · split
    · exact K.setTime _ h
    · exact h

theorem ActsKept.judgeCell (K : ActsKept P) (h : P s) : P (judgeCell s) := by
  unfold Machine.judgeCell
  dsimp only
  split
  · split
    · exact K.setTime _ h
    · exact K.lockAt _ h
  · split
    · exact K.frameCell (K.setTime _ h)
    · exact K.setTime _ (K.count _ _ _ h)
  · exact K.frameCell h

theorem ActsKept.judgeSync (K : ActsKept P) (f : TimeFrame) (h : P s) : P (judgeSync f s) := by
  unfold Machine.judgeSync
  split
  · exact K.setTime _ h
  · have hcount := K.count .syncErrors (syncErrorCount s.time.mode f) s h
    dsimp only
    split
    · exact K.setTime _ hcount
    · exact K.setTime _ hcount

theorem ActsKept.judgeCheck (K : ActsKept P) (f : TimeFrame) (h : P s) : P (judgeCheck f s) := by
  have hcounted : P (if checkPasses s.time.lastFrames f then s else countOne .blockErrors s) :=
    ite_kept h (K.count _ _ _ h)
  exact ite_kept (ite_kept (K.setTime _ (K.setTime _ hcounted)) (K.setTime _ (K.setTime _ hcounted)))
    (K.setTime _ hcounted)

theorem ActsKept.judgeBlock (K : ActsKept P) (first : Bool) (f : TimeFrame) (h : P s) :
    P (judgeBlock first f s) := by
  unfold Machine.judgeBlock searchBlock
  split
  · dsimp only
    split
    · exact K.judgeCheck _ (K.setTime _ h)
    · exact K.setTime _ h
  · dsimp only
    split
    · exact K.judgeCheck _ (K.setTime _ h)
    · exact K.setTime _ h
  all_goals exact h

theorem ActsKept.takeReference (K : ActsKept P) (d : Nat) (h : P s) : P (takeReference d s) :=
  K.rejudge (K.setTime _ h)

theorem ActsKept.takeStep (K : ActsKept P) (e d : Nat) (h : P s) : P (takeStep e d s) := by
  unfold Machine.takeStep countOne
  exact K.count _ _ _ (K.takeReference _ (K.record _ _ h))

theorem ActsKept.updateReference (K : ActsKept P) (d : Nat) (h : P s) : P (updateReference d s) := by
  unfold Machine.updateReference
  dsimp only
  split
  · exact K.takeReference _ h
  · split
    · exact K.setTime _ h
    · split
      · exact K.takeStep _ _ h
      · exact K.setTime _ h

theorem ActsKept.updateTake (K : ActsKept P) (w : Nat) (h : P s) : P (updateTake w s) := by
  unfold Machine.updateTake
  dsimp only
  apply K.setTime
  split
  · exact K.record _ _ (K.setTime _ h)
  · exact h

theorem ActsKept.judgeFrame (K : ActsKept P) (first : Bool) (f : TimeFrame) (h : P s) :
    P (judgeFrame first f s) := by
  have hjudged := K.rejudge (K.judgeBlock first f h)
  unfold Machine.judgeFrame
  dsimp only
  split
  · exact hjudged
  · split
    · exact K.updateTake _ (K.updateReference _ (K.setTime _ hjudged))
    · exact K.setTime _ hjudged

theorem ActsKept.frameEvent (K : ActsKept P) (h : P s) : P (frameEvent s) := by
  unfold Machine.frameEvent
  split
  · have hsync := K.judgeSync (decodeFrame s.time.cells)
      (K.setTime { s.time with frameDue := false, lockFrame := false } h)
    unfold completeFrame
    dsimp only
    split
    · exact K.rejudge hsync
    · exact K.judgeFrame _ _ hsync
  · exact h

theorem ActsKept.cellEvent (K : ActsKept P) (digit : Bool) (h : P s) : P (cellEvent digit s) :=
  K.judgeCell (K.setTime _ (K.frameEvent h))

theorem ActsKept.silenceEvent (K : ActsKept P) (h : P s) : P (silenceEvent s) := by
  unfold Machine.silenceEvent fallSilent
  split
  · dsimp only
    split
    · exact K.setTime _ (K.setTime _ (K.frameEvent h))
    · exact K.rejudge (K.setTime _ (K.setTime _ (K.frameEvent h)))
  · exact h

theorem ActsKept.blockLimitEvent (K : ActsKept P) (h : P s) : P (blockLimitEvent s) := by
  unfold Machine.blockLimitEvent
  split
  · exact K.rejudge (K.setTime _ h)
  · exact h

theorem ActsKept.coastEvent (K : ActsKept P) (h : P s) : P (coastEvent s) := by
  unfold Machine.coastEvent
  split
  · exact K.rejudge h
  · exact h

theorem ActsKept.rebaseEvent (K : ActsKept P) (h : P s) : P (rebaseEvent s) := by
  unfold Machine.rebaseEvent
  split
  · exact K.setTime _ h
  · exact h

theorem ActsKept.timeSetOwner (K : ActsKept P) (rate coast threshold : Option Nat) (reframe : Option Bool)
    (mode : Option SyncErrorMode) (h : P s) : P (timeSetOwner rate coast threshold reframe mode s).1 := by
  unfold Machine.timeSetOwner judgeSettings changeRate
  split
  · dsimp only
    split
    · split
      · exact K.rejudge (K.setTime _ (K.setTime _ h))
      · exact K.rejudge (K.setTime _ (K.setTime _ h))
    · split
      · exact K.rejudge (K.setTime _ h)
      · exact K.setTime _ h
  · exact h

/-! ### The Dictionary Store -/

theorem ActsKept.changeLayer (K : ActsKept P) (d : Dictionary) (h : P s) : P (changeLayer d s) :=
  K.notice _ _ (K.elsewhere h rfl rfl rfl rfl rfl)

theorem ActsKept.endLoad (K : ActsKept P) (layer : LayerState) (result : CheckResult)
    (header : Option ImageHeader) (h : P s) : P (endLoad layer result header s) :=
  K.resumeTranslator (K.changeLayer _ h)

theorem ActsKept.inactivityEvent (K : ActsKept P) (h : P s) : P (inactivityEvent s) := by
  unfold Machine.inactivityEvent
  split
  · exact K.endLoad _ _ _ h
  · exact h

theorem ActsKept.checkEvent (K : ActsKept P) (h : P s) : P (checkEvent s) := by
  unfold Machine.checkEvent completeCheck
  split
  · split
    · exact K.endLoad _ _ _ h
    · exact K.endLoad _ _ _ h
  · exact h

theorem ActsKept.loadBeginOwner (K : ActsKept P) (port : Port) (n : Nat) (h : P s) :
    P (loadBeginOwner port n s).1 := by
  unfold Machine.loadBeginOwner
  split
  · exact h
  · split
    · exact h
    · split
      · exact h
      · exact K.elsewhere (K.changeLayer (beginLoad port n s.time.tick s.dict) h) rfl rfl rfl rfl rfl

theorem ActsKept.loadDataOwner (K : ActsKept P) (port : Port) (o : Nat) (d : List Byte) (h : P s) :
    P (loadDataOwner port o d s).1 := by
  unfold Machine.loadDataOwner
  split
  · exact h
  · split
    · exact h
    · split
      · exact h
      · split
        · exact h
        · exact K.elsewhere h rfl rfl rfl rfl rfl

theorem ActsKept.loadEndOwner (K : ActsKept P) (port : Port) (h : P s) : P (loadEndOwner port s).1 := by
  unfold Machine.loadEndOwner
  split
  · exact h
  · split
    · exact h
    · exact K.changeLayer _ h

theorem ActsKept.loadAbortOwner (K : ActsKept P) (port : Port) (h : P s) : P (loadAbortOwner port s).1 := by
  unfold Machine.loadAbortOwner
  split
  · exact h
  · exact K.endLoad _ _ _ h

theorem ActsKept.defineOwner (K : ActsKept P) (k : List Nat) (e : Entry) (r : Nat) (h : P s) :
    P (defineOwner k e r s).1 := by
  unfold Machine.defineOwner
  split
  · split
    · exact h
    · exact K.askRetranslate _ (K.elsewhere h rfl rfl rfl rfl rfl)
  · exact h

theorem ActsKept.undefineOwner (K : ActsKept P) (k : List Nat) (h : P s) : P (undefineOwner k s).1 := by
  unfold Machine.undefineOwner
  split
  · exact K.askRecompute (K.elsewhere h rfl rfl rfl rfl rfl)
  · exact h

theorem ActsKept.foldSetOwner (K : ActsKept P) (r : Nat) (u : Bool) (k : Option Nat) (t : Option Text) (h : P s) :
    P (foldSetOwner r u k t s).1 := by
  unfold Machine.foldSetOwner
  split
  · exact K.askRecompute (K.elsewhere h rfl rfl rfl rfl rfl)
  · exact h

theorem ActsKept.speakerSetOwner (K : ActsKept P) (n : Nat) (t : Text) (h : P s) :
    P (speakerSetOwner n t s).1 := by
  unfold Machine.speakerSetOwner
  split
  · exact K.askRecompute (K.elsewhere h rfl rfl rfl rfl rfl)
  · exact h

theorem ActsKept.translateSetOwner (K : ActsKept P) (d c : Option Nat) (h : P s) :
    P (translateSetOwner d c s).1 := by
  unfold Machine.translateSetOwner
  split
  · exact K.elsewhere h rfl rfl rfl rfl rfl
  · exact h

/-! ### The Hold Table's own requests -/

theorem ActsKept.holdOwner (K : ActsKept P) (port : Port) (h : P s) : P (holdOwner port s).1 := by
  unfold Machine.holdOwner
  split
  · exact h
  · rename_i source hs
    exact K.open_ source none s (by cases port <;> cases hs <;> simp) h

theorem ActsKept.unholdOwner (K : ActsKept P) (port : Port) (h : P s) : P (unholdOwner port s).1 := by
  unfold Machine.unholdOwner
  split
  · exact h
  · exact K.close _ _ _ h

/-! ### Every command -/

/-- What a property of the five blocks must keep besides: reset, the tick, the queue of answers, the receive
assembler, the transmitters, and the requests about the ports, the listeners, the readers and the counters. -/
structure PortActsKept (P : State → Prop) : Prop where
  reset : ∀ s, P s → P { State.reset with pending := s.pending }
  tick : ∀ s, P s → P (passTick s)
  reach : ∀ s, P s → P (reachAll s)
  attention : ∀ s, P s → P (driveAttention s)
  push : ∀ port r s, (s.ports.get port).answers.length < Config.answerCapacity → P s → P (pushReply port r s)
  drop : ∀ port s, P s → P (dropRequest port s)
  hear : ∀ port r s, (ReceiveOk (s.ports.get port).receive → ReceiveOk r) → P s → P (setReceive port r s)
  begin : ∀ port s, P s → P (beginMessage port s)
  free : ∀ port s, P s → P (setSending port none s)
  exchange : ∀ s, P s → P (Machine.exchange s)
  strokesOn : ∀ port a q s, P s → P (strokesOnOwner port a q s).1
  strokesOff : ∀ port s, P s → P (strokesOffOwner port s).1
  repaint : ∀ port s, P s → P (repaintOwner port s).1
  viewSet : ∀ port m b s, P s → P (viewSetOwner port m b s).1
  interval : ∀ s, P s → P (intervalEvent s)
  countersSnap : ∀ port s, P s → P (countersSnapOwner port s).1
  countersAuto : ∀ a s, P s → P (countersAutoOwner a s).1
  noticesSet : ∀ port k s, P s → P (noticesSetOwner port k s).1
  feedSet : ∀ a c s, P s → P (feedSetOwner a c s).1
  status : ∀ port s, P s → P (statusOwner port s).1

/-- A property of the five blocks that both groups of operations keep is kept by every step. -/
theorem ActsKept.keeps (K : ActsKept P) (R : PortActsKept P) : Keeps P where
  reset := R.reset
  queue := fun _ _ h => K.elsewhere h rfl rfl rfl rfl rfl
  tick := R.tick
  doze := fun _ h => K.dozeIfReady h
  reach := R.reach
  attention := R.attention
  push := R.push
  drop := R.drop
  hear := R.hear
  bad := fun _ h => K.count _ _ _ h
  begin := R.begin
  free := R.free
  exchange := R.exchange
  scan := fun d _ h => K.scanEvent d h
  strokeLimit := fun _ h => K.strokeLimitEvent h
  cell := fun b _ h => K.cellEvent b h
  frame := fun _ h => K.frameEvent h
  silence := fun _ h => K.silenceEvent h
  blockLimit := fun _ h => K.blockLimitEvent h
  coast := fun _ h => K.coastEvent h
  rebase := fun _ h => K.rebaseEvent h
  inactivity := fun _ h => K.inactivityEvent h
  check := fun _ h => K.checkEvent h
  take := fun _ h => K.takeEvent h
  settle := fun _ h => K.settleEvent h
  holdLimit := fun _ _ h => K.closeWhere _ _ h
  idle := fun _ h => K.idleEvent h
  gap := fun _ h => K.gapEvent h
  interval := R.interval
  lineSet := fun n f k a b _ h => K.lineSetOwner n f k a b h
  lineToggle := fun _ _ h => K.replaceLines _ h
  captureSet := fun _ _ _ _ h => K.elsewhere h rfl rfl rfl rfl rfl
  jobOpen := fun j k _ h => K.jobOpenOwner j k h
  jobClose := fun _ h => K.jobCloseOwner h
  strokesOn := R.strokesOn
  strokesOff := R.strokesOff
  timeSet := fun a b c d e _ h => K.timeSetOwner a b c d e h
  loadBegin := fun port n _ _ h => K.loadBeginOwner port n h
  loadData := fun port o d _ h => K.loadDataOwner port o d h
  loadEnd := fun port _ h => K.loadEndOwner port h
  loadAbort := fun port _ h => K.loadAbortOwner port h
  define := fun k e r _ h => K.defineOwner k e r h
  undefine := fun k _ h => K.undefineOwner k h
  foldSet := fun r u k t _ h => K.foldSetOwner r u k t h
  speakerSet := fun n t _ h => K.speakerSetOwner n t h
  translateSet := fun d c _ h => K.translateSetOwner d c h
  repaint := R.repaint
  viewSet := R.viewSet
  hold := fun port _ h => K.holdOwner port h
  unhold := fun port _ h => K.unholdOwner port h
  holdLimitSet := fun _ _ h => K.setHoldLimit _ h
  idleSet := fun _ _ h => K.idleEvent (K.elsewhere h rfl rfl rfl rfl rfl)
  dozeAsked := fun _ h => K.askDoze h
  wake := fun port _ h => K.wakeOwner port h
  causesClear := fun _ _ h => K.elsewhere h rfl rfl rfl rfl rfl
  wakeSet := fun c n g _ h => K.wakeSetOwner c n g h
  countersSnap := R.countersSnap
  countersAuto := R.countersAuto
  noticesSet := R.noticesSet
  feedSet := R.feedSet
  status := R.status

end Sys2Proof.Machine
end

section
/-! PROOFS. The Hold Table and the Stroke Log: every step keeps them (R22, R29, R33, R133, R136). -/

namespace Sys2Proof.Machine

/-! ### The Hold Table -/

theorem holdsOk_atReset : HoldsOk HoldTable.atReset := by
  simp [HoldsOk, HoldTable.atReset]

/-- The ages of the open holds are outside the invariant. -/
theorem passTick_holdsOk {s : State} (h : HoldsOk s.holds) : HoldsOk (passTick s).holds := by
  obtain ⟨hlen, hlo, hhi, hids, hstand, hone⟩ := h
  refine ⟨by simpa [passTick] using hlen, hlo, hhi, ?_, ?_, ?_⟩
  · simpa [passTick, Function.comp_def] using hids
  · intro x hx
    obtain ⟨y, hy, rfl⟩ := List.mem_map.mp hx
    exact hstand y hy
  · intro source hs
    simpa [passTick, Function.comp_def, List.countP_map] using hone source hs

theorem actsKept_holdsOk : ActsKept (fun s => HoldsOk s.holds) where
  elsewhere := fun h _ _ hh _ _ => by rw [hh]; exact h
  notice := by intros; simpa
  count := by intros; simpa
  record := by intros; simpa
  entry := by intros; simpa
  open_ := fun source owner s => openHold_holdsOk source owner s
  close := fun h c s => closeThis_holdsOk h c s
  taken := fun _ _ h => h
  job := fun _ _ h => h
  limit := fun _ _ h => h

theorem portActsKept_holdsOk : PortActsKept (fun s => HoldsOk s.holds) := by
  constructor
  case reset => exact fun _ _ => holdsOk_atReset
  case tick => exact fun _ => passTick_holdsOk
  all_goals
    intros
    simpa

/-- Settles O56: opening and closing keep the Hold Table, and every command changes it by these and by ages. -/
theorem stepKeepsTheHoldTable : Obligations.StepKeepsTheHoldTable := by
  unfold Obligations.StepKeepsTheHoldTable
  exact fun s t h he => (actsKept_holdsOk.keeps portActsKept_holdsOk).step h he

/-! ### The Stroke Log -/

theorem logOk_atReset : LogOk StrokeLog.atReset := by
  refine ⟨by simp [LogRing, StrokeLog.atReset], rfl, fun name => ?_⟩
  cases name <;>
    simp [StrokeLog.reader, StrokeLog.atReset, Reader.atReset, ReaderStands, ReaderBalances, recordsWaiting]

/-- The Translator's record taken: its lost since taken is outside the invariant (R29). -/
theorem taken_logOk {g : StrokeLog} (h : LogOk g) (hc : g.translator.cursor ≠ g.head) :
    LogOk { g with translator := { passRecord g.translator with sinceTaken := 0 } } := by
  obtain ⟨⟨hwait, hoff⟩, hbal⟩ := (passRecord_logOk .translator h hc h.2.1).2.2 .translator
  rw [readerBalances_iff] at hbal
  exact LogOk.setReader h .translator { passRecord g.translator with sinceTaken := 0 } (fun _ => h.2.1)
    ⟨hwait, hoff, hbal⟩

/-- A reader that offers a record is on and stands before the head (R32). -/
theorem readerOffer_stands {g : StrokeLog} {name : ReaderName} {r : LogRecord} (h : readerOffer g name = some r) :
    (g.reader name).on = true ∧ (g.reader name).cursor ≠ g.head := by
  unfold readerOffer at h
  dsimp only at h
  split at h
  · rename_i hc
    simpa using hc
  · cases h

theorem chooseMessage_logOk {port : Port} {s t : State} {m : Byte × List Byte}
    (hc : chooseMessage port s = some (m, t)) (h : LogOk s.log) : LogOk t.log := by
  rcases chooseMessage_cases hc with ⟨_, _, _, _, rfl⟩ | ⟨_, _, _, _, _, rfl⟩ | ⟨_, _, hr | hl⟩
  · simpa using h
  · simpa using h
  · obtain ⟨name, r, _, hoffer, _, rfl⟩ := readerChoice_cases hr
    obtain ⟨hon, hcur⟩ := readerOffer_stands hoffer
    simpa using passRecord_logOk name h hcur hon
  · obtain ⟨_, _, rfl⟩ := listenerChoice_cases hl
    simpa using h

theorem beginMessage_logOk (port : Port) {s : State} (h : LogOk s.log) : LogOk (beginMessage port s).log := by
  rcases beginMessage_cases port s with heq | ⟨m, t, _, hc, heq⟩
  · rw [heq]
    exact h
  · rw [heq]
    simpa using chooseMessage_logOk hc h

theorem strokesOnOwner_logOk (port : Port) (a : StartPoint) (q : Option Nat) {s : State} (h : LogOk s.log) :
    LogOk (strokesOnOwner port a q s).1.log := by
  unfold strokesOnOwner
  split
  · rename_i name x hn hx
    exact startReader_logOk port a q name x s h hn hx
  · exact h

theorem strokesOffOwner_logOk (port : Port) {s : State} (h : LogOk s.log) :
    LogOk (strokesOffOwner port s).1.log := by
  unfold strokesOffOwner
  split
  · rename_i name hn
    dsimp only
    split
    · exact stopReader_logOk name s h (by cases port <;> cases hn <;> simp)
    · exact h
  · exact h

theorem actsKept_logOk : ActsKept (fun s => LogOk s.log) where
  elsewhere := fun h hl _ _ _ _ => by rw [hl]; exact h
  notice := by intros; simpa
  count := by intros; simpa
  record := fun b s => appendRecord_logOk b s
  entry := by intros; simpa
  open_ := by intros; simpa
  close := by intros; simpa
  taken := fun _ hc h => taken_logOk h hc
  job := fun _ _ h => h
  limit := fun _ _ h => h

theorem portActsKept_logOk : PortActsKept (fun s => LogOk s.log) := by
  constructor
  case reset => exact fun _ _ => logOk_atReset
  case tick => exact fun _ h => h
  case begin => exact fun port _ => beginMessage_logOk port
  case exchange => exact fun s h => by simpa [exchange] using beginMessage_logOk .machine h
  case strokesOn => exact fun port a q _ => strokesOnOwner_logOk port a q
  case strokesOff => exact fun port _ => strokesOffOwner_logOk port
  all_goals
    intros
    simpa

/-- Settles O54: appends, takes, deliveries and the two requests about a reader keep the log. -/
theorem stepKeepsTheStrokeLog : Obligations.StepKeepsTheStrokeLog := by
  unfold Obligations.StepKeepsTheStrokeLog
  exact fun s t h he => (actsKept_logOk.keeps portActsKept_logOk).step h he

end Sys2Proof.Machine
end

section
/-! PROOFS. The Quality Counters and the ports: every step keeps them within their bounds (R160, R161, R168, R169). -/

namespace Sys2Proof.Machine

/-- One Port Controller within its bounds. -/
def PortOk (p : PortState) : Prop := QueuesOk p ∧ ReceiveOk p.receive

/-- The counters and the ports within their bounds. -/
def BoundsOk (s : State) : Prop := CountersOk s.counters ∧ PortsOk s.ports

variable {s : State}

/-- Neither the attention output nor the settings of the ports are bounded. -/
theorem BoundsOk.congr {t : State} (h : BoundsOk s) (hc : t.counters = s.counters)
    (hp : ∀ port, t.ports.get port = s.ports.get port) : BoundsOk t :=
  ⟨hc ▸ h.1, fun port => (hp port) ▸ h.2 port⟩

theorem BoundsOk.same {t : State} (h : BoundsOk s) (hc : t.counters = s.counters) (hp : t.ports = s.ports) :
    BoundsOk t :=
  h.congr hc fun _ => by rw [hp]

/-! ### One port replaced -/

theorem portsOk_set {p : Ports} (h : PortsOk p) (port : Port) {v : PortState} (hv : PortOk v) :
    PortsOk (p.set port v) := by
  intro other
  by_cases ho : other = port
  · rw [ho, Ports.get_set_self]
    exact hv
  · rw [Ports.get_set_other p v ho]
    exact h other

theorem BoundsOk.setPort (h : BoundsOk s) (port : Port) {v : PortState} (hv : PortOk v) :
    BoundsOk (s.setPort port v) :=
  ⟨h.1, portsOk_set h.2 port hv⟩

theorem queueNotice_portOk (n : Notice) {p : PortState} (h : PortOk p) : PortOk (queueNotice n p) := by
  unfold queueNotice
  split
  · split
    · rename_i hroom
      exact ⟨⟨h.1.1, by simpa using hroom⟩, h.2⟩
    · exact h
  · exact h

theorem noticeOn_boundsOk (port : Port) (n : Notice) (h : BoundsOk s) : BoundsOk (noticeOn port n s) :=
  h.setPort port (queueNotice_portOk n (h.2 port))

theorem raiseNotice_boundsOk (n : Notice) (h : BoundsOk s) : BoundsOk (raiseNotice n s) :=
  noticeOn_boundsOk _ n (noticeOn_boundsOk _ n (noticeOn_boundsOk _ n h))

/-! ### Counts (R161) -/

/-- A tally within its bound, its mark standing with the value 65,535. -/
def TallyOk (t : Tally) : Prop := t.value ≤ Config.countCeiling ∧ (t.mark = true ↔ t.value = Config.countCeiling)

theorem tallyOk_zero : TallyOk Tally.zero := by simp [TallyOk, Tally.zero, Config.countCeiling]

theorem addTally_tallyOk {t : Tally} (h : TallyOk t) (amount : Nat) : TallyOk (addTally t amount) := by
  obtain ⟨hle, hmark⟩ := h
  refine ⟨Nat.min_le_right _ _, ?_⟩
  simp only [addTally, Bool.or_eq_true, hmark, beq_iff_eq]
  omega

theorem runningTally_tallyOk {q : Counters} (h : CountersOk q) (c : Counter) : TallyOk (runningTally q c) := by
  unfold runningTally
  rw [List.getD_eq_getElem?_getD]
  cases hget : q.running[counterIndex c]? with
  | none => exact tallyOk_zero
  | some t => exact h.1.2 t (List.mem_of_getElem? hget)

theorem talliesOk_set {l : List Tally} (h : TalliesOk l) (n : Nat) {t : Tally} (ht : TallyOk t) :
    TalliesOk (l.set n t) := by
  refine ⟨by simpa using h.1, fun x hx => ?_⟩
  rcases List.mem_or_eq_of_mem_set hx with hmem | rfl
  · exact h.2 x hmem
  · exact ht

theorem countEvents_boundsOk (c : Counter) (amount : Nat) (h : BoundsOk s) : BoundsOk (countEvents c amount s) := by
  have hset : BoundsOk { s with counters := { s.counters with
      running := s.counters.running.set (counterIndex c) (addTally (runningTally s.counters c) amount) } } :=
    ⟨⟨talliesOk_set h.1.1 _ (addTally_tallyOk (runningTally_tallyOk h.1 c) amount), h.1.2⟩, h.2⟩
  unfold countEvents
  split
  · exact h
  · dsimp only
    split
    · exact raiseNotice_boundsOk _ hset
    · exact hset

/-! ### The Stroke Log and the Text Journal -/

theorem takeLoss_boundsOk (name : ReaderName) (r : Reader) (h : BoundsOk s) : BoundsOk (takeLoss name r s) := by
  have hcount := countEvents_boundsOk .logLosses 1 h
  unfold takeLoss
  dsimp only
  split
  · exact hcount.same rfl rfl
  · split
    · exact hcount.same rfl rfl
    · exact noticeOn_boundsOk _ _ (hcount.same rfl rfl)

theorem overwriteReader_boundsOk (name : ReaderName) (w : Word) (h : BoundsOk s) :
    BoundsOk (overwriteReader name w s) := by
  unfold overwriteReader
  dsimp only
  split
  · exact takeLoss_boundsOk _ _ h
  · exact h

theorem makeRoom_boundsOk (h : BoundsOk s) : BoundsOk (makeRoom s) := by
  unfold makeRoom
  split
  · exact h
  · split
    · exact h
    · exact overwriteReader_boundsOk _ _
        (overwriteReader_boundsOk _ _ (overwriteReader_boundsOk _ _ (h.same rfl rfl)))

theorem appendRecord_boundsOk (b : RecordBody) (h : BoundsOk s) : BoundsOk (appendRecord b s) :=
  (makeRoom_boundsOk h).same rfl rfl

theorem startReader_boundsOk (name : ReaderName) (x : StreamStart) (h : BoundsOk s) :
    BoundsOk (startReader name x s) := by
  unfold startReader
  dsimp only
  split
  · exact h.same rfl rfl
  · exact takeLoss_boundsOk _ _ h

theorem reachAll_boundsOk (h : BoundsOk s) : BoundsOk (reachAll s) := h.same (by simp) (by simp)

theorem startRun_boundsOk (port : Port) (h : BoundsOk s) : BoundsOk (startRun port s) :=
  countEvents_boundsOk _ _ (h.same rfl rfl)

theorem callRepaint_boundsOk (port : Port) (h : BoundsOk s) : BoundsOk (callRepaint port s) := by
  unfold callRepaint
  dsimp only
  split
  · exact h
  · split
    · exact h.same rfl rfl
    · exact startRun_boundsOk _ h

theorem resumeIfOn_boundsOk (id : Nat) (port : Port) (h : BoundsOk s) : BoundsOk (resumeIfOn id port s) := by
  unfold resumeIfOn resumeListener
  split
  · dsimp only
    split
    · exact h.same rfl rfl
    · split
      · exact callRepaint_boundsOk _ (h.same rfl rfl)
      · exact h.same rfl rfl
  · exact h

theorem overrunOne_boundsOk (w : Word) (port : Port) (h : BoundsOk s) : BoundsOk (overrunOne w port s) := by
  unfold overrunOne
  dsimp only
  split
  · split
    · exact h.same rfl rfl
    · exact callRepaint_boundsOk _ (h.same rfl rfl)
  · exact h

theorem dropOldestEntry_boundsOk (h : BoundsOk s) : BoundsOk (dropOldestEntry s) := by
  unfold dropOldestEntry
  split
  · exact h
  · split
    · exact h
    · exact overrunOne_boundsOk _ _ (overrunOne_boundsOk _ _ (overrunOne_boundsOk _ _ (h.same rfl rfl)))

theorem placeInJournal_boundsOk (b : EntryBody) (h : BoundsOk s) : BoundsOk (placeInJournal b s) :=
  (dropOldestEntry_boundsOk h).same rfl rfl

theorem appendEntry_boundsOk (b : EntryBody) (h : BoundsOk s) : BoundsOk (appendEntry b s) :=
  reachAll_boundsOk (placeInJournal_boundsOk b h)

theorem setObedience_boundsOk (port : Port) (b : Bool) (h : BoundsOk s) : BoundsOk (setObedience port b s) := by
  unfold setObedience
  dsimp only
  split
  · exact h
  · split
    · split
      · exact h.same rfl rfl
      · exact h.same rfl rfl
    · split
      · exact callRepaint_boundsOk _ (h.same rfl rfl)
      · exact h.same rfl rfl

theorem setMode_boundsOk (port : Port) (m : ViewMode) (h : BoundsOk s) : BoundsOk (setMode port m s) := by
  unfold setMode
  dsimp only
  split
  · exact h
  · split
    · exact h.same rfl rfl
    all_goals
      split
      · exact h.same rfl rfl
      · exact callRepaint_boundsOk _ (h.same rfl rfl)

theorem changeView_boundsOk (port : Port) (m : Option ViewMode) (b : Option Bool) (h : BoundsOk s) :
    BoundsOk (changeView port m b s) := by
  cases b <;> cases m
  · exact h
  · exact setMode_boundsOk _ _ h
  · exact setObedience_boundsOk _ _ h
  · exact setMode_boundsOk _ _ (setObedience_boundsOk _ _ h)

theorem repaintOwner_boundsOk (port : Port) (h : BoundsOk s) : BoundsOk (repaintOwner port s).1 := by
  unfold repaintOwner
  dsimp only
  split
  · exact h
  · split
    · exact h.same rfl rfl
    · exact callRepaint_boundsOk _ h

/-! ### The Hold Table -/

theorem openHold_boundsOk (source : HoldSource) (owner : Option Word) (h : BoundsOk s) :
    BoundsOk (openHold source owner s).1 := by
  unfold openHold
  split
  · exact h
  · split
    · exact h
    · have hplaced := placeInJournal_boundsOk (.hold (firstFreeId s.holds.holds 255 s.holds.nextId) source) h
      exact reachAll_boundsOk (raiseNotice_boundsOk _ (hplaced.same rfl rfl))

theorem closeThis_boundsOk (x : OpenHold) (c : CloseCause) (h : BoundsOk s) : BoundsOk (closeThis x c s) :=
  reachAll_boundsOk (raiseNotice_boundsOk _
    (resumeIfOn_boundsOk _ _ (resumeIfOn_boundsOk _ _ (resumeIfOn_boundsOk _ _
      ((appendEntry_boundsOk (.release x.id) h).same rfl rfl)))))

/-! ### The ports and the counters themselves -/

theorem pushReply_boundsOk {port : Port} (r : Reply)
    (hroom : (s.ports.get port).answers.length < Config.answerCapacity) (h : BoundsOk s) :
    BoundsOk (pushReply port r s) :=
  h.setPort port ⟨⟨by simpa using hroom, (h.2 port).1.2⟩, (h.2 port).2⟩

theorem chooseMessage_boundsOk {port : Port} {t : State} {m : Byte × List Byte}
    (hc : chooseMessage port s = some (m, t)) (h : BoundsOk s) : BoundsOk t := by
  have hport := h.2 port
  rcases chooseMessage_cases hc with ⟨_, _, ha, _, rfl⟩ | ⟨_, _, _, hn, _, rfl⟩ | ⟨_, _, hr | hl⟩
  · have hle := hport.1.1
    rw [← State.port_eq, ha, List.length_cons] at hle
    exact h.setPort port ⟨⟨by dsimp only; omega, hport.1.2⟩, hport.2⟩
  · have hle := hport.1.2
    rw [← State.port_eq, hn, List.length_cons] at hle
    exact h.setPort port ⟨⟨hport.1.1, by dsimp only; omega⟩, hport.2⟩
  · obtain ⟨_, _, _, _, _, rfl⟩ := readerChoice_cases hr
    exact BoundsOk.setPort (h.same rfl rfl) port hport
  · obtain ⟨_, _, rfl⟩ := listenerChoice_cases hl
    exact BoundsOk.setPort (h.same rfl rfl) port hport

/-- What a port is sending is not bounded. -/
theorem setSending_boundsOk (port : Port) (x : Option Sending) (h : BoundsOk s) : BoundsOk (setSending port x s) :=
  h.setPort port (h.2 port)

theorem beginMessage_boundsOk (port : Port) (h : BoundsOk s) : BoundsOk (beginMessage port s) := by
  rcases beginMessage_cases port s with heq | ⟨m, t, _, hc, heq⟩
  · rw [heq]
    exact h
  · rw [heq]
    exact setSending_boundsOk _ _ (chooseMessage_boundsOk hc h)

theorem exchange_boundsOk (h : BoundsOk s) : BoundsOk (exchange s) :=
  (setSending_boundsOk .machine _ (beginMessage_boundsOk .machine h)).congr rfl fun port => by cases port <;> rfl

theorem snapshot_boundsOk (c : SnapCause) (h : BoundsOk s) : BoundsOk (snapshot c s) := by
  refine raiseNotice_boundsOk _ ⟨⟨⟨by simp [snapCounters], fun t ht => ?_⟩, h.1.1⟩, h.2⟩
  obtain rfl : t = Tally.zero := List.eq_of_mem_replicate ht
  exact tallyOk_zero

theorem setAuto_boundsOk (auto : Bool) (h : BoundsOk s) : BoundsOk (setAuto auto s) := by
  have hsnap : BoundsOk (if auto && !s.counters.auto then snapshot .machine s else s) :=
    ite_kept (snapshot_boundsOk _ h) h
  exact ⟨hsnap.1, hsnap.2⟩

theorem boundsOk_atReset (l : List Instr) : BoundsOk { State.reset with pending := l } := by
  have hzero : TalliesOk (List.replicate 13 Tally.zero) :=
    ⟨by simp, fun t ht => by rw [List.eq_of_mem_replicate ht]; exact tallyOk_zero⟩
  refine ⟨⟨hzero, hzero⟩, fun port => ?_⟩
  cases port <;> exact ⟨⟨Nat.zero_le _, Nat.zero_le _⟩, trivial⟩

theorem actsKept_boundsOk : ActsKept BoundsOk where
  elsewhere := fun h _ _ _ hc hp => h.same hc hp
  notice := fun n _ => raiseNotice_boundsOk n
  count := fun c n _ => countEvents_boundsOk c n
  record := fun b _ => appendRecord_boundsOk b
  entry := fun b _ => appendEntry_boundsOk b
  open_ := fun source owner _ _ => openHold_boundsOk source owner
  close := fun x c _ => closeThis_boundsOk x c
  taken := fun _ _ h => h.same rfl rfl
  job := fun _ _ h => h.same rfl rfl
  limit := fun _ _ h => h.same rfl rfl

theorem portActsKept_boundsOk : PortActsKept BoundsOk where
  reset := fun _ _ => boundsOk_atReset _
  tick := fun _ h => ⟨h.1, h.2⟩
  reach := fun _ => reachAll_boundsOk
  attention := fun _ h => h.congr rfl fun port => by cases port <;> rfl
  push := fun _ r _ => pushReply_boundsOk r
  drop := fun port _ h => h.setPort port (h.2 port)
  hear := fun port _ _ hr h => h.setPort port ⟨(h.2 port).1, hr (h.2 port).2⟩
  begin := fun port _ => beginMessage_boundsOk port
  free := fun port _ => setSending_boundsOk port none
  exchange := fun _ => exchange_boundsOk
  strokesOn := fun port a q s h => by
    unfold strokesOnOwner
    split
    · exact startReader_boundsOk _ _ h
    · exact h
  strokesOff := fun port s h => h.same (by simp) (by simp)
  repaint := fun port _ => repaintOwner_boundsOk port
  viewSet := fun port m b _ => changeView_boundsOk port m b
  interval := fun _ h => ite_kept (snapshot_boundsOk _ h) h
  countersSnap := fun _ _ => snapshot_boundsOk _
  countersAuto := fun a _ => setAuto_boundsOk a
  noticesSet := fun port _ _ h => h.setPort port (h.2 port)
  feedSet := fun a c s h => by
    unfold feedSetOwner
    split
    · exact h.congr rfl fun port => by cases port <;> rfl
    · exact h
  status := fun port _ h => h.setPort port (h.2 port)

/-- Settles O57: a count stops at its ceiling, and a queue takes nothing when it is full. -/
theorem stepKeepsCountersAndPorts : Obligations.StepKeepsCountersAndPorts := by
  unfold Obligations.StepKeepsCountersAndPorts
  exact fun s t h he => (actsKept_boundsOk.keeps portActsKept_boundsOk).step h he

end Sys2Proof.Machine
end

section
/-! PROOFS. The end of every command, and the Text Journal: every step keeps it and leaves the part between events
(R115, R119 to R121, R151, R175). -/

namespace Sys2Proof.Machine

/-! ### How every command ends -/

variable {P : State → Prop} {s t : State}

/-- A state that the end of an event leaves of one with a property. -/
def EndedFrom (P : State → Prop) (t : State) : Prop := ∃ u, P u ∧ t = eventEnd u

theorem Keeps.takeRequest_ended (K : Keeps P) {port : Port} {k : RequestKind} {owner : State → State × Verdict}
    (h : P s) (hroom : ((owner s).1.ports.get port).answers = (s.ports.get port).answers)
    (ho : permitted k port = true → P s → P (owner s).1) : EndedFrom P (Machine.takeRequest port k owner s) := by
  refine ⟨_, ?_, rfl⟩
  split
  · exact K.drop _ _ h
  · rename_i hfull
    replace hfull := room_of_not_full hfull
    split
    · rename_i hp
      exact K.push _ _ _ (by simpa [hroom] using hfull) (ho hp h)
    · exact K.push _ _ _ hfull h

theorem Keeps.unknownKind_ended (K : Keeps P) (port : Port) (kind : Byte) (h : P s) :
    EndedFrom P (unknownKindRequest port kind s) := by
  refine ⟨_, ?_, rfl⟩
  split
  · exact K.drop _ _ h
  · rename_i hfull
    exact K.push _ _ _ (room_of_not_full hfull) h

theorem Keeps.feedQuery_ended (K : Keeps P) (port : Port) (fields : List Byte) (h : P s) :
    EndedFrom P (feedQueryRequest port fields s) := by
  refine ⟨_, ?_, rfl⟩
  split
  · exact K.drop _ _ h
  · rename_i hfull
    replace hfull := room_of_not_full hfull
    split
    · rename_i hp
      obtain rfl : port = .feed := by simpa [permitted] using hp
      unfold answerQuery
      split
      · split
        · exact K.push _ _ _ hfull h
        · exact h
      · exact h
    · exact K.push _ _ _ hfull h

/-- Every command but RESET closes with the end of an event, and what it did before that keeps what every
operation keeps. -/
theorem Keeps.exec_ended (K : Keeps P) {i : Instr} (hi : i ≠ .reset) (h : P s) (he : Machine.exec i s = .next t) :
    EndedFrom P t := by
  cases i with
  | reset => exact absurd rfl hi
  | scan d => cases he; exact ⟨_, K.scan _ _ h, rfl⟩
  | strokeLimitExpiry => cases he; exact ⟨_, K.strokeLimit _ h, rfl⟩
  | cellDecoded b => cases he; exact ⟨_, K.cell _ _ h, rfl⟩
  | frameCompletion => cases he; exact ⟨_, K.frame _ h, rfl⟩
  | silenceTimerExpiry => cases he; exact ⟨_, K.silence _ h, rfl⟩
  | blockLimitExpiry => cases he; exact ⟨_, K.blockLimit _ h, rfl⟩
  | coastLimitPassed => cases he; exact ⟨_, K.coast _ h, rfl⟩
  | referenceRebase => cases he; exact ⟨_, K.rebase _ h, rfl⟩
  | inactivityTimeout => cases he; exact ⟨_, K.inactivity _ h, rfl⟩
  | checkCompletion => cases he; exact ⟨_, K.check _ h, rfl⟩
  | translatorTake => cases he; exact ⟨_, K.take _ h, rfl⟩
  | settleTimerExpiry => cases he; exact ⟨_, K.settle _ h, rfl⟩
  | holdLimitExpiry id => cases he; exact ⟨_, K.holdLimit _ _ h, rfl⟩
  | idleTimerExpiry => cases he; exact ⟨_, K.idle _ h, rfl⟩
  | gapTimerExpiry => cases he; exact ⟨_, K.gap _ h, rfl⟩
  | intervalExpiry => cases he; exact ⟨_, K.interval _ h, rfl⟩
  | receiveByte port b => cases he; exact ⟨_, K.receive _ _ h, rfl⟩
  | transmitBegin port => cases he; exact ⟨_, K.begin _ _ h, rfl⟩
  | frameSent port => cases he; exact ⟨_, K.frameSent _ h, rfl⟩
  | lineSet port n f k a b => cases he; exact K.takeRequest_ended h (by simp) fun _ h => K.lineSet _ _ _ _ _ _ h
  | lineToggle port l => cases he; exact K.takeRequest_ended h (by simp) fun _ h => K.lineToggle _ _ h
  | captureSet port a b c => cases he; exact K.takeRequest_ended h (by simp) fun _ h => K.captureSet _ _ _ _ h
  | jobOpen port j k => cases he; exact K.takeRequest_ended h (by simp) fun _ h => K.jobOpen _ _ _ h
  | jobClose port => cases he; exact K.takeRequest_ended h (by simp) fun _ h => K.jobClose _ h
  | strokesOn port a q => cases he; exact K.takeRequest_ended h (by simp) fun _ h => K.strokesOn _ _ _ _ h
  | strokesOff port => cases he; exact K.takeRequest_ended h (by simp) fun _ h => K.strokesOff _ _ h
  | timeSet port a b c d e => cases he; exact K.takeRequest_ended h (by simp) fun _ h => K.timeSet _ _ _ _ _ _ h
  | loadBegin port n => cases he; exact K.takeRequest_ended h (by simp) fun hp h => K.loadBegin _ _ _ hp h
  | loadData port o d => cases he; exact K.takeRequest_ended h (by simp) fun _ h => K.loadData _ _ _ _ h
  | loadEnd port => cases he; exact K.takeRequest_ended h (by simp) fun _ h => K.loadEnd _ _ h
  | loadAbort port => cases he; exact K.takeRequest_ended h (by simp) fun _ h => K.loadAbort _ _ h
  | define port k e r => cases he; exact K.takeRequest_ended h (by simp) fun _ h => K.define _ _ _ _ h
  | undefine port k => cases he; exact K.takeRequest_ended h (by simp) fun _ h => K.undefine _ _ h
  | foldSet port r u k t => cases he; exact K.takeRequest_ended h (by simp) fun _ h => K.foldSet _ _ _ _ _ h
  | speakerSet port n t => cases he; exact K.takeRequest_ended h (by simp) fun _ h => K.speakerSet _ _ _ h
  | translateSet port d c => cases he; exact K.takeRequest_ended h (by simp) fun _ h => K.translateSet _ _ _ h
  | repaint port => cases he; exact K.takeRequest_ended h (by simp) fun _ h => K.repaint _ _ h
  | viewSet port m b => cases he; exact K.takeRequest_ended h (by simp) fun _ h => K.viewSet _ _ _ _ h
  | hold port => cases he; exact K.takeRequest_ended h (by simp) fun _ h => K.hold _ _ h
  | unhold port => cases he; exact K.takeRequest_ended h (by simp) fun _ h => K.unhold _ _ h
  | holdLimitSet port m => cases he; exact K.takeRequest_ended h (by simp) fun _ h => K.holdLimitSet _ _ h
  | idleSet port m => cases he; exact K.takeRequest_ended h (by simp) fun _ h => K.idleSet _ _ h
  | doze port => cases he; exact K.takeRequest_ended h (by simp) fun _ h => K.dozeAsked _ h
  | wake port => cases he; exact K.takeRequest_ended h (by simp) fun _ h => K.wake _ _ h
  | wakeCausesClear port c => cases he; exact K.takeRequest_ended h (by simp) fun _ h => K.causesClear _ _ h
  | wakeSet port c n g => cases he; exact K.takeRequest_ended h (by simp) fun _ h => K.wakeSet _ _ _ _ h
  | countersSnap port => cases he; exact K.takeRequest_ended h (by simp) fun _ h => K.countersSnap _ _ h
  | countersAuto port a => cases he; exact K.takeRequest_ended h (by simp) fun _ h => K.countersAuto _ _ h
  | countersRead port => cases he; exact K.takeRequest_ended h (by simp [countersReadOwner]) fun _ h => h
  | noticesSet port k => cases he; exact K.takeRequest_ended h (by simp) fun _ h => K.noticesSet _ _ _ h
  | feedSet port a c => cases he; exact K.takeRequest_ended h (by simp) fun _ h => K.feedSet _ _ _ h
  | feedQuery port f => cases he; exact K.feedQuery_ended port f h
  | status port => cases he; exact K.takeRequest_ended h (by simp) fun _ h => K.status _ _ h
  | unknownKind port k => cases he; exact K.unknownKind_ended port k h

/-! ### The Text Journal -/

theorem journalOk_atReset : JournalOk Journal.atReset := by
  refine ⟨by simp [JournalRing, Journal.atReset], Nat.zero_le _, Nat.zero_le _, fun port => ?_⟩
  cases port <;>
    simp [Journal.listener, Journal.atReset, Listener.atReset, ListenerStands, NotesStand]

theorem openHold_journalOk (source : HoldSource) (owner : Option Word) (h : JournalOk s.journal) :
    JournalOk (openHold source owner s).1.journal := by
  unfold openHold
  split
  · exact h
  · split
    · exact h
    · have hplaced := placeInJournal_journalOk (.hold (firstFreeId s.holds.holds 255 s.holds.nextId) source) s h
      exact reachAll_journalOk _ (by simpa using hplaced)

theorem closeThis_journalOk (x : OpenHold) (c : CloseCause) (h : JournalOk s.journal) :
    JournalOk (closeThis x c s).journal := by
  have happended := appendEntry_journalOk (.release x.id) s h
  unfold closeThis
  apply reachAll_journalOk
  simp only [raiseNotice_frame]
  apply_rules [resumeIfOn_journalOk]

theorem chooseMessage_journalOk {port : Port} {m : Byte × List Byte} (hc : chooseMessage port s = some (m, t))
    (h : JournalOk s.journal) : JournalOk t.journal := by
  rcases chooseMessage_cases hc with ⟨_, _, _, _, rfl⟩ | ⟨_, _, _, _, _, rfl⟩ | ⟨_, _, hr | hl⟩
  · simpa using h
  · simpa using h
  · obtain ⟨_, _, _, _, _, rfl⟩ := readerChoice_cases hr
    simpa using h
  · obtain ⟨l, hoffer, rfl⟩ := listenerChoice_cases hl
    simpa using h.set port l (offer_stands s.journal _ (h.2.2.2 port) hoffer)

theorem beginMessage_journalOk (port : Port) (h : JournalOk s.journal) : JournalOk (beginMessage port s).journal := by
  rcases beginMessage_cases port s with heq | ⟨m, u, _, hc, heq⟩
  · rw [heq]
    exact h
  · rw [heq]
    simpa using chooseMessage_journalOk hc h

theorem repaintOwner_journalOk (port : Port) (h : JournalOk s.journal) :
    JournalOk (repaintOwner port s).1.journal := by
  unfold repaintOwner
  dsimp only
  split
  · exact h
  · split
    · rename_i hmode _
      obtain ⟨hcur, hnotes, hobeys, _⟩ := h.2.2.2 port
      exact h.set port _ ⟨hcur, hnotes, hobeys, fun hoff => absurd hoff hmode⟩
    · exact callRepaint_journalOk port s h

theorem changeView_journalOk (port : Port) (m : Option ViewMode) (b : Option Bool) (h : JournalOk s.journal) :
    JournalOk (changeView port m b s).journal := by
  cases b <;> cases m
  · exact h
  · exact setMode_journalOk _ _ _ h
  · exact setObedience_journalOk _ _ _ h
  · exact setMode_journalOk _ _ _ (setObedience_journalOk _ _ _ h)

theorem actsKept_journalOk : ActsKept (fun s => JournalOk s.journal) where
  elsewhere := fun h _ hj _ _ _ => by rw [hj]; exact h
  notice := by intros; simpa
  count := by intros; simpa
  record := by intros; simpa
  entry := fun b s => appendEntry_journalOk b s
  open_ := fun source owner _ _ => openHold_journalOk source owner
  close := fun x c _ => closeThis_journalOk x c
  taken := fun _ _ h => h
  job := fun _ _ h => h
  limit := fun _ _ h => h

theorem portActsKept_journalOk : PortActsKept (fun s => JournalOk s.journal) := by
  constructor
  case reset => exact fun _ _ => journalOk_atReset
  case tick => exact fun _ h => h
  case reach => exact fun s => reachAll_journalOk s
  case begin => exact fun port _ => beginMessage_journalOk port
  case exchange => exact fun s h => by simpa [exchange] using beginMessage_journalOk .machine h
  case repaint => exact fun port _ => repaintOwner_journalOk port
  case viewSet => exact fun port m b _ => changeView_journalOk port m b
  all_goals
    intros
    simpa

theorem keeps_journalOk : Keeps (fun s => JournalOk s.journal) := actsKept_journalOk.keeps portActsKept_journalOk

/-! ### Between events -/

theorem rested_atReset (l : List Instr) : Rested { State.reset with pending := l } := 
  ⟨rfl, reachAll_congr (s := State.reset) rfl rfl (by decide),
    show State.reset.ports.attention = attentionLevel State.reset by decide⟩

/-- Neither the passage to DOZE, nor the reach of a listener, nor the attention output looks at an age, at the tick
counter or at the queue. -/
theorem rested_idleTick (h : Rested s) : Rested (idleTick s) := by
  obtain ⟨hd, hr, ha⟩ := h
  refine ⟨hd, reachAll_of_fixed _ fun port => ?_, ha⟩
  have hfix := congrArg (fun x => x.listener port) hr
  simp only [reachAll_listener] at hfix
  have hopen (e : JournalEntry) : holdEntryOpen (idleTick s).holds.holds e = holdEntryOpen s.holds.holds e := by
    simp only [holdEntryOpen, idleTick, passTick, List.any_map, Function.comp_def]
  have hreach (es : List JournalEntry) (l : Listener) :
      reachThrough (idleTick s).holds.holds es l = reachThrough s.holds.holds es l := by
    induction es generalizing l with
    | nil => rfl
    | cons e rest ih => simp only [reachThrough, hopen, ih]
  rw [hreach]
  exact hfix

/-- Settles O55: every command closes with the end of an event, which leaves the part at rest. -/
theorem stepKeepsTheJournal : Obligations.StepKeepsTheJournal := by
  unfold Obligations.StepKeepsTheJournal
  intro s t ⟨hj, hr⟩ he
  refine ⟨keeps_journalOk.step hj he, ?_⟩
  unfold step at he
  split at he
  · cases he
    exact rested_idleTick hr
  · rename_i i rest _
    by_cases hi : i = .reset
    · rw [hi] at he
      cases he
      exact rested_atReset rest
    · obtain ⟨u, hu, rfl⟩ := keeps_journalOk.exec_ended hi (s := { s with pending := rest }) hj he
      exact eventEnd_journal_rested u hu

end Sys2Proof.Machine
end

section
/-! PROOFS. Key sensing and the Time Follower: every step keeps the Stroke Assembler with the pressed keys (R10, R12)
and the quality with the follower's state (R55). -/

namespace Sys2Proof.Machine

/-! ### Sets of keys -/

/-- One set of keys lies within another. -/
theorem and_not_eq_zero_iff (a b : Chord) :
    a &&& ~~~b = 0 ↔ ∀ i, i < 23 → a.getLsbD i = true → b.getLsbD i = true := by
  constructor
  · intro h i hi ha
    have hbit := congrArg (fun c : Chord => c.getLsbD i) h
    simpa [ha, hi] using hbit
  · intro h
    apply BitVec.eq_of_getLsbD_eq
    intro i hi
    have := h i hi
    cases hb : a.getLsbD i <;> simp_all

/-- A key is pressed when some line adds it (R2). -/
theorem getLsbD_pressedKeys (lines : List Line) (i : Nat) :
    (pressedKeys lines).getLsbD i = lines.any (fun l => (lineChord l).getLsbD i) := by
  have hfold (c : Chord) : (lines.foldl (fun c l => c ||| lineChord l) c).getLsbD i
      = (c.getLsbD i || lines.any (fun l => (lineChord l).getLsbD i)) := by
    induction lines generalizing c with
    | nil => simp
    | cons l rest ih => simp [ih, Bool.or_assoc]
  rw [pressedKeys, hfold]
  simp

/-- Lines that each add what they added before or nothing press no new key. -/
theorem pressedKeys_within {before after : List Line}
    (h : List.Forall₂ (fun b a => lineChord a = lineChord b ∨ lineChord a = 0) before after) :
    pressedKeys after &&& ~~~(pressedKeys before) = 0 := by
  rw [and_not_eq_zero_iff]
  intro i _
  rw [getLsbD_pressedKeys, getLsbD_pressedKeys]
  induction h with
  | nil => simp
  | cons hd _ ih =>
    simp only [List.any_cons, Bool.or_eq_true]
    rintro (ha | ha)
    · rcases hd with hd | hd
      · exact .inl (hd ▸ ha)
      · simp [hd] at ha
    · exact .inr (ih ha)

theorem lineChord_of_not_pressed {l : Line} (h : l.pressed = false) : lineChord l = 0 := by
  unfold lineChord
  split <;> simp [h]

/-- Setting a line released presses no new key. -/
theorem set_released_within (lines : List Line) (n : Nat) {l : Line} (h : l.pressed = false) :
    List.Forall₂ (fun b a => lineChord a = lineChord b ∨ lineChord a = 0) lines (lines.set n l) := by
  induction lines generalizing n with
  | nil => exact .nil
  | cons x rest ih =>
    cases n with
    | zero => exact .cons (.inr (lineChord_of_not_pressed h)) (List.forall₂_same.mpr fun _ _ => .inl rfl)
    | succ n => exact .cons (.inl rfl) (ih n)

/-- LINE TOGGLE presses no new key: a line it flips is released (R8). -/
theorem toggleLines_within (set : BitVec 32) (n : Nat) (lines : List Line) :
    List.Forall₂ (fun b a => lineChord a = lineChord b ∨ lineChord a = 0) lines (toggleLines set n lines) := by
  induction lines generalizing n with
  | nil => exact .nil
  | cons x rest ih =>
    refine .cons ?_ (ih (n + 1))
    split
    · exact .inr (lineChord_of_not_pressed rfl)
    · exact .inl rfl

/-- The counts of the lines press no key (R9). -/
theorem pressedKeys_clearCounts (lines : List Line) : pressedKeys (clearCounts lines) = pressedKeys lines := by
  unfold pressedKeys clearCounts
  rw [List.foldl_map]
  rfl

/-! ### The Stroke Assembler -/

/-- The grant of the HOLD group is all of sensing that its change touches (R20, R21). -/
theorem holdGroup_sensing (before after : Bool) (s : State) :
    (holdGroup before after s).capture.lines = s.capture.lines ∧
    (holdGroup before after s).capture.assembler = s.capture.assembler := by
  have hopen : (openHold .line none s).1.capture = s.capture := by simp
  unfold holdGroup holdGroupPress holdGroupRelease
  split
  · split
    · rename_i t heq
      replace hopen : t.capture = s.capture := by simpa [heq] using hopen
      exact ⟨congrArg (fun c => c.lines) hopen, congrArg (fun c => c.assembler) hopen⟩
    · rename_i t _ _ heq
      replace hopen : t.capture = s.capture := by simpa [heq] using hopen
      exact ⟨congrArg (fun c => c.lines) hopen, congrArg (fun c => c.assembler) hopen⟩
  · split
    · split
      · simp
      · exact ⟨rfl, rfl⟩
    · exact ⟨rfl, rfl⟩

theorem closeStroke_capture (s : State) :
    (closeStroke s).capture
      = { s.capture with assembler := { s.capture.assembler with state := .idle, chord := 0 } } := by
  simp [closeStroke]

/-- The assembler of a stroke that opens (R11). -/
def openedStroke (keys : Chord) (s : State) : Assembler :=
  { state := .gathering, chord := keys, openTick := s.time.tick,
    stamp := if s.power.part = .doze then none else some (stampNow s),
    limit := s.capture.strokeLimit,
    destination := if s.power.part = .doze then .wake else .log }

/-- A stroke opened is reported to Power Control outside DOZE (R11, R148, R150). -/
theorem openStroke_eq (keys : Chord) (s : State) :
    openStroke keys s
      = if s.power.part = .doze then setAssembler (openedStroke keys s) s
        else reportOpening (setAssembler (openedStroke keys s) s) := rfl

theorem openStroke_capture (keys : Chord) (s : State) :
    (openStroke keys s).capture = { s.capture with assembler := openedStroke keys s } := by
  rw [openStroke_eq]
  split <;> simp

/-- The Stroke Assembler keeps up with the keys pressed after a scan, the lines being as after it and the assembler
as before (R11 to R13, R16). -/
theorem assemble_assemblerOk {before : Chord} {s : State}
    (hchord : s.capture.assembler.state = .gathering → before &&& ~~~s.capture.assembler.chord = 0) :
    AssemblerOk (assemble (pressedKeys s.capture.lines) (pressedKeys s.capture.lines &&& ~~~before) s).capture := by
  unfold assemble
  dsimp only
  split
  · rename_i hstate
    split
    · rename_i hnone
      exact ⟨by simp [hstate, hnone], by simp [hstate]⟩
    · rename_i hsome
      rw [openStroke_capture]
      exact ⟨by simpa [openedStroke] using hsome, by simp [openedStroke]⟩
  · rename_i hstate
    split
    · rename_i hnone
      rw [closeStroke_capture]
      exact ⟨by simpa using hnone, by simp⟩
    · rename_i hsome
      refine ⟨by simpa [hstate] using hsome, fun _ => ?_⟩
      rw [and_not_eq_zero_iff]
      have hin := (and_not_eq_zero_iff _ _).mp (hchord hstate)
      intro i hi ha
      have := hin i hi
      simp only [setAssembler_capture] at ha ⊢
      cases hb : before.getLsbD i <;> simp_all
  · rename_i hstate
    split
    · rename_i hnone
      exact ⟨by simpa using hnone, by simp⟩
    · rename_i hsome
      exact ⟨by simpa [hstate] using hsome, by simp [hstate]⟩

theorem scanEvent_assemblerOk (depths : List Byte) {s : State} (h : AssemblerOk s.capture) :
    AssemblerOk (scanEvent depths s).capture := by
  unfold scanEvent
  dsimp only
  generalize hu : holdGroup _ _ _ = u
  obtain ⟨hlines, ha⟩ : u.capture.lines = scanLines s.capture.debounce s.capture.lines depths ∧
      u.capture.assembler = s.capture.assembler := by
    rw [← hu]
    simp [holdGroup_sensing]
  rw [← hlines]
  exact assemble_assemblerOk (by rw [ha]; exact h.2)

theorem strokeLimitEvent_assemblerOk {s : State} (h : AssemblerOk s.capture) :
    AssemblerOk (strokeLimitEvent s).capture := by
  unfold strokeLimitEvent
  split
  · rename_i hdue
    simp only [strokeLimitDue, Bool.and_eq_true, beq_iff_eq] at hdue
    have hpressed : pressedKeys s.capture.lines ≠ 0 := fun hz => by simpa [hdue.1] using h.1.mpr hz
    simpa [AssemblerOk] using hpressed
  · exact h

/-- A request that only releases lines keeps the assembler: the release of the last key ends the stroke (R7). -/
theorem replaceLines_assemblerOk {after : List Line} {s : State} (h : AssemblerOk s.capture)
    (hin : pressedKeys after &&& ~~~(pressedKeys s.capture.lines) = 0) :
    AssemblerOk (replaceLines after s).capture := by
  unfold replaceLines reportReleases
  dsimp only
  generalize hu : holdGroup _ _ _ = u
  obtain ⟨hlines, ha⟩ : u.capture.lines = after ∧ u.capture.assembler = s.capture.assembler := by
    rw [← hu]
    simp [holdGroup_sensing]
  split
  · rename_i hlast
    simp only [Bool.and_eq_true, bne_iff_ne, beq_iff_eq] at hlast
    have hbusy : s.capture.assembler.state ≠ .idle := fun hi => hlast.1 (h.1.mp hi)
    unfold lastKeyReleased
    split
    · rename_i hstate
      exact absurd (ha ▸ hstate) hbusy
    · rw [closeStroke_capture]
      exact ⟨by simp [hlines, hlast.2], by simp⟩
    · exact ⟨by simp [hlines, hlast.2], by simp⟩
  · rename_i hnot
    simp only [Bool.and_eq_true, bne_iff_ne, beq_iff_eq, not_and] at hnot
    have hnone : pressedKeys s.capture.lines = 0 → pressedKeys after = 0 := by
      intro hz
      rwa [hz, show ~~~(0 : Chord) = BitVec.allOnes 23 from rfl, BitVec.and_allOnes] at hin
    refine ⟨?_, ?_⟩
    · rw [ha, hlines, h.1]
      exact ⟨hnone, fun hz => by_contra fun hne => hnot hne hz⟩
    · rw [ha, hlines]
      intro hg
      have hchord := (and_not_eq_zero_iff _ _).mp (h.2 hg)
      have hwithin := (and_not_eq_zero_iff _ _).mp hin
      rw [and_not_eq_zero_iff]
      exact fun i hi hb => hchord i hi (hwithin i hi hb)

theorem assemblerOk_atReset : AssemblerOk Capture.atReset :=
  ⟨by decide, by simp [Capture.atReset, Assembler.atReset]⟩

theorem keeps_assemblerOk : Keeps (fun s => AssemblerOk s.capture) := by
  constructor
  case reset => exact fun _ _ => assemblerOk_atReset
  case tick => exact fun _ h => h
  case scan => exact fun d _ => scanEvent_assemblerOk d
  case strokeLimit => exact fun _ => strokeLimitEvent_assemblerOk
  case lineSet =>
    intro n f k a b s h
    unfold lineSetOwner
    split
    · exact replaceLines_assemblerOk h (pressedKeys_within (set_released_within _ _ rfl))
    · exact h
  case lineToggle => exact fun l s h => replaceLines_assemblerOk h (pressedKeys_within (toggleLines_within l 0 _))
  case captureSet =>
    intro i d m s h
    unfold captureSetOwner
    dsimp only
    split
    · simpa [AssemblerOk, pressedKeys_clearCounts] using h
    · exact h
  all_goals
    intros
    simpa

/-! ### The quality (R54, R55) -/

/-- The quality looks at the state, the reference, its age and the coast limit alone. -/
theorem judgedQuality_congr {t t' : TimeFollower} (hs : t'.state = t.state) (hp : t'.present = t.present)
    (ha : t'.age = t.age) (hc : t'.coast = t.coast) : judgedQuality t' = judgedQuality t := by
  unfold judgedQuality coastTicks
  rw [hs, hp, ha, hc]

theorem QualityOk.congr {t t' : TimeFollower} (h : QualityOk t) (hs : t'.state = t.state)
    (hp : t'.present = t.present) (ha : t'.age = t.age) (hc : t'.coast = t.coast) (hq : t'.quality = t.quality) :
    QualityOk t' := by
  rw [QualityOk, judgedQuality_congr hs hp ha hc, hs, hp, ha, hq]
  exact h

/-- The reference age is within its bound. -/
def AgeOk (s : State) : Prop := s.time.age ≤ Config.ageCeiling

/-- A quality judged again is the one the table gives, whatever it was. -/
theorem rejudge_qualityOk {s : State} (h : AgeOk s) : QualityOk (rejudge s).time := by
  unfold rejudge
  dsimp only
  split
  · rename_i hq
    exact ⟨h, .inl hq.symm⟩
  · rw [(raiseNotice_frame _ _).2.2.1]
    exact ⟨h, .inl rfl⟩

theorem judgedQuality_search {t : TimeFollower} (hp : t.present = true) (hs : t.state = .search) :
    judgedQuality t = if t.age ≤ coastTicks t then .coast else .free := by
  simp only [judgedQuality, hp, hs, if_true]

/-- Outside SEARCH, or without a reference, the age is not looked at. -/
theorem judgedQuality_of_age (t : TimeFollower) (tick : Tick) (age : Nat)
    (h : t.present = false ∨ t.state ≠ .search) :
    judgedQuality { t with tick := tick, age := age } = judgedQuality t := by
  unfold judgedQuality
  rcases h with hp | hs
  · simp only [hp, Bool.false_eq_true, if_false]
  · cases hst : t.state <;> simp_all

/-- As a reference ages its quality stays, COAST until the passing of the coast limit is taken. -/
theorem passTick_qualityOk {s : State} (h : QualityOk s.time) : QualityOk (passTick s).time := by
  obtain ⟨hage, hq⟩ := h
  refine ⟨Nat.min_le_left _ _, ?_⟩
  have hnext : s.time.age ≤ nextAge s.time.age := by
    unfold nextAge
    omega
  rcases hq with hq | hq
  · by_cases hsearch : s.time.present = true ∧ s.time.state = .search
    · obtain ⟨hp, hs⟩ := hsearch
      rw [judgedQuality_search hp hs] at hq
      by_cases hle : s.time.age ≤ coastTicks s.time
      · exact .inr ⟨hs, hp, by rw [if_pos hle] at hq; exact hq⟩
      · refine .inl ?_
        have hpast : ¬(passTick s).time.age ≤ coastTicks (passTick s).time := fun hle' => hle (hnext.trans hle')
        rw [judgedQuality_search (t := (passTick s).time) hp hs, if_neg hpast]
        rw [if_neg hle] at hq
        exact hq
    · refine .inl (hq.trans (judgedQuality_of_age s.time _ _ ?_).symm)
      cases hp : s.time.present <;> simp_all
  · exact .inr hq

/-! ### Cells and frames -/

theorem frameCell_qualityOk {s : State} (h : QualityOk s.time) : QualityOk (frameCell s).time := by
  unfold frameCell
  dsimp only
  split
  · exact h.congr rfl rfl rfl rfl rfl
  · split
    · exact h.congr rfl rfl rfl rfl rfl
    · exact h

theorem lockAt_qualityOk (p : BitVec 6) {s : State} (h : AgeOk s) : QualityOk (lockAt p s).time := by
  unfold lockAt
  have hcounted : AgeOk (if lockMoved s.time.previousLock p then countOne .alignChanges s else s) :=
    ite_kept (by simpa [AgeOk] using h) h
  exact rejudge_qualityOk hcounted

theorem judgeCell_qualityOk {s : State} (h : QualityOk s.time) : QualityOk (judgeCell s).time := by
  unfold judgeCell
  dsimp only
  split
  · split
    · exact h.congr rfl rfl rfl rfl rfl
    · exact lockAt_qualityOk _ h.1
  · split
    · exact frameCell_qualityOk (h.congr rfl rfl rfl rfl rfl)
    · exact h.congr (by simp [moveTo]) (by simp [moveTo]) (by simp [moveTo]) (by simp [moveTo]) (by simp [moveTo])
  · exact frameCell_qualityOk h

/-- The sync judgement keeps the quality, but for a loss of lock, which is judged again after it (R42). -/
theorem judgeSync_time (f : TimeFrame) (s : State) :
    (judgeSync f s).time.age = s.time.age ∧
    ((judgeSync f s).time.state ≠ .search → QualityOk s.time → QualityOk (judgeSync f s).time) := by
  unfold judgeSync
  split
  · exact ⟨rfl, fun _ h => h.congr rfl rfl rfl rfl rfl⟩
  · dsimp only
    split
    · exact ⟨by simp [loseLock], fun hs => absurd rfl hs⟩
    · exact ⟨by simp, fun _ h => h.congr (by simp) (by simp) (by simp) (by simp) (by simp)⟩

theorem judgeCheck_age (f : TimeFrame) (s : State) : (judgeCheck f s).time.age = s.time.age := by
  let P (u : State) : Prop := u.time.age = s.time.age
  have hcounted : P (if checkPasses s.time.lastFrames f then s else countOne .blockErrors s) :=
    ite_kept rfl (by simp [P])
  exact ite_kept (P := P) (ite_kept (P := P) hcounted hcounted) hcounted

theorem judgeBlock_age (first : Bool) (f : TimeFrame) (s : State) : (judgeBlock first f s).time.age = s.time.age := by
  unfold judgeBlock searchBlock declareBlock
  split
  · dsimp only
    split
    · simp [judgeCheck_age]
    · rfl
  · dsimp only
    split
    · simp [judgeCheck_age]
    · rfl
  all_goals rfl

theorem takeReference_qualityOk (d : Nat) (s : State) : QualityOk (takeReference d s).time :=
  rejudge_qualityOk (Nat.zero_le _)

theorem updateReference_qualityOk (d : Nat) {s : State} (h : QualityOk s.time) :
    QualityOk (updateReference d s).time := by
  unfold updateReference
  dsimp only
  split
  · exact takeReference_qualityOk _ _
  · split
    · exact h.congr rfl rfl rfl rfl rfl
    · split
      · simpa [takeStep] using takeReference_qualityOk d _
      · exact h.congr rfl rfl rfl rfl rfl

theorem updateTake_qualityOk (w : Nat) {s : State} (h : QualityOk s.time) : QualityOk (updateTake w s).time := by
  unfold updateTake
  dsimp only
  split
  · exact h.congr (by simp) (by simp) (by simp) (by simp) (by simp)
  · exact h.congr rfl rfl rfl rfl rfl

theorem judgeFrame_qualityOk (first : Bool) (f : TimeFrame) {s : State} (h : AgeOk s) :
    QualityOk (judgeFrame first f s).time := by
  have hjudged : QualityOk (rejudge (judgeBlock first f s)).time :=
    rejudge_qualityOk (by rw [AgeOk, judgeBlock_age]; exact h)
  unfold judgeFrame
  dsimp only
  split
  · exact hjudged
  · split
    · exact updateTake_qualityOk _ (updateReference_qualityOk _ (hjudged.congr rfl rfl rfl rfl rfl))
    · exact hjudged.congr rfl rfl rfl rfl rfl

theorem frameEvent_qualityOk {s : State} (h : QualityOk s.time) : QualityOk (frameEvent s).time := by
  unfold frameEvent
  split
  · have hage : AgeOk (judgeSync (decodeFrame s.time.cells)
        (setTime { s.time with frameDue := false, lockFrame := false } s)) := by
      rw [AgeOk, (judgeSync_time _ _).1]
      exact h.1
    unfold completeFrame
    dsimp only
    split
    · exact rejudge_qualityOk hage
    · exact judgeFrame_qualityOk _ _ hage
  · exact h

theorem silenceEvent_qualityOk {s : State} (h : QualityOk s.time) : QualityOk (silenceEvent s).time := by
  have hframe := frameEvent_qualityOk h
  unfold silenceEvent fallSilent
  split
  · dsimp only
    split
    · exact hframe.congr rfl rfl rfl rfl rfl
    · exact rejudge_qualityOk hframe.1
  · exact h

/-- A new rate or coast limit is judged again; without one the quality stands (R57). -/
theorem timeSetOwner_qualityOk (rate coast threshold : Option Nat) (reframe : Option Bool)
    (mode : Option SyncErrorMode) {s : State} (h : QualityOk s.time) :
    QualityOk (timeSetOwner rate coast threshold reframe mode s).1.time := by
  unfold timeSetOwner judgeSettings changeRate
  split
  · dsimp only
    split
    · refine rejudge_qualityOk ?_
      split
      · exact h.1
      · exact h.1
    · split
      · exact rejudge_qualityOk h.1
      · rename_i hcoast
        exact h.congr rfl rfl rfl (by simpa using hcoast) rfl
  · exact h

theorem keeps_qualityOk : Keeps (fun s => QualityOk s.time) := by
  constructor
  case reset => exact fun _ _ => ⟨Nat.zero_le _, .inl rfl⟩
  case tick => exact fun _ => passTick_qualityOk
  case cell => exact fun _ _ h => judgeCell_qualityOk ((frameEvent_qualityOk h).congr rfl rfl rfl rfl rfl)
  case frame => exact fun _ => frameEvent_qualityOk
  case silence => exact fun _ => silenceEvent_qualityOk
  case blockLimit =>
    intro s h
    unfold blockLimitEvent
    split
    · exact rejudge_qualityOk h.1
    · exact h
  case coast =>
    intro s h
    unfold coastEvent
    split
    · exact rejudge_qualityOk h.1
    · exact h
  case rebase =>
    intro s h
    unfold rebaseEvent
    split
    · exact h.congr rfl rfl rfl rfl rfl
    · exact h
  case timeSet => exact fun a b c d e _ => timeSetOwner_qualityOk a b c d e
  all_goals
    intros
    simpa

/-- Settles O60: the assembler follows the keys at every change of the lines, and every change of what the quality
looks at is followed by a judgement of it. -/
theorem stepKeepsSensingAndTime : Obligations.StepKeepsSensingAndTime := by
  unfold Obligations.StepKeepsSensingAndTime
  exact fun s t h he => ⟨keeps_assemblerOk.step h.1 he, keeps_qualityOk.step h.2 he⟩

end Sys2Proof.Machine
end

section
/-! PROOFS. The Translator's state apart from what it appends: the Text Journal, the Hold Table and the counters never
look at it, so the work on units can be told as what is appended and what the Translator then holds (R99 to R105). -/

namespace Sys2Proof.Machine

/-! ### Operations that never look at the Translator -/

/-- The part with another Translator. -/
def withTrans (x : Translator) (s : State) : State := { s with trans := x }

@[simp] theorem withTrans_trans (x : Translator) (s : State) : (withTrans x s).trans = x := rfl

@[simp] theorem withTrans_withTrans (x y : Translator) (s : State) :
    withTrans x (withTrans y s) = withTrans x s := rfl

@[simp] theorem withTrans_self (s : State) : withTrans s.trans s = s := rfl

/-- A Translator put back as it stands. -/
theorem eq_withTrans {x : Translator} {s : State} (h : s.trans = x) : withTrans x s = s := h ▸ rfl

@[simp] theorem withTrans_frame (x : Translator) (s : State) :
    (withTrans x s).capture = s.capture ∧ (withTrans x s).log = s.log ∧ (withTrans x s).time = s.time ∧
    (withTrans x s).dict = s.dict ∧ (withTrans x s).journal = s.journal ∧ (withTrans x s).holds = s.holds ∧
    (withTrans x s).power = s.power ∧ (withTrans x s).wake = s.wake ∧ (withTrans x s).counters = s.counters ∧
    (withTrans x s).ports = s.ports ∧ (withTrans x s).pending = s.pending := by
  simp [withTrans]

@[simp] theorem setListener_withTrans (x : Translator) (s : State) (port : Port) (l : Listener) :
    (withTrans x s).setListener port l = withTrans x (s.setListener port l) := rfl

@[simp] theorem raiseNotice_withTrans (x : Translator) (s : State) (n : Notice) :
    raiseNotice n (withTrans x s) = withTrans x (raiseNotice n s) := rfl

@[simp] theorem countEvents_withTrans (x : Translator) (s : State) (c : Counter) (n : Nat) :
    countEvents c n (withTrans x s) = withTrans x (countEvents c n s) := by
  unfold countEvents
  split
  · rfl
  · dsimp only
    split
    · rename_i h
      rw [if_pos (by exact h)]
      rfl
    · rename_i h
      rw [if_neg (by exact h)]
      rfl

@[simp] theorem countOne_withTrans (x : Translator) (s : State) (c : Counter) :
    countOne c (withTrans x s) = withTrans x (countOne c s) :=
  countEvents_withTrans x s c 1

@[simp] theorem startRun_withTrans (x : Translator) (s : State) (port : Port) :
    startRun port (withTrans x s) = withTrans x (startRun port s) := by
  simp only [startRun, State.listener_eq, withTrans_frame, setListener_withTrans, countOne_withTrans]

/-- A choice made alike is made of the two parts made alike. -/
theorem ite_withTrans (c : Prop) [Decidable c] (x : Translator) {a a' b b' : State} (ha : a = withTrans x a')
    (hb : b = withTrans x b') : (if c then a else b) = withTrans x (if c then a' else b') := by
  split
  · exact ha
  · exact hb

@[simp] theorem callRepaint_withTrans (x : Translator) (s : State) (port : Port) :
    callRepaint port (withTrans x s) = withTrans x (callRepaint port s) := by
  simp only [callRepaint, State.listener_eq, withTrans_frame, setListener_withTrans, startRun_withTrans]
  refine ite_withTrans _ x rfl ?_
  split <;> rfl

@[simp] theorem resumeIfOn_withTrans (x : Translator) (s : State) (id : Nat) (port : Port) :
    resumeIfOn id port (withTrans x s) = withTrans x (resumeIfOn id port s) := by
  simp only [resumeIfOn, resumeListener, State.listener_eq, withTrans_frame, setListener_withTrans,
    callRepaint_withTrans]
  refine ite_withTrans _ x ?_ rfl
  split
  · rfl
  · exact ite_withTrans _ x rfl rfl

@[simp] theorem overrunOne_withTrans (x : Translator) (s : State) (w : Word) (port : Port) :
    overrunOne w port (withTrans x s) = withTrans x (overrunOne w port s) := by
  simp only [overrunOne, State.listener_eq, withTrans_frame, setListener_withTrans, callRepaint_withTrans]
  exact ite_withTrans _ x (ite_withTrans _ x rfl rfl) rfl

@[simp] theorem dropOldestEntry_withTrans (x : Translator) (s : State) :
    dropOldestEntry (withTrans x s) = withTrans x (dropOldestEntry s) := by
  unfold dropOldestEntry
  rw [show (withTrans x s).journal = s.journal from rfl]
  split
  · rfl
  · rename_i oldest rest _
    have hdropped : { withTrans x s with journal := { s.journal with entries := rest } }
        = withTrans x { s with journal := { s.journal with entries := rest } } := rfl
    dsimp only
    rw [hdropped]
    simp only [overrunOne_withTrans]
    exact ite_withTrans _ x rfl rfl

@[simp] theorem placeInJournal_withTrans (x : Translator) (s : State) (b : EntryBody) :
    placeInJournal b (withTrans x s) = withTrans x (placeInJournal b s) := by
  unfold placeInJournal
  rw [dropOldestEntry_withTrans]
  rfl

@[simp] theorem reachAll_withTrans (x : Translator) (s : State) :
    reachAll (withTrans x s) = withTrans x (reachAll s) := rfl

@[simp] theorem appendEntry_withTrans (x : Translator) (s : State) (b : EntryBody) :
    appendEntry b (withTrans x s) = withTrans x (appendEntry b s) := by
  simp only [appendEntry, placeInJournal_withTrans, reachAll_withTrans]

theorem takeHold_withTrans (x : Translator) (s : State) (source : HoldSource) (owner : Option Word) :
    takeHold source owner (withTrans x s)
      = (withTrans x (takeHold source owner s).1, (takeHold source owner s).2) := by
  unfold takeHold
  dsimp only
  rw [show (withTrans x s).holds = s.holds from rfl, placeInJournal_withTrans]
  rfl

@[simp] theorem closeThis_withTrans (x : Translator) (s : State) (h : OpenHold) (c : CloseCause) :
    closeThis h c (withTrans x s) = withTrans x (closeThis h c s) := by
  unfold closeThis
  dsimp only
  generalize hu : appendEntry (.release h.id) s = u
  have hclosed : { withTrans x u with holds := { u.holds with holds := u.holds.holds.filter (fun y => y.id != h.id) } }
      = withTrans x { u with holds := { u.holds with holds := u.holds.holds.filter (fun y => y.id != h.id) } } := rfl
  rw [appendEntry_withTrans, hu, (withTrans_frame x u).2.2.2.2.2.1, hclosed]
  simp only [resumeIfOn_withTrans]
  rfl

@[simp] theorem closeOwned_withTrans (x : Translator) (s : State) (holdId : Option Nat) (unitId : Word) :
    closeOwned holdId unitId (withTrans x s) = withTrans x (closeOwned holdId unitId s) := by
  cases holdId with
  | none => rfl
  | some id =>
    simp only [closeOwned, closeWhere, withTrans_frame, closeThis_withTrans]
    split <;> rfl

@[simp] theorem appendTake_withTrans (x : Translator) (s : State) (n : Nat) :
    appendTake n (withTrans x s) = withTrans x (appendTake n s) := by
  simp only [appendTake, appendEntry_withTrans]
  exact ite_withTrans _ x rfl rfl

end Sys2Proof.Machine
end

section
/-! PROOFS. The work on units in closed form: what settlement and a recomputation append, and what the Translator holds
after them (R99 to R105). -/

namespace Sys2Proof.Machine

/-! ### Settlement -/

/-- The FIX entry of one unit, with UNTRANSLATES for a RAW unit (R103). -/
def fixAppended (u : TextUnit) (s : State) : State :=
  let y := appendEntry
    (.fix u.id u.text ((u.strokes.map (fun w => w.stamp)).head?.getD { ms := 0, quality := .free })) s
  if u.kind = .raw then countOne .untranslates y else y

theorem fixesAppended_cons (u : TextUnit) (rest : List TextUnit) (s : State) :
    fixesAppended (u :: rest) s = fixesAppended rest (fixAppended u s) := rfl

@[simp] theorem fixAppended_withTrans (x : Translator) (s : State) (u : TextUnit) :
    fixAppended u (withTrans x s) = withTrans x (fixAppended u s) := by
  simp only [fixAppended, appendEntry_withTrans, countOne_withTrans]
  exact ite_withTrans _ x rfl rfl

@[simp] theorem fixesAppended_withTrans (x : Translator) (s : State) (l : List TextUnit) :
    fixesAppended l (withTrans x s) = withTrans x (fixesAppended l s) := by
  induction l generalizing s with
  | nil => rfl
  | cons u rest ih => rw [fixesAppended_cons, fixAppended_withTrans, ih, fixesAppended_cons]

@[simp] theorem fixAppended_frame (u : TextUnit) (s : State) :
    (fixAppended u s).capture = s.capture ∧ (fixAppended u s).log = s.log ∧ (fixAppended u s).time = s.time ∧
    (fixAppended u s).dict = s.dict ∧ (fixAppended u s).trans = s.trans ∧ (fixAppended u s).holds = s.holds ∧
    (fixAppended u s).power = s.power ∧ (fixAppended u s).wake = s.wake ∧ (fixAppended u s).pending = s.pending := by
  unfold fixAppended
  dsimp only
  split <;> simp

@[simp] theorem fixesAppended_frame (l : List TextUnit) (s : State) :
    (fixesAppended l s).capture = s.capture ∧ (fixesAppended l s).log = s.log ∧
    (fixesAppended l s).time = s.time ∧ (fixesAppended l s).dict = s.dict ∧ (fixesAppended l s).trans = s.trans ∧
    (fixesAppended l s).holds = s.holds ∧ (fixesAppended l s).power = s.power ∧
    (fixesAppended l s).wake = s.wake ∧ (fixesAppended l s).pending = s.pending := by
  induction l generalizing s with
  | nil => simp [fixesAppended]
  | cons u rest ih => simp [fixesAppended_cons, ih]

/-- What the Translator holds after the settlement of its first unit (R103). -/
def settledOne (u : TextUnit) (t : Translator) : Translator :=
  { t with
    provisional := t.provisional.drop 1, window := t.window.drop u.strokes.length, base := u.after,
    undo := pushUndo t.undo u }

/-- What the Translator holds after the settlement of units, one after another. -/
def settledAll (l : List TextUnit) (t : Translator) : Translator := l.foldl (fun t u => settledOne u t) t

theorem settledAll_cons (u : TextUnit) (rest : List TextUnit) (t : Translator) :
    settledAll (u :: rest) t = settledAll rest (settledOne u t) := rfl

theorem unitStamp_eq (u : TextUnit) :
    unitStamp u = (u.strokes.map (fun w => w.stamp)).head?.getD { ms := 0, quality := .free } := by
  unfold unitStamp
  split
  · rename_i heq
    simp [heq]
  · rename_i heq
    simp [heq]

/-- A unit settled is its entry appended and the Translator moved past it. -/
theorem settleUnit_eq (u : TextUnit) (s : State) :
    settleUnit u s = withTrans (settledOne u s.trans) (fixAppended u s) := by
  have hmove (t : State) (ht : t.trans = s.trans) :
      { t with trans := { t.trans with
          provisional := t.trans.provisional.drop 1, window := t.trans.window.drop u.strokes.length,
          base := u.after, undo := pushUndo t.trans.undo u } } = withTrans (settledOne u s.trans) t := by
    rw [ht]
    rfl
  unfold settleUnit fixAppended
  dsimp only
  rw [hmove _ (by simp), unitStamp_eq, countOne_withTrans]
  exact ite_withTrans _ _ rfl rfl

theorem settleUnits_eq (l : List TextUnit) (s : State) :
    settleUnits l s = withTrans (settledAll l s.trans) (fixesAppended l s) := by
  induction l generalizing s with
  | nil => rfl
  | cons u rest ih =>
    rw [settleUnits, ih, settleUnit_eq]
    simp [settledAll_cons, fixesAppended_cons]

/-- The undo history keeps the newest 32 units (R103). -/
theorem pushUndo_length_le (undo : List TextUnit) (u : TextUnit) : (pushUndo undo u).length ≤ 32 := by
  simp only [pushUndo, Config.undoCapacity, List.length_drop]
  omega

theorem settledAll_fields (l : List TextUnit) {t : Translator} (h : t.undo.length ≤ 32) :
    settledAll l t = { t with
      provisional := t.provisional.drop l.length,
      window := t.window.drop ((l.map (fun u => u.strokes.length)).sum),
      base := ((l.map (fun u => u.after)).getLast?).getD t.base,
      undo := (t.undo ++ l).drop (t.undo.length + l.length - 32) } := by
  induction l generalizing t with
  | nil =>
    have hz : t.undo.length - 32 = 0 := by omega
    simp [settledAll, hz]
  | cons u rest ih =>
    rw [settledAll_cons, ih (pushUndo_length_le t.undo u)]
    have hundo : (pushUndo t.undo u ++ rest).drop ((pushUndo t.undo u).length + rest.length - 32)
        = (t.undo ++ u :: rest).drop (t.undo.length + (rest.length + 1) - 32) := by
      simp only [pushUndo, Config.undoCapacity, List.length_drop, List.length_append, List.length_singleton]
      rw [show t.undo ++ u :: rest = (t.undo ++ [u]) ++ rest by simp,
        ← List.drop_append_of_le_length (l₁ := t.undo ++ [u]) (by simp; omega), List.drop_drop]
      congr 1
      omega
    have hbase : (rest.map (fun u => u.after)).getLast?.getD u.after
        = ((u :: rest).map (fun u => u.after)).getLast?.getD t.base := by
      cases rest with
      | nil => rfl
      | cons v more => simp [List.getLast?_cons]
    simp only [settledOne, List.drop_drop, hundo, hbase, List.map_cons, List.sum_cons, List.length_cons]
    simp [Nat.add_comm]

/-! ### Settlement from the front (R101) -/

/-- Settlement goes on, as the dictionary and the Translator have it. -/
def mustSettleAt (d : Dictionary) (t : Translator) : Bool :=
  !t.window.isEmpty &&
    (decide (Config.windowCapacity ≤ t.window.length) || !(lookup d (keyOf t.window)).extendable)

theorem mustSettle_eq (s : State) : mustSettle s = mustSettleAt s.dict s.trans := rfl

/-- Units are settled from the front up to the first after which settlement need not go on. -/
theorem settleFront_eq (l : List TextUnit) (s : State) :
    ∃ m, m ≤ l.length ∧
      settleFront l s = (l.take m, withTrans (settledAll (l.take m) s.trans) (fixesAppended (l.take m) s)) ∧
      (m < l.length → mustSettleAt s.dict (settledAll (l.take m) s.trans) = false) ∧
      ∀ k, k < m → mustSettleAt s.dict (settledAll (l.take k) s.trans) = true := by
  induction l generalizing s with
  | nil => exact ⟨0, Nat.le_refl _, rfl, fun h => absurd h (Nat.lt_irrefl _), fun k hk => absurd hk (Nat.not_lt_zero _)⟩
  | cons u rest ih =>
    unfold settleFront
    rw [mustSettle_eq]
    cases hm : mustSettleAt s.dict s.trans with
    | false => exact ⟨0, Nat.zero_le _, rfl, fun _ => hm, fun k hk => absurd hk (Nat.not_lt_zero _)⟩
    | true =>
      obtain ⟨m, hle, heq, hstop, hgo⟩ := ih (settleUnit u s)
      have hdict : (settleUnit u s).dict = s.dict := by simp
      have htrans : (settleUnit u s).trans = settledOne u s.trans := by rw [settleUnit_eq, withTrans_trans]
      refine ⟨m + 1, by simpa using hle, ?_, ?_, ?_⟩
      · rw [heq, htrans, settleUnit_eq]
        simp [settledAll_cons, fixesAppended_cons]
      · intro hlt
        simpa [hdict, htrans, settledAll_cons] using hstop (by simpa using hlt)
      · intro k hk
        cases k with
        | zero => exact hm
        | succ k => simpa [hdict, htrans, settledAll_cons] using hgo k (by omega)

/-! ### Units put (R100) -/

/-- The unit id `k` after one (R84). -/
def unitIdAfter (w : Word) (k : Nat) : Word := Nat.repeat nextUnitId k w

theorem unitIdAfter_succ (w : Word) (k : Nat) : unitIdAfter (nextUnitId w) k = unitIdAfter w (k + 1) := by
  induction k with
  | zero => rfl
  | succ k ih =>
    rw [unitIdAfter, Nat.repeat]
    exact congrArg nextUnitId ih

/-- New units under the next ids, in order. -/
def freshUnits (w : Word) (l : List TextUnit) : List TextUnit :=
  l.mapIdx (fun k u => { u with id := unitIdAfter w (k + 1) })

theorem freshUnits_cons (w : Word) (u : TextUnit) (rest : List TextUnit) :
    freshUnits w (u :: rest) = { u with id := nextUnitId w } :: freshUnits (nextUnitId w) rest := by
  simp only [freshUnits, List.mapIdx_cons, unitIdAfter_succ]
  rfl

/-- The PUT entries of units, in order (R100). -/
def putsAppended (l : List TextUnit) (s : State) : State :=
  l.foldl (fun x u => appendEntry (.put u.id (((u.strokes.map (fun w => w.seq)).head?).getD 0) u.text) x) s

theorem putsAppended_cons (u : TextUnit) (rest : List TextUnit) (s : State) :
    putsAppended (u :: rest) s
      = putsAppended rest (appendEntry (.put u.id (((u.strokes.map (fun w => w.seq)).head?).getD 0) u.text) s) := rfl

@[simp] theorem putsAppended_withTrans (x : Translator) (s : State) (l : List TextUnit) :
    putsAppended l (withTrans x s) = withTrans x (putsAppended l s) := by
  induction l generalizing s with
  | nil => rfl
  | cons u rest ih => rw [putsAppended_cons, appendEntry_withTrans, ih, putsAppended_cons]

@[simp] theorem putsAppended_frame (l : List TextUnit) (s : State) :
    (putsAppended l s).capture = s.capture ∧ (putsAppended l s).log = s.log ∧
    (putsAppended l s).time = s.time ∧ (putsAppended l s).dict = s.dict ∧ (putsAppended l s).trans = s.trans ∧
    (putsAppended l s).holds = s.holds ∧ (putsAppended l s).power = s.power ∧
    (putsAppended l s).wake = s.wake ∧ (putsAppended l s).pending = s.pending := by
  induction l generalizing s with
  | nil => simp [putsAppended]
  | cons u rest ih => simp [putsAppended_cons, ih]

theorem putUnit_eq (u : TextUnit) (s : State) :
    putUnit u s =
      (withTrans { s.trans with idCounter := nextUnitId s.trans.idCounter }
        (appendEntry (.put (nextUnitId s.trans.idCounter) (((u.strokes.map (fun w => w.seq)).head?).getD 0) u.text) s),
       { u with id := nextUnitId s.trans.idCounter }) := by
  rw [← appendEntry_withTrans]
  unfold putUnit
  cases u.strokes <;> simp [withTrans]

theorem putUnits_eq (l : List TextUnit) (s : State) :
    putUnits l s =
      (freshUnits s.trans.idCounter l,
       withTrans { s.trans with idCounter := unitIdAfter s.trans.idCounter l.length }
         (putsAppended (freshUnits s.trans.idCounter l) s)) := by
  induction l generalizing s with
  | nil => rfl
  | cons u rest ih =>
    rw [putUnits, putUnit_eq]
    dsimp only
    rw [ih]
    simp [freshUnits_cons, putsAppended_cons, unitIdAfter_succ]

/-! ### A recomputation (R99, R100) -/

/-- The provisional list of a new segmentation: the common run keeps its ids, the rest has the next ones. -/
def nextUnits (t : Translator) (new : List TextUnit) : List TextUnit :=
  keepIds (t.provisional.take (commonRun t.provisional new)) (new.take (commonRun t.provisional new))
    ++ freshUnits t.idCounter (new.drop (commonRun t.provisional new))

/-- What a new segmentation appends: a TAKE of the texts beyond the common run, and the new units' PUT entries. -/
def differenceAppended (t : Translator) (new : List TextUnit) (s : State) : State :=
  putsAppended (freshUnits t.idCounter (new.drop (commonRun t.provisional new)))
    (appendTake (textTotal (t.provisional.drop (commonRun t.provisional new))) s)

theorem applyDifference_eq (new : List TextUnit) (s : State) :
    applyDifference new s =
      withTrans { s.trans with
          idCounter := unitIdAfter s.trans.idCounter (new.drop (commonRun s.trans.provisional new)).length,
          provisional := nextUnits s.trans new }
        (differenceAppended s.trans new s) := by
  unfold applyDifference
  dsimp only
  rw [putUnits_eq]
  simp only [appendTake_frame]
  rfl

end Sys2Proof.Machine
end

section
/-! PROOFS. The Translator: every step keeps its units covering its window, and only Power Control changes settle-all
(R83, R84, R90, R101, R107). -/

namespace Sys2Proof.Machine

/-! ### The segmentation covers the window (R90) -/

theorem longestMatch_le {d : Dictionary} {w : List WindowStroke} {n k : Nat} {layer : Layer} {e : Entry}
    (h : longestMatch d w n = some (k, layer, e)) : 1 ≤ k ∧ k ≤ n := by
  induction n with
  | zero => cases h
  | succ n ih =>
    unfold longestMatch at h
    split at h
    · cases h
      omega
    · have := ih h
      omega

theorem entryUnit_strokes (d : Dictionary) (f : FormatState) (strokes : List WindowStroke) (layer : Layer)
    (e : Entry) : (entryUnit d f strokes layer e).strokes = strokes := by
  unfold entryUnit
  dsimp only
  split <;> rfl

theorem singleUnit_strokes (d : Dictionary) (f : FormatState) (w : WindowStroke) :
    (singleUnit d f w).strokes = [w] := by
  unfold singleUnit
  split
  · rfl
  · split <;> rfl

/-- The first unit of a window is a leading run of its strokes, of at least one. -/
theorem firstUnit_strokes (d : Dictionary) (f : FormatState) (w : WindowStroke) (rest : List WindowStroke) :
    ∃ k, k ≤ rest.length ∧ (firstUnit d f w rest).strokes = (w :: rest).take (k + 1) := by
  unfold firstUnit
  split
  · rename_i k layer e hm
    have hk := longestMatch_le hm
    exact ⟨k - 1, by omega, by rw [entryUnit_strokes, Nat.sub_add_cancel hk.1]⟩
  · exact ⟨0, Nat.zero_le _, by simp [singleUnit_strokes]⟩

theorem segmentFrom_covers (d : Dictionary) (n : Nat) (f : FormatState) (window : List WindowStroke)
    (h : window.length ≤ n) :
    ((segmentFrom d n f window).map (fun u => u.strokes)).flatten = window ∧
    ∀ u ∈ segmentFrom d n f window, 1 ≤ u.strokes.length := by
  induction n generalizing f window with
  | zero =>
    obtain rfl := List.eq_nil_of_length_eq_zero (Nat.le_zero.mp h)
    simp [segmentFrom]
  | succ n ih =>
    cases window with
    | nil => simp [segmentFrom]
    | cons w rest =>
      obtain ⟨k, hk, hstrokes⟩ := firstUnit_strokes d f w rest
      have hlen : (firstUnit d f w rest).strokes.length = k + 1 := by
        rw [hstrokes, List.length_take, List.length_cons]
        omega
      obtain ⟨hflat, hpos⟩ := ih (firstUnit d f w rest).after ((w :: rest).drop (k + 1)) (by
        simp only [List.length_drop, List.length_cons] at h ⊢
        omega)
      unfold segmentFrom
      dsimp only
      rw [hlen]
      refine ⟨?_, ?_⟩
      · rw [List.map_cons, List.flatten_cons, hflat, hstrokes, List.take_append_drop]
      · intro u hu
        rcases List.mem_cons.mp hu with rfl | hu
        · omega
        · exact hpos u hu

theorem segment_covers (d : Dictionary) (f : FormatState) (window : List WindowStroke) :
    ((segment d f window).map (fun u => u.strokes)).flatten = window ∧
    ∀ u ∈ segment d f window, 1 ≤ u.strokes.length :=
  segmentFrom_covers d window.length f window (Nat.le_refl _)

/-! ### Ids and marks leave the strokes -/

theorem commonRun_le (old new : List TextUnit) :
    commonRun old new ≤ old.length ∧ commonRun old new ≤ new.length := by
  induction old generalizing new with
  | nil => simp [commonRun]
  | cons a as ih =>
    cases new with
    | nil => simp [commonRun]
    | cons b bs =>
      unfold commonRun
      split
      · have := ih bs
        simp only [List.length_cons]
        omega
      · simp

theorem keepIds_strokes (old new : List TextUnit) (h : old.length = new.length) :
    (keepIds old new).map (fun u => u.strokes) = new.map (fun u => u.strokes) := by
  induction old generalizing new with
  | nil => simp [keepIds, List.eq_nil_of_length_eq_zero h.symm]
  | cons a as ih =>
    cases new with
    | nil => cases h
    | cons b bs =>
      have := ih bs (by simpa using h)
      simpa [keepIds] using this

theorem freshUnits_strokes (w : Word) (l : List TextUnit) :
    (freshUnits w l).map (fun u => u.strokes) = l.map (fun u => u.strokes) := by
  induction l generalizing w with
  | nil => rfl
  | cons u rest ih => simp [freshUnits_cons, ih]

theorem nextUnits_strokes (t : Translator) (new : List TextUnit) :
    (nextUnits t new).map (fun u => u.strokes) = new.map (fun u => u.strokes) := by
  obtain ⟨hold, hnew⟩ := commonRun_le t.provisional new
  rw [nextUnits, List.map_append, keepIds_strokes _ _ (by simp; omega), freshUnits_strokes, ← List.map_append,
    List.take_append_drop]

/-- The hold a settled unit opens is written into the undo history, and nothing else of the Translator changes. -/
def HoldsRecorded (t t' : Translator) : Prop :=
  t' = { t with undo := t'.undo } ∧ t'.undo.map (fun u => u.strokes) = t.undo.map (fun u => u.strokes)

theorem HoldsRecorded.refl (t : Translator) : HoldsRecorded t t := ⟨rfl, rfl⟩

theorem HoldsRecorded.trans {t t' t'' : Translator} (h : HoldsRecorded t t') (h' : HoldsRecorded t' t'') :
    HoldsRecorded t t'' := by
  obtain ⟨heq, hundo⟩ := h
  obtain ⟨heq', hundo'⟩ := h'
  refine ⟨?_, hundo'.trans hundo⟩
  rw [heq', heq]

theorem recordHold_recorded (unitId : Word) (holdId : Nat) (s : State) :
    HoldsRecorded s.trans (recordHold unitId holdId s).trans := by
  refine ⟨rfl, ?_⟩
  simp only [recordHold, List.map_map]
  apply List.map_congr_left
  intro u _
  simp only [Function.comp_apply]
  split <;> rfl

theorem holdAction_recorded (u : TextUnit) (s : State) : HoldsRecorded s.trans (holdAction u s).trans := by
  have hopen : (openHold .command (some u.id) s).1.trans = s.trans := by simp
  unfold holdAction
  split
  · split
    · rename_i t id heq
      replace hopen : t.trans = s.trans := by simpa [heq] using hopen
      rw [← hopen]
      exact recordHold_recorded u.id id t
    · rename_i t _ _ heq
      rw [heq] at hopen
      rw [hopen]
      exact .refl _
  · rw [(closeNewestCommand_frame s).2.2.2.2.1]
    exact .refl _
  · exact .refl _

theorem holdActions_recorded (l : List TextUnit) (s : State) : HoldsRecorded s.trans (holdActions l s).trans := by
  induction l generalizing s with
  | nil => exact .refl _
  | cons u rest ih => exact (holdAction_recorded u s).trans (ih _)

/-! ### What text work keeps -/

/-- The undo history: at most 32 units of 1 to 8 strokes (R83, R103). -/
def UndoOk (undo : List TextUnit) : Prop :=
  undo.length ≤ Config.undoCapacity ∧
  ∀ x ∈ undo.map (fun u => u.strokes), 1 ≤ x.length ∧ x.length ≤ Config.windowCapacity

/-- The provisional units cover the window, each with a stroke of it. -/
def Covers (t : Translator) : Prop :=
  t.window = (t.provisional.map (fun u => u.strokes)).flatten ∧ ∀ u ∈ t.provisional, 1 ≤ u.strokes.length

theorem translatorOk_iff (t : Translator) :
    TranslatorOk t ↔ Covers t ∧ t.window.length < Config.windowCapacity ∧ UndoOk t.undo := by
  simp only [TranslatorOk, Covers, UndoOk, List.mem_map, forall_exists_index, and_imp, forall_apply_eq_imp_iff₂]
  tauto

theorem UndoOk.congr {undo undo' : List TextUnit} (h : UndoOk undo)
    (heq : undo'.map (fun u => u.strokes) = undo.map (fun u => u.strokes)) : UndoOk undo' := by
  have hlen : undo'.length = undo.length := by simpa using congrArg List.length heq
  exact ⟨hlen ▸ h.1, heq ▸ h.2⟩

/-- A Translator with the same window, list and history is in order too. -/
theorem TranslatorOk.congr {t t' : Translator} (h : TranslatorOk t) (hw : t'.window = t.window)
    (hp : t'.provisional = t.provisional) (hu : t'.undo = t.undo) : TranslatorOk t' := by
  rw [TranslatorOk, hw, hp, hu]
  exact h

theorem Covers.unit_length {t : Translator} (h : Covers t) {u : TextUnit} (hu : u ∈ t.provisional) :
    1 ≤ u.strokes.length ∧ u.strokes.length ≤ t.window.length := by
  refine ⟨h.2 u hu, ?_⟩
  rw [h.1, List.length_flatten, List.map_map]
  exact List.single_le_sum (fun _ _ => Nat.zero_le _) _ (List.mem_map.mpr ⟨u, hu, rfl⟩)

/-- Units settled from the front of a list that covers a window of at most 8 strokes. -/
theorem settledAll_ok {t : Translator} (hc : Covers t) (hw : t.window.length ≤ Config.windowCapacity)
    (hu : UndoOk t.undo) (m : Nat) :
    Covers (settledAll (t.provisional.take m) t) ∧ UndoOk (settledAll (t.provisional.take m) t).undo ∧
    (settledAll (t.provisional.take m) t).window = ((t.provisional.drop m).map (fun u => u.strokes)).flatten := by
  have hwindow : t.window.drop (((t.provisional.take m).map (fun u => u.strokes.length)).sum)
      = ((t.provisional.drop m).map (fun u => u.strokes)).flatten := by
    rw [hc.1, List.map_drop, ← List.drop_sum_flatten, List.map_map, List.map_take]
    rfl
  have hprov : t.provisional.drop (t.provisional.take m).length = t.provisional.drop m := by
    rw [List.length_take]
    rcases Nat.le_total m t.provisional.length with hle | hle
    · rw [Nat.min_eq_left hle]
    · rw [Nat.min_eq_right hle, List.drop_length, List.drop_eq_nil_of_le hle]
  rw [settledAll_fields _ hu.1]
  refine ⟨⟨?_, ?_⟩, ⟨?_, ?_⟩, hwindow⟩
  · simp only [hwindow, hprov]
  · simp only [hprov]
    exact fun u hmem => hc.2 u (List.mem_of_mem_drop hmem)
  · have := hu.1
    simp only [Config.undoCapacity, List.length_drop, List.length_append] at this ⊢
    omega
  · intro x hx
    obtain ⟨u, hmem, rfl⟩ := List.mem_map.mp hx
    rcases List.mem_append.mp (List.mem_of_mem_drop hmem) with hmem | hmem
    · exact hu.2 _ (List.mem_map.mpr ⟨u, hmem, rfl⟩)
    · have := hc.unit_length (List.mem_of_mem_take hmem)
      omega

theorem stopIfEmpty_trans (s : State) :
    ∃ timer, (stopIfEmpty s).trans = { s.trans with settleTimer := timer } := by
  unfold stopIfEmpty
  split
  · exact ⟨_, rfl⟩
  · exact ⟨s.trans.settleTimer, rfl⟩

/-- Settlement never looks at what it appends, so every unit settled is settled of the Translator alone. -/
theorem settleEvery_recorded (s : State) :
    ∃ t, HoldsRecorded (settledAll s.trans.provisional s.trans) t ∧
      (settleEvery s).trans = { t with window := [], provisional := [], settleTimer := none } := by
  refine ⟨(holdActions s.trans.provisional (settleUnits s.trans.provisional s)).trans, ?_, rfl⟩
  have hr := holdActions_recorded s.trans.provisional (settleUnits s.trans.provisional s)
  rwa [settleUnits_eq, withTrans_trans, ← settleUnits_eq] at hr

theorem settleEvery_translatorOk {s : State} (hc : Covers s.trans)
    (hw : s.trans.window.length ≤ Config.windowCapacity) (hu : UndoOk s.trans.undo) :
    TranslatorOk (settleEvery s).trans := by
  obtain ⟨t, ⟨_, hundo⟩, heq⟩ := settleEvery_recorded s
  have hall := (settledAll_ok hc hw hu s.trans.provisional.length).2.1
  rw [List.take_length] at hall
  rw [heq, translatorOk_iff]
  exact ⟨⟨rfl, by simp⟩, by simp [Config.windowCapacity], hall.congr hundo⟩

theorem settleWindow_translatorOk {s : State} (hc : Covers s.trans)
    (hw : s.trans.window.length ≤ Config.windowCapacity) (hu : UndoOk s.trans.undo) :
    TranslatorOk (settleWindow s).trans := by
  unfold settleWindow
  split
  · exact settleEvery_translatorOk hc hw hu
  · obtain ⟨m, hle, heq, hstop, _⟩ := settleFront_eq s.trans.provisional s
    rw [heq]
    dsimp only
    obtain ⟨timer, htimer⟩ := stopIfEmpty_trans (holdActions (s.trans.provisional.take m)
      (withTrans (settledAll (s.trans.provisional.take m) s.trans)
        (fixesAppended (s.trans.provisional.take m) s)))
    obtain ⟨hrec, hundo⟩ := holdActions_recorded (s.trans.provisional.take m)
      (withTrans (settledAll (s.trans.provisional.take m) s.trans)
        (fixesAppended (s.trans.provisional.take m) s))
    obtain ⟨hcov, hundo', hwin⟩ := settledAll_ok hc hw hu m
    have hshort : (settledAll (s.trans.provisional.take m) s.trans).window.length < Config.windowCapacity := by
      rcases Nat.lt_or_ge m s.trans.provisional.length with hlt | hge
      · have hno := hstop hlt
        simp only [mustSettleAt, Bool.and_eq_false_iff, Bool.or_eq_false_iff, decide_eq_false_iff_not, not_le,
          Bool.not_eq_false', List.isEmpty_iff] at hno
        rcases hno with hempty | hno
        · rw [hempty]
          decide
        · exact hno.1
      · rw [hwin, List.drop_eq_nil_of_le hge]
        decide
    rw [htimer, hrec, translatorOk_iff]
    exact ⟨hcov, hshort, hundo'.congr hundo⟩

/-- A recomputation makes the units cover the window, whatever list stood before, and settles until fewer than 8
strokes wait. -/
theorem recompute_translatorOk {s : State} (hw : s.trans.window.length ≤ Config.windowCapacity)
    (hu : UndoOk s.trans.undo) : TranslatorOk (recompute s).trans := by
  unfold recompute
  dsimp only
  apply settleWindow_translatorOk
  all_goals rw [applyDifference_eq, withTrans_trans]
  · obtain ⟨hflat, hpos⟩ := segment_covers s.dict s.trans.base s.trans.window
    refine ⟨?_, ?_⟩
    · rw [nextUnits_strokes]
      exact hflat.symm
    · intro u hmem
      have hin : u.strokes ∈ (segment s.dict s.trans.base s.trans.window).map (fun u => u.strokes) := by
        rw [← nextUnits_strokes { s.trans with recomputePending := false }]
        exact List.mem_map.mpr ⟨u, hmem, rfl⟩
      obtain ⟨v, hv, hvu⟩ := List.mem_map.mp hin
      exact hvu ▸ hpos v hv
  · exact hw
  · exact hu

/-! ### Settle-all (R107) -/

theorem HoldsRecorded.settleAll {t t' : Translator} (h : HoldsRecorded t t') : t'.settleAll = t.settleAll := by
  rw [h.1]

theorem settledAll_settleAll (l : List TextUnit) (t : Translator) : (settledAll l t).settleAll = t.settleAll := by
  induction l generalizing t with
  | nil => rfl
  | cons u rest ih => rw [settledAll_cons, ih]; rfl

@[simp] theorem settleEvery_settleAll (s : State) : (settleEvery s).trans.settleAll = s.trans.settleAll := by
  obtain ⟨t, hr, heq⟩ := settleEvery_recorded s
  rw [heq]
  exact hr.settleAll.trans (settledAll_settleAll _ _)

@[simp] theorem settleWindow_settleAll (s : State) : (settleWindow s).trans.settleAll = s.trans.settleAll := by
  unfold settleWindow
  split
  · exact settleEvery_settleAll s
  · obtain ⟨m, _, heq, _⟩ := settleFront_eq s.trans.provisional s
    rw [heq]
    dsimp only
    generalize hv : withTrans _ _ = v
    obtain ⟨timer, htimer⟩ := stopIfEmpty_trans (holdActions (s.trans.provisional.take m) v)
    rw [htimer]
    refine (holdActions_recorded _ v).settleAll.trans ?_
    rw [← hv, withTrans_trans, settledAll_settleAll]

@[simp] theorem recompute_settleAll (s : State) : (recompute s).trans.settleAll = s.trans.settleAll := by
  simp [recompute, applyDifference_eq]

@[simp] theorem askRecompute_settleAll (s : State) : (askRecompute s).trans.settleAll = s.trans.settleAll := by
  unfold askRecompute
  split
  · exact recompute_settleAll s
  · rfl

@[simp] theorem restartSettle_settleAll (s : State) : (restartSettle s).trans.settleAll = s.trans.settleAll := rfl

@[simp] theorem resumeTranslator_settleAll (s : State) :
    (resumeTranslator s).trans.settleAll = s.trans.settleAll := by
  unfold resumeTranslator
  split <;> simp

@[simp] theorem handleGap_settleAll (n : Nat) (s : State) : (handleGap n s).trans.settleAll = s.trans.settleAll := by
  simp [handleGap]

@[simp] theorem reopenUnit_settleAll (u : TextUnit) (s : State) :
    (reopenUnit u s).trans.settleAll = s.trans.settleAll := by
  simp [reopenUnit]

theorem handleDelete_settleAll (s : State) : (handleDelete s).trans.settleAll = s.trans.settleAll := by
  unfold handleDelete undoUnit dropStroke
  dsimp only
  split
  · simp
  · split
    · split <;> simp
    · simp

theorem handleRecord_settleAll (r : LogRecord) (s : State) :
    (handleRecord r s).trans.settleAll = s.trans.settleAll := by
  unfold handleRecord handleJob addStroke
  split
  · split
    · exact handleDelete_settleAll s
    · simp
  · simp
  · simp
  all_goals rfl

@[simp] theorem takeEvent_settleAll (s : State) : (takeEvent s).trans.settleAll = s.trans.settleAll := by
  unfold takeEvent takeRecord
  split
  · dsimp only
    rw [handleRecord_settleAll]
    split <;> split <;> simp
  · rfl

theorem reopenUnits_settleAll (r : Nat) (s : State) : (reopenUnits r s).2.trans.settleAll = s.trans.settleAll := by
  induction r generalizing s with
  | zero => rfl
  | succ r ih =>
    unfold reopenUnits
    split
    · rfl
    · split
      · rfl
      · exact (ih _).trans (reopenUnit_settleAll _ s)

@[simp] theorem askRetranslate_settleAll (r : Nat) (s : State) :
    (askRetranslate r s).2.trans.settleAll = s.trans.settleAll := by
  unfold askRetranslate retranslate
  split
  · simp [reopenUnits_settleAll]
  · simp

/-! ### The invariant, event by event -/

theorem askRecompute_translatorOk {s : State} (h : TranslatorOk s.trans) : TranslatorOk (askRecompute s).trans := by
  have h' := (translatorOk_iff _).mp h
  unfold askRecompute
  split
  · exact recompute_translatorOk h'.2.1.le h'.2.2
  · exact h.congr rfl rfl rfl

theorem restartSettle_translatorOk {s : State} (h : TranslatorOk s.trans) : TranslatorOk (restartSettle s).trans :=
  h.congr rfl rfl rfl

theorem resumeTranslator_translatorOk {s : State} (h : TranslatorOk s.trans) :
    TranslatorOk (resumeTranslator s).trans := by
  have h' := (translatorOk_iff _).mp h
  unfold resumeTranslator
  split
  · exact restartSettle_translatorOk (recompute_translatorOk h'.2.1.le h'.2.2)
  · exact askRecompute_translatorOk h

theorem settleEvery_keeps {s : State} (h : TranslatorOk s.trans) : TranslatorOk (settleEvery s).trans := by
  obtain ⟨hc, hw, hu⟩ := (translatorOk_iff _).mp h
  exact settleEvery_translatorOk hc hw.le hu

theorem undoOk_nil : UndoOk [] := ⟨Nat.zero_le _, by simp⟩

/-- The settlement of every unit leaves an empty window, so a boundary may empty the history. -/
theorem boundary_translatorOk {s : State} (h : TranslatorOk s.trans) (base : FormatState) :
    TranslatorOk { (settleEvery s).trans with undo := [], base := base } := by
  obtain ⟨hc, hw, _⟩ := (translatorOk_iff _).mp (settleEvery_keeps h)
  exact (translatorOk_iff _).mpr ⟨hc, hw, undoOk_nil⟩

theorem handleGap_translatorOk (n : Nat) {s : State} (h : TranslatorOk s.trans) :
    TranslatorOk (handleGap n s).trans := by
  simpa [handleGap] using boundary_translatorOk h (settleEvery s).trans.base

theorem handleJob_translatorOk (a b : Nat) {s : State} (h : TranslatorOk s.trans) :
    TranslatorOk (handleJob a b s).trans := by
  simpa [handleJob] using boundary_translatorOk h FormatState.lineCap

theorem UndoOk.dropLast {undo : List TextUnit} (h : UndoOk undo) : UndoOk undo.dropLast := by
  refine ⟨by simpa using h.1.trans' (Nat.sub_le _ _), fun x hx => h.2 x ?_⟩
  rw [List.map_dropLast] at hx
  exact List.mem_of_mem_dropLast hx

theorem UndoOk.newest {undo : List TextUnit} (h : UndoOk undo) {u : TextUnit} (hu : undo.getLast? = some u) :
    1 ≤ u.strokes.length ∧ u.strokes.length ≤ Config.windowCapacity :=
  h.2 _ (List.mem_map.mpr ⟨u, List.mem_of_getLast? hu, rfl⟩)

theorem reopenUnit_trans (u : TextUnit) (s : State) :
    (reopenUnit u s).trans = { s.trans with undo := s.trans.undo.dropLast, base := u.before } := by
  simp [reopenUnit]

/-- A unit reopened into an empty window (R109). -/
theorem undoUnit_translatorOk {u : TextUnit} {s : State} (h : TranslatorOk s.trans)
    (hu : s.trans.undo.getLast? = some u) : TranslatorOk (undoUnit u s).trans := by
  obtain ⟨hc, hw, hundo⟩ := (translatorOk_iff _).mp h
  have hlen := (hundo.newest hu).2
  unfold undoUnit
  dsimp only
  split
  · rw [reopenUnit_trans]
    exact (translatorOk_iff _).mpr ⟨hc, hw, hundo.dropLast⟩
  · refine restartSettle_translatorOk (recompute_translatorOk ?_ ?_)
    · simp only [List.length_dropLast]
      omega
    · simp only [reopenUnit_trans]
      exact hundo.dropLast

theorem handleDelete_translatorOk {s : State} (h : TranslatorOk s.trans) : TranslatorOk (handleDelete s).trans := by
  have hcount : (countOne .deletes s).trans = s.trans := by simp
  obtain ⟨_, hw, hundo⟩ := (translatorOk_iff _).mp h
  unfold handleDelete
  dsimp only
  rw [hcount]
  split
  · refine restartSettle_translatorOk (recompute_translatorOk ?_ ?_)
    · simp only [hcount, List.length_dropLast]
      omega
    · simpa only [hcount] using hundo
  · rename_i hempty
    split
    · rename_i u hu
      exact undoUnit_translatorOk (hcount ▸ h) (by rw [hcount]; exact hu)
    · simpa using h

theorem addStroke_translatorOk (w : WindowStroke) {s : State} (h : TranslatorOk s.trans) :
    TranslatorOk (addStroke w s).trans := by
  obtain ⟨_, hw, hundo⟩ := (translatorOk_iff _).mp h
  refine restartSettle_translatorOk (recompute_translatorOk ?_ hundo)
  simpa using hw

theorem handleRecord_translatorOk (r : LogRecord) {s : State} (h : TranslatorOk s.trans) :
    TranslatorOk (handleRecord r s).trans := by
  unfold handleRecord
  split
  · split
    · exact handleDelete_translatorOk h
    · exact addStroke_translatorOk _ h
  · simpa using h
  · exact handleJob_translatorOk _ _ h
  all_goals exact h

theorem takeEvent_translatorOk {s : State} (h : TranslatorOk s.trans) : TranslatorOk (takeEvent s).trans := by
  have h' := (translatorOk_iff _).mp h
  unfold takeEvent
  split
  · unfold takeRecord
    dsimp only
    apply handleRecord_translatorOk
    split <;> split
    · exact handleGap_translatorOk _ (recompute_translatorOk h'.2.1.le h'.2.2)
    · exact handleGap_translatorOk _ h
    · exact recompute_translatorOk h'.2.1.le h'.2.2
    · exact h
  · exact h

/-- Reopening stays within a window of 8 strokes (R112). -/
theorem reopenUnits_ok (r : Nat) {s : State} (hw : s.trans.window.length ≤ Config.windowCapacity)
    (hu : UndoOk s.trans.undo) :
    (reopenUnits r s).2.trans.window.length ≤ Config.windowCapacity ∧ UndoOk (reopenUnits r s).2.trans.undo := by
  induction r generalizing s with
  | zero => exact ⟨hw, hu⟩
  | succ r ih =>
    unfold reopenUnits
    split
    · exact ⟨hw, hu⟩
    · split
      · exact ⟨hw, hu⟩
      · rename_i u _ hfits
        apply ih
        · simpa [reopenUnit_trans] using hfits
        · simp only [reopenUnit_trans]
          exact hu.dropLast

theorem askRetranslate_translatorOk (r : Nat) {s : State} (h : TranslatorOk s.trans) :
    TranslatorOk (askRetranslate r s).2.trans := by
  obtain ⟨_, hw, hundo⟩ := (translatorOk_iff _).mp h
  unfold askRetranslate
  split
  · obtain ⟨hw', hundo'⟩ := reopenUnits_ok r (s := { appendTake (textTotal s.trans.provisional) s with
        trans := { (appendTake (textTotal s.trans.provisional) s).trans with provisional := [] } })
      (by simpa using hw.le) (by simpa using hundo)
    exact restartSettle_translatorOk (recompute_translatorOk hw' hundo')
  · exact askRecompute_translatorOk h

theorem enterSettling_translatorOk (r : DozeReason) {s : State} (h : TranslatorOk s.trans) :
    TranslatorOk (enterSettling r s).trans := by
  have hset : TranslatorOk { s.trans with settleAll := true } := h.congr rfl rfl rfl
  unfold enterSettling
  dsimp only
  split
  · simpa using hset
  · exact settleEvery_keeps (by simpa using hset)

theorem dozeIfReady_translatorOk {s : State} (h : TranslatorOk s.trans) : TranslatorOk (dozeIfReady s).trans := by
  unfold dozeIfReady
  split
  · exact TranslatorOk.congr h (by simp [enterDoze]) (by simp [enterDoze]) (by simp [enterDoze])
  · exact h

theorem reportOpening_translatorOk {s : State} (h : TranslatorOk s.trans) :
    TranslatorOk (reportOpening s).trans := by
  unfold reportOpening
  split
  · exact h
  · exact h.congr (by simp [returnToReady]) (by simp [returnToReady]) (by simp [returnToReady])
  · exact h

/-- Of all a scan does only the return to READY touches the Translator (R150). -/
theorem scanEvent_translatorOk (depths : List Byte) {s : State} (h : TranslatorOk s.trans) :
    TranslatorOk (scanEvent depths s).trans := by
  unfold scanEvent
  dsimp only
  generalize hu : holdGroup _ _ _ = u
  have hok : TranslatorOk u.trans := by
    rw [← hu]
    simpa using h
  unfold assemble
  dsimp only
  split
  · split
    · exact hok
    · unfold openStroke
      exact ite_kept (P := fun v => TranslatorOk v.trans) hok (reportOpening_translatorOk hok)
  · split
    · simpa using hok
    · exact hok
  · split
    · exact hok
    · exact hok

theorem idleEvent_translatorOk {s : State} (h : TranslatorOk s.trans) : TranslatorOk (idleEvent s).trans := by
  unfold idleEvent
  split
  · exact enterSettling_translatorOk _ h
  · exact h

theorem endLoad_translatorOk (layer : LayerState) (result : CheckResult) (header : Option ImageHeader) {s : State}
    (h : TranslatorOk s.trans) : TranslatorOk (endLoad layer result header s).trans :=
  resumeTranslator_translatorOk (by simpa [changeLayer] using h)

end Sys2Proof.Machine
end

section
/-! PROOFS. Every step keeps the Translator (O58). -/

namespace Sys2Proof.Machine

theorem translatorOk_atReset : TranslatorOk State.reset.trans :=
  ⟨rfl, by decide, by decide, by simp [State.reset, Translator.atReset], by simp [State.reset, Translator.atReset]⟩

theorem keeps_translatorOk : Keeps (fun s => TranslatorOk s.trans) := by
  constructor
  case reset => exact fun _ _ => translatorOk_atReset
  case doze => exact fun _ => dozeIfReady_translatorOk
  case scan => exact fun d _ => scanEvent_translatorOk d
  case take => exact fun _ => takeEvent_translatorOk
  case settle =>
    intro s h
    unfold settleEvent
    exact ite_kept (P := fun t => TranslatorOk t.trans) (settleEvery_keeps h) h
  case idle => exact fun _ => idleEvent_translatorOk
  case inactivity =>
    intro s h
    unfold inactivityEvent
    exact ite_kept (P := fun t => TranslatorOk t.trans) (endLoad_translatorOk _ _ _ h) h
  case check =>
    intro s h
    unfold checkEvent completeCheck
    split
    · split <;> exact endLoad_translatorOk _ _ _ h
    · exact h
  case idleSet => exact fun m s h => idleEvent_translatorOk h
  case dozeAsked =>
    intro s h
    unfold dozeOwner askDoze
    split
    · exact dozeIfReady_translatorOk (enterSettling_translatorOk _ h)
    · exact h
    · exact h
  case wake =>
    intro port s h
    unfold wakeOwner
    split
    · simpa using h
    · exact TranslatorOk.congr h (by simp [returnToReady]) (by simp [returnToReady]) (by simp [returnToReady])
    · exact h
  case loadBegin =>
    intro port n s _ h
    unfold loadBeginOwner
    split
    · exact h
    · split
      · exact h
      · split
        · exact h
        · exact h.congr (by simp [pauseTranslator, changeLayer]) (by simp [pauseTranslator, changeLayer])
            (by simp [pauseTranslator, changeLayer])
  case loadAbort =>
    intro port s h
    unfold loadAbortOwner
    split
    · exact h
    · exact endLoad_translatorOk _ _ _ h
  case define =>
    intro k e r s h
    unfold defineOwner
    split
    · split
      · exact h
      · exact askRetranslate_translatorOk r h
    · exact h
  case undefine =>
    intro k s h
    unfold undefineOwner
    split
    · exact askRecompute_translatorOk h
    · exact h
  case foldSet =>
    intro r u k t s h
    unfold foldSetOwner
    split
    · exact askRecompute_translatorOk h
    · exact h
  case speakerSet =>
    intro n t s h
    unfold speakerSetOwner
    split
    · exact askRecompute_translatorOk h
    · exact h
  case translateSet =>
    intro d c s h
    unfold translateSetOwner
    split
    · exact h.congr rfl rfl rfl
    · exact h
  all_goals
    intros
    simpa

/-- Settles O58: the units of a segmentation cover its window, and units settled leave the front of both. -/
theorem stepKeepsTheTranslator : Obligations.StepKeepsTheTranslator := by
  intro s t h hstep
  exact keeps_translatorOk.step h hstep

end Sys2Proof.Machine
end

section
/-! PROOFS. Power Control and the Wake Detector: every step keeps them in legal states (O59; R147, R150, R151,
R153 to R158). -/

namespace Sys2Proof.Machine

/-- Power Control and the Wake Detector together: each names the part state. -/
def PowerSound (s : State) : Prop := PowerOk s ∧ WakeOk s

/-- The two look at settle-all, Power Control and the Wake Detector alone. -/
theorem PowerSound.congr {s t : State} (h : PowerSound s) (ha : t.trans.settleAll = s.trans.settleAll)
    (hp : t.power = s.power) (hw : t.wake = s.wake) : PowerSound t := by
  unfold PowerSound PowerOk WakeOk at h ⊢
  rwa [ha, hp, hw]

theorem powerSound_atReset : PowerSound State.reset := by
  unfold PowerSound PowerOk WakeOk
  decide

theorem startIdle_isSome (s : State) : (startIdle s).isSome = true ↔ s.power.idleDelay ≠ 0 := by
  unfold startIdle
  split <;> simp_all

theorem raiseNotice_powerSound (n : Notice) {s : State} (h : PowerSound s) : PowerSound (raiseNotice n s) :=
  h.congr (by simp) (by simp) (by simp)

/-! ### Changes of the part state -/

theorem settleEvery_powerSound {s : State} (h : PowerSound s) : PowerSound (settleEvery s) :=
  h.congr (by simp) (by simp) (by simp)

/-- A run lives in DOZE alone, so none is left when SETTLING begins. -/
theorem enterSettling_powerSound {r : DozeReason} {s : State} (hr : r ≠ .none) (hpart : s.power.part = .ready)
    (h : PowerSound s) : PowerSound (enterSettling r s) := by
  obtain ⟨_, hwake⟩ := h
  have hset : PowerSound (setSettleAll true
      { s with power := { s.power with part := .settling, reason := r, idleTimer := none } }) := by
    refine ⟨⟨by simp [setSettleAll], by simp [setSettleAll, hr], by simp [setSettleAll]⟩, ?_⟩
    obtain ⟨hlow, hhigh, hrun, hone, hnot, hno⟩ := hwake
    exact ⟨hlow, hhigh, hrun, hone, hnot, fun _ => hno (by simp [hpart])⟩
  unfold enterSettling
  dsimp only
  exact ite_kept (raiseNotice_powerSound _ hset) (settleEvery_powerSound (raiseNotice_powerSound _ hset))

theorem returnToReady_powerSound {s : State} (hpart : s.power.part = .settling) (h : PowerSound s) :
    PowerSound (returnToReady s) := by
  obtain ⟨_, hlow, hhigh, hrun, hone, hnot, hno⟩ := h
  have hready : PowerSound (setSettleAll false
      { s with power := { s.power with part := .ready, reason := .none, idleTimer := startIdle s } }) :=
    ⟨⟨by simp [setSettleAll], by simp [setSettleAll], by simp [setSettleAll, startIdle_isSome]⟩,
      hlow, hhigh, hrun, hone, hnot, fun _ => hno (by simp [hpart])⟩
  exact hready.congr (by simp [returnToReady]) (by simp [returnToReady]) (by simp [returnToReady])

theorem enterDoze_powerSound {s : State} (hpart : s.power.part = .settling) (h : PowerSound s) :
    PowerSound (enterDoze s) := by
  obtain ⟨⟨_, hreason, hidle⟩, hlow, hhigh, hrun, hone, hnot, hno⟩ := h
  have hcount : s.wake.count = 0 := hno (by simp [hpart])
  have hheld : s.wake.heldOver = false := by
    by_contra hne
    have := hone (.inr (by simpa using hne))
    omega
  have hdoze : PowerSound (setSettleAll false { s with
      power := { s.power with
        part := .doze, causes := if s.power.clearOnDoze then WakeCauses.none else s.power.causes },
      wake := { s.wake with count := 0, gapTimer := false } }) := by
    refine ⟨⟨by simp [setSettleAll], ?_, ?_⟩, hlow, hhigh, by simp [setSettleAll]; omega, ?_, by simp [setSettleAll],
      by simp [setSettleAll]⟩
    · simpa [setSettleAll, hpart] using hreason
    · simpa [setSettleAll, hpart] using hidle
    · simp [setSettleAll, hheld]
  exact hdoze.congr (by simp [enterDoze]) (by simp [enterDoze]) (by simp [enterDoze])

theorem dozeIfReady_powerSound {s : State} (h : PowerSound s) : PowerSound (dozeIfReady s) := by
  unfold dozeIfReady
  split
  · rename_i hdue
    simp only [dozeReady, Bool.and_eq_true, beq_iff_eq] at hdue
    exact enterDoze_powerSound hdue.1.1.1.1 h
  · exact h

/-- A wake needs settle-all clear, as it is in DOZE. -/
theorem wakePart_powerSound (c : WakeCause) {s : State} (hpart : s.power.part = .doze) (h : PowerSound s) :
    PowerSound (wakePart c s) := by
  obtain ⟨⟨hall, _⟩, hlow, hhigh, _⟩ := h
  have hoff : s.trans.settleAll = false := by simpa [hpart] using hall
  have hwoken : PowerSound { s with
      power := { s.power with
        part := .ready, reason := .none, causes := addCause c s.power.causes, idleTimer := startIdle s },
      wake := { s.wake with count := 0, gapTimer := false, heldOver := false } } :=
    ⟨⟨by simp [hoff], by simp, by simp [startIdle_isSome]⟩, hlow, hhigh, by simp; omega, by simp, by simp, by simp⟩
  exact hwoken.congr (by simp [wakePart]) (by simp [wakePart, startIdle]) (by simp [wakePart])

theorem idleEvent_powerSound {s : State} (h : PowerSound s) : PowerSound (idleEvent s) := by
  unfold idleEvent
  split
  · rename_i hdue
    simp only [idleDue, Bool.and_eq_true, beq_iff_eq] at hdue
    exact enterSettling_powerSound (by simp) hdue.1.1 h
  · exact h

theorem reportOpening_powerSound {s : State} (h : PowerSound s) : PowerSound (reportOpening s) := by
  unfold reportOpening
  split
  · rename_i hpart
    obtain ⟨⟨hall, hreason, _⟩, hwake⟩ := h
    exact ⟨⟨hall, hreason, by simp [startIdle_isSome, hpart]⟩, hwake⟩
  · rename_i hpart _
    exact returnToReady_powerSound hpart h
  · exact h

/-! ### The Wake Detector -/

/-- In DOZE the detector may take any count below N, with the gap timer when it is not 0. -/
theorem setRun_powerSound {s : State} {m : Nat} {timer : Bool} (last : Tick) (hpart : s.power.part = .doze)
    (hm : m < s.wake.needed) (ht : timer = true → 1 ≤ m) (h : PowerSound s) :
    PowerSound { s with wake := { s.wake with
      count := m, lastMatch := last, gapTimer := timer, heldOver := false } } := by
  obtain ⟨hpower, hlow, hhigh, _⟩ := h
  exact ⟨hpower, hlow, hhigh, hm, by simpa using ht, by simp, fun hno => absurd hpart hno⟩

theorem matchStroke_powerSound {s : State} {m : Nat} (t : Tick) (hpart : s.power.part = .doze) (hm : 1 ≤ m)
    (h : PowerSound s) : PowerSound (matchStroke m t s) := by
  have hlow := h.2.1
  unfold matchStroke
  split
  · exact wakePart_powerSound _ hpart h
  · split
    · refine (setRun_powerSound (m := 0) (timer := false) t hpart (by omega) (by simp) h).congr ?_ ?_ ?_ <;> simp
    · exact setRun_powerSound t hpart (by omega) (fun _ => hm) h

theorem judgeWake_powerSound (c : Chord) (t : Tick) {s : State} (hpart : s.power.part = .doze)
    (h : PowerSound s) : PowerSound (judgeWake c t s) := by
  have hlow := h.2.1
  unfold judgeWake
  dsimp only
  split
  · split
    · exact matchStroke_powerSound t hpart (Nat.le_refl 1) h
    · split
      · exact matchStroke_powerSound t hpart (by omega) h
      · exact matchStroke_powerSound t (by simpa using hpart) (Nat.le_refl 1)
          (h.congr (by simp) (by simp) (by simp))
  · refine (setRun_powerSound (m := 0) (timer := false) s.wake.lastMatch hpart (by omega) (by simp) h).congr
      ?_ ?_ ?_ <;> simp

theorem gapEvent_powerSound {s : State} (h : PowerSound s) : PowerSound (gapEvent s) := by
  unfold gapEvent
  split
  · rename_i hdue
    simp only [gapDue, Bool.and_eq_true] at hdue
    obtain ⟨hpower, hlow, hhigh, hrun, hone, hnot, hno⟩ := h
    have hcount := hone (.inl hdue.1)
    unfold gapExpires
    dsimp only
    split
    · exact ⟨hpower, hlow, hhigh, hrun, fun _ => hcount, by simp, hno⟩
    · have hdropped : PowerSound { s with wake := { s.wake with count := 0, gapTimer := false } } :=
        ⟨hpower, hlow, hhigh, by simp; omega, by simp [hnot hdue.1], by simp, by simp⟩
      exact hdropped.congr (by simp) (by simp) (by simp)
  · exact h

theorem handStroke_powerSound (a : Assembler) (n : Nat) (held : Bool) {s : State} (h : PowerSound s) :
    PowerSound (handStroke a n held s) := by
  unfold handStroke
  split
  · exact h.congr (by simp) (by simp) (by simp)
  · split
    · rename_i hpart
      exact judgeWake_powerSound _ _ hpart h
    · exact h

theorem closeStroke_powerSound {s : State} (h : PowerSound s) : PowerSound (closeStroke s) :=
  handStroke_powerSound _ _ _ (h.congr (by simp) (by simp) (by simp))

/-! ### Scans and changes of the lines -/

theorem scanEvent_powerSound (depths : List Byte) {s : State} (h : PowerSound s) :
    PowerSound (scanEvent depths s) := by
  unfold scanEvent
  dsimp only
  generalize hu : holdGroup _ _ _ = u
  have hok : PowerSound u := by
    rw [← hu]
    exact h.congr (by simp) (by simp) (by simp)
  unfold assemble
  dsimp only
  split
  · refine ite_kept hok ?_
    unfold openStroke
    exact ite_kept (hok.congr rfl rfl rfl) (reportOpening_powerSound (hok.congr rfl rfl rfl))
  · exact ite_kept (closeStroke_powerSound hok) (hok.congr rfl rfl rfl)
  · exact ite_kept (hok.congr rfl rfl rfl) hok

theorem replaceLines_powerSound (after : List Line) {s : State} (h : PowerSound s) :
    PowerSound (replaceLines after s) := by
  unfold replaceLines reportReleases
  dsimp only
  generalize hu : holdGroup _ _ _ = u
  have hok : PowerSound u := by
    rw [← hu]
    exact h.congr (by simp) (by simp) (by simp)
  refine ite_kept ?_ hok
  unfold lastKeyReleased
  split
  · exact hok
  · exact closeStroke_powerSound hok
  · exact hok.congr rfl rfl rfl

/-! ### Requests -/

/-- A new idle delay starts and stops the timer as the part state says (R152). -/
theorem idleSet_powerSound (d : Nat) {s : State} (h : PowerSound s) :
    PowerSound (setPower { s.power with idleDelay := d, idleTimer := timerAfterIdle s d } s) := by
  obtain ⟨⟨hall, hreason, hidle⟩, hwake⟩ := h
  refine ⟨⟨hall, hreason, ?_⟩, hwake⟩
  simp only [setPower, timerAfterIdle]
  split
  · simp_all
  · split
    · simp_all
    · simp_all
      tauto

theorem askDoze_powerSound {s : State} (h : PowerSound s) : PowerSound (askDoze s) := by
  unfold askDoze
  split
  · rename_i hpart
    exact dozeIfReady_powerSound (enterSettling_powerSound (by simp) hpart h)
  · rename_i hpart _
    obtain ⟨⟨hall, _, hidle⟩, hwake⟩ := h
    exact ⟨⟨hall, by simp [setPower, hpart], hidle⟩, hwake⟩
  · exact h

theorem wakeOwner_powerSound (port : Port) {s : State} (h : PowerSound s) : PowerSound (wakeOwner port s).1 := by
  unfold wakeOwner
  split
  · rename_i hpart _
    exact wakePart_powerSound _ hpart h
  · rename_i hpart _
    exact returnToReady_powerSound hpart h
  · exact h

theorem clampTo_range {low high v : Nat} (h : low ≤ high) : low ≤ clampTo low high v ∧ clampTo low high v ≤ high := by
  unfold clampTo
  omega

/-- A field given in DOZE drops the run, and outside DOZE there is none, so N may take any value (R158). -/
theorem wakeSet_powerSound (c n g : Option Nat) {s : State} (h : PowerSound s) :
    PowerSound (wakeSetOwner c n g s).1 := by
  unfold wakeSetOwner
  split
  · obtain ⟨hpower, hlow, hhigh, hrun, hone, hnot, hno⟩ := h
    refine ⟨hpower, ?_⟩
    unfold WakeOk wakeSettings
    dsimp only
    have hneeded : 2 ≤ clampField 2 8 s.wake.needed n ∧ clampField 2 8 s.wake.needed n ≤ 8 := by
      cases n with
      | none => exact ⟨hlow, hhigh⟩
      | some v => exact clampTo_range (by omega)
    refine ⟨hneeded.1, hneeded.2, ?_⟩
    generalize hdrop : (s.power.part == .doze && (c.isSome || n.isSome || g.isSome)) = drop
    cases drop with
    | true => simp; omega
    | false =>
      refine ⟨?_, by simpa using hone, by simpa using hnot, by simpa using hno⟩
      by_cases hpart : s.power.part = .doze
      · have hnone : n = none := by
          cases n with
          | none => rfl
          | some v => simp [hpart] at hdrop
        simpa [hnone, clampField] using hrun
      · have := hno hpart
        simp only [Bool.false_eq_true, if_false]
        omega
  · exact h

/-! ### Only Power Control changes settle-all -/

@[simp] theorem endLoad_settleAll (l : LayerState) (r : CheckResult) (h : Option ImageHeader) (s : State) :
    (endLoad l r h s).trans.settleAll = s.trans.settleAll := by
  simp [endLoad, changeLayer]

@[simp] theorem inactivityEvent_settleAll (s : State) :
    (inactivityEvent s).trans.settleAll = s.trans.settleAll := by
  unfold inactivityEvent
  split <;> simp

@[simp] theorem checkEvent_settleAll (s : State) : (checkEvent s).trans.settleAll = s.trans.settleAll := by
  unfold checkEvent completeCheck
  split
  · split <;> simp
  · rfl

@[simp] theorem settleEvent_settleAll (s : State) : (settleEvent s).trans.settleAll = s.trans.settleAll := by
  unfold settleEvent
  split <;> simp

@[simp] theorem loadBeginOwner_settleAll (port : Port) (n : Nat) (s : State) :
    (loadBeginOwner port n s).1.trans.settleAll = s.trans.settleAll := by
  unfold loadBeginOwner
  split
  · rfl
  · split
    · rfl
    · split <;> simp [pauseTranslator, changeLayer]

@[simp] theorem loadAbortOwner_settleAll (port : Port) (s : State) :
    (loadAbortOwner port s).1.trans.settleAll = s.trans.settleAll := by
  unfold loadAbortOwner
  split <;> simp

@[simp] theorem defineOwner_settleAll (k : List Nat) (e : Entry) (r : Nat) (s : State) :
    (defineOwner k e r s).1.trans.settleAll = s.trans.settleAll := by
  unfold defineOwner
  split
  · split <;> simp
  · rfl

@[simp] theorem undefineOwner_settleAll (k : List Nat) (s : State) :
    (undefineOwner k s).1.trans.settleAll = s.trans.settleAll := by
  unfold undefineOwner
  split <;> simp

@[simp] theorem foldSetOwner_settleAll (r : Nat) (u : Bool) (k : Option Nat) (t : Option Text) (s : State) :
    (foldSetOwner r u k t s).1.trans.settleAll = s.trans.settleAll := by
  unfold foldSetOwner
  split <;> simp

@[simp] theorem speakerSetOwner_settleAll (n : Nat) (t : Text) (s : State) :
    (speakerSetOwner n t s).1.trans.settleAll = s.trans.settleAll := by
  unfold speakerSetOwner
  split <;> simp

@[simp] theorem translateSetOwner_settleAll (d c : Option Nat) (s : State) :
    (translateSetOwner d c s).1.trans.settleAll = s.trans.settleAll := by
  unfold translateSetOwner
  split <;> rfl

/-! ### Every step -/

theorem keeps_powerSound : Keeps PowerSound := by
  constructor
  case reset => exact fun _ _ => powerSound_atReset.congr rfl rfl rfl
  case tick => exact fun _ h => h
  case doze => exact fun _ => dozeIfReady_powerSound
  case scan => exact fun d _ => scanEvent_powerSound d
  case strokeLimit =>
    intro s h
    unfold strokeLimitEvent
    split
    · exact handStroke_powerSound _ _ _ (h.congr (by simp) (by simp) (by simp))
    · exact h
  case idle => exact fun _ => idleEvent_powerSound
  case gap => exact fun _ => gapEvent_powerSound
  case lineSet =>
    intro n f k a b s h
    unfold lineSetOwner
    split
    · exact replaceLines_powerSound _ h
    · exact h
  case lineToggle => exact fun l s h => replaceLines_powerSound _ h
  case idleSet => exact fun m s h => idleEvent_powerSound (idleSet_powerSound _ h)
  case dozeAsked => exact fun _ => askDoze_powerSound
  case wake => exact fun port _ => wakeOwner_powerSound port
  case wakeSet => exact fun c n g _ => wakeSet_powerSound c n g
  case causesClear => exact fun _ _ h => h
  all_goals
    intros
    refine PowerSound.congr ‹_› ?_ ?_ ?_
  all_goals simp

/-- Settles O59: settle-all, the reason and the idle timer follow the part state at each change of it, and a run of
the Wake Detector lives in DOZE alone. -/
theorem stepKeepsThePowerState : Obligations.StepKeepsThePowerState := by
  intro s t h hstep
  exact keeps_powerSound.step h hstep

end Sys2Proof.Machine
end

section
/-! PROOFS. The queue, the tick, reset, and what all requests share (R38, R54, R133, R163, R171, R172, R175). -/

namespace Sys2Proof.Machine

/-! ### The queue and reset -/

/-- Settles O1: `step` looks at the queue alone before it hands the command on. -/
theorem stepRunsTheFrontCommand : Obligations.StepRunsTheFrontCommand := by
  intro c rest s h
  rw [step, h]

theorem resetLines_getElem (n : Nat) (h : n < 32) :
    Capture.atReset.lines[n]? = some
      { role := if n ≤ 22 then .steno n else if n = 24 then .mark else if n = 25 then .hold else .unused,
        press := 128, release := 96, enabled := true, pressed := false, count := 0 } := by
  revert n
  decide

theorem resetLines_steno (n : Nat) (h : n ≤ 22) : Capture.atReset.lines[n]? = some
    { role := .steno n, press := 128, release := 96, enabled := true, pressed := false, count := 0 } := by
  rw [resetLines_getElem n (by omega), if_pos h]

theorem resetLines_mark : Capture.atReset.lines[24]? = some
    { role := .mark, press := 128, release := 96, enabled := true, pressed := false, count := 0 } :=
  resetLines_getElem 24 (by decide)

theorem resetLines_hold : Capture.atReset.lines[25]? = some
    { role := .hold, press := 128, release := 96, enabled := true, pressed := false, count := 0 } :=
  resetLines_getElem 25 (by decide)

theorem resetLines_unused (n : Nat) (h : n = 23 ∨ (26 ≤ n ∧ n ≤ 31)) : Capture.atReset.lines[n]? = some
    { role := .unused, press := 128, release := 96, enabled := true, pressed := false, count := 0 } := by
  rw [resetLines_getElem n (by omega), if_neg (by omega), if_neg (by omega), if_neg (by omega)]

theorem resetReaders (name : ReaderName) :
    let r := StrokeLog.atReset.reader name
    r.cursor = 0 ∧ r.lost = 0 ∧ r.sinceTaken = 0 ∧ r.inRun = false := by
  cases name <;> exact ⟨rfl, rfl, rfl, rfl⟩

theorem resetFolds : ∀ r ∈ Dictionary.atReset.folds, r.inUse = false ∧ r.key = 0 ∧ r.suffix = [] := by decide

theorem resetSpeakers : ∀ l ∈ Dictionary.atReset.speakers, l = [] := by decide

theorem resetListeners (port : Port) :
    let l := Journal.atReset.listener port
    l.cursor = 0 ∧ l.paused = none ∧ l.repaintPending = false ∧ l.notes = [] ∧ l.run = none := by
  cases port <;> exact ⟨rfl, rfl, rfl, rfl, rfl⟩

theorem resetTallies : ∀ c ∈ Counters.atReset.running ++ Counters.atReset.snapshot,
    c = { value := 0, mark := false } := by
  decide

theorem resetPorts (port : Port) : State.reset.port port =
    { receive := .hunt, answers := [], notices := [], enables := 0, noticesMissed := false,
      requestsDropped := false, turn := .stroke, sending := none } := by
  cases port <;> rfl

/-- Settles O3: each chapter's list, read off the blocks `RESET` puts in place. -/
theorem resetGivesTheResetValues : Obligations.ResetGivesTheResetValues := by
  intro s
  exact ⟨{ State.reset with pending := s.pending }, rfl, rfl, resetLines_steno, resetLines_mark,
    resetLines_hold, resetLines_unused, rfl, rfl, rfl, rfl, rfl, rfl, rfl, rfl, rfl, rfl, rfl, rfl, rfl, rfl,
    rfl, rfl, rfl, rfl, resetReaders, rfl, rfl, rfl, rfl, rfl, rfl, rfl, rfl, rfl, rfl, rfl, rfl, rfl, rfl, rfl,
    rfl, rfl, rfl, rfl, rfl, rfl, rfl, rfl, rfl, rfl, rfl, rfl, rfl, rfl, rfl, rfl, rfl, rfl, rfl, rfl,
    resetFolds, rfl, resetSpeakers, rfl, rfl, rfl, rfl, rfl, rfl, rfl, rfl, rfl, rfl, rfl, rfl, rfl, rfl, rfl,
    rfl, rfl, rfl, rfl, rfl, rfl, rfl, rfl, rfl, resetListeners, rfl, rfl, rfl, resetTallies, rfl, rfl, rfl,
    rfl, rfl, rfl, rfl, rfl, resetPorts, rfl, rfl, rfl⟩

/-- Settles O4: one block after another. -/
theorem resetMeetsTheInvariants : Obligations.ResetMeetsTheInvariants := by
  obtain ⟨hcounters, hports⟩ := boundsOk_atReset []
  obtain ⟨hmemory, hload, hjob⟩ := dictionaryOk_atReset
  exact ⟨rested_atReset [], logOk_atReset, journalOk_atReset, holdsOk_atReset, ⟨Nat.zero_le _, .inl rfl⟩, hcounters,
    hports, translatorOk_atReset, hjob, hload, hmemory, powerSound_atReset.1, powerSound_atReset.2, assemblerOk_atReset⟩

/-! ### One tick -/

theorem mem_whenDue (due : Bool) (i j : Instr) : j ∈ whenDue due i ↔ due = true ∧ j = i := by
  unfold whenDue
  split <;> simp_all

theorem intervalExpiry_mem_dueEvents (s : State) : Instr.intervalExpiry ∈ dueEvents s ↔ intervalDue s = true := by
  simp [dueEvents, mem_whenDue]

theorem settleTimerExpiry_mem_dueEvents (s : State) :
    Instr.settleTimerExpiry ∈ dueEvents s ↔ timerDue s.trans.settleTimer s.time.tick s.trans.settleDelay = true := by
  simp [dueEvents, mem_whenDue]

theorem translatorTake_mem_dueEvents (s : State) :
    Instr.translatorTake ∈ dueEvents s ↔ (recordToTake s).isSome = true := by
  simp [dueEvents, mem_whenDue]

/-- A running timer has reached a number of milliseconds, counted in ticks. -/
theorem timerDue_iff (timer : Option Tick) (now : Tick) (ms : Nat) :
    timerDue timer now ms = true ↔ ∃ start, timer = some start ∧ ms * 4096 ≤ (now - start).toNat * 1000 := by
  cases timer with
  | none => simp [timerDue]
  | some start => exact decide_eq_true_iff.trans (by simp [ticksSince])

theorem recordAt_isSome_iff (g : StrokeLog) (w : Word) :
    (recordAt g w).isSome = true ↔ ∃ r ∈ g.records, r.seq = w := by
  simp [recordAt, List.find?_isSome]

theorem loadPaused_eq_false_iff (d : Dictionary) :
    loadPaused d = false ↔ d.layer ≠ .loading ∧ d.layer ≠ .checking := by
  unfold loadPaused
  cases d.layer <;> simp

theorem intervalDue_iff (s : State) :
    intervalDue s = true ↔ s.counters.auto = true ∧ 4096 ≤ s.counters.intervalAge := by
  rw [intervalDue, Bool.and_eq_true]
  exact and_congr_right fun _ => decide_eq_true_iff

/-- Settles O2: `dueEvents` queues each command exactly when its condition holds of the part one tick later. -/
theorem emptyQueuePassesOneTick : Obligations.EmptyQueuePassesOneTick := by
  intro s h
  refine ⟨dueEvents (passTick s), ?_, ?_, ?_, ?_⟩
  · rw [step, h]
    rfl
  · rw [intervalExpiry_mem_dueEvents, intervalDue_iff]
    change s.counters.auto = true ∧ 4096 ≤ min 2147483648 (s.counters.intervalAge + 1) ↔ _
    rw [le_min_iff]
    exact and_congr_right fun _ => by omega
  · rw [settleTimerExpiry_mem_dueEvents, timerDue_iff]
    rfl
  · rw [translatorTake_mem_dueEvents, ← recordAt_isSome_iff, ← and_assoc, ← loadPaused_eq_false_iff]
    change (recordToTake s).isSome = true ↔ _
    unfold recordToTake
    by_cases hp : loadPaused s.dict = false <;> by_cases hd : s.power.part = .doze <;>
      by_cases hc : s.log.translator.cursor = s.log.head <;> simp [hp, hd, hc]

/-! ### What all requests share -/

/-- What the checks all requests share make of one: `u` is the state its owner leaves (R171). -/
def requestJudged (port : Port) (k : RequestKind) (u s : State) : State :=
  eventEnd
    (if answersFull s port then dropRequest port s
     else if permitted k port then u
     else pushReply port (.answer (kindCode k) .notFromPort []) s)

theorem takeRequest_judged (port : Port) (k : RequestKind) (owner : State → State × Verdict) (s : State) :
    ∃ u, Host.Outcome.next (takeRequest port k owner s) = (.next (requestJudged port k u s) :
      Host.Outcome State Fault Refusal) :=
  ⟨answerWith port (kindCode k) owner s, rfl⟩

/-- Every request is judged alike before its owner sees it. -/
theorem exec_request {i : Instr} {port : Port} {k : RequestKind} (s : State) (h : requestKind i = some (port, k)) :
    ∃ u, exec i s = .next (requestJudged port k u s) := by
  cases i
  case feedQuery port fields =>
    cases h
    exact ⟨answerQuery fields s, rfl⟩
  all_goals cases h
  all_goals exact takeRequest_judged _ _ _ _

/-- The end of an event that drops a request on a part at rest: the two flags of a port drive nothing. -/
theorem eventEnd_dropRequest {s : State} (hr : Rested s) (port : Port) :
    eventEnd (dropRequest port s) = dropped port s := by
  have hlevel : attentionLevel (dropRequest port s) = attentionLevel s := by
    cases port <;> rfl
  rw [eventEnd_rested (t := dropRequest port s) hr rfl rfl hr.1, driveAttention, hlevel, ← hr.2.2]
  cases port <;> rfl

theorem eventEnd_pushReply {s : State} (hr : Rested s) (port : Port) (r : Reply) :
    eventEnd (pushReply port r s) = replied port r s := by
  rw [eventEnd_rested (t := pushReply port r s) hr rfl rfl hr.1]
  exact driveAttention_pushReply hr.2.2 rfl rfl rfl

/-- Settles O5: the judgement all requests share comes before any owner's. -/
theorem requestsTurnedAwayHaveNoEffect : Obligations.RequestsTurnedAwayHaveNoEffect := by
  refine ⟨fun i port k s hkind hr => ?_, fun port kind s hr => ?_⟩
  · obtain ⟨u, hu⟩ := exec_request s hkind
    rw [hu, requestJudged]
    refine ⟨fun hfull => ?_, fun hroom hno => ?_⟩
    · rw [if_pos ((answersFull_iff s port).mpr hfull), eventEnd_dropRequest hr]
    · rw [if_neg (by rw [answersFull_iff]; omega), if_neg (by simp [hno]), eventEnd_pushReply hr]
      rfl
  · have hexec : exec (.unknownKind port kind) s = .next (eventEnd (if answersFull s port then dropRequest port s
        else pushReply port (.answer kind .unknownKind []) s)) := rfl
    rw [hexec]
    refine ⟨fun hfull => ?_, fun hroom => ?_⟩
    · rw [if_pos ((answersFull_iff s port).mpr hfull), eventEnd_dropRequest hr]
    · rw [if_neg (by rw [answersFull_iff]; omega), eventEnd_pushReply hr]

/-! ### The attention output (R175) -/

theorem keeps_true : Keeps (fun _ => True) := by
  constructor
  all_goals intros
  all_goals trivial

/-- What the listener offers: an owed note, a part of a run, or the entry it has reached. -/
theorem listenerOffer_isSome (j : Journal) (l : Listener) :
    (listenerOffer j l).isSome = true ↔ l.notes ≠ [] ∨ l.run ≠ none ∨ (reachedEntry j l).isSome = true := by
  unfold listenerOffer
  split <;> simp_all

theorem readerOffer_isSome (g : StrokeLog) (name : ReaderName) :
    (readerOffer g name).isSome = true ↔
      (g.reader name).on = true ∧ (g.reader name).cursor ≠ g.head ∧ ∃ r ∈ g.records, r.seq = (g.reader name).cursor := by
  rw [← recordAt_isSome_iff, ← and_assoc]
  unfold readerOffer
  dsimp only
  split <;> simp_all

theorem attentionLevel_iff (s : State) :
    attentionLevel s = true ↔
      s.ports.machine.answers ≠ [] ∨ s.ports.machine.notices ≠ [] ∨ s.ports.machine.sending ≠ none ∨
      (s.log.machine.on = true ∧ s.log.machine.cursor ≠ s.log.head ∧
        ∃ r ∈ s.log.records, r.seq = s.log.machine.cursor) ∨
      s.journal.machine.notes ≠ [] ∨ s.journal.machine.run ≠ none ∨
      (reachedEntry s.journal s.journal.machine).isSome = true := by
  have hlevel : attentionLevel s = true ↔
      s.ports.machine.answers ≠ [] ∨ s.ports.machine.notices ≠ [] ∨
      ((readerOffer s.log .machine).isSome = true ∨ (listenerOffer s.journal s.journal.machine).isSome = true) ∨
      s.ports.machine.sending ≠ none := by
    simp [attentionLevel, streamOffered, ownReader, State.listener, Journal.listener, Option.isSome_iff_ne_none, or_assoc]
  rw [hlevel, readerOffer_isSome, listenerOffer_isSome]
  simp only [StrokeLog.reader]
  generalize (∃ r ∈ s.log.records, _) = held
  tauto

/-- Settles O6: every command ends by driving the output, and `RESET` leaves it clear with nothing waiting. -/
theorem attentionFollowsTheMachinePort : Obligations.AttentionFollowsTheMachinePort := by
  intro i s t he
  rw [← attentionLevel_iff]
  have hlevel : t.ports.attention = attentionLevel t := by
    by_cases hi : i = .reset
    · subst hi
      cases he
      exact (rested_atReset s.pending).2.2
    · obtain ⟨u, _, rfl⟩ := keeps_true.exec_ended hi trivial he
      rfl
  rw [hlevel]

end Sys2Proof.Machine
end

section
/-! PROOFS. CAPTURE SET, the job requests and the stream requests (R9, R27, R28, R30, R31). -/

namespace Sys2Proof.Machine

/-! ### Answers on a part at rest -/

/-- Two answers with the same status and fields, given in the same state. -/
theorem next_answered_congr {port : Port} {k : RequestKind} {a b : Status} {f g : List Byte} {t u : State}
    (hstatus : a = b) (hfields : f = g) (hstate : t = u) :
    (.next (answered port k a f t) : Host.Outcome State Fault Refusal) = .next (answered port k b g u) := by
  rw [hstatus, hfields, hstate]

/-! ### CAPTURE SET (R9) -/

theorem nearestInterval_spec (v : Nat) :
    (nearestInterval v = 250 ∨ nearestInterval v = 500 ∨ nearestInterval v = 1000 ∨ nearestInterval v = 2000) ∧
    ∀ w, w = 250 ∨ w = 500 ∨ w = 1000 ∨ w = 2000 →
      ((v : Int) - nearestInterval v).natAbs < ((v : Int) - w).natAbs ∨
      (((v : Int) - nearestInterval v).natAbs = ((v : Int) - w).natAbs ∧ w ≤ nearestInterval v) := by
  have hcases : (v < 375 ∧ nearestInterval v = 250) ∨ (375 ≤ v ∧ v < 750 ∧ nearestInterval v = 500) ∨
      (750 ≤ v ∧ v < 1500 ∧ nearestInterval v = 1000) ∨ (1500 ≤ v ∧ nearestInterval v = 2000) := by
    unfold nearestInterval
    split
    · omega
    · split
      · omega
      · split <;> omega
  refine ⟨by omega, fun w hw => ?_⟩
  omega

theorem clamped_eq (low high present : Nat) (o : Option Nat) :
    clamped low high o = !decide (o.getD (clampField low high present o) = clampField low high present o) := by
  cases o with
  | none => simp [clamped]
  | some v => simp [clamped, clampField, bne, eq_comm (a := v), beq_eq_decide]

/-- A value is reported as adjusted unless each field given was taken as given. -/
theorem answerAdjusted_status (b : Bool) (f : List Byte) (p : Prop) [Decidable p] (h : b = !decide p) :
    (answerAdjusted b f).status = if p then .ok else .adjusted := by
  unfold answerAdjusted
  by_cases hp : p <;> simp [h, hp]

/-- Settles O13: it changes no line's accepted state, so nothing is due at the end of the event. -/
theorem captureSetTakesTheNearestValues : Obligations.CaptureSetTakesTheNearestValues := by
  intro interval debounce limit s hr ht
  have hrun : exec (.captureSet .machine interval debounce limit) s = .next (answered .machine .captureSet
      (captureSetOwner interval debounce limit s).2.status (captureSetOwner interval debounce limit s).2.fields
      (captureSetOwner interval debounce limit s).1) :=
    congrArg Host.Outcome.next (takeRequest_quiet hr ht rfl rfl rfl rfl rfl hr.1)
  refine ⟨interval.elim s.capture.interval nearestInterval, clampField 1 4 s.capture.debounce debounce,
    clampField 250 5000 s.capture.strokeLimit limit, fun h => by rw [h]; rfl, fun v h => ?_, fun h => by rw [h]; rfl,
    fun v h => by rw [h]; rfl, fun h => by rw [h]; rfl, fun v h => by rw [h]; rfl, hrun.trans ?_⟩
  · rw [h]
    exact nearestInterval_spec v
  · refine next_answered_congr (answerAdjusted_status _ _ _ ?_) ?_ ?_
    · rw [clamped_eq 1 4 s.capture.debounce debounce, clamped_eq 250 5000 s.capture.strokeLimit limit]
      cases interval <;> simp [bne, beq_eq_decide, eq_comm, Bool.or_assoc]
    · cases interval <;> rfl
    · cases interval <;> cases debounce <;> rfl

/-! ### A record appended waits for the Translator (R24, R29) -/

theorem appendRecord_translator_waits (b : RecordBody) {s : State} (h : LogOk s.log) :
    (appendRecord b s).log.translator.cursor ≠ (appendRecord b s).log.head := by
  obtain ⟨hok, hroom, _⟩ := makeRoom_logOk s h
  have hwait : recordsWaiting (makeRoom s).log (makeRoom s).log.translator ≤ _ := (hok.2.2 .translator).1.1
  have happ : (appendRecord b s).log.translator.cursor = (makeRoom s).log.translator.cursor ∧
      (appendRecord b s).log.head = (makeRoom s).log.head + 1 := ⟨rfl, rfl⟩
  rw [happ.1, happ.2]
  unfold recordsWaiting at hwait
  generalize (makeRoom s).log.records.length = n at *
  bv_omega

/-- So the passage to DOZE is not due after an append (R151). -/
theorem dozeReady_of_waiting {s : State} (h : s.log.translator.cursor ≠ s.log.head) : dozeReady s = false := by
  simp [dozeReady, h]

/-! ### JOB OPEN and JOB CLOSE (R27, R28) -/

theorem takeRequest_appendJob {port : Port} {k : RequestKind} {owner : State → State × Verdict} {s t : State}
    {v : Verdict} {opened : Nat} {keep : Bool} (hr : Rested s) (ht : Takes port k s) (hlog : LogOk s.log)
    (ho : owner s = (t, v)) (ht' : t = { appendJob opened keep s with dict := t.dict }) :
    takeRequest port k owner s = driveAttention (pushReply port (.answer (kindCode k) v.status v.fields) t) := by
  refine takeRequest_rested hr ht ho ?_ ?_ (dozeReady_of_waiting ?_)
  · rw [ht']
    simp [appendJob]
  · rw [ht']
    simp [appendJob]
  · rw [ht']
    exact appendRecord_translator_waits (.job opened s.log.job keep (stampNow s)) hlog

/-- Settles O15: the JOB record waits for the Translator, so a part that settles does not pass to DOZE. -/
theorem jobOpenAndCloseAppendAJobRecord : Obligations.JobOpenAndCloseAppendAJobRecord := by
  refine ⟨fun port job keep s hr ht hlog => ⟨fun hdoze => ?_, fun hdoze hjob => ?_, fun hdoze hjob => ?_⟩,
    fun port s hr ht hlog => ⟨fun hno => ?_, fun hdoze hjob => ?_⟩⟩
  · refine congrArg Host.Outcome.next (takeRequest_refused (v := refuse .wrongState) hr ht ?_)
    rw [jobOpenOwner, if_pos hdoze]
  · refine congrArg Host.Outcome.next (takeRequest_refused (v := refuse .outOfRange) hr ht ?_)
    rw [jobOpenOwner, if_neg hdoze, if_pos hjob]
  · have howner : jobOpenOwner job keep s
        = ({ appendJob job keep s with dict := { s.dict with job := if keep = true then s.dict.job else [] } },
           answerOk (jobFields s)) := by
      rw [jobOpenOwner, if_neg hdoze, if_neg (by omega)]
      refine congrArg (fun t => (t, answerOk (jobFields s))) (State.eq_of_blocks ?_)
      cases keep <;> simp [appendJob, emptyJobTable]
    exact congrArg Host.Outcome.next (takeRequest_appendJob hr ht hlog howner rfl)
  · refine congrArg Host.Outcome.next (takeRequest_refused (v := refuse .wrongState) hr ht ?_)
    rw [jobCloseOwner, if_pos (by simpa using hno)]
  · refine congrArg Host.Outcome.next (takeRequest_appendJob (v := answerOk (jobFields s)) hr ht hlog ?_ rfl)
    rw [jobCloseOwner, if_neg (by simp [hdoze, hjob])]
    rfl

/-! ### STROKES ON and STROKES OFF (R30, R31) -/

theorem judgeSequence_held {g : StrokeLog} {a : Word} (h : (g.head - a).toNat ≤ g.records.length) :
    judgeSequence g a = some { start := a, lost := 0, asked := a } := by
  unfold judgeSequence
  dsimp only
  split
  · rename_i hzero
    have hhead : g.head = a := by bv_omega
    rw [hhead]
  · rfl

theorem judgeSequence_lost {g : StrokeLog} {a : Word} (hgone : g.records.length < (g.head - a).toNat)
    (hspan : (g.head - a).toNat ≤ writtenSpan g) :
    judgeSequence g a
      = some { start := oldestSeq g, lost := (g.head - a).toNat - g.records.length, asked := a } := by
  unfold judgeSequence
  dsimp only
  rw [if_neg (by omega), if_neg (by omega), if_pos hspan]

theorem judgeSequence_unwritten {g : StrokeLog} {a : Word} (hgone : g.records.length < (g.head - a).toNat)
    (hspan : writtenSpan g < (g.head - a).toNat) : judgeSequence g a = none := by
  unfold judgeSequence
  dsimp only
  rw [if_neg (by omega), if_neg (by omega), if_neg (by omega)]

/-- A port's own reader is never the Translator's, so the passage to DOZE does not see it move. -/
theorem dozeReady_setReader {port : Port} {name : ReaderName} (h : ownReader port = some name) (s : State)
    (r : Reader) : dozeReady (s.setReader name r) = dozeReady s := by
  cases port <;> cases h <;> rfl

theorem ownReader_port {port : Port} {name : ReaderName} (h : ownReader port = some name) :
    readerPort name = some port := by
  cases port <;> cases h <;> rfl

/-- A start that loses nothing. -/
theorem exec_strokesOn_kept {port : Port} {name : ReaderName} {s : State} {start : StartPoint} {q : Option Nat}
    {w : Word} (hr : Rested s) (ht : Takes port .strokesOn s) (ho : ownReader port = some name)
    (hj : judgeStart s.log start q = some { start := w, lost := 0, asked := w }) :
    exec (.strokesOn port start q) s
      = .next (driveAttention (pushReply port
          (.answer 9 .ok (num 4 w.toNat ++ num 4 (s.log.reader name).lost.toNat))
          (s.setReader name { s.log.reader name with
            on := true, cursor := w, inRun := false,
            passed := (s.log.reader name).passed + (w - (s.log.reader name).cursor) }))) := by
  have howner : strokesOnOwner port start q s
      = (s.setReader name { s.log.reader name with
          on := true, cursor := w, inRun := false,
          passed := (s.log.reader name).passed + (w - (s.log.reader name).cursor) },
         answerOk (streamFields w (s.log.reader name).lost)) := by
    rw [strokesOnOwner, ho, hj]
    cases name <;> simp [startReader, State.setReader, StrokeLog.setReader, StrokeLog.reader]
  exact congrArg Host.Outcome.next (takeRequest_rested hr ht howner rfl rfl
    ((dozeReady_setReader ho s _).trans hr.1))

/-- A start at the oldest record, with the records missing lost. -/
theorem exec_strokesOn_lost {port : Port} {name : ReaderName} {s : State} {q : Option Nat} {x : StreamStart}
    (hr : Rested s) (ht : Takes port .strokesOn s) (ho : ownReader port = some name)
    (hj : judgeStart s.log .sequence q = some x) (hlost : x.lost ≠ 0) :
    let lost := (s.log.reader name).lost + BitVec.ofNat 32 x.lost
    exec (.strokesOn port .sequence q) s
      = .next (driveAttention (pushReply port (.answer 9 .ok (num 4 x.start.toNat ++ num 4 lost.toNat))
          (noticeOn port
            { kind := .loss, fields := byte (readerCode name) ++ num 4 lost.toNat ++ num 4 x.start.toNat }
            { countOne .logLosses s with log := s.log.setReader name { s.log.reader name with
                on := true, cursor := x.start, inRun := true, lost := lost,
                passed := (s.log.reader name).passed + (x.asked - (s.log.reader name).cursor) } }))) := by
  intro lost
  have hlog : (countOne .logLosses s).log = s.log := by simp
  have hstart : startReader name x s = noticeOn port
      { kind := .loss, fields := byte (readerCode name) ++ num 4 lost.toNat ++ num 4 x.start.toNat }
      { countOne .logLosses s with log := s.log.setReader name { s.log.reader name with
          on := true, cursor := x.start, inRun := true, lost := lost,
          passed := (s.log.reader name).passed + (x.asked - (s.log.reader name).cursor) } } := by
    simp only [startReader, if_neg hlost, takeLoss, ownReader_port ho, State.setReader, hlog]
    rfl
  have hread : ((startReader name x s).log.reader name).lost = lost := by
    rw [hstart]
    cases name <;> simp [StrokeLog.reader, StrokeLog.setReader]
  have howner : strokesOnOwner port .sequence q s
      = (startReader name x s, answerOk (streamFields x.start lost)) := by
    rw [strokesOnOwner, ho, hj]
    dsimp only
    rw [hread]
  rw [← hstart]
  refine congrArg Host.Outcome.next (takeRequest_rested hr ht howner (by simp) (by simp) ?_)
  rw [hstart, ← hr.1]
  cases port <;> cases ho <;> simp [dozeReady, loadPaused, StrokeLog.setReader]

/-- Settles O16: a start is judged by its distance back from the head. -/
theorem strokesOnAndOffMoveTheReader : Obligations.StrokesOnAndOffMoveTheReader := by
  refine ⟨fun port name s hr ht ho => ?_, fun port name s hr ht ho => ⟨fun hoff => ?_, fun hon => ?_⟩⟩
  · intro g r oldest started taken
    refine ⟨exec_strokesOn_kept hr ht ho rfl, exec_strokesOn_kept hr ht ho rfl, fun a ha => ?_⟩
    intro asked distance span
    refine ⟨fun hheld => ?_, fun hgone hspan => ?_, fun hgone hspan => ?_⟩
    · have hj : judgeStart s.log .sequence (some a) = some { start := asked, lost := 0, asked := asked } :=
        judgeSequence_held hheld
      exact exec_strokesOn_kept hr ht ho hj
    · have hj : judgeStart s.log .sequence (some a)
          = some { start := oldest, lost := distance - g.records.length, asked := asked } :=
        judgeSequence_lost hgone hspan
      have hrun := exec_strokesOn_lost hr ht ho hj (Nat.sub_ne_zero_of_lt hgone)
      clear_value distance
      intro lost counted
      rw [hrun]
    · have hj : judgeStart s.log .sequence (some a) = none := judgeSequence_unwritten hgone hspan
      refine congrArg Host.Outcome.next (takeRequest_refused (v := refuse .outOfRange) hr ht ?_)
      rw [strokesOnOwner, ho, hj]
  · refine congrArg Host.Outcome.next (takeRequest_refused
      (v := answerOk (streamFields s.log.head (s.log.reader name).lost)) hr ht ?_)
    simp [strokesOffOwner, ho, hoff]
  · have howner : strokesOffOwner port s
        = (stopReader name s, answerOk (streamFields s.log.head (s.log.reader name).lost)) := by
      simp [strokesOffOwner, ho, hon]
    exact congrArg Host.Outcome.next (takeRequest_rested hr ht howner rfl rfl
      ((dozeReady_setReader ho s _).trans hr.1))

end Sys2Proof.Machine
end

section
/-! PROOFS. The expiries of the Time Follower, TIME SET, and the requests of a dictionary load that leave the
Translator's text alone (R38, R42, R45, R55, R57, R66, R67). -/

namespace Sys2Proof.Machine

/-! ### The end of an event that raises a notice -/

@[simp] theorem dozeReady_raiseNotice (n : Notice) (s : State) : dozeReady (raiseNotice n s) = dozeReady s := by
  simp [dozeReady, loadPaused]

/-- An event on a part at rest that raises one notice, beside what the journal and the holds are no part of. -/
theorem eventEnd_raiseNotice {s t : State} (hr : Rested s) (n : Notice) (hj : t.journal = s.journal)
    (hh : t.holds = s.holds) (hd : dozeReady t = false) :
    eventEnd (raiseNotice n t) = driveAttention (raiseNotice n t) :=
  eventEnd_rested hr (by simpa using hj) (by simpa using hh) (by simpa using hd)

theorem takeRequest_raiseNotice {s t : State} {port : Port} {k : RequestKind} {owner : State → State × Verdict}
    {v : Verdict} {n : Notice} (hr : Rested s) (ht : Takes port k s) (ho : owner s = (raiseNotice n t, v))
    (hj : t.journal = s.journal) (hh : t.holds = s.holds) (hd : dozeReady t = false) :
    takeRequest port k owner s
      = driveAttention (pushReply port (.answer (kindCode k) v.status v.fields) (raiseNotice n t)) :=
  takeRequest_rested hr ht ho (by simpa using hj) (by simpa using hh) (by simpa using hd)

theorem eventEnd_of_rested {s : State} (hr : Rested s) : eventEnd s = s :=
  eventEnd_same hr rfl rfl rfl rfl hr.1

/-- Neither the journal, the holds nor the ports look at the Time Follower. -/
theorem eventEnd_setTime {s : State} (hr : Rested s) (t : TimeFollower) : eventEnd (setTime t s) = setTime t s :=
  eventEnd_same hr rfl rfl rfl rfl hr.1

/-! ### The quality judged again (R55) -/

/-- Nothing happens when the quality stays. -/
theorem rejudge_same {s : State} (h : judgedQuality s.time = s.time.quality) : rejudge s = s := if_pos h

/-- A change of quality raises a TIME notice with the follower's state and the present stamp. -/
theorem rejudge_changed {s : State} {q : Quality} (hq : judgedQuality s.time = q) (h : s.time.quality ≠ q) :
    rejudge s = raiseNotice
      { kind := .time,
        fields := byte (qualityCode q) ++ byte (followerCode s.time.state) ++ num 4 (stampNow s).ms }
      (setTime { s.time with quality := q } s) := by
  unfold rejudge
  dsimp only
  rw [if_neg (by rw [hq]; exact Ne.symm h), hq]
  rfl

theorem judgedQuality_search_eq {t : TimeFollower} (h : t.state = .search) :
    judgedQuality t = if t.present = true ∧ t.age ≤ t.coast * 4096 then .coast else .free := by
  have hcoast : coastTicks t = t.coast * 4096 := rfl
  unfold judgedQuality
  rw [h, hcoast]
  by_cases hp : t.present = true <;> simp [hp]

/-- The Time Follower with what a loss of lock clears cleared (R42). -/
def TimeFollower.unlocked (t : TimeFollower) : TimeFollower :=
  { t with
    state := .search, syncRun := 0, window := 0, blockRun := none, history := [],
    alternate := .inactive, blockLimit := none, step := none, pendingTake := none,
    frameDue := false, lockFrame := false, lastFrames := [] }

/-! ### Silence (R38) -/

theorem silenceDue_iff (s : State) :
    silenceDue s = true ↔ ∃ start, s.time.silence = some start ∧ 410 ≤ (s.time.tick - start).toNat := by
  rw [silenceDue, timerDue_iff]
  exact exists_congr fun start => and_congr_right fun _ => by omega

theorem frameEvent_not_due {s : State} (h : s.time.frameDue = false) : frameEvent s = s := by
  rw [frameEvent, if_neg (by simp [h])]

/-- Settles O22: no frame being due, an expiry drops the candidate or the lock. -/
theorem silenceDropsTheLock : Obligations.SilenceDropsTheLock := by
  intro s hr hframe
  refine ⟨fun hnot => ?_, fun start hstart hpast => ⟨fun hsearch => ?_, fun hlocked => ?_⟩⟩
  · have hdue : ¬silenceDue s = true := by
      rw [silenceDue_iff]
      rintro ⟨start, hstart, hpast⟩
      rcases hnot with hnone | ⟨start', hstart', hearly⟩
      · rw [hnone] at hstart
        cases hstart
      · rw [hstart'] at hstart
        cases hstart
        omega
    have hevent : silenceEvent s = s := if_neg hdue
    rw [show exec .silenceTimerExpiry s = .next (eventEnd (silenceEvent s)) from rfl, hevent,
      eventEnd_of_rested hr]
  all_goals
    have hdue : silenceDue s = true := (silenceDue_iff s).mpr ⟨start, hstart, hpast⟩
    have hevent : silenceEvent s = fallSilent s := by
      rw [silenceEvent, if_pos hdue, frameEvent_not_due hframe]
  · have hsilent : fallSilent s = setTime { s.time with silence := none, cells := [], candidate := none } s := by
      rw [fallSilent]
      exact if_pos hsearch
    rw [show exec .silenceTimerExpiry s = .next (eventEnd (silenceEvent s)) from rfl, hevent, hsilent,
      eventEnd_setTime hr]
    rfl
  · intro lost q
    have hsilent : fallSilent s = rejudge (setTime lost s) := by
      rw [fallSilent]
      exact if_neg hlocked
    have hq : judgedQuality (setTime lost s).time = q := judgedQuality_search_eq rfl
    rw [show exec .silenceTimerExpiry s = .next (eventEnd (silenceEvent s)) from rfl, hevent, hsilent]
    refine ⟨fun hsame => ?_, fun hchanged => ?_⟩
    · rw [rejudge_same (hq.trans hsame.symm), eventEnd_setTime hr]
      rfl
    · rw [rejudge_changed hq hchanged]
      exact congrArg Host.Outcome.next (eventEnd_raiseNotice hr _ rfl rfl hr.1)

/-! ### The block limit, the coast limit and the re-base (R45, R55, R56) -/

theorem blockLimitDue_iff (s : State) :
    blockLimitDue s = true ↔ s.time.state = .frame ∧
      ∃ start, s.time.blockLimit = some start ∧ 8192 ≤ (s.time.tick - start).toNat := by
  unfold blockLimitDue
  rw [Bool.and_eq_true, beq_iff_eq]
  refine and_congr_right fun _ => ?_
  cases s.time.blockLimit with
  | none => simp
  | some start => exact decide_eq_true_iff.trans (by simp [ticksSince])

theorem coastDue_iff (s : State) :
    coastDue s = true ↔ s.time.state = .search ∧ s.time.present = true ∧ s.time.coast * 4096 < s.time.age ∧
      s.time.quality ≠ .free := by
  have hcoast : coastTicks s.time = s.time.coast * 4096 := rfl
  simp [coastDue, hcoast, and_assoc]

/-- Settles O23: in FRAME and FRAME_ONLY the quality is the same, and past the coast limit it is FREE. -/
theorem blockLimitAndCoastLimitExpire : Obligations.BlockLimitAndCoastLimitExpire := by
  refine ⟨fun s hr hq => ⟨fun hnot => ?_, fun start hframe hstart hpast => ?_, fun hnot => ?_,
    fun hsearch hpresent hpast hfree => ?_⟩, fun s hr hnot => ?_⟩
  · have hevent : blockLimitEvent s = s := by
      refine if_neg fun hdue => ?_
      obtain ⟨hframe, start, hstart, hpast⟩ := (blockLimitDue_iff s).mp hdue
      rcases hnot with hno | hearly
      · exact hno hframe
      · have := hearly start hstart
        omega
    rw [show exec .blockLimitExpiry s = .next (eventEnd (blockLimitEvent s)) from rfl, hevent,
      eventEnd_of_rested hr]
  · have hevent : blockLimitEvent s = rejudge (setTime { s.time with
        state := .frameOnly, window := 0, blockRun := none, alternate := .inactive, blockLimit := none } s) :=
      if_pos ((blockLimitDue_iff s).mpr ⟨hframe, start, hstart, hpast⟩)
    have hsame : judgedQuality { s.time with
        state := .frameOnly, window := 0, blockRun := none, alternate := .inactive, blockLimit := none }
        = s.time.quality := by
      rcases hq.2 with heq | ⟨hsearch, _⟩
      · rw [heq]
        unfold judgedQuality
        rw [hframe]
      · rw [hframe] at hsearch
        cases hsearch
    rw [show exec .blockLimitExpiry s = .next (eventEnd (blockLimitEvent s)) from rfl, hevent, rejudge_same hsame]
    exact congrArg Host.Outcome.next (eventEnd_setTime hr _)
  · have hevent : coastEvent s = s := by
      refine if_neg fun hdue => ?_
      obtain ⟨hsearch, hpresent, hpast, hfree⟩ := (coastDue_iff s).mp hdue
      rcases hnot with h | h | h | h
      · exact h hsearch
      · simp [hpresent] at h
      · omega
      · exact hfree h
    rw [show exec .coastLimitPassed s = .next (eventEnd (coastEvent s)) from rfl, hevent,
      eventEnd_of_rested hr]
  · have hevent : coastEvent s = rejudge s := if_pos ((coastDue_iff s).mpr ⟨hsearch, hpresent, hpast, hfree⟩)
    have hjudged : judgedQuality s.time = .free := by
      rw [judgedQuality_search_eq hsearch, if_neg (fun h => by omega)]
    rw [show exec .coastLimitPassed s = .next (eventEnd (coastEvent s)) from rfl, hevent,
      rejudge_changed hjudged hfree, hsearch]
    exact congrArg Host.Outcome.next (eventEnd_raiseNotice hr _ rfl rfl hr.1)
  · have hevent : rebaseEvent s = s := by
      refine if_neg fun hdue => ?_
      have := (rebaseDue_iff s).mp hdue
      omega
    rw [exec_referenceRebase, hevent, eventEnd_of_rested hr]

/-! ### TIME SET (R57) -/

theorem rateInRange_iff (rate : Option Nat) : rateInRange rate = true ↔ ∀ r, rate = some r → r = 25 ∨ r = 30 := by
  cases rate <;> simp [rateInRange]

/-- The Time Follower after the settings, with what a new rate clears cleared (R57). -/
def rateChanged (old t : TimeFollower) : TimeFollower :=
  if t.rate = old.rate then t
  else if old.state = .search then { t with candidate := none }
  else t.unlocked

/-- Of what the quality and the stamps look at, a new rate changes the state alone. -/
theorem rateChanged_fields (old t : TimeFollower) :
    (rateChanged old t).quality = t.quality ∧ (rateChanged old t).tref = t.tref ∧
    (rateChanged old t).lref = t.lref ∧ (rateChanged old t).tick = t.tick := by
  unfold rateChanged
  split
  · exact ⟨rfl, rfl, rfl, rfl⟩
  · split <;> exact ⟨rfl, rfl, rfl, rfl⟩

theorem judgeSettings_eq {s : State} {t : TimeFollower} (h : t.state = s.time.state) :
    judgeSettings s.time (setTime t s)
      = if t.rate ≠ s.time.rate ∨ t.coast ≠ s.time.coast then rejudge (setTime (rateChanged s.time t) s)
        else setTime (rateChanged s.time t) s := by
  have hchange : t.rate ≠ s.time.rate → changeRate (setTime t s) = setTime (rateChanged s.time t) s := fun hne => by
    unfold changeRate rateChanged
    rw [if_neg hne, show (setTime t s).time.state = s.time.state from h]
    split <;> rfl
  by_cases hrate : t.rate = s.time.rate
  · have hkept : rateChanged s.time t = t := if_pos hrate
    have hjudge : judgeSettings s.time (setTime t s)
        = if t.coast ≠ s.time.coast then rejudge (setTime t s) else setTime t s := if_neg (not_not.mpr hrate)
    rw [hjudge, hkept]
    exact if_congr (by simp [hrate]) rfl rfl
  · have hjudge : judgeSettings s.time (setTime t s) = rejudge (changeRate (setTime t s)) := if_pos hrate
    rw [hjudge, hchange hrate, if_pos (.inl hrate)]

theorem judgedQuality_eq (t : TimeFollower) :
    judgedQuality t = if t.present = false then .free
      else if t.state = .block then .locked
      else if t.state = .search then (if t.age ≤ t.coast * 4096 then .coast else .free)
      else .unchecked := by
  have hcoast : coastTicks t = t.coast * 4096 := rfl
  unfold judgedQuality
  rw [hcoast]
  cases t.present <;> cases t.state <;> simp

/-- Settles O25: what a new rate clears comes first, and the quality is then judged again. -/
theorem timeSetTakesTheSettings : Obligations.TimeSetTakesTheSettings := by
  intro rate coast threshold reframe mode s hr ht
  refine ⟨fun ⟨r, hrate, h25, h30⟩ => ?_, fun hrange => ?_⟩
  · refine congrArg Host.Outcome.next (takeRequest_refused (v := refuse .outOfRange) hr ht ?_)
    rw [timeSetOwner, if_neg]
    rw [rateInRange_iff]
    intro h
    rcases h r hrate with h | h
    · exact h25 h
    · exact h30 h
  · intro c h set new q rejudged answer
    have hset : timeSettings s.time rate coast threshold reframe mode = set := by
      cases coast <;> cases threshold <;> rfl
    have hstatus : ∀ f, (answerAdjusted (clamped 1 60 coast || clamped 20 1000 threshold) f).status
        = if coast.getD c = c ∧ threshold.getD h = h then .ok else .adjusted := fun f => by
      refine answerAdjusted_status _ _ _ ?_
      have hc : clampField 1 60 s.time.coast coast = c := by cases coast <;> rfl
      have hh : clampField 20 1000 s.time.threshold threshold = h := by cases threshold <;> rfl
      rw [clamped_eq 1 60 s.time.coast, clamped_eq 20 1000 s.time.threshold, hc, hh]
      simp
    have hnew : judgeSettings s.time (setTime set s)
        = if set.rate ≠ s.time.rate ∨ c ≠ s.time.coast then rejudge (setTime new s) else setTime new s :=
      judgeSettings_eq rfl
    have hq : judgedQuality (setTime new s).time = q := judgedQuality_eq new
    have howner : timeSetOwner rate coast threshold reframe mode s
        = (judgeSettings s.time (setTime set s), answerAdjusted (clamped 1 60 coast || clamped 20 1000 threshold)
            (timeFields set)) := by
      rw [timeSetOwner, if_pos ((rateInRange_iff rate).mpr hrange), hset]
    have hanswer : answer = .answer (kindCode .timeSet)
        (answerAdjusted (clamped 1 60 coast || clamped 20 1000 threshold) (timeFields set)).status (timeFields set) := by
      rw [hstatus]
      rfl
    obtain ⟨hkept, htref, hlref, htick⟩ : new.quality = s.time.quality ∧ new.tref = s.time.tref ∧
        new.lref = s.time.lref ∧ new.tick = s.time.tick := rateChanged_fields s.time set
    rw [hanswer]
    refine ⟨fun hno => ?_, fun hyes hchanged => ?_⟩
    · have hsame : judgeSettings s.time (setTime set s) = setTime new s := by
        rw [hnew]
        split
        · rename_i hyes
          refine rejudge_same (hq.trans ?_)
          rcases hno with hno | hno
          · exact absurd hyes hno
          · exact hno.trans hkept.symm
        · rfl
      exact congrArg Host.Outcome.next
        (takeRequest_quiet hr ht (howner.trans (congrArg (·, _) hsame)) rfl rfl rfl rfl hr.1)
    · have hdiffers : judgeSettings s.time (setTime set s) = raiseNotice
          { kind := .time,
            fields := byte (qualityCode q) ++ byte (followerCode new.state) ++ num 4 (stampNow s).ms }
          { s with time := { new with quality := q } } := by
        have hstamp : (stampNow (setTime new s)).ms = (stampNow s).ms := by
          change stampMs new new.tick = stampMs s.time s.time.tick
          rw [stampMs, htref, hlref, htick]
          rfl
        rw [hnew, if_pos hyes, rejudge_changed hq (fun hx => hchanged (hx.symm.trans hkept)), hstamp]
        rfl
      exact congrArg Host.Outcome.next (takeRequest_raiseNotice hr ht (howner.trans (congrArg (·, _) hdiffers))
        rfl rfl hr.1)

end Sys2Proof.Machine
end

section
/-! PROOFS. Loads begun and filled, waking, counters, notices, and the requests that report the state (R66, R67, R156
to R158, R161, R164 to R167, R176, R178 to R180). -/

namespace Sys2Proof.Machine

/-! ### LOAD BEGIN and LOAD DATA (R66, R67) -/

/-- A port that takes a load request has a claim of its own. -/
theorem ownClaim_ne_none {port : Port} (h : permitted .loadBegin port = true) : ownClaim port ≠ .none := by
  cases port
  · simp [ownClaim]
  · simp [ownClaim]
  · cases h

theorem totalRefused_iff (total : Nat) :
    (decide (total = 0) || decide (Config.dictionaryBytes < total)) = true ↔ total = 0 ∨ 67108864 < total := by
  rw [Bool.or_eq_true, decide_eq_true_iff, decide_eq_true_iff]
  exact Iff.rfl

/-- Settles O26: the four rows of R66 in order. -/
theorem loadBeginStartsALoad : Obligations.LoadBeginStartsALoad := by
  intro port total s hr ht
  have hown := ownClaim_ne_none ht.2
  refine ⟨fun hclaim => ?_, fun hheld hother => ?_, fun hfree hrange => ?_, fun hfree hlow hhigh => ?_⟩
  · refine congrArg Host.Outcome.next (takeRequest_refused (v := refuse .wrongState) hr ht ?_)
    rw [loadBeginOwner, if_pos hclaim]
  · refine congrArg Host.Outcome.next (takeRequest_refused (v := refuse .busy) hr ht ?_)
    rw [loadBeginOwner, if_neg hother, if_pos hheld]
  · refine congrArg Host.Outcome.next (takeRequest_refused (v := refuse .outOfRange) hr ht ?_)
    rw [loadBeginOwner, if_neg (by rw [hfree]; exact Ne.symm hown), if_neg (not_not.mpr hfree),
      if_pos ((totalRefused_iff total).mpr hrange)]
  · have howner : loadBeginOwner port total s
        = (raiseNotice (dictNotice (beginLoad port total s.time.tick s.dict))
            { s with dict := beginLoad port total s.time.tick s.dict, trans := { s.trans with settleTimer := none } },
           answerOk (num 4 total)) := by
      rw [loadBeginOwner, if_neg (by rw [hfree]; exact Ne.symm hown), if_neg (not_not.mpr hfree),
        if_neg (by rw [totalRefused_iff]; omega)]
      refine congrArg (·, answerOk (num 4 total)) (State.eq_of_blocks ?_)
      simp [pauseTranslator, changeLayer, setDict]
      rfl
    exact congrArg Host.Outcome.next
      (takeRequest_raiseNotice hr ht howner rfl rfl (by simp [dozeReady, loadPaused, beginLoad]))

theorem claimRefusal_eq (d : Dictionary) {port : Port} (h : ownClaim port ≠ .none) :
    (d.claim ≠ .none → d.claim ≠ ownClaim port → claimRefusal d port = some .busy) ∧
    (d.claim = .none → claimRefusal d port = some .wrongState) ∧
    (d.claim = ownClaim port → claimRefusal d port = none) := by
  unfold claimRefusal
  refine ⟨fun hheld hother => ?_, fun hfree => ?_, fun hown => ?_⟩
  · rw [if_neg hheld, if_neg hother]
  · rw [if_pos hfree]
  · rw [if_neg (by rw [hown]; exact h), if_pos hown]

theorem dataInRange_iff (d : Dictionary) (offset : Nat) (data : List Byte) :
    dataInRange d offset data = true ↔ 1 ≤ data.length ∧ data.length ≤ 240 ∧ offset + data.length ≤ d.total := by
  simp [dataInRange, and_assoc]

/-- Settles O27: the memory written is `writeBytes` at the offset, read back inside it and untouched outside. -/
theorem loadDataWritesInOrder : Obligations.LoadDataWritesInOrder := by
  intro port offset data s hr ht n refusal
  have hown : ownClaim port ≠ .none := ownClaim_ne_none (by rw [← ht.2]; cases port <;> rfl)
  obtain ⟨hbusy, hfree, hmine⟩ := claimRefusal_eq s.dict hown
  have hrefused : ∀ v : Verdict, loadDataOwner port offset data s = (s, v) →
      exec (.loadData port offset data) s = .next (answered port .loadData v.status v.fields s) := fun v ho =>
    congrArg Host.Outcome.next (takeRequest_refused hr ht ho)
  refine ⟨fun hheld hother => hrefused (refuse .busy) ?_, fun hno => hrefused (refuse .wrongState) ?_, fun hclaim =>
    ⟨fun hlayer => hrefused (refuse .wrongState) ?_, fun hlayer => ⟨fun hrange => hrefused (refuse .outOfRange) ?_,
      fun hlow hhigh hfits => ⟨fun horder => hrefused ⟨.outOfOrder, num 4 s.dict.received⟩ ?_, fun horder hwf => ?_⟩⟩⟩⟩
  · rw [loadDataOwner, hbusy hheld hother]
  · rw [loadDataOwner, hfree hno]
  · rw [loadDataOwner, hmine hclaim]
    exact if_pos hlayer
  · rw [loadDataOwner, hmine hclaim]
    dsimp only
    rw [if_neg (not_not.mpr hlayer), if_pos]
    rw [Bool.not_eq_true', ← Bool.not_eq_true, dataInRange_iff]
    omega
  all_goals
    have hdata : dataInRange s.dict offset data = true := (dataInRange_iff _ _ _).mpr ⟨hlow, hhigh, hfits⟩
  · rw [loadDataOwner, hmine hclaim]
    dsimp only
    rw [if_neg (not_not.mpr hlayer), if_neg (by simp [hdata]), if_pos horder]
  · have howner : loadDataOwner port offset data s = (setDict (takeData offset data s.time.tick s.dict) s,
        answerOk (num 4 (s.dict.received + n))) := by
      rw [loadDataOwner, hmine hclaim]
      dsimp only
      rw [if_neg (not_not.mpr hlayer), if_neg (by simp [hdata]), if_neg (not_not.mpr horder)]
      rfl
    refine ⟨writeBytes s.dict.memory offset data, writeBytes_wf hwf _ _, fun i hi => ?_, fun a ha => ?_,
      congrArg Host.Outcome.next (takeRequest_quiet hr ht howner rfl rfl rfl rfl hr.1)⟩
    · rw [readByte_writeBytes_inside hwf offset data hi, List.getD_eq_getElem?_getD]
      simp [List.getElem?_eq_getElem hi]
    · exact readByte_writeBytes_outside hwf data ha

/-! ### Waking (R156 to R158) -/

theorem wakePart_eq (cause : WakeCause) (s : State) : wakePart cause s = woken cause s := by
  unfold wakePart woken
  dsimp only
  refine congrArg₂ raiseNotice ?_ (State.eq_of_blocks ?_)
  · simp [powerNotice, partCode, reasonCode, byte, opt]
  · cases cause <;> simp [addCause, startIdle, stampNow]

theorem chordInRange_iff (c : Nat) : chordInRange c = true ↔ 1 ≤ c ∧ c ≤ 8388607 := by
  simp [chordInRange]

theorem optionalChordInRange_iff (chord : Option Nat) :
    optionalChordInRange chord = true ↔ ∀ c, chord = some c → 1 ≤ c ∧ c ≤ 8388607 := by
  cases chord with
  | none => simp [optionalChordInRange]
  | some c => exact (chordInRange_iff c).trans (by simp)

theorem dozeReady_of_part {s : State} (h : s.power.part ≠ .settling) : dozeReady s = false := by
  simp [dozeReady, h]

theorem clamped_eq_false_iff (low high : Nat) (o : Option Nat) (h : low ≤ high) :
    clamped low high o = false ↔ ∀ v, o = some v → low ≤ v ∧ v ≤ high := by
  cases o with
  | none => simp [clamped]
  | some v =>
    simp only [clamped, clampTo, bne_eq_false_iff_eq, Option.some.injEq, forall_eq']
    omega

theorem answerAdjusted_status_iff {b : Bool} (f : List Byte) {p : Prop} [Decidable p] (h : b = false ↔ p) :
    (answerAdjusted b f).status = if p then .ok else .adjusted := by
  refine answerAdjusted_status b f p ?_
  cases b <;> simp [← h]

/-- What WAKE SET leaves (R158). -/
theorem wakeSetOwner_of_range {chord count gap : Option Nat} {s : State}
    (h : ∀ c, chord = some c → 1 ≤ c ∧ c ≤ 8388607) :
    wakeSetOwner chord count gap s
      = ({ s with
            wake := wakeSettings (s.power.part == .doze && (chord.isSome || count.isSome || gap.isSome)) chord count
              gap s.wake },
         answerAdjusted (clamped 2 8 count || clamped 200 3000 gap) (num 3 (chordTaken s.wake.chord chord).toNat
           ++ byte (clampField 2 8 s.wake.needed count) ++ num 2 (clampField 200 3000 s.wake.gap gap))) := by
  rw [wakeSetOwner, if_pos ((optionalChordInRange_iff chord).mpr h)]
  rfl

/-- Settles O44: only a WAKE in DOZE appends a record. -/
theorem wakeRequestsAndSettings : Obligations.WakeRequestsAndSettings := by
  refine ⟨fun port cause s hport hr ht => ?_, fun clear s hr ht => ?_, fun chord count gap s hr ht => ?_⟩
  · have hcause : ownCause port = some cause := by
      rcases hport with ⟨rfl, rfl⟩ | ⟨rfl, rfl⟩ <;> rfl
    refine ⟨fun hready => ?_, fun hsettling => ?_, fun hdoze => ?_⟩
    · refine congrArg Host.Outcome.next (takeRequest_refused (v := answerOk [0, 0]) hr ht ?_)
      rw [wakeOwner, hready]
      rfl
    · have howner : wakeOwner port s = (returnToReady s, answerOk [0, 0]) := by
        rw [wakeOwner, hsettling, hcause]
        dsimp only
        refine congrArg (returnToReady s, ·) ?_
        simp [returnToReady, wakeFields, setSettleAll, partCode, byte, opt]
      exact congrArg Host.Outcome.next
        (takeRequest_raiseNotice hr ht howner rfl rfl (dozeReady_of_part (by simp [setSettleAll])))
    · have howner : wakeOwner port s = (woken cause s, answerOk ([0, 1] ++ num 4 s.log.head.toNat)) := by
        rw [wakeOwner, hdoze, hcause]
        dsimp only
        rw [wakePart_eq]
        refine congrArg (woken cause s, ·) ?_
        simp [woken, wakeFields, partCode, byte, opt]
      exact congrArg Host.Outcome.next (takeRequest_rested hr ht howner (by simp [woken]) (by simp [woken])
        (dozeReady_of_part (by simp [woken])))
  · have hfields : byte (if clear.getD s.power.clearOnDoze then 1 else 0) = yesNo (clear.getD s.power.clearOnDoze) := by
      cases clear.getD s.power.clearOnDoze <;> rfl
    rw [hfields]
    exact congrArg Host.Outcome.next (takeRequest_quiet (owner := wakeCausesClearOwner clear) hr ht rfl rfl rfl rfl rfl
      hr.1)
  · refine ⟨fun ⟨c, hc, hrange⟩ => ?_, fun hrange => ?_⟩
    · refine congrArg Host.Outcome.next (takeRequest_refused (v := refuse .outOfRange) hr ht ?_)
      rw [wakeSetOwner, if_neg]
      rw [optionalChordInRange_iff]
      intro h
      have := h c hc
      omega
    · intro c n g status set dropped
      have hc : chordTaken s.wake.chord chord = c := by cases chord <;> rfl
      have hn : clampField 2 8 s.wake.needed count = n := by cases count <;> rfl
      have hg : clampField 200 3000 s.wake.gap gap = g := by cases gap <;> rfl
      have hstatus : (answerAdjusted (clamped 2 8 count || clamped 200 3000 gap)
          (num 3 c.toNat ++ byte n ++ num 2 g)).status = status := by
        refine answerAdjusted_status_iff _ ?_
        rw [Bool.or_eq_false_iff, clamped_eq_false_iff 2 8 count (by omega),
          clamped_eq_false_iff 200 3000 gap (by omega)]
      have hrun : exec (.wakeSet .machine chord count gap) s
          = .next (answered .machine .wakeSet status (num 3 c.toNat ++ byte n ++ num 2 g)
              { s with
                wake := wakeSettings (s.power.part == .doze && (chord.isSome || count.isSome || gap.isSome)) chord
                  count gap s.wake }) := by
        rw [← hstatus, ← hc, ← hn, ← hg]
        exact congrArg Host.Outcome.next (takeRequest_quiet hr ht (wakeSetOwner_of_range hrange) rfl rfl rfl rfl hr.1)
      have hgiven : (s.power.part == .doze && (chord.isSome || count.isSome || gap.isSome)) = true ↔ dropped := by
        simp only [dropped, Bool.and_eq_true, beq_iff_eq, Bool.or_eq_true, Option.isSome_iff_ne_none]
        tauto
      refine ⟨fun hdropped => ?_, fun hkept => ?_⟩
      · rw [hrun, hgiven.mpr hdropped]
        simp [wakeSettings, set, hc, hn, hg]
      · rw [hrun, Bool.eq_false_iff.mpr (mt hgiven.mp hkept)]
        simp [wakeSettings, set, hc, hn, hg]

end Sys2Proof.Machine
end

section
/-! PROOFS. Counters, notices, snapshots, and the requests that report the state (R161, R164 to R167, R176, R178 to
R180). -/

namespace Sys2Proof.Machine

/-! ### Counts and notices (R161, R162, R176) -/

theorem addTally_eq (t : Tally) (amount : Nat) :
    let value := if 65535 < t.value + amount then 65535 else t.value + amount
    addTally t amount = { value := value, mark := t.mark || decide (value = 65535) } := by
  intro value
  have hvalue : min (t.value + amount) Config.countCeiling = value := by
    change min (t.value + amount) 65535 = if 65535 < t.value + amount then 65535 else t.value + amount
    split <;> omega
  unfold addTally
  dsimp only
  rw [hvalue]
  rfl

/-- Each port judges a notice by itself. -/
theorem raiseNotice_port_self (n : Notice) (s : State) (port : Port) :
    (raiseNotice n s).port port = queueNotice n (s.port port) := by
  cases port <;> rfl

/-- Settles O46: one tally is replaced, and each port judges the notice by its own enables and queue. -/
theorem noticesAndCounts : Obligations.NoticesAndCounts := by
  refine ⟨fun c amount s hamount _ => ?_, fun n s port => ⟨?_, ?_⟩⟩
  · intro old value mark added
    have htally : addTally old amount = { value := value, mark := mark } := addTally_eq old amount
    unfold countEvents
    rw [if_neg (by omega)]
    dsimp only
    rw [htally]
    refine if_congr ?_ rfl rfl
    rw [Bool.and_eq_true, Bool.not_eq_true']
  · rw [raiseNotice_port_self]
    unfold queueNotice
    generalize s.port port = p
    have hcapacity : Config.noticeCapacity = 8 := rfl
    by_cases hon : p.enables.getLsbD (noticeCode n.kind) = true <;> simp [hon, hcapacity]
  · exact State.eq_of_blocks (by simp)

/-! ### Snapshots (R164 to R166) -/

theorem yesNo_eq (b : Bool) : yesNo b = byte (if b then 1 else 0) := by
  cases b <;> rfl

theorem snapFields_eq (q : Counters) :
    snapFields q = (q.snapshot.map (fun t => num 2 t.value)).flatten
      ++ (q.snapshot.map (fun t => byte (if t.mark then 1 else 0))).flatten
      ++ num 4 q.snapInterval ++ num 4 q.snapNumber.toNat ++ byte (snapCauseCode q.snapCause) := by
  simp only [snapFields, yesNo_eq]

theorem snapshot_eq (cause : SnapCause) (s : State) :
    snapshot cause s = raiseNotice (snapNotice (snapCounters cause s.time.tick s.counters))
      { s with counters := snapCounters cause s.time.tick s.counters } := rfl

theorem intervalDue_false {s : State} (h : ¬(s.counters.auto = true ∧ 4096 ≤ s.counters.intervalAge)) :
    intervalEvent s = s := by
  rw [intervalEvent, if_neg]
  rwa [intervalDue_iff]

/-- Settles O47: every snapshot is `snapCounters` with one notice. -/
theorem snapshotsAreTaken : Obligations.SnapshotsAreTaken := by
  intro s hr q moved snapped due
  have hsnap : ∀ cause, snapshot cause s = snapped cause q.auto := fun cause => rfl
  have hcounters : ∀ cause, (snapped cause q.auto).counters = snapCounters cause s.time.tick q := fun cause => by
    rw [← hsnap, snapshot_eq]
    simp [q]
  refine ⟨fun hno => ?_, fun hyes => ?_, fun port cause hport ht => ?_, fun ht => ⟨fun hoff => ?_, fun hon => ?_, ?_⟩⟩
  · rw [show exec .intervalExpiry s = .next (eventEnd (intervalEvent s)) from rfl, intervalDue_false hno,
      eventEnd_of_rested hr]
  · have hevent : intervalEvent s = snapped .timer q.auto := if_pos ((intervalDue_iff s).mpr hyes)
    rw [show exec .intervalExpiry s = .next (eventEnd (intervalEvent s)) from rfl, hevent]
    exact congrArg Host.Outcome.next (eventEnd_raiseNotice hr _ rfl rfl hr.1)
  · have hcause : portCause port = cause := by
      rcases hport with ⟨rfl, rfl⟩ | ⟨rfl, rfl⟩ | ⟨rfl, rfl⟩ <;> rfl
    have howner : countersSnapOwner port s
        = (snapped cause q.auto, answerOk (snapFields (snapCounters cause s.time.tick q))) := by
      rw [countersSnapOwner, hcause, hsnap]
      exact congrArg (fun x => (snapped cause q.auto, answerOk (snapFields x))) (hcounters cause)
    rw [snapFields_eq] at howner
    exact congrArg Host.Outcome.next (takeRequest_raiseNotice hr ht howner rfl rfl hr.1)
  · have howner : countersAutoOwner true s
        = (snapped .machine true, answerOk (byte 1 ++ num 4 (q.snapNumber + 1).toNat)) := by
      have hset : setAuto true s = snapped .machine true := by
        have hturned : setAuto true s
            = { snapshot .machine s with counters := { (snapshot .machine s).counters with auto := true } } := by
          simp [setAuto, hoff, q]
        rw [hturned, hsnap, hcounters]
        rfl
      rw [countersAutoOwner, hset]
      refine congrArg (snapped .machine true, answerOk ·) ?_
      simp [snapped, moved, q, yesNo, byte]
    exact congrArg Host.Outcome.next (takeRequest_raiseNotice hr ht howner rfl rfl hr.1)
  · refine congrArg Host.Outcome.next
      (takeRequest_refused (v := answerOk (byte 1 ++ num 4 q.snapNumber.toNat)) hr ht ?_)
    have hset : setAuto true s = s := by
      simp only [setAuto, hon, q, Bool.not_true, Bool.and_false, Bool.false_eq_true, if_false]
      rw [← hon]
    rw [countersAutoOwner, hset]
    exact congrArg (s, answerOk ·) (by rw [hon]; rfl)
  · exact congrArg Host.Outcome.next (takeRequest_quiet (owner := countersAutoOwner false) hr ht rfl rfl rfl rfl rfl hr.1)

end Sys2Proof.Machine
end

section
/-! PROOFS. COUNTERS READ, STATUS, FEED SET and FEED QUERY (R167, R178 to R180). -/

namespace Sys2Proof.Machine

/-! ### STATUS (R180) -/

/-- The two flags of a port drive nothing. -/
theorem attentionLevel_statusOwner (port : Port) (s : State) :
    attentionLevel (statusOwner port s).1 = attentionLevel s := by
  cases port <;> rfl

/-- STATUS taken on a part at rest clears the port's flags and answers its groups. -/
theorem exec_status_of_takes {port : Port} {s : State} (hr : Rested s) (ht : Takes port .status s) :
    exec (.status port) s
      = .next (answered port .status .ok (statusFields s port)
          (s.setPort port { s.port port with noticesMissed := false, requestsDropped := false })) := by
  have hlevel : (statusOwner port s).1.ports.attention = attentionLevel (statusOwner port s).1 := by
    rw [attentionLevel_statusOwner, statusOwner, State.setPort_ports, Ports.set_attention, hr.2.2]
  exact congrArg Host.Outcome.next (takeRequest_level hr ht rfl rfl hr.1 hlevel)

theorem formatBits_eq (f : FormatState) :
    formatBits f = (if f.line then 1 else 0) + (if f.cap then 2 else 0) + (if f.low then 4 else 0)
      + (if f.att then 8 else 0) + (if f.num then 16 else 0) + (if f.glu then 32 else 0) := by
  obtain ⟨line, cap, low, att, num, glu⟩ := f
  revert line cap low att num glu
  decide

theorem causeBits_eq (c : WakeCauses) :
    causeBits c = (if c.pattern then 1 else 0) + (if c.machine then 2 else 0) + (if c.station then 4 else 0) := by
  obtain ⟨pattern, machine, station⟩ := c
  revert pattern machine station
  decide

/-- Settles O48: each group written out is the one `statusFields` puts in its place. -/
theorem readsReportTheState : Obligations.ReadsReportTheState := by
  intro port s hr q j l t yes present readerState own hold causes groups
  have hyes : ∀ b, yes b = yesNo b := fun b => (yesNo_eq b).symm
  have hpresent : ∀ {α : Type} (f : α → List Byte) (o : Option α), present (o.map f) = opt f o := fun f o => by
    cases o <;> rfl
  refine ⟨fun ht => ?_, fun ht => ?_⟩
  · have hrun : exec (.countersRead port) s = .next (answered port .countersRead .ok (snapFields q) s) :=
      congrArg Host.Outcome.next (takeRequest_refused (v := answerOk (snapFields q)) hr ht rfl)
    rw [hrun, snapFields_eq]
  · have hgroups : groups = [logGroup s port, timeGroup s, dictGroup s.dict, transGroup t, journalGroup j l,
        holdGroupFields s port, powerGroup s port, countersGroup q, portGroup s port] := by
      simp only [groups, List.cons.injEq, and_true]
      refine ⟨?_, ?_, rfl, ?_, ?_, ?_, ?_, ?_, ?_⟩
      · simp only [readerState, hyes]
        cases port <;> rfl
      · simp only [hyes, hpresent]
        rfl
      · rw [← formatBits_eq, hyes]
        rfl
      · simp only [hyes, hpresent]
        rfl
      · have hhold : hold = holdFields := by
          funext h
          simp only [hold, hpresent]
          rfl
        have hown : ∀ source, own source
            = opt byte ((s.holds.holds.find? (fun h => h.source == source)).map (fun h => h.id)) := fun source => by
          simp only [own, hpresent]
          cases s.holds.holds.find? (fun h => h.source == source) <;> rfl
        simp only [hhold, hown]
        cases port <;> rfl
      · have hcauses : causes = byte (causeBits s.power.causes) ++ yesNo s.power.clearOnDoze := by
          rw [causeBits_eq, ← hyes]
        have hidle : present (s.power.idleTimer.map (fun start => num 2 ((s.time.tick - start).toNat / 4096)))
            = opt (num 2) (idleSeconds s) := by
          unfold idleSeconds
          cases s.power.idleTimer <;> rfl
        simp only [hcauses, hidle, powerGroup, wakeGroup, List.append_assoc]
        cases port <;> rfl
      · simp only [hyes]
        rfl
      · simp only [hyes]
        rfl
    have hflat : groups.flatten = statusFields s port := by
      rw [hgroups]
      simp [statusFields, j, l, t, q]
    rw [hflat]
    exact exec_status_of_takes hr ht

/-! ### FEED SET and FEED QUERY (R178, R179) -/

theorem addressInRange_iff (address : Option Nat) :
    addressInRange address = true ↔ ∀ a, address = some a → 1 ≤ a ∧ a ≤ 254 := by
  cases address <;> simp [addressInRange]

theorem channelReaches_iff (channel : Byte) (court : Nat) :
    channelReaches channel court = true ↔ channel.toNat = court ∨ channel = 0 ∨ court = 0 := by
  simp [channelReaches, or_assoc]

/-- What a FEED QUERY that its port takes leaves. -/
theorem exec_feedQuery_of_takes {fields : List Byte} {s : State} (ht : Takes .feed .feedQuery s) :
    exec (.feedQuery .feed fields) s = .next (eventEnd (answerQuery fields s)) := by
  change (Host.Outcome.next (eventEnd (if answersFull s .feed = true then _ else
    if permitted .feedQuery .feed = true then _ else _)) : Host.Outcome State Fault Refusal) = _
  rw [if_neg (by simp [ht.1]), if_pos ht.2]

/-- Settles O50: a query ignored leaves the part at rest as it was. -/
theorem feedSetAndFeedQuery : Obligations.FeedSetAndFeedQuery := by
  refine ⟨fun address channel s hr ht => ⟨fun ⟨a, ha, hrange⟩ => ?_, fun hrange => ?_⟩, fun fields s hr ht => ?_⟩
  · refine congrArg Host.Outcome.next (takeRequest_refused (v := refuse .outOfRange) hr ht ?_)
    rw [feedSetOwner, if_neg]
    rw [addressInRange_iff]
    intro h
    have := h a ha
    omega
  · intro a c
    have howner : feedSetOwner address channel s
        = ({ s with ports := { s.ports with feedAddress := a, courtChannel := c } }, answerOk (byte a ++ byte c)) :=
      if_pos ((addressInRange_iff address).mpr hrange)
    have hrun : takeRequest .machine .feedSet (feedSetOwner address channel) s = _ :=
      takeRequest_level hr ht (by rw [howner]) (by rw [howner]) (by rw [howner]; exact hr.1)
        (by rw [howner]; exact hr.2.2)
    rw [howner] at hrun
    exact congrArg Host.Outcome.next hrun
  · intro court
    refine ⟨fun hlength => ?_, fun channel hfields => ⟨fun hcourt hzero hnone => ?_, fun hreach => ?_⟩⟩
    · have hignored : answerQuery fields s = s := by
        unfold answerQuery
        split
        · exact absurd rfl hlength
        · rfl
      rw [exec_feedQuery_of_takes ht, hignored, eventEnd_of_rested hr]
    · have hignored : answerQuery fields s = s := by
        rw [hfields]
        refine if_neg ?_
        rw [channelReaches_iff]
        rintro (h | h | h)
        · exact hcourt h
        · exact hzero h
        · exact hnone h
      rw [exec_feedQuery_of_takes ht, hignored, eventEnd_of_rested hr]
    · have htaken : answerQuery fields s = pushReply .feed (.statusReply (replyFields s)) s := by
        rw [hfields]
        exact if_pos ((channelReaches_iff _ _).mpr hreach)
      rw [exec_feedQuery_of_takes ht, htaken, eventEnd_pushReply hr]
      refine congrArg (fun f => Host.Outcome.next (replied .feed (.statusReply f) s)) ?_
      unfold replyFields
      cases s.journal.feed.paused <;> cases s.journal.lastFix <;> rfl

end Sys2Proof.Machine
end

section
/-! PROOFS. What each operation on the listeners does, said once: a repaint called for, a pause ended, an overrun (R123,
R125 to R127). Each sets one listener, and counts a repaint when it starts a run. -/

namespace Sys2Proof.Machine

/-! ### Repaints counted -/

/-- REPAINTS counts one when a run is started (R127). -/
def countRun (starts : Bool) (s : State) : State := if starts then countOne .repaints s else s

@[simp] theorem countRun_false (s : State) : countRun false s = s := rfl

@[simp] theorem countRun_true (s : State) : countRun true s = countOne .repaints s := rfl

@[simp] theorem countRun_frame (b : Bool) (s : State) :
    (countRun b s).capture = s.capture ∧ (countRun b s).log = s.log ∧ (countRun b s).time = s.time ∧
    (countRun b s).dict = s.dict ∧ (countRun b s).trans = s.trans ∧ (countRun b s).journal = s.journal ∧
    (countRun b s).holds = s.holds ∧ (countRun b s).power = s.power ∧ (countRun b s).wake = s.wake ∧
    (countRun b s).pending = s.pending := by
  cases b <;> simp

/-- A count looks at the time, the counters and the ports alone. -/
theorem countEvents_setJournal (c : Counter) (n : Nat) (j : Journal) (s : State) :
    countEvents c n { s with journal := j } = { countEvents c n s with journal := j } := by
  unfold countEvents
  split
  · rfl
  · dsimp only
    split <;> rfl

theorem countRun_setListener (b : Bool) (port : Port) (l : Listener) (s : State) :
    countRun b (s.setListener port l) = (countRun b s).setListener port l := by
  cases b with
  | false => rfl
  | true =>
    refine (countEvents_setJournal .repaints 1 (s.journal.setListener port l) s).trans ?_
    rw [State.setListener, show (countRun true s).journal = s.journal by simp]
    rfl

theorem State.setListener_setListener (s : State) (port : Port) (a b : Listener) :
    (s.setListener port a).setListener port b = s.setListener port b := by
  cases port <;> rfl

theorem State.setListener_listener (s : State) (port : Port) : s.setListener port (s.listener port) = s := by
  cases port <;> rfl

/-! ### A repaint called for (R127) -/

/-- The listener a repaint called for leaves. -/
def repainted (holds : List OpenHold) (j : Journal) (l : Listener) : Listener :=
  if l.mode = .off then l
  else
    match l.paused, l.obeys, holds with
    | none, true, earliest :: _ => { pauseOn earliest l with repaintPending := true }
    | _, _, _ => { l with cursor := j.head, repaintPending := false, run := some (freshRun j l) }

/-- A repaint called for starts a run, unless it pauses the listener. -/
def startsRun (holds : List OpenHold) (l : Listener) : Bool :=
  l.mode != .off && !(l.paused.isNone && l.obeys && !holds.isEmpty)

theorem callRepaint_eq (port : Port) (s : State) :
    callRepaint port s = countRun (startsRun s.holds.holds (s.journal.listener port))
      (s.setListener port (repainted s.holds.holds s.journal (s.journal.listener port))) := by
  obtain ⟨l, hl⟩ : ∃ l, s.journal.listener port = l := ⟨_, rfl⟩
  have hsame : s.setListener port l = s := hl ▸ State.setListener_listener s port
  unfold callRepaint repainted startsRun startRun
  simp only [State.listener_eq, hl]
  by_cases hmode : l.mode = .off
  · simp [hmode, hsame]
  · have hview : (l.mode != .off) = true := bne_iff_ne.mpr hmode
    cases hp : l.paused with
    | some id => simp [hmode, hview]
    | none =>
      cases ho : l.obeys with
      | false => simp [hmode, hview]
      | true => cases hh : s.holds.holds <;> simp [hmode, hview]

/-- A run copies the tail of the listener's view as the head stands (R127). -/
theorem freshRun_eq (j : Journal) (l : Listener) :
    freshRun j l = {
      settled := decide (l.mode = .settled), copy := if l.mode = .settled then j.settledTail else j.liveTail,
      viewLength := if l.mode = .settled then j.settledLength else j.liveLength, position := j.head, next := 0 } := by
  unfold freshRun
  cases l.mode <;> rfl

theorem repainted_off {l : Listener} (h : l.mode = .off) (holds : List OpenHold) (j : Journal) :
    repainted holds j l = l := if_pos h

theorem repainted_pauses {l : Listener} {h : OpenHold} {rest : List OpenHold} (j : Journal) (hm : l.mode ≠ .off)
    (hp : l.paused = none) (ho : l.obeys = true) :
    repainted (h :: rest) j l = { pauseOn h l with repaintPending := true } := by
  unfold repainted
  rw [if_neg hm, hp, ho]

theorem repainted_runs {l : Listener} {holds : List OpenHold} (j : Journal) (hm : l.mode ≠ .off)
    (h : startsRun holds l = true) :
    repainted holds j l = { l with cursor := j.head, repaintPending := false, run := some (freshRun j l) } := by
  unfold repainted
  rw [if_neg hm]
  split
  · rename_i hp ho
    simp [startsRun, hp, ho] at h
  · rfl

theorem startsRun_iff (holds : List OpenHold) {l : Listener} (hp : l.paused = none) :
    startsRun holds l = true ↔ l.mode ≠ .off ∧ (l.obeys = false ∨ holds = []) := by
  cases ho : l.obeys <;> simp [startsRun, hp, ho]

/-- A repaint called for looks at the head and at the tails, not at a listener of the journal. -/
theorem repainted_setListener (holds : List OpenHold) (j : Journal) (port : Port) (x l : Listener) :
    repainted holds (j.setListener port x) l = repainted holds j l := by
  cases port <;> rfl

/-! ### The end of a pause (R123, R125) -/

theorem endPause_none {l : Listener} (h : l.paused = none) : endPause l = l := by
  unfold endPause
  rw [h]

theorem endPause_some {l : Listener} {id : Nat} (h : l.paused = some id) :
    endPause l = { l with
      paused := none,
      notes := if l.notes.any (isPausedNote id) then l.notes.filter (fun n => !isPausedNote id n)
               else l.notes ++ [.resumed id] } := by
  unfold endPause
  rw [h]

/-- The listener left when the hold it is paused on closes: paused on the earliest hold it has passed, or repainted, or
going on. -/
def resumed (holds : List OpenHold) (j : Journal) (l : Listener) : Listener :=
  match passedHolds holds j (endPause l) with
  | earliest :: _ => pauseOn earliest (endPause l)
  | [] => if (endPause l).repaintPending then repainted holds j (endPause l) else endPause l

/-- That end of the pause starts a run. -/
def resumeRuns (holds : List OpenHold) (j : Journal) (l : Listener) : Bool :=
  (passedHolds holds j (endPause l)).isEmpty && (endPause l).repaintPending && startsRun holds (endPause l)

theorem setListener_listener_self (s : State) (port : Port) (l : Listener) :
    (s.setListener port l).journal.listener port = l := by
  cases port <;> rfl

theorem resumeListener_eq (port : Port) (s : State) :
    resumeListener port s = countRun (resumeRuns s.holds.holds s.journal (s.journal.listener port))
      (s.setListener port (resumed s.holds.holds s.journal (s.journal.listener port))) := by
  obtain ⟨l, hl⟩ : ∃ l, endPause (s.journal.listener port) = l := ⟨_, rfl⟩
  unfold resumeListener resumed resumeRuns
  simp only [State.listener_eq, hl]
  cases hp : passedHolds s.holds.holds s.journal l with
  | cons h rest => simp [State.setListener_setListener]
  | nil =>
    by_cases hpend : l.repaintPending = true
    · rw [callRepaint_eq, setListener_listener_self, State.setListener_setListener]
      simp [hpend, repainted_setListener]
    · simp [hpend]

/-- What a close does to the listener of a port, if it is paused on the hold (R141). -/
theorem resumeIfOn_eq (id : Nat) (port : Port) (s : State) :
    resumeIfOn id port s
      = countRun (decide ((s.journal.listener port).paused = some id)
            && resumeRuns s.holds.holds s.journal (s.journal.listener port))
          (s.setListener port (if (s.journal.listener port).paused = some id
            then resumed s.holds.holds s.journal (s.journal.listener port) else s.journal.listener port)) := by
  have hsame := State.setListener_listener s port
  unfold resumeIfOn
  rw [resumeListener_eq]
  simp only [State.listener_eq] at hsame ⊢
  by_cases h : (s.journal.listener port).paused = some id
  · simp [h]
  · simp [h, hsame]

end Sys2Proof.Machine
end

section
/-! PROOFS. REPAINT (R129), and requests that change a listener on a part at rest. -/

namespace Sys2Proof.Machine

/-! ### When no listener reaches further -/

theorem reachAll_eq_self_iff (s : State) :
    reachAll s = s ↔ ∀ q, reachThrough s.holds.holds (waitingEntries s.journal (s.journal.listener q))
      (s.journal.listener q) = s.journal.listener q := by
  refine ⟨fun h q => ?_, fun h => reachAll_of_fixed s h⟩
  have hq : (reachAll s).listener q = s.listener q := by rw [h]
  rw [reachAll_listener] at hq
  exact hq

/-- What waits does not depend on which listeners stand elsewhere. -/
theorem waitingEntries_setListener (j : Journal) (port : Port) (x l : Listener) :
    waitingEntries (j.setListener port x) l = waitingEntries j l := by
  cases port <;> rfl

/-- A listener replaced by one that stands still leaves nothing to reach. -/
theorem reachAll_setListener {s : State} {port : Port} {x : Listener} (h : reachAll s = s)
    (hx : reachThrough s.holds.holds (waitingEntries s.journal x) x = x) :
    reachAll (s.setListener port x) = s.setListener port x := by
  rw [reachAll_eq_self_iff] at h ⊢
  intro q
  rw [State.setListener_journal, waitingEntries_setListener]
  by_cases hq : q = port
  · subst hq
    rw [Journal.listener_set_self]
    exact hx
  · rw [Journal.listener_set_other _ _ hq]
    exact h q

/-- A request on a part that is left with nothing to reach and no passage to DOZE. -/
theorem takeRequest_reached {s t : State} {port : Port} {k : RequestKind} {owner : State → State × Verdict}
    {v : Verdict} (ht : Takes port k s) (ho : owner s = (t, v)) (hd : dozeReady t = false) (hreach : reachAll t = t) :
    takeRequest port k owner s
      = driveAttention (pushReply port (.answer (kindCode k) v.status v.fields) t) := by
  rw [takeRequest_taken ht, ho]
  exact eventEnd_quiet (by simpa [dozeReady, loadPaused] using hd)
    (reachAll_congr (s := t) (by simp) (by simp) hreach)

theorem dozeReady_setListener (s : State) (port : Port) (x : Listener) :
    dozeReady (s.setListener port x) = dozeReady s := rfl

theorem dozeReady_countRun (b : Bool) (s : State) : dozeReady (countRun b s) = dozeReady s := by
  simp [dozeReady, loadPaused]

theorem canReach_of_paused {l : Listener} (h : l.paused ≠ none) : canReach l = false := by
  cases hp : l.paused with
  | none => exact absurd hp h
  | some id => simp [canReach, hp]

theorem canReach_of_run {l : Listener} (h : l.run ≠ none) : canReach l = false := by
  cases hp : l.run with
  | none => exact absurd hp h
  | some id => simp [canReach, hp]

/-! ### REPAINT (R129) -/

/-- REPAINT taken on a part at rest, when it leaves the port's listener unable to reach further. -/
theorem exec_repaint_of_takes {port : Port} {s : State} {x : Listener} {b : Bool} {f : List Byte} (hr : Rested s)
    (ht : Takes port .repaint s) (hx : canReach x = false)
    (ho : repaintOwner port s = (countRun b (s.setListener port x), answerOk f)) :
    exec (.repaint port) s
      = .next (driveAttention (pushReply port (.answer 4 .ok f) (countRun b (s.setListener port x)))) := by
  have hreach : reachAll (s.setListener port x) = s.setListener port x :=
    reachAll_setListener hr.2.1 (reachThrough_stopped _ _ _ hx)
  exact congrArg Host.Outcome.next (takeRequest_reached ht ho
    (by rw [dozeReady_countRun, dozeReady_setListener, hr.1]) (reachAll_congr (by simp) (by simp) hreach))

theorem repaintOwner_called {port : Port} {s : State} (hm : (s.journal.listener port).mode ≠ .off)
    (hp : (s.journal.listener port).paused = none) :
    repaintOwner port s
      = (countRun (startsRun s.holds.holds (s.journal.listener port))
          (s.setListener port (repainted s.holds.holds s.journal (s.journal.listener port))),
         answerOk (yesNo (repainted s.holds.holds s.journal (s.journal.listener port)).paused.isSome)) := by
  unfold repaintOwner
  simp only [State.listener_eq, hp]
  rw [if_neg hm, callRepaint_eq]
  simp

/-- Settles O38: a repaint called for pauses the listener or starts a run, and in both cases it stands still. -/
theorem repaintStartsARun : Obligations.RepaintStartsARun := by
  intro port s hr ht j l replied set
  refine ⟨fun hoff => ?_, fun hm => ⟨fun hp => ?_, fun h rest hp ho hh => ?_, fun hp hfree => ?_⟩⟩
  · refine congrArg Host.Outcome.next (takeRequest_refused (v := refuse .wrongState) hr ht ?_)
    exact if_pos hoff
  · refine exec_repaint_of_takes (b := false) (f := yesNo true) hr ht (canReach_of_paused hp) ?_
    have hsome : l.paused.isSome = true := Option.isSome_iff_ne_none.mpr hp
    exact (if_neg hm).trans (if_pos hsome)
  · have hcall := repaintOwner_called hm hp
    have hpaused : repainted s.holds.holds s.journal l = { pauseOn h l with repaintPending := true } := by
      rw [hh]
      exact repainted_pauses _ hm hp ho
    have hno : startsRun s.holds.holds l = false := by
      rw [Bool.eq_false_iff, ne_eq, startsRun_iff _ hp, ho, hh]
      simp
    rw [hpaused, hno] at hcall
    exact exec_repaint_of_takes (b := false) hr ht (by simp [canReach]) hcall
  · intro settled run
    have hcall := repaintOwner_called hm hp
    have hyes : startsRun s.holds.holds l = true := (startsRun_iff _ hp).mpr ⟨hm, hfree⟩
    have hrun : freshRun s.journal l = run := by
      rw [freshRun_eq]
      simp [run, settled, j]
    rw [repainted_runs _ hm hyes, hyes, hrun] at hcall
    have hunpaused : yesNo l.paused.isSome = byte 0 := by
      rw [hp]
      rfl
    exact exec_repaint_of_takes (b := true) hr ht (by simp [canReach])
      (hcall.trans (congrArg (Prod.mk _) (congrArg answerOk hunpaused)))

end Sys2Proof.Machine
end

section
/-! PROOFS. What a listener reaches (R121, R124), and an append to the Text Journal (R117 to R119, R126). -/

namespace Sys2Proof.Machine

/-! ### The reach of a listener (R121, R124) -/

/-- A listener passes an entry: by the table, or the HOLD entry of a hold no longer open. -/
def PassesEntry (holds : List OpenHold) (l : Listener) (e : JournalEntry) : Prop :=
  entryOutcome l e.body = .pass ∨ (entryOutcome l e.body = .judgeHold ∧ holdEntryOpen holds e = false)

theorem canReach_iff (l : Listener) :
    canReach l = true ↔ l.mode ≠ .off ∧ l.paused = none ∧ l.notes = [] ∧ l.run = none := by
  simp [canReach, and_assoc]

theorem waitingEntries_eq {j : Journal} {l : Listener} {before rest : List JournalEntry}
    (h : j.entries = before ++ rest) (hlength : rest.length = (j.head - l.cursor).toNat) :
    waitingEntries j l = rest := by
  rw [waitingEntries, ← hlength, h, List.length_append, Nat.add_sub_cancel, List.drop_left]

theorem reachThrough_pass {holds : List OpenHold} {l : Listener} {e : JournalEntry} (rest : List JournalEntry)
    (hc : canReach l = true) (h : PassesEntry holds l e) :
    reachThrough holds (e :: rest) l = reachThrough holds rest { l with cursor := l.cursor + 1 } := by
  conv_lhs => unfold reachThrough
  rw [if_pos hc]
  rcases h with h | ⟨h, hopen⟩
  · simp [h]
  · simp [h, hopen]

theorem reachThrough_deliver {holds : List OpenHold} {l : Listener} {e : JournalEntry} (rest : List JournalEntry)
    (h : entryOutcome l e.body = .deliver) : reachThrough holds (e :: rest) l = l := by
  unfold reachThrough
  rw [h]
  split <;> rfl

theorem reachThrough_stop {holds : List OpenHold} {l : Listener} {e : JournalEntry} (rest : List JournalEntry)
    (hc : canReach l = true) (h : entryOutcome l e.body = .judgeHold) (hopen : holdEntryOpen holds e = true) :
    reachThrough holds (e :: rest) l = stopAt e l := by
  unfold reachThrough
  rw [if_pos hc, h]
  simp [hopen]

/-- Passing entries moves the cursor over them and changes nothing else. -/
theorem reachThrough_passed {holds : List OpenHold} (passed more : List JournalEntry) {l : Listener}
    (hc : canReach l = true) (h : ∀ e ∈ passed, PassesEntry holds l e) :
    reachThrough holds (passed ++ more) l
      = reachThrough holds more { l with cursor := l.cursor + BitVec.ofNat 32 passed.length } := by
  induction passed generalizing l with
  | nil => simp
  | cons e rest ih =>
    rw [List.cons_append, reachThrough_pass _ hc (h e List.mem_cons_self)]
    rw [ih (l := { l with cursor := l.cursor + 1 }) hc (fun x hx => h x (List.mem_cons_of_mem _ hx))]
    have hcursor : l.cursor + 1 + BitVec.ofNat 32 rest.length = l.cursor + BitVec.ofNat 32 (e :: rest).length := by
      rw [List.length_cons, BitVec.ofNat_add, BitVec.add_comm (BitVec.ofNat 32 rest.length), ← BitVec.add_assoc]
      rfl
    rw [hcursor]

theorem entryOutcome_eq_judgeHold_iff (l : Listener) (b : EntryBody) :
    entryOutcome l b = .judgeHold ↔ l.obeys = true ∧ ∃ id source, b = .hold id source := by
  unfold entryOutcome
  cases b <;> simp
  all_goals split <;> simp

theorem holdEntryOpen_iff (holds : List OpenHold) {e : JournalEntry} {id : Nat} {source : HoldSource}
    (h : e.body = .hold id source) :
    holdEntryOpen holds e = true ↔ ∃ x ∈ holds, x.id = id ∧ x.position = e.position := by
  unfold holdEntryOpen
  rw [h]
  simp

theorem reachedEntry_eq_some_iff {j : Journal} {l : Listener} {rest : List JournalEntry}
    (h : waitingEntries j l = rest) (e : JournalEntry) :
    reachedEntry j l = some e ↔
      canReach l = true ∧ entryOutcome l e.body = .deliver ∧ ∃ later, rest = e :: later := by
  unfold reachedEntry
  rw [h]
  cases rest with
  | nil => simp
  | cons x later =>
    by_cases hc : canReach l = true
    · by_cases hx : entryOutcome l x.body = .deliver
      · simp only [hc, hx, if_true, Option.some.injEq, List.cons.injEq, true_and]
        constructor
        · rintro rfl
          exact ⟨hx, later, rfl, rfl⟩
        · rintro ⟨_, _, rfl, _⟩
          rfl
      · simp only [hc, hx, if_true, if_false, reduceCtorEq, true_and, false_iff, not_and, not_exists]
        rintro he more heq
        cases heq
        exact hx he
    · simp [hc]

/-- A reach changes the listeners alone. -/
theorem reachAll_journal (s : State) :
    (reachAll s).journal = { s.journal with
      machine := (reachAll s).journal.machine, station := (reachAll s).journal.station,
      feed := (reachAll s).journal.feed } := rfl

/-- Settles O37: the table of R121 read entry by entry along what waits. -/
theorem listenersReachTheirEntries : Obligations.ListenersReachTheirEntries := by
  unfold Obligations.ListenersReachTheirEntries
  intro reaches delivers
  have hreaches : ∀ l, canReach l = true ↔ reaches l := canReach_iff
  have hdelivers : ∀ l e, l.mode ≠ .off → (delivers l e ↔ entryOutcome l e.body = .deliver) := by
    intro l e hm
    simp only [delivers]
    unfold entryOutcome
    cases hmode : l.mode
    case off => exact absurd hmode hm
    all_goals cases e.body <;> simp
  refine ⟨fun s port before rest => ?_, fun s => ?_, fun j l before rest e hentries hlength => ?_⟩
  · intro j l l' stops passes hentries hlength
    have hwait : waitingEntries s.journal l = rest := waitingEntries_eq hentries hlength
    have hl' : l' = reachThrough s.holds.holds rest l := by
      rw [← hwait]
      exact reachAll_listener port s
    have hstops : ∀ e id source, stops e id source →
        entryOutcome l e.body = .judgeHold ∧ holdEntryOpen s.holds.holds e = true := by
      rintro e id source ⟨ho, hbody, hopen⟩
      exact ⟨(entryOutcome_eq_judgeHold_iff _ _).mpr ⟨ho, id, source, hbody⟩, (holdEntryOpen_iff _ hbody).mpr hopen⟩
    refine ⟨fun hno => ?_, fun hyes passed more hrest hpassed => ?_⟩
    · rw [hl', reachThrough_stopped _ _ _ (by rw [Bool.eq_false_iff, ne_eq, hreaches]; exact hno)]
    · have hc := (hreaches l).mpr hyes
      have hpass : ∀ e ∈ passed, PassesEntry s.holds.holds l e := by
        intro e he
        obtain ⟨hnot, hstop⟩ := hpassed e he
        rw [hdelivers l e hyes.1] at hnot
        cases houtcome : entryOutcome l e.body with
        | deliver => exact absurd houtcome hnot
        | pass => exact .inl houtcome
        | judgeHold =>
          refine .inr ⟨houtcome, Bool.eq_false_iff.mpr fun hopen => ?_⟩
          obtain ⟨ho, id, source, hbody⟩ := (entryOutcome_eq_judgeHold_iff _ _).mp houtcome
          exact hstop id source ⟨ho, hbody, (holdEntryOpen_iff _ hbody).mp hopen⟩
      have hmoved := reachThrough_passed passed more hc hpass
      rw [← hrest, ← hl'] at hmoved
      intro cursor
      refine ⟨fun hmore => ?_, fun e later hmore hd => ?_, fun e later id source hmore hs => ?_⟩
      · rw [hmoved, hmore]
        rfl
      · rw [hmoved, hmore]
        exact reachThrough_deliver later ((hdelivers l e hyes.1).mp hd)
      · obtain ⟨houtcome, hopen⟩ := hstops e id source hs
        rw [hmoved, hmore]
        refine (reachThrough_stop later (l := { l with cursor := cursor }) hc houtcome hopen).trans ?_
        unfold stopAt
        rw [hs.2.1]
        simp only [hyes.2.2.1, List.nil_append]
  · exact State.eq_of_blocks (by simpa using reachAll_journal s)
  · have hwait := waitingEntries_eq hentries hlength
    rw [reachedEntry_eq_some_iff hwait, hreaches]
    exact and_congr_right fun hyes => and_congr_left' (hdelivers l e hyes.1).symm

end Sys2Proof.Machine
end

section
/-! PROOFS. An append to the Text Journal: the entry placed, the views, the listeners overrun (R117 to R119, R126). -/

namespace Sys2Proof.Machine

/-! ### One act on each listener -/

/-- Every listener replaced. -/
def setAll (f : Port → Listener) (s : State) : State :=
  ((s.setListener .machine (f .machine)).setListener .station (f .station)).setListener .feed (f .feed)

/-- REPAINTS counts the runs started, port by port. -/
def countRuns (r : Port → Bool) (s : State) : State :=
  countRun (r .feed) (countRun (r .station) (countRun (r .machine) s))

theorem setAll_eq (f : Port → Listener) (s : State) : setAll f s = { s with
    journal := { s.journal with machine := f .machine, station := f .station, feed := f .feed } } := rfl

theorem setAll_journal (f : Port → Listener) (s : State) :
    (setAll f s).journal
      = { s.journal with machine := f .machine, station := f .station, feed := f .feed } := rfl

@[simp] theorem setAll_frame (f : Port → Listener) (s : State) :
    (setAll f s).capture = s.capture ∧ (setAll f s).log = s.log ∧ (setAll f s).time = s.time ∧
    (setAll f s).dict = s.dict ∧ (setAll f s).trans = s.trans ∧ (setAll f s).holds = s.holds ∧
    (setAll f s).power = s.power ∧ (setAll f s).wake = s.wake ∧ (setAll f s).counters = s.counters ∧
    (setAll f s).ports = s.ports ∧ (setAll f s).pending = s.pending := by
  simp [setAll]

@[simp] theorem setAll_listener (f : Port → Listener) (s : State) (port : Port) :
    (setAll f s).journal.listener port = f port := by
  cases port <;> rfl

@[simp] theorem countRuns_frame (r : Port → Bool) (s : State) :
    (countRuns r s).capture = s.capture ∧ (countRuns r s).log = s.log ∧ (countRuns r s).time = s.time ∧
    (countRuns r s).dict = s.dict ∧ (countRuns r s).trans = s.trans ∧ (countRuns r s).journal = s.journal ∧
    (countRuns r s).holds = s.holds ∧ (countRuns r s).power = s.power ∧ (countRuns r s).wake = s.wake ∧
    (countRuns r s).pending = s.pending := by
  simp [countRuns]

theorem countRun_setAll (b : Bool) (f : Port → Listener) (s : State) :
    countRun b (setAll f s) = setAll f (countRun b s) := by
  simp only [setAll, countRun_setListener]

/-- The counts do not look at the listeners. -/
theorem countRuns_setAll (r : Port → Bool) (f : Port → Listener) (s : State) :
    countRuns r (setAll f s) = setAll f (countRuns r s) := by
  simp only [countRuns, countRun_setAll]

theorem countRuns_setJournal (r : Port → Bool) (j : Journal) (s : State) :
    countRuns r { s with journal := j } = { countRuns r s with journal := j } := by
  have one (b : Bool) (s : State) : countRun b { s with journal := j } = { countRun b s with journal := j } := by
    cases b
    · rfl
    · exact countEvents_setJournal .repaints 1 j s
  simp only [countRuns, one]

/-- An operation that replaces the listener of one port and may count a run, done for each port in turn, judges each
listener as it stood before the first. -/
theorem eachPort_eq {op : Port → State → State} {f : List OpenHold → Journal → Listener → Listener}
    {r : List OpenHold → Journal → Listener → Bool}
    (hop : ∀ port s, op port s = countRun (r s.holds.holds s.journal (s.journal.listener port))
      (s.setListener port (f s.holds.holds s.journal (s.journal.listener port))))
    (hf : ∀ holds j port x l, f holds (j.setListener port x) l = f holds j l)
    (hr : ∀ holds j port x l, r holds (j.setListener port x) l = r holds j l) (s : State) :
    op .feed (op .station (op .machine s))
      = countRuns (fun port => r s.holds.holds s.journal (s.journal.listener port))
          (setAll (fun port => f s.holds.holds s.journal (s.journal.listener port)) s) := by
  have hms : ∀ (j : Journal) (x : Listener), (j.setListener .machine x).listener .station = j.listener .station :=
    fun _ _ => rfl
  have hmf : ∀ (j : Journal) (x : Listener), (j.setListener .machine x).listener .feed = j.listener .feed :=
    fun _ _ => rfl
  have hsf : ∀ (j : Journal) (x : Listener), (j.setListener .station x).listener .feed = j.listener .feed :=
    fun _ _ => rfl
  simp only [hop, countRun_frame, State.setListener_journal, State.setListener_frame, hms, hmf, hsf, hf, hr,
    countRun_setListener, countRuns, setAll]

/-! ### Overrun (R126) -/

/-- The listener an overrun leaves. -/
def overran (removed : Word) (holds : List OpenHold) (j : Journal) (l : Listener) : Listener :=
  if l.cursor = removed then
    if l.paused.isSome then { l with cursor := removed + 1, repaintPending := true }
    else repainted holds j { l with cursor := removed + 1 }
  else l

/-- An overrun starts a run. -/
def overrunRuns (removed : Word) (holds : List OpenHold) (l : Listener) : Bool :=
  decide (l.cursor = removed) && l.paused.isNone && startsRun holds l

theorem overrunOne_eq (removed : Word) (port : Port) (s : State) :
    overrunOne removed port s = countRun (overrunRuns removed s.holds.holds (s.journal.listener port))
      (s.setListener port (overran removed s.holds.holds s.journal (s.journal.listener port))) := by
  obtain ⟨l, hl⟩ : ∃ l, s.journal.listener port = l := ⟨_, rfl⟩
  have hsame : s.setListener port l = s := hl ▸ State.setListener_listener s port
  unfold overrunOne overran overrunRuns
  simp only [State.listener_eq, hl]
  by_cases hc : l.cursor = removed
  · cases hp : l.paused with
    | some id => simp [hc]
    | none =>
      rw [callRepaint_eq, setListener_listener_self, State.setListener_setListener]
      simp [hc, repainted_setListener, startsRun, hp]
  · simp [hc, hsame]

theorem dropOldestEntry_room {s : State} (h : s.journal.entries.length < 1024) : dropOldestEntry s = s := by
  unfold dropOldestEntry
  split
  · rfl
  · exact if_pos h

theorem dropOldestEntry_full {s : State} {oldest : JournalEntry} {rest : List JournalEntry}
    (he : s.journal.entries = oldest :: rest) (h : 1024 ≤ s.journal.entries.length) :
    dropOldestEntry s
      = countRuns (fun port => overrunRuns oldest.position s.holds.holds (s.journal.listener port))
          (setAll (fun port => overran oldest.position s.holds.holds s.journal (s.journal.listener port))
            { s with journal := { s.journal with entries := rest } }) := by
  unfold dropOldestEntry
  rw [he]
  dsimp only
  rw [← he]
  refine (if_neg (Nat.not_lt.mpr h)).trans ?_
  exact eachPort_eq (f := overran oldest.position) (r := fun holds _ => overrunRuns oldest.position holds)
    (overrunOne_eq oldest.position) (fun holds j port x l => by cases port <;> rfl) (fun _ _ _ _ _ => rfl)
    { s with journal := { s.journal with entries := rest } }

/-! ### The entry placed (R117 to R119) -/

theorem placeEntry_ring (b : EntryBody) (j : Journal) :
    (placeEntry b j).entries = j.entries ++ [{ position := j.head, body := b }] ∧
    (placeEntry b j).head = j.head + 1 := by
  obtain ⟨hentries, hhead, _⟩ := applyViews_frame b
    { j with entries := j.entries ++ [{ position := j.head, body := b }], head := j.head + 1 }
  exact ⟨hentries, hhead⟩

theorem placeEntry_listener (b : EntryBody) (j : Journal) (port : Port) :
    (placeEntry b j).listener port = followJournal (j.head + 1) (j.listener port) := by
  obtain ⟨_, _, hm, hs, hf, _⟩ := applyViews_frame b
    { j with entries := j.entries ++ [{ position := j.head, body := b }], head := j.head + 1 }
  cases port
  · exact congrArg (followJournal (j.head + 1)) hm
  · exact congrArg (followJournal (j.head + 1)) hs
  · exact congrArg (followJournal (j.head + 1)) hf

theorem tailAdd_eq (tail text : Text) :
    tailAdd tail text = (tail ++ text).drop ((tail ++ text).length - 2048) := by
  simp only [tailAdd, show Config.tailCapacity = 2048 from rfl]

/-- The views and their tails follow the entry alone. -/
theorem placeEntry_views (b : EntryBody) (j : Journal) :
    let k := placeEntry b j
    let live (length : Word) (tail : Text) : Prop := k.liveLength = length ∧ k.liveTail = tail
    let settled (length : Word) (tail : Text) : Prop := k.settledLength = length ∧ k.settledTail = tail
    match b with
    | .put _ _ text => live (j.liveLength + BitVec.ofNat 32 text.length) (tailAdd j.liveTail text) ∧
        settled j.settledLength j.settledTail ∧ k.lastFix = j.lastFix
    | .take count => live (j.liveLength - BitVec.ofNat 32 count) (tailRemove j.liveTail count) ∧
        settled j.settledLength j.settledTail ∧ k.lastFix = j.lastFix
    | .fix _ text stamp => live j.liveLength j.liveTail ∧
        settled (j.settledLength + BitVec.ofNat 32 text.length) (tailAdd j.settledTail text) ∧
        k.lastFix = some stamp.ms
    | .unfix _ count => live (j.liveLength - BitVec.ofNat 32 count) (tailRemove j.liveTail count) ∧
        settled (j.settledLength - BitVec.ofNat 32 count) (tailRemove j.settledTail count) ∧ k.lastFix = j.lastFix
    | .mark _ _ | .gap _ | .job _ _ | .hold _ _ | .release _ => live j.liveLength j.liveTail ∧
        settled j.settledLength j.settledTail ∧ k.lastFix = j.lastFix := by
  cases b <;> simp [placeEntry, applyViews]

/-- The listener of a port once the ring has room for an entry: overrun when it stood on the entry removed. -/
def madeRoom (s : State) (port : Port) : Listener :=
  if s.journal.entries.length = 1024 then
    overran (s.journal.head - 1024) s.holds.holds s.journal (s.journal.listener port)
  else s.journal.listener port

/-- Making room for an entry starts a run of the listener. -/
def roomRuns (s : State) (port : Port) : Bool :=
  decide (s.journal.entries.length = 1024) &&
    overrunRuns (s.journal.head - 1024) s.holds.holds (s.journal.listener port)

/-- The journal with room for an entry. -/
def roomMade (s : State) : Journal := { s.journal with
  entries := if s.journal.entries.length = 1024 then s.journal.entries.tail else s.journal.entries,
  machine := madeRoom s .machine, station := madeRoom s .station, feed := madeRoom s .feed }

theorem roomMade_listener (s : State) (port : Port) : (roomMade s).listener port = madeRoom s port := by
  cases port <;> rfl

theorem dropOldestEntry_eq {s : State} (h : JournalOk s.journal) :
    dropOldestEntry s = { countRuns (roomRuns s) s with journal := roomMade s } := by
  have hle : s.journal.entries.length ≤ 1024 := h.1.1
  by_cases hfull : s.journal.entries.length = 1024
  · obtain ⟨oldest, rest, he⟩ := List.exists_cons_of_length_pos (by omega : 0 < s.journal.entries.length)
    have hposition := (JournalRing.drop h.1 he hfull).2
    have hruns : (fun port => overrunRuns oldest.position s.holds.holds (s.journal.listener port)) = roomRuns s := by
      funext port
      simp [roomRuns, hfull, hposition]
    have hrooms : (fun port => overran oldest.position s.holds.holds s.journal (s.journal.listener port))
        = madeRoom s := by
      funext port
      simp [madeRoom, hfull, hposition]
    rw [dropOldestEntry_full he (by omega), hruns, hrooms, setAll_eq, countRuns_setJournal, countRuns_setJournal]
    have hrest : (if s.journal.entries.length = 1024 then s.journal.entries.tail else s.journal.entries) = rest := by
      rw [if_pos hfull, he]
      rfl
    simp only [roomMade, hrest]
  · have hruns : roomRuns s = fun _ => false := by
      funext port
      simp [roomRuns, hfull]
    have hrooms : roomMade s = s.journal := by
      simp only [roomMade, madeRoom, if_neg hfull]
      rfl
    rw [dropOldestEntry_room (by omega), hruns, hrooms]
    rfl

/-- The state after an append: the oldest entry goes when the ring is full, and the listeners on it with it. -/
theorem placeInJournal_eq {s : State} (h : JournalOk s.journal) (b : EntryBody) :
    placeInJournal b s = { countRuns (roomRuns s) s with journal := placeEntry b (roomMade s) } := by
  unfold placeInJournal
  dsimp only
  rw [dropOldestEntry_eq h]

theorem cursor_ne_oldest_of_off {j : Journal} {l : Listener} (h : ListenerStands j l) (hm : l.mode = .off) :
    l.cursor ≠ j.head - 1024 := by
  obtain ⟨_, _, _, hoff⟩ := h
  rw [(hoff hm).1]
  bv_omega

theorem roomRuns_iff {s : State} (h : JournalOk s.journal) (port : Port) :
    roomRuns s port = true ↔
      (s.journal.entries.length = 1024 ∧ (s.journal.listener port).cursor = s.journal.head - 1024) ∧
      (s.journal.listener port).paused = none ∧ ((s.journal.listener port).obeys = false ∨ s.holds.holds = []) := by
  have hon : (s.journal.listener port).cursor = s.journal.head - 1024 → (s.journal.listener port).mode ≠ .off :=
    fun hc hm => cursor_ne_oldest_of_off (h.2.2.2 port) hm hc
  unfold roomRuns overrunRuns
  cases hp : (s.journal.listener port).paused with
  | some id => simp
  | none =>
    simp only [Bool.and_eq_true, decide_eq_true_iff, startsRun_iff _ hp, Option.isNone_none, and_true, true_and]
    constructor
    · rintro ⟨hfull, hc, _, hfree⟩
      exact ⟨⟨hfull, hc⟩, hfree⟩
    · rintro ⟨⟨hfull, hc⟩, hfree⟩
      exact ⟨hfull, hc, hon hc, hfree⟩

theorem madeRoom_same {s : State} {port : Port}
    (h : ¬(s.journal.entries.length = 1024 ∧ (s.journal.listener port).cursor = s.journal.head - 1024)) :
    madeRoom s port = s.journal.listener port := by
  unfold madeRoom overran
  split
  · exact if_neg fun hc => h ⟨‹_›, hc⟩
  · rfl

theorem madeRoom_overran {s : State} {port : Port}
    (h : s.journal.entries.length = 1024 ∧ (s.journal.listener port).cursor = s.journal.head - 1024) :
    madeRoom s port
      = if (s.journal.listener port).paused.isSome then
          { s.journal.listener port with cursor := (s.journal.listener port).cursor + 1, repaintPending := true }
        else repainted s.holds.holds s.journal
          { s.journal.listener port with cursor := (s.journal.listener port).cursor + 1 } := by
  unfold madeRoom overran
  rw [if_pos h.1, if_pos h.2, h.2]

/-- Settles O36, from the closed form of an append. -/
theorem appendPlacesTheEntryAtTheHead : Obligations.AppendPlacesTheEntryAtTheHead := by
  intro b s hj
  have ht := placeInJournal_eq hj b
  have hk : (placeInJournal b s).journal = placeEntry b (roomMade s) := by rw [ht]
  have hring := placeEntry_ring b (roomMade s)
  dsimp only
  refine ⟨rfl, ?_, ?_, ?_, ?_, ?_, ?_⟩
  · rw [hk, hring.1]; rfl
  · rw [hk, hring.2]; rfl
  · rw [hk]
    have hviews := placeEntry_views b (roomMade s)
    cases b with
    | put | fix =>
      simp only [tailAdd_eq] at hviews
      exact hviews
    | take | unfix | mark | gap | job | hold | release => exact hviews
  · intro port
    have hstands := hj.2.2.2 port
    have hplaced : (placeInJournal b s).journal.listener port = followJournal (s.journal.head + 1) (madeRoom s port) := by
      rw [hk, placeEntry_listener, roomMade_listener]
      rfl
    have hfollows {l : Listener} (hl : l.mode ≠ .off) : followJournal (s.journal.head + 1) l = l := if_neg hl
    let moved : Listener := { s.journal.listener port with cursor := (s.journal.listener port).cursor + 1 }
    refine ⟨fun hoff => ?_, fun hon hstays => ?_, fun hon hover => ⟨fun hp => ?_, ?_, fun hp hfree => ?_⟩⟩
    · rw [hplaced, madeRoom_same fun hover => cursor_ne_oldest_of_off hstands hoff hover.2]
      exact if_pos hoff
    · rw [hplaced, madeRoom_same hstays, hfollows hon]
    · rw [hplaced, madeRoom_overran hover, if_pos (Option.isSome_iff_ne_none.mpr hp)]
      exact hfollows hon
    · intro hold rest hp hobeys hholds
      rw [hplaced, madeRoom_overran hover, if_neg (by simp [hp]), hholds,
        repainted_pauses (l := moved) _ hon hp hobeys]
      exact hfollows hon
    · rw [hplaced, madeRoom_overran hover, if_neg (by simp [hp]),
        repainted_runs (l := moved) _ hon ((startsRun_iff _ hp).mpr ⟨hon, hfree⟩), freshRun_eq]
      exact hfollows hon
  · refine ⟨countRun (roomRuns s .machine) s, countRun (roomRuns s .station) (countRun (roomRuns s .machine) s),
      countRuns (roomRuns s) s, ?_, ?_, ?_, ?_, ?_, ?_, by rw [ht], by rw [ht]⟩
    all_goals
      intro hruns
      rw [← roomRuns_iff hj] at hruns
      simp [countRuns, hruns]
  · rw [ht]
    exact State.eq_of_blocks (by simp)

end Sys2Proof.Machine
end

section
/-! PROOFS. What the open and the close of a hold leave (R135, R136, R141, R144). -/

namespace Sys2Proof.Machine

/-! ### The id of a hold opened (R135) -/

/-- The ids from `id` on, wrapping from 255 to 1. -/
theorem idAfter_iterate {id : Nat} (h : 1 ≤ id ∧ id ≤ 255) (d : Nat) : (idAfter^[d]) id = (id - 1 + d) % 255 + 1 := by
  induction d with
  | zero => simp; omega
  | succ d ih =>
    rw [Function.iterate_succ_apply', ih, idAfter]
    split <;> omega

theorem idAfter_eq {id : Nat} (h : id ≤ 255) : idAfter id = if id = 255 then 1 else id + 1 := by
  unfold idAfter
  split <;> split <;> omega

/-- The id found is the first of those tried, or the last. -/
theorem firstFreeId_first (holds : List OpenHold) (trials id : Nat) :
    ∃ k, firstFreeId holds trials id = (idAfter^[k]) id ∧
      ∀ d, d < k → ∃ h ∈ holds, h.id = (idAfter^[d]) id := by
  induction trials generalizing id with
  | zero => exact ⟨0, rfl, by simp⟩
  | succ trials ih =>
    unfold firstFreeId
    by_cases hused : holds.any (fun h => h.id == id) = true
    · obtain ⟨k, hk, hbefore⟩ := ih (idAfter id)
      refine ⟨k + 1, by rw [if_pos hused, hk]; rfl, fun d hd => ?_⟩
      cases d with
      | zero => simpa using hused
      | succ d => exact hbefore d (by omega)
    · exact ⟨0, if_neg hused, by simp⟩

/-- Ids tried and found used are no more than the holds, as long as they are distinct. -/
theorem used_length_le {holds : List OpenHold} {f : Nat → Nat} {k : Nat} (hf : ∀ a b, a < k → b < k → f a = f b → a = b)
    (hused : ∀ d, d < k → ∃ h ∈ holds, h.id = f d) : k ≤ holds.length := by
  have hnodup : ((List.range k).map f).Nodup := by
    rw [List.nodup_map_iff_inj_on List.nodup_range]
    intro a ha b hb
    exact hf a b (List.mem_range.mp ha) (List.mem_range.mp hb)
  have hsub : (List.range k).map f ⊆ holds.map (fun h => h.id) := by
    intro x hx
    obtain ⟨d, hd, rfl⟩ := List.mem_map.mp hx
    obtain ⟨h, hh, hid⟩ := hused d (List.mem_range.mp hd)
    exact List.mem_map.mpr ⟨h, hh, hid⟩
  simpa using (List.subperm_of_subset hnodup hsub).length_le

/-- With fewer than 8 holds open the first free id is found within 8 trials. -/
theorem firstFreeId_spec {t : HoldTable} (h : HoldsOk t) (hl : t.holds.length < 8) :
    ∃ k, k < 8 ∧ firstFreeId t.holds 255 t.nextId = (t.nextId - 1 + k) % 255 + 1 ∧
      (∀ x ∈ t.holds, x.id ≠ (t.nextId - 1 + k) % 255 + 1) ∧
      ∀ d, d < k → ∃ x ∈ t.holds, x.id = (t.nextId - 1 + d) % 255 + 1 := by
  obtain ⟨_, hlow, hhigh, _⟩ := h
  obtain ⟨k, hk, hbefore⟩ := firstFreeId_first t.holds 255 t.nextId
  simp only [idAfter_iterate ⟨hlow, hhigh⟩] at hk hbefore
  have hlt : k < 8 := by
    by_contra hge
    have := used_length_le (k := 8) (f := fun d => (t.nextId - 1 + d) % 255 + 1) (by omega)
      fun d hd => hbefore d (by omega)
    omega
  have hfree := firstFreeId_free t.holds t.nextId ⟨hlow, hhigh⟩ hl
  rw [hk] at hfree
  exact ⟨k, hlt, hk, by simpa using hfree, hbefore⟩

/-! ### An open (R136) -/

theorem holdNotice_open (h : OpenHold) (position : Word) (s : State) :
    holdNotice h none position s = {
      kind := .hold,
      fields := byte 0 ++ byte h.id ++ byte (sourceCode h.source) ++ [0] ++ num 4 position.toNat
        ++ byte s.holds.holds.length ++ stampFields (stampNow s) } := rfl

/-- What an open that is not refused leaves. -/
theorem takeHold_opened {becomes : Nat → State → Prop} {source : HoldSource} {owner : Option Word} {s : State}
    (h : HoldsOk s.holds) (hl : s.holds.holds.length < 8)
    (hb : ∀ id t, takeHold source owner s = (t, .opened id) → becomes id t) :
    HoldOpened becomes source owner s := by
  obtain ⟨k, hk, hid, hfree, hbefore⟩ := firstFreeId_spec h hl
  refine ⟨k, hk, hfree, hbefore, hb _ _ ?_⟩
  unfold takeHold
  dsimp only
  rw [hid, holdNotice_open, idAfter_eq (by omega)]
  simp only [placeInJournal_frame, List.length_append, List.length_singleton, stampNow]

theorem openHold_taken {source : HoldSource} {owner : Option Word} {s : State} (hnone : existingHold s source = none)
    (hl : s.holds.holds.length < 8) : openHold source owner s = takeHold source owner s := by
  unfold openHold
  rw [hnone]
  exact if_neg (Nat.not_le.mpr hl)

theorem openHold_full {source : HoldSource} {owner : Option Word} {s : State} (hnone : existingHold s source = none)
    (hl : s.holds.holds.length = 8) : openHold source owner s = (s, .full) := by
  unfold openHold
  rw [hnone]
  exact if_pos (Nat.le_of_eq hl.symm)

theorem openHold_existing {source : HoldSource} {owner : Option Word} {s : State} {h : OpenHold}
    (hsome : existingHold s source = some h) : openHold source owner s = (s, .existing h.id) := by
  unfold openHold
  rw [hsome]

theorem existingHold_eq_none_iff {s : State} {source : HoldSource} (hc : source ≠ .command) :
    existingHold s source = none ↔ ∀ h ∈ s.holds.holds, h.source ≠ source := by
  unfold existingHold
  rw [if_neg hc]
  simp

/-- Each source but COMMAND has one open hold at most. -/
theorem find_source {t : HoldTable} (ht : HoldsOk t) {h : OpenHold} (hh : h ∈ t.holds) (hc : h.source ≠ .command) :
    t.holds.find? (fun x => x.source == h.source) = some h := by
  obtain ⟨_, _, _, _, _, hone⟩ := ht
  have hcount := hone h.source hc
  obtain ⟨x, hx⟩ := Option.isSome_iff_exists.mp
    (List.find?_isSome (p := fun x : OpenHold => x.source == h.source).mpr ⟨h, hh, beq_self_eq_true _⟩)
  rw [hx]
  rw [List.countP_eq_length_filter] at hcount
  have hmem : h ∈ t.holds.filter (fun x => x.source == h.source) := List.mem_filter.mpr ⟨hh, beq_self_eq_true _⟩
  have hxmem : x ∈ t.holds.filter (fun x => x.source == h.source) :=
    List.mem_filter.mpr ⟨List.mem_of_find?_eq_some hx,
      List.find?_some (p := fun x : OpenHold => x.source == h.source) hx⟩
  obtain ⟨a, ha⟩ := List.length_eq_one_iff.mp (Nat.le_antisymm hcount (List.length_pos_of_mem hmem))
  rw [ha, List.mem_singleton] at hmem hxmem
  rw [hmem, hxmem]

theorem existingHold_eq_some {s : State} {h : OpenHold} (ht : HoldsOk s.holds) (hh : h ∈ s.holds.holds)
    (hc : h.source ≠ .command) : existingHold s h.source = some h := by
  unfold existingHold
  rw [if_neg hc, find_source ht hh hc]

/-- What an open that is taken leaves: nothing is left to reach. -/
theorem takeHold_reached {source : HoldSource} {owner : Option Word} {s : State} (h : JournalOk s.journal) :
    reachAll (takeHold source owner s).1 = (takeHold source owner s).1 := by
  unfold takeHold
  exact reachAll_again _ (by simpa using placeInJournal_journalOk _ s h)

theorem takeHold_answer (source : HoldSource) (owner : Option Word) (s : State) :
    ∃ id, takeHold source owner s = ((takeHold source owner s).1, .opened id) ∧
      ((takeHold source owner s).1.holds.holds.map (fun h => h.id)).getLast? = some id := by
  refine ⟨firstFreeId s.holds.holds 255 s.holds.nextId, rfl, ?_⟩
  simp [takeHold]

/-- A listener at the head with nothing to send is neither overrun by an append nor moved by it. -/
theorem placeInJournal_listener_atHead {b : EntryBody} {s : State} {port : Port} (h : JournalOk s.journal)
    (hc : (s.journal.listener port).cursor = s.journal.head) (hm : (s.journal.listener port).mode ≠ .off) :
    (placeInJournal b s).journal.listener port = s.journal.listener port := by
  have hstays : ¬(s.journal.entries.length = 1024 ∧ (s.journal.listener port).cursor = s.journal.head - 1024) := by
    rintro ⟨_, hover⟩
    rw [hc] at hover
    bv_omega
  rw [placeInJournal_eq h]
  dsimp only
  rw [placeEntry_listener, roomMade_listener, madeRoom_same hstays]
  exact if_neg hm

/-- Such a listener has the entry appended before it, and no other. -/
theorem waitingEntries_placed {b : EntryBody} {s : State} {l : Listener} (h : JournalOk s.journal)
    (hc : l.cursor = s.journal.head) :
    waitingEntries (placeInJournal b s).journal l = [{ position := s.journal.head, body := b }] := by
  obtain ⟨hentries, hhead⟩ := placeEntry_ring b (roomMade s)
  rw [placeInJournal_eq h]
  refine waitingEntries_eq hentries ?_
  dsimp only
  rw [hhead, hc]
  show 1 = (s.journal.head + 1 - s.journal.head).toNat
  bv_omega

/-- What the HOLD entry of an open makes of a listener that stood at the head with nothing to send (R121, R124). -/
theorem takeHold_listener_atHead {source : HoldSource} {owner : Option Word} {s t : State} {id : Nat} {port : Port}
    (ht : takeHold source owner s = (t, .opened id)) (h : JournalOk s.journal)
    (hc : (s.journal.listener port).cursor = s.journal.head) (hr : canReach (s.journal.listener port) = true) :
    ((s.journal.listener port).obeys = true →
      t.journal.listener port
        = stopAt { position := s.journal.head, body := .hold id source } (s.journal.listener port)) ∧
    ((s.journal.listener port).obeys = false → t.journal.listener port = s.journal.listener port ∧
      reachedEntry t.journal (s.journal.listener port)
        = some { position := s.journal.head, body := .hold id source }) := by
  obtain ⟨l, hl⟩ : ∃ l, s.journal.listener port = l := ⟨_, rfl⟩
  rw [hl] at hc hr ⊢
  obtain ⟨hm, _⟩ := (canReach_iff l).mp hr
  simp only [takeHold, Prod.mk.injEq, OpenAnswer.opened.injEq] at ht
  obtain ⟨ht, hid⟩ := ht
  rw [hid] at ht
  subst ht
  generalize hu : raiseNotice _ _ = u
  have hj : u.journal = (placeInJournal (.hold id source) s).journal := by
    rw [← hu]
    simp
  have hholds : ∃ x ∈ u.holds.holds, x.id = id ∧ x.position = s.journal.head := by
    rw [← hu]
    simp
  have hwait : waitingEntries u.journal l = [{ position := s.journal.head, body := .hold id source }] := by
    rw [hj]
    exact waitingEntries_placed h hc
  have hstood : u.journal.listener port = l := by
    rw [hj, placeInJournal_listener_atHead h (by rw [hl]; exact hc) (by rw [hl]; exact hm), hl]
  have hreach : (reachAll u).journal.listener port = reachThrough u.holds.holds (waitingEntries u.journal l) l := by
    rw [← hstood]
    exact reachAll_listener port u
  rw [hwait] at hreach
  refine ⟨fun ho => ?_, fun ho => ?_⟩
  · rw [hreach]
    exact reachThrough_stop [] hr ((entryOutcome_eq_judgeHold_iff _ _).mpr ⟨ho, id, source, rfl⟩)
      ((holdEntryOpen_iff _ rfl).mpr hholds)
  · have hdeliver : entryOutcome l (.hold id source) = .deliver := by simp [entryOutcome, ho]
    refine ⟨hreach.trans (reachThrough_deliver [] hdeliver), ?_⟩
    exact (reachedEntry_eq_some_iff (rest := [{ position := s.journal.head, body := .hold id source }]) hwait _).mpr
      ⟨hr, hdeliver, [], rfl⟩

/-! ### HOLD (R137) -/

/-- The port's own source, as HOLD and UNHOLD are permitted. -/
theorem ownSource_eq {port : Port} {source : HoldSource}
    (h : (port = .machine ∧ source = .machine) ∨ (port = .station ∧ source = .station)) :
    ownSource port = some source ∧ source ≠ .command := by
  rcases h with ⟨rfl, rfl⟩ | ⟨rfl, rfl⟩ <;> exact ⟨rfl, by simp⟩

theorem holdOwner_eq {port : Port} {source : HoldSource} (h : ownSource port = some source) (s : State) :
    holdOwner port s = ((openHold source none s).1, holdVerdict (openHold source none s).2) := by
  unfold holdOwner
  rw [h]

theorem dozeReady_takeHold (source : HoldSource) (owner : Option Word) (s : State) :
    dozeReady (takeHold source owner s).1 = dozeReady s := by
  simp [dozeReady, loadPaused]

/-- Settles O40, by the three answers of an open. -/
theorem holdOpensAHold : Obligations.HoldOpensAHold := by
  intro port source s hport hr hj hh ht
  obtain ⟨hown, hc⟩ := ownSource_eq hport
  refine ⟨fun h hmem hsource => ?_, fun hnone => ?_⟩
  · subst hsource
    refine congrArg Host.Outcome.next (takeRequest_refused (v := answerOk (byte h.id ++ byte 0)) hr ht ?_)
    rw [holdOwner_eq hown, openHold_existing (existingHold_eq_some hh hmem hc)]
    rfl
  · have hfree := (existingHold_eq_none_iff hc).mpr hnone
    refine ⟨fun hfull => ?_, fun hl => ?_⟩
    · refine congrArg Host.Outcome.next (takeRequest_refused (v := refuse .full) hr ht ?_)
      rw [holdOwner_eq hown, openHold_full hfree hfull]
      rfl
    · have howner : ∀ id t, takeHold source none s = (t, .opened id) →
          exec (.hold port) s = .next (driveAttention (pushReply port (.answer 7 .ok (byte id ++ byte 1)) t)) := by
        intro id t htaken
        have hreach := takeHold_reached (source := source) (owner := none) hj
        have hdoze := dozeReady_takeHold source none s
        rw [htaken] at hreach hdoze
        refine congrArg Host.Outcome.next
          (takeRequest_reached (v := answerOk (byte id ++ byte 1)) ht ?_ (hdoze.trans hr.1) hreach)
        rw [holdOwner_eq hown, openHold_taken hfree hl, htaken]
        rfl
      obtain ⟨id, htaken, hlast⟩ := takeHold_answer source none s
      refine ⟨takeHold_opened hh hl howner, _, id, howner id _ htaken, by simpa using hlast, ?_⟩
      intro other l l' hcursor hm hp hn hrun
      have hreach : canReach l = true := (canReach_iff l).mpr ⟨hm, hp, hn, hrun⟩
      obtain ⟨hobeys, hnot⟩ := takeHold_listener_atHead htaken hj hcursor hreach
      have hl' : l' = (takeHold source none s).1.journal.listener other := by simp [l']
      refine ⟨fun ho => ?_, fun ho => ?_⟩
      · rw [hl', hobeys ho]
        simp [stopAt, l, hn]
      · obtain ⟨hsame, hoffer⟩ := hnot ho
        rw [hl', hsame]
        exact ⟨rfl, by simpa using hoffer⟩

end Sys2Proof.Machine
end

section
/-! PROOFS. What the close of a hold leaves (R141, R144). -/

namespace Sys2Proof.Machine

/-! ### A close in closed form -/

theorem raiseNotice_setListener (n : Notice) (port : Port) (l : Listener) (s : State) :
    raiseNotice n (s.setListener port l) = (raiseNotice n s).setListener port l := rfl

theorem raiseNotice_setAll (n : Notice) (f : Port → Listener) (s : State) :
    raiseNotice n (setAll f s) = setAll f (raiseNotice n s) := by
  simp only [setAll, raiseNotice_setListener]

theorem reachAll_raiseNotice (n : Notice) (s : State) : reachAll (raiseNotice n s) = raiseNotice n (reachAll s) := by
  have one (port : Port) (s : State) : reachOne port (raiseNotice n s) = raiseNotice n (reachOne port s) := by
    simp only [reachOne, State.listener_eq, raiseNotice_frame, raiseNotice_setListener]
  simp only [reachAll, one]

theorem setAll_same (s : State) : setAll s.journal.listener s = s := rfl

/-- The part with a hold out of the table and its RELEASE entry appended. -/
def withoutHold (h : OpenHold) (s : State) : State := { appendEntry (.release h.id) s with
  holds := { s.holds with holds := s.holds.holds.filter (fun x => x.id != h.id) } }

@[simp] theorem withoutHold_journal (h : OpenHold) (s : State) :
    (withoutHold h s).journal = (appendEntry (.release h.id) s).journal := rfl

@[simp] theorem withoutHold_holds (h : OpenHold) (s : State) :
    (withoutHold h s).holds = { s.holds with holds := s.holds.holds.filter (fun x => x.id != h.id) } := rfl

theorem withoutHold_eq (h : OpenHold) (s : State) :
    withoutHold h s = { s with
      journal := (withoutHold h s).journal, holds := (withoutHold h s).holds,
      counters := (withoutHold h s).counters, ports := (withoutHold h s).ports } :=
  State.eq_of_blocks (by simp [withoutHold])

/-- The listener of a port after a close: one paused on the hold ends its pause. -/
def afterClose (id : Nat) (c : State) (port : Port) : Listener :=
  if (c.journal.listener port).paused = some id then resumed c.holds.holds c.journal (c.journal.listener port)
  else c.journal.listener port

/-- A close starts a run of the listener. -/
def closeRuns (id : Nat) (c : State) (port : Port) : Bool :=
  decide ((c.journal.listener port).paused = some id)
    && resumeRuns c.holds.holds c.journal (c.journal.listener port)

/-- The HOLD notice of a close. -/
def closeNotice (h : OpenHold) (cause : CloseCause) (s : State) : Notice := {
  kind := .hold,
  fields := byte 1 ++ byte h.id ++ byte (sourceCode h.source) ++ (1 :: byte (closeCauseCode cause))
    ++ num 4 s.journal.head.toNat ++ byte (s.holds.holds.filter (fun x => x.id != h.id)).length
    ++ stampFields (stampNow s) }

theorem resumeIfOn_all (id : Nat) (c : State) :
    resumeIfOn id .feed (resumeIfOn id .station (resumeIfOn id .machine c))
      = setAll (afterClose id c) (countRuns (closeRuns id c) c) := by
  rw [← countRuns_setAll]
  refine eachPort_eq (op := resumeIfOn id)
    (f := fun holds j l => if l.paused = some id then resumed holds j l else l)
    (r := fun holds j l => decide (l.paused = some id) && resumeRuns holds j l)
    (resumeIfOn_eq id) (fun holds j port x l => ?_) (fun holds j port x l => ?_) c
  · cases port <;> rfl
  · cases port <;> rfl

theorem closeThis_eq (h : OpenHold) (cause : CloseCause) (s : State) :
    closeThis h cause s = reachAll (setAll (afterClose h.id (withoutHold h s))
      (raiseNotice (closeNotice h cause s)
        (countRuns (closeRuns h.id (withoutHold h s)) (withoutHold h s)))) := by
  have hclosed : { appendEntry (.release h.id) s with
      holds := { (appendEntry (.release h.id) s).holds with
        holds := (appendEntry (.release h.id) s).holds.holds.filter (fun x => x.id != h.id) } } = withoutHold h s := by
    simp [withoutHold]
  have hnotice (t : State) (hh : t.holds = (withoutHold h s).holds) (ht : t.time = s.time) :
      holdNotice h (some cause) s.journal.head t = closeNotice h cause s := by
    simp [holdNotice, closeNotice, hh, stampNow, ht, opt]
  unfold closeThis
  dsimp only
  rw [hclosed, resumeIfOn_all, hnotice _ (by simp) (by simp [withoutHold]), raiseNotice_setAll]

/-! ### The listeners after a close -/

theorem passedHolds_head? (holds : List OpenHold) (j : Journal) (l : Listener) :
    (passedHolds holds j l).head?
      = holds.find? (fun x => decide ((j.head - l.cursor).toNat ≤ (x.position - l.cursor).toNat)) := by
  unfold passedHolds
  rw [List.head?_filter]
  refine congrArg (holds.find? ·) (funext fun x => ?_)
  rw [← decide_not, decide_eq_decide]
  exact Nat.not_lt

theorem resumed_passed {holds : List OpenHold} {j : Journal} {l : Listener} {x : OpenHold}
    (h : (passedHolds holds j (endPause l)).head? = some x) : resumed holds j l = pauseOn x (endPause l) := by
  unfold resumed
  cases hp : passedHolds holds j (endPause l) with
  | nil => simp [hp] at h
  | cons y rest =>
    rw [hp, List.head?_cons, Option.some.injEq] at h
    rw [h]

theorem resumed_none {holds : List OpenHold} {j : Journal} {l : Listener}
    (h : (passedHolds holds j (endPause l)).head? = none) :
    resumed holds j l = if (endPause l).repaintPending then repainted holds j (endPause l) else endPause l := by
  unfold resumed
  rw [List.head?_eq_none_iff.mp h]

theorem resumeRuns_iff {holds : List OpenHold} {j : Journal} {l : Listener} {id : Nat} (h : l.paused = some id) :
    resumeRuns holds j l = true ↔ (passedHolds holds j (endPause l)).head? = none ∧ l.repaintPending = true ∧
      l.mode ≠ .off ∧ (l.obeys = false ∨ holds = []) := by
  have hend := endPause_some h
  have hp : (endPause l).paused = none := by rw [hend]
  have hm : (endPause l).mode = l.mode := by rw [hend]
  have ho : (endPause l).obeys = l.obeys := by rw [hend]
  have hr : (endPause l).repaintPending = l.repaintPending := by rw [hend]
  unfold resumeRuns
  rw [Bool.and_eq_true, Bool.and_eq_true, startsRun_iff _ hp, hm, ho, hr, List.isEmpty_iff,
    List.head?_eq_none_iff, and_assoc]

/-- A listener pauses on open holds alone. -/
theorem reachThrough_paused {holds : List OpenHold} {entries : List JournalEntry} {l : Listener} {id : Nat}
    (h : (reachThrough holds entries l).paused = some id) : l.paused = some id ∨ ∃ x ∈ holds, x.id = id := by
  induction entries generalizing l with
  | nil => exact .inl h
  | cons e rest ih =>
    unfold reachThrough at h
    split at h
    case isFalse => exact .inl h
    case isTrue hc =>
      split at h
      · exact .inl h
      · have hnext := ih h
        exact hnext
      · rename_i ho
        obtain ⟨_, hid, source, hbody⟩ := (entryOutcome_eq_judgeHold_iff _ _).mp ho
        split at h
        · rename_i hopen
          obtain ⟨x, hx, hxid, _⟩ := (holdEntryOpen_iff _ hbody).mp hopen
          simp only [stopAt, hbody, Option.some.injEq] at h
          exact .inr ⟨x, hx, hxid.trans h⟩
        · have hnext := ih h
          exact hnext

theorem repainted_paused {holds : List OpenHold} {j : Journal} {l : Listener} {id : Nat}
    (h : (repainted holds j l).paused = some id) : l.paused = some id ∨ ∃ x ∈ holds, x.id = id := by
  unfold repainted at h
  split at h
  · exact .inl h
  · split at h
    · rename_i earliest rest _ _
      exact .inr ⟨earliest, List.mem_cons_self, by simpa [pauseOn] using h⟩
    · exact .inl h

theorem resumed_paused {holds : List OpenHold} {j : Journal} {l : Listener} {id own : Nat} (hl : l.paused = some own)
    (h : (resumed holds j l).paused = some id) : ∃ x ∈ holds, x.id = id := by
  have hnone : (endPause l).paused ≠ some id := by simp [endPause_some hl]
  cases hp : (passedHolds holds j (endPause l)).head? with
  | some x =>
    rw [resumed_passed hp] at h
    have hmem : x ∈ passedHolds holds j (endPause l) := List.mem_of_head? hp
    exact ⟨x, List.mem_of_mem_filter hmem, by simpa [pauseOn] using h⟩
  | none =>
    rw [resumed_none hp] at h
    split at h
    · exact (repainted_paused h).resolve_left hnone
    · exact absurd h hnone

/-- After a close no listener is paused on the hold. -/
theorem afterClose_reached_paused (h : OpenHold) {s u : State} (port : Port)
    (hu : u.journal.listener port = afterClose h.id (withoutHold h s) port)
    (hh : u.holds = (withoutHold h s).holds) : ((reachAll u).journal.listener port).paused ≠ some h.id := by
  intro hp
  have hreach := reachAll_listener port u
  simp only [State.listener_eq] at hreach
  rw [hreach] at hp
  have hopen : ¬∃ x ∈ u.holds.holds, x.id = h.id := by
    rw [hh]
    simp
  have hlistener := (reachThrough_paused hp).resolve_right hopen
  rw [hu, afterClose] at hlistener
  split at hlistener
  · rename_i hown
    rw [hh] at hopen
    exact hopen (resumed_paused hown hlistener)
  · exact absurd hlistener ‹_›

/-! ### The entry of a close -/

theorem placeInJournal_ring (b : EntryBody) (s : State) :
    (placeInJournal b s).journal.head = s.journal.head + 1 ∧
    (placeInJournal b s).journal.entries.getLast? = some { position := s.journal.head, body := b } := by
  have hhead : (dropOldestEntry s).journal.head = s.journal.head := by
    rcases Nat.lt_or_ge s.journal.entries.length 1024 with hroom | hfull
    · rw [dropOldestEntry_room hroom]
    · obtain ⟨oldest, rest, he⟩ := List.exists_cons_of_length_pos (by omega : 0 < s.journal.entries.length)
      rw [dropOldestEntry_full he hfull, countRuns_setAll]
      rw [setAll_journal]
      simp
  obtain ⟨hentries, hnext⟩ := placeEntry_ring b (dropOldestEntry s).journal
  rw [hhead] at hentries hnext
  refine ⟨hnext, ?_⟩
  rw [show (placeInJournal b s).journal = placeEntry b (dropOldestEntry s).journal from rfl, hentries]
  simp

/-- What a close of a hold leaves (R141, R144). -/
theorem closeThis_closed {becomes : State → Prop} {h : OpenHold} {cause : CloseCause} {s : State}
    (hb : becomes (closeThis h cause s)) : HoldClosed becomes h (closeCauseCode cause) s := by
  unfold HoldClosed
  intro rest notice released j closed ended pausedOn passed called runs
  have hclosed : closed = withoutHold h s := rfl
  have hnotice : notice = closeNotice h cause s := rfl
  have hj : (withoutHold h s).journal = j := rfl
  have hrest : (withoutHold h s).holds.holds = rest := rfl
  rw [closeThis_eq] at hb
  generalize hf : afterClose h.id (withoutHold h s) = f at hb
  generalize hr : closeRuns h.id (withoutHold h s) = r at hb
  have hf' (port : Port) : f port = if (j.listener port).paused = some h.id
      then resumed rest j (j.listener port) else j.listener port := by
    rw [← hf, afterClose, hj, hrest]
  have hhead {l : Listener} (hp : l.paused = some h.id) :
      (passedHolds rest j (endPause l)).head? = passed l := by
    rw [passedHolds_head?, endPause_some hp]
  have hruns (port : Port) : r port = true ↔ runs port := by
    rw [← hr, closeRuns, hj, hrest, Bool.and_eq_true, decide_eq_true_iff]
    simp only [runs, called, and_assoc]
    refine and_congr_right fun hp => ?_
    rw [resumeRuns_iff hp, hhead hp]
  rw [← hclosed, ← hnotice] at hb
  refine ⟨fun hother => ?_, setAll f (raiseNotice notice (countRuns r closed)), countRun (r .machine) closed,
    countRun (r .station) (countRun (r .machine) closed), countRuns r closed, hb, fun port => ?_, ?_⟩
  · have hsame : f = closed.journal.listener := funext fun port =>
      (hf' port).trans (if_neg (hother port))
    have hnone : r = fun _ => false := funext fun port => by
      rw [Bool.eq_false_iff, ne_eq, hruns]
      exact fun hrun => hother port hrun.1.1
    have hstays : countRuns (fun _ => false) closed = closed := rfl
    rw [hnone, hstays, ← raiseNotice_setAll, hsame, setAll_same, reachAll_raiseNotice] at hb
    exact hb
  · intro l l'
    have hl' : l' = if l.paused = some h.id then resumed rest j l else l := (setAll_listener f _ port).trans (hf' port)
    have hend (hp : l.paused = some h.id) : endPause l = ended l := endPause_some hp
    have hcalled (hc : called l) : l' = repainted rest j (ended l) := by
      obtain ⟨hp, hnone, hpending, _⟩ := hc
      rw [hl', if_pos hp, resumed_none ((hhead hp).trans hnone), hend hp]
      exact if_pos hpending
    refine ⟨fun hp => hl'.trans (if_neg hp), fun other hp hpassed => ?_, fun hp hnone hquiet => ?_,
      fun earliest more hc ho hmore => ?_, fun hrun => ?_⟩
    · rw [hl', if_pos hp, resumed_passed ((hhead hp).trans hpassed), hend hp]
      rfl
    · rw [hl', if_pos hp, resumed_none ((hhead hp).trans hnone), hend hp]
      rcases hquiet with hquiet | hoff
      · exact if_neg (by simp [ended, hquiet])
      · rw [repainted_off (l := ended l) hoff]
        exact ite_self _
    · rw [hcalled hc, hmore]
      exact repainted_pauses (l := ended l) j hc.2.2.2 rfl ho
    · obtain ⟨hc, hfree⟩ := hrun
      rw [hcalled hc, repainted_runs (l := ended l) j hc.2.2.2 ((startsRun_iff _ rfl).mpr ⟨hc.2.2.2, hfree⟩),
        freshRun_eq]
  have hcount (port : Port) (t : State) :
      (runs port → countRun (r port) t = countOne .repaints t) ∧ (¬runs port → countRun (r port) t = t) := by
    rw [← hruns]
    refine ⟨fun hrun => ?_, fun hrun => ?_⟩
    · rw [hrun, countRun_true]
    · rw [Bool.eq_false_iff.mpr hrun, countRun_false]
  obtain ⟨hhead', hlast⟩ := placeInJournal_ring (.release h.id) s
  refine ⟨(hcount _ _).1, (hcount _ _).2, (hcount _ _).1, (hcount _ _).2, (hcount _ _).1, (hcount _ _).2,
    ?_, ?_, ?_, ?_, ?_, fun port => ?_, ?_⟩
  · simp
  · simp
  · exact State.eq_of_blocks (by simp [setAll_journal, hclosed, ← hj])
  · exact hhead'
  · exact hlast
  · exact afterClose_reached_paused h port (by rw [setAll_listener, ← hf]) (by simp [hclosed])
  · exact withoutHold_eq h s

end Sys2Proof.Machine
end

section
/-! PROOFS. UNHOLD (R138), the hold limit (R142, R143) and the hold a reopened unit owns (R140). -/

namespace Sys2Proof.Machine

/-! ### The holds closed -/

theorem closeThis_reached (h : OpenHold) (cause : CloseCause) {s : State} (hj : JournalOk s.journal) :
    reachAll (closeThis h cause s) = closeThis h cause s := by
  have happended := appendEntry_journalOk (.release h.id) s hj
  unfold closeThis
  apply reachAll_again
  simp only [raiseNotice_frame]
  apply_rules [resumeIfOn_journalOk]

@[simp] theorem closeThis_holds (h : OpenHold) (cause : CloseCause) (s : State) :
    (closeThis h cause s).holds = { s.holds with holds := s.holds.holds.filter (fun x => x.id != h.id) } := by
  rw [closeThis_eq]
  simp

theorem dozeReady_closeThis (h : OpenHold) (cause : CloseCause) (s : State) :
    dozeReady (closeThis h cause s) = dozeReady s := by
  simp [dozeReady, loadPaused]

/-- A hold is found by its id. -/
theorem find_id {t : HoldTable} (ht : HoldsOk t) {h : OpenHold} (hh : h ∈ t.holds) {test : OpenHold → Bool}
    (htest : test h = true) (hid : ∀ x, test x = true → x.id = h.id) : t.holds.find? test = some h := by
  obtain ⟨_, _, _, hnodup, _⟩ := ht
  obtain ⟨x, hx⟩ := Option.isSome_iff_exists.mp (List.find?_isSome.mpr ⟨h, hh, htest⟩)
  have hsame : x.id = h.id := hid x (List.find?_some hx)
  rw [hx, List.inj_on_of_nodup_map hnodup (List.mem_of_find?_eq_some hx) hh hsame]

theorem closeWhere_found {test : OpenHold → Bool} {cause : CloseCause} {s : State} {h : OpenHold}
    (hf : s.holds.holds.find? test = some h) : closeWhere test cause s = closeThis h cause s := by
  unfold closeWhere
  rw [hf]

theorem closeWhere_none {test : OpenHold → Bool} {cause : CloseCause} {s : State}
    (hf : ∀ h ∈ s.holds.holds, test h = false) : closeWhere test cause s = s := by
  unfold closeWhere
  rw [List.find?_eq_none.mpr fun h hh => by simp [hf h hh]]

theorem ownHold_eq {port : Port} {source : HoldSource} (h : ownSource port = some source) (s : State) :
    ownHold s port = s.holds.holds.find? (fun x => x.source == source) := by
  unfold ownHold
  rw [h]

/-- Settles O41: the port's own hold is the one open hold of its source. -/
theorem unholdClosesTheOwnHold : Obligations.UnholdClosesTheOwnHold := by
  intro port source s hport hr hj hh ht
  obtain ⟨hown, hc⟩ := ownSource_eq hport
  refine ⟨fun hnone => ?_, fun h hmem hsource => ?_⟩
  · refine congrArg Host.Outcome.next (takeRequest_refused (v := answerOk [0]) hr ht ?_)
    have hfree : ownHold s port = none := by
      rw [ownHold_eq hown]
      simpa using hnone
    unfold unholdOwner
    rw [hfree]
    rfl
  · subst hsource
    refine closeThis_closed (cause := .owner) (congrArg Host.Outcome.next
      (takeRequest_reached (v := answerOk (1 :: byte h.id)) ht ?_
        ((dozeReady_closeThis _ _ _).trans hr.1) (closeThis_reached _ _ hj)))
    unfold unholdOwner
    rw [ownHold_eq hown, find_source hh hmem hc]
    rfl

/-! ### Holds closed one after another (R143) -/

theorem closeEach_cons {cause : CloseCause} {h : OpenHold} {rest : List OpenHold} {s : State} (ht : HoldsOk s.holds)
    (hh : h ∈ s.holds.holds) :
    closeEach cause (h :: rest) s = closeEach cause rest (closeThis h cause s) := by
  unfold closeEach
  rw [closeWhere_found (find_id ht hh (beq_self_eq_true h.id) fun x hx => by simpa using hx)]
  cases rest <;> rfl

/-- The holds of a list are open, each once. -/
def EachOpen (l : List OpenHold) (s : State) : Prop :=
  (l.map (fun h => h.id)).Nodup ∧ ∀ h ∈ l, h ∈ s.holds.holds

theorem EachOpen.closed {h : OpenHold} {rest : List OpenHold} {s : State} (hl : EachOpen (h :: rest) s)
    (cause : CloseCause) : EachOpen rest (closeThis h cause s) := by
  obtain ⟨hnodup, hopen⟩ := hl
  rw [List.map_cons, List.nodup_cons] at hnodup
  refine ⟨hnodup.2, fun x hx => ?_⟩
  rw [closeThis_holds]
  refine List.mem_filter.mpr ⟨hopen x (List.mem_cons_of_mem _ hx), ?_⟩
  have hother : x.id ≠ h.id := fun heq => hnodup.1 (heq ▸ List.mem_map_of_mem hx)
  simpa using hother

theorem closeEach_closed {becomes : State → Prop} {cause : CloseCause} {l : List OpenHold} {s : State}
    (ht : HoldsOk s.holds) (hl : EachOpen l s) (hb : becomes (closeEach cause l s)) :
    HoldsClosed becomes (closeCauseCode cause) l s := by
  induction l generalizing s with
  | nil => exact hb
  | cons h rest ih =>
    rw [closeEach_cons ht (hl.2 h List.mem_cons_self)] at hb
    exact closeThis_closed (ih (closeThis_holdsOk h cause s ht) (hl.closed cause) hb)

theorem closeEach_holds {cause : CloseCause} {l : List OpenHold} {s : State} (ht : HoldsOk s.holds)
    (hl : EachOpen l s) :
    (closeEach cause l s).holds
      = { s.holds with holds := s.holds.holds.filter (fun x => l.all (fun h => x.id != h.id)) } := by
  induction l generalizing s with
  | nil => simp [closeEach]
  | cons h rest ih =>
    rw [closeEach_cons ht (hl.2 h List.mem_cons_self), ih (closeThis_holdsOk h cause s ht) (hl.closed cause)]
    simp [List.filter_filter, Bool.and_comm]

theorem closeEach_reached {cause : CloseCause} {l : List OpenHold} {s : State} (ht : HoldsOk s.holds)
    (hl : EachOpen l s) (hj : JournalOk s.journal) (hreach : reachAll s = s) :
    reachAll (closeEach cause l s) = closeEach cause l s := by
  induction l generalizing s with
  | nil => exact hreach
  | cons h rest ih =>
    rw [closeEach_cons ht (hl.2 h List.mem_cons_self)]
    exact ih (closeThis_holdsOk h cause s ht) (hl.closed cause) (closeThis_journalOk h cause hj)
      (closeThis_reached h cause hj)

/-- A RELEASE entry stands last in the journal after a close, and what stood at its end stands before it. -/
theorem closeThis_entries {h : OpenHold} {cause : CloseCause} {s : State} (hj : JournalOk s.journal)
    {before last : List EntryBody} (he : s.journal.entries.map (fun e => e.body) = before ++ last)
    (hl : last.length < 1024) :
    ∃ before', (closeThis h cause s).journal.entries.map (fun e => e.body) = before' ++ (last ++ [.release h.id]) := by
  have hentries : (closeThis h cause s).journal.entries = (placeInJournal (.release h.id) s).journal.entries := by
    rw [closeThis_eq, reachAll_journal, setAll_journal]
    simp
    rfl
  obtain ⟨hring, _⟩ := placeEntry_ring (.release h.id) (roomMade s)
  rw [hentries, placeInJournal_eq hj]
  dsimp only
  rw [hring]
  by_cases hfull : s.journal.entries.length = 1024
  · have hlen := congrArg List.length he
    rw [List.length_map, List.length_append, hfull] at hlen
    have hne : before ≠ [] := List.ne_nil_of_length_pos (by omega)
    refine ⟨before.tail, ?_⟩
    simp only [roomMade, if_pos hfull, List.map_append, List.map_tail, he, List.tail_append_of_ne_nil hne]
    simp
  · refine ⟨before, ?_⟩
    simp only [roomMade, if_neg hfull, List.map_append, he]
    simp

theorem closeEach_entries {cause : CloseCause} {l : List OpenHold} {s : State} (ht : HoldsOk s.holds)
    (hl : EachOpen l s) (hj : JournalOk s.journal) {before last : List EntryBody}
    (he : s.journal.entries.map (fun e => e.body) = before ++ last) (hlength : last.length + l.length ≤ 1024) :
    ∃ before', (closeEach cause l s).journal.entries.map (fun e => e.body)
      = before' ++ (last ++ l.map (fun h => .release h.id)) := by
  induction l generalizing s before last with
  | nil => exact ⟨before, by simpa [closeEach] using he⟩
  | cons h rest ih =>
    rw [List.length_cons] at hlength
    obtain ⟨before', he'⟩ := closeThis_entries (h := h) (cause := cause) hj he (by omega)
    rw [closeEach_cons ht (hl.2 h List.mem_cons_self)]
    obtain ⟨before'', he''⟩ := ih (closeThis_holdsOk h cause s ht) (hl.closed cause) (closeThis_journalOk h cause hj) he'
      (by rw [List.length_append, List.length_singleton]; omega)
    exact ⟨before'', by simpa using he''⟩

/-! ### The hold limit (R142, R143) -/

theorem limitReached_iff (minutes : Nat) (h : OpenHold) :
    limitReached minutes h = true ↔ minutes ≠ 0 ∧ minutes * 245760 ≤ h.age := by
  unfold limitReached
  rw [Bool.and_eq_true, bne_iff_ne, decide_eq_true_iff]
  rfl

theorem eachOpen_filter {s : State} (ht : HoldsOk s.holds) (p : OpenHold → Bool) :
    EachOpen (s.holds.holds.filter p) s := by
  obtain ⟨_, _, _, hnodup, _⟩ := ht
  exact ⟨(List.Sublist.map _ List.filter_sublist).nodup hnodup, fun h hh => List.mem_of_mem_filter hh⟩

/-- Taking the holds that meet a test out, by their ids, leaves those that do not meet it. -/
theorem filter_closed {t : HoldTable} (ht : HoldsOk t) (p : OpenHold → Bool) :
    t.holds.filter (fun x => (t.holds.filter p).all (fun h => x.id != h.id)) = t.holds.filter (fun x => !p x) := by
  obtain ⟨_, _, _, hnodup, _⟩ := ht
  refine List.filter_congr fun x hx => Bool.eq_iff_iff.mpr ?_
  rw [List.all_eq_true, Bool.not_eq_true']
  refine ⟨fun h => Bool.eq_false_iff.mpr fun hp => ?_, fun hp h hh => ?_⟩
  · simpa using h x (List.mem_filter.mpr ⟨hx, hp⟩)
  · obtain ⟨hmem, hph⟩ := List.mem_filter.mp hh
    refine bne_iff_ne.mpr fun heq => ?_
    rw [List.inj_on_of_nodup_map hnodup hx hmem heq, hph] at hp
    exact Bool.noConfusion hp

/-- The hold limit alone leaves a part at rest at rest. -/
theorem Rested.limited {s : State} (hr : Rested s) (minutes : Nat) :
    Rested { s with holds := { s.holds with limit := minutes } } := by
  obtain ⟨hd, hreach, ha⟩ := hr
  exact ⟨hd, (reachAll_eq_self_iff _).mpr ((reachAll_eq_self_iff s).mp hreach), ha⟩

theorem setHoldLimit_reached {minutes : Nat} {s : State} (hr : Rested s) (hj : JournalOk s.journal)
    (ht : HoldsOk s.holds) : reachAll (setHoldLimit minutes s) = setHoldLimit minutes s := by
  refine closeEach_reached (s := { s with holds := { s.holds with limit := minutes } }) ht
    (eachOpen_filter (s := { s with holds := { s.holds with limit := minutes } }) ht _) hj (hr.limited minutes).2.1

theorem holdLimitSetOwner_eq (minutes : Nat) (s : State) :
    holdLimitSetOwner minutes s = (setHoldLimit (min 60 minutes) s,
      { status := if 60 < minutes then .adjusted else .ok, fields := byte (min 60 minutes) }) := by
  unfold holdLimitSetOwner answerAdjusted
  by_cases h : 60 < minutes <;> simp [h]

/-- Settles O42: the three closes that no request of a port's own asks for. -/
theorem holdLimitClosesHolds : Obligations.HoldLimitClosesHolds := by
  refine ⟨fun id s hr hj hh => ?_, fun minutes s hr hj hh ht => ?_, fun id unitId s hh => ?_⟩
  · refine ⟨fun hnot => ?_, fun h hmem hid hreached => ?_⟩
    · have hnone : holdLimitEvent id s = s := closeWhere_none fun h hmem => Bool.eq_false_iff.mpr fun htest => by
        rw [Bool.and_eq_true, beq_iff_eq, limitReached_iff] at htest
        exact hnot h hmem htest.1 htest.2
      show Host.Outcome.next (eventEnd (holdLimitEvent id s)) = _
      rw [hnone, eventEnd_of_rested hr]
    · subst hid
      have hfound : holdLimitEvent h.id s = closeThis h .limit s := closeWhere_found
        (find_id hh hmem (by simpa [limitReached_iff] using hreached) fun x hx => by
          simp only [Bool.and_eq_true, beq_iff_eq] at hx
          exact hx.1)
      refine closeThis_closed (cause := .limit) ?_
      show Host.Outcome.next (eventEnd (holdLimitEvent h.id s)) = _
      rw [hfound, eventEnd_quiet ((dozeReady_closeThis _ _ _).trans hr.1) (closeThis_reached _ _ hj)]
  · intro m reached status
    let limited : State := { s with holds := { s.holds with limit := m } }
    have hreached : s.holds.holds.filter (limitReached m) = s.holds.holds.filter reached := by
      refine List.filter_congr fun h _ => Bool.eq_iff_iff.mpr ?_
      rw [limitReached_iff, decide_eq_true_iff]
    have hset : setHoldLimit m s = closeEach .limit (s.holds.holds.filter reached) limited := by
      rw [← hreached]
      rfl
    have heach : EachOpen (s.holds.holds.filter reached) limited := eachOpen_filter (s := limited) hh reached
    have howner := holdLimitSetOwner_eq minutes s
    have hdoze : dozeReady (setHoldLimit m s) = false := by simpa [dozeReady, loadPaused] using hr.1
    have hexec := takeRequest_reached ht howner hdoze (setHoldLimit_reached hr hj hh)
    have htaken : exec (.holdLimitSet .machine minutes) s
        = .next (eventEnd (pushReply .machine (.answer 27 status (byte m))
            (closeEach .limit (s.holds.holds.filter reached) limited))) := by
      refine congrArg Host.Outcome.next ((takeRequest_taken ht).trans ?_)
      rw [howner, hset]
      rfl
    refine ⟨fun hnone => ?_, closeEach_closed (cause := .limit) hh heach htaken, _, congrArg Host.Outcome.next hexec, ?_⟩
    · rw [htaken, List.filter_eq_nil_iff.mpr fun h hmem => by simp [hnone h hmem]]
      exact congrArg Host.Outcome.next (eventEnd_pushReply (hr.limited m) _ _)
    · obtain ⟨before, hentries⟩ := closeEach_entries (s := limited) (cause := .limit) (last := []) hh heach hj
        (List.append_nil _).symm (by
          have hle := List.length_filter_le reached s.holds.holds
          have hcap : s.holds.holds.length ≤ 8 := hh.1
          simp only [List.length_nil]
          omega)
      refine ⟨?_, ?_, ⟨before, ?_⟩, State.eq_of_blocks ?_⟩
      · simp only [driveAttention_frame, pushReply_frame]
        rw [hset, closeEach_holds (s := limited) hh heach, filter_closed (t := limited.holds) hh]
      · simp [pushReply, State.setPort, State.port]
        rfl
      · simp only [driveAttention_frame, pushReply_frame]
        rw [hset, hentries]
        rfl
      · simp
  · refine ⟨rfl, fun hnone => closeWhere_none fun h hmem => Bool.eq_false_iff.mpr fun htest => ?_,
      fun h hmem howned => ?_⟩
    · simp only [Bool.and_eq_true, beq_iff_eq, and_assoc] at htest
      exact hnone h hmem htest
    · obtain ⟨hid, hsource, howner⟩ := howned
      subst hid
      refine closeThis_closed (cause := .undo) (closeWhere_found
        (find_id hh hmem (by simp [hsource, howner]) fun x hx => ?_))
      simp only [Bool.and_eq_true, beq_iff_eq, and_assoc] at hx
      exact hx.1

end Sys2Proof.Machine
end

section
/-! PROOFS. VIEW SET: the obedience, then the mode, of a port's listener (R130, R131). -/

namespace Sys2Proof.Machine

theorem callRepaint_setListener (port : Port) (x : Listener) (s : State) :
    callRepaint port (s.setListener port x)
      = countRun (startsRun s.holds.holds x) (s.setListener port (repainted s.holds.holds s.journal x)) := by
  rw [callRepaint_eq, setListener_listener_self, State.setListener_setListener]
  simp [repainted_setListener]

/-- A repaint called for of a listener in OFF does nothing. -/
theorem callRepaint_off {port : Port} {x : Listener} {s : State} (hm : x.mode = .off) :
    callRepaint port (s.setListener port x) = s.setListener port x := by
  have hno : startsRun s.holds.holds x = false := by simp [startsRun, hm]
  rw [callRepaint_setListener, hno, repainted_off hm, countRun_false]

/-- A repaint called for of a listener that no hold keeps starts a run. -/
theorem callRepaint_runs {port : Port} {x : Listener} {s : State} (hm : x.mode ≠ .off) (hp : x.paused = none)
    (hfree : x.obeys = false ∨ s.holds.holds = []) :
    callRepaint port (s.setListener port x) = countOne .repaints (s.setListener port { x with
      cursor := s.journal.head, repaintPending := false,
      run := some {
        settled := decide (x.mode = .settled),
        copy := if x.mode = .settled then s.journal.settledTail else s.journal.liveTail,
        viewLength := if x.mode = .settled then s.journal.settledLength else s.journal.liveLength,
        position := s.journal.head, next := 0 } }) := by
  have hyes := (startsRun_iff s.holds.holds hp).mpr ⟨hm, hfree⟩
  rw [callRepaint_setListener, hyes, repainted_runs _ hm hyes, countRun_true, freshRun_eq]

/-- A repaint called for of a listener that obeys an open hold pauses it. -/
theorem callRepaint_pauses {port : Port} {x : Listener} {s : State} {h : OpenHold} {rest : List OpenHold}
    (hm : x.mode ≠ .off) (hp : x.paused = none) (ho : x.obeys = true) (hh : s.holds.holds = h :: rest) :
    callRepaint port (s.setListener port x)
      = s.setListener port { pauseOn h x with repaintPending := true } := by
  have hno : startsRun s.holds.holds x = false := by simp [startsRun, hp, ho, hh]
  rw [callRepaint_setListener, hno, hh, repainted_pauses _ hm hp ho, countRun_false]

/-! ### A change of obedience -/

theorem setObedience_same {port : Port} {b : Bool} {s : State} (h : b = (s.journal.listener port).obeys) :
    setObedience port b s = s := if_pos h.symm

theorem setObedience_given {port : Port} {s : State} (h : (s.journal.listener port).obeys = false) :
    setObedience port true s = s.setListener port
      (if (s.journal.listener port).mode = .off then { s.journal.listener port with obeys := true }
       else match (passedHolds s.holds.holds s.journal { s.journal.listener port with obeys := true }).head? with
        | some x => pauseOn x { s.journal.listener port with obeys := true }
        | none => { s.journal.listener port with obeys := true }) := by
  unfold setObedience
  simp only [State.listener_eq, h, if_true, Bool.false_eq_true, if_false]
  by_cases hm : (s.journal.listener port).mode = .off
  · simp [hm]
  · cases passedHolds s.holds.holds s.journal { s.journal.listener port with obeys := true } <;> simp [hm]

theorem setObedience_taken {port : Port} {s : State} (h : (s.journal.listener port).obeys = true) :
    setObedience port false s =
      (if (s.journal.listener port).paused.isSome && (s.journal.listener port).repaintPending then
        callRepaint port (s.setListener port (endPause { s.journal.listener port with obeys := false }))
      else s.setListener port (endPause { s.journal.listener port with obeys := false })) := by
  unfold setObedience
  simp [State.listener_eq, h]

theorem setObedience_changed {becomes : State → Prop} {port : Port} {b : Bool} {s : State}
    (hb : becomes (setObedience port b s)) : ObedienceChanged becomes port b s := by
  unfold ObedienceChanged
  intro j l set passed changed
  have hpassed : (passedHolds s.holds.holds s.journal changed).head? = passed := passedHolds_head? _ _ _
  refine ⟨fun hsame => ?_, fun hon hoff => ?_, fun hoff hon => ?_⟩
  · rwa [setObedience_same hsame] at hb
  · subst hon
    rw [setObedience_given hoff] at hb
    refine ⟨fun hfree => ?_, fun h hm hp => ?_⟩
    · rcases hfree with hm | hp
      · rwa [if_pos hm] at hb
      · rw [hp] at hpassed
        rwa [hpassed, ite_self] at hb
    · rw [hp] at hpassed
      rwa [hpassed, if_neg hm] at hb
  · subst hoff
    rw [setObedience_taken hon] at hb
    refine ⟨fun hp => ?_, fun id hp => ?_⟩
    · have hended : endPause changed = changed := endPause_none hp
      have hnone : l.paused.isSome = false := by rw [hp]; rfl
      rwa [hnone, Bool.false_and, if_neg Bool.false_ne_true, hended] at hb
    · intro ended
      have hended : endPause changed = ended := endPause_some hp
      have hsome : l.paused.isSome = true := by rw [hp]; rfl
      rw [hsome, Bool.true_and, hended] at hb
      refine ⟨fun hquiet => ?_, fun hpending hm => ?_⟩
      · rcases hquiet with hquiet | hoff
        · rwa [hquiet, if_neg Bool.false_ne_true] at hb
        · rwa [callRepaint_off (x := ended) hoff, ite_self] at hb
      · rwa [hpending, if_pos rfl, callRepaint_runs (x := ended) hm rfl (.inl rfl)] at hb

/-! ### A change of mode -/

theorem setMode_changed {becomes : State → Prop} {port : Port} {m : ViewMode} {s : State}
    (hb : becomes (setMode port m s)) : ModeChanged becomes port m s := by
  unfold ModeChanged
  intro j l set
  unfold setMode at hb
  change becomes (if l.mode = m then s else _) at hb
  refine ⟨fun hsame => ?_, fun hoff hm => ?_, fun hon hm => ?_⟩
  · rwa [if_pos hsame.symm] at hb
  · subst hoff
    rwa [if_neg hm] at hb
  · intro moved
    rw [if_neg (Ne.symm hm)] at hb
    have hmoved : becomes (if l.paused.isSome then set { moved with repaintPending := true }
        else callRepaint port (s.setListener port { moved with run := none })) := by
      cases m with
      | off => exact absurd rfl hon
      | live | settled => exact hb
    refine ⟨fun hp => ?_, fun hp => ⟨fun h rest ho hh => ?_, fun hfree => ?_⟩⟩
    · rwa [if_pos (Option.isSome_iff_ne_none.mpr hp)] at hmoved
    all_goals rw [if_neg (by simp [hp])] at hmoved
    · rwa [callRepaint_pauses (x := { moved with run := none }) hon hp ho hh] at hmoved
    · rwa [callRepaint_runs (x := { moved with run := none }) hon hp hfree] at hmoved

/-! ### What both changes leave -/

theorem endPause_settings (l : Listener) :
    (endPause l).mode = l.mode ∧ (endPause l).obeys = l.obeys := by
  unfold endPause
  split <;> exact ⟨rfl, rfl⟩

theorem repainted_settings (holds : List OpenHold) (j : Journal) (l : Listener) :
    (repainted holds j l).mode = l.mode ∧ (repainted holds j l).obeys = l.obeys := by
  unfold repainted
  split
  · exact ⟨rfl, rfl⟩
  · split <;> exact ⟨rfl, rfl⟩

theorem reachThrough_settings (holds : List OpenHold) (entries : List JournalEntry) (l : Listener) :
    (reachThrough holds entries l).mode = l.mode ∧ (reachThrough holds entries l).obeys = l.obeys := by
  induction entries generalizing l with
  | nil => exact ⟨rfl, rfl⟩
  | cons e rest ih =>
    unfold reachThrough
    split
    · split
      · exact ⟨rfl, rfl⟩
      · exact ih _
      · split
        · unfold stopAt
          split <;> exact ⟨rfl, rfl⟩
        · exact ih _
    · exact ⟨rfl, rfl⟩

theorem setObedience_form (port : Port) (b : Bool) (s : State) :
    ∃ x r, setObedience port b s = countRun r (s.setListener port x) ∧
      x.mode = (s.journal.listener port).mode ∧ x.obeys = b := by
  by_cases hsame : b = (s.journal.listener port).obeys
  · exact ⟨_, false, (setObedience_same hsame).trans (State.setListener_listener s port).symm, rfl, hsame.symm⟩
  · cases b with
    | true =>
      refine ⟨_, false, setObedience_given (Bool.eq_false_iff.mpr fun ho => hsame ho.symm), ?_⟩
      split
      · exact ⟨rfl, rfl⟩
      · split <;> exact ⟨rfl, rfl⟩
    | false =>
      rw [setObedience_taken (Bool.eq_true_of_not_eq_false fun ho => hsame ho.symm), callRepaint_setListener]
      obtain ⟨hmode, hobeys⟩ := endPause_settings { s.journal.listener port with obeys := false }
      obtain ⟨hmode', hobeys'⟩ := repainted_settings s.holds.holds s.journal
        (endPause { s.journal.listener port with obeys := false })
      split
      · exact ⟨_, _, rfl, hmode'.trans hmode, hobeys'.trans hobeys⟩
      · exact ⟨_, false, rfl, hmode, hobeys⟩

theorem setMode_form (port : Port) (m : ViewMode) (s : State) :
    ∃ x r, setMode port m s = countRun r (s.setListener port x) ∧
      x.mode = m ∧ x.obeys = (s.journal.listener port).obeys := by
  unfold setMode
  simp only [State.listener_eq, callRepaint_setListener]
  split
  · rename_i hsame
    exact ⟨_, false, (State.setListener_listener s port).symm, hsame, rfl⟩
  · split
    · exact ⟨_, false, rfl, rfl, rfl⟩
    all_goals
      split
      · exact ⟨_, false, rfl, rfl, rfl⟩
      · exact ⟨_, _, rfl, (repainted_settings _ _ _).1, (repainted_settings _ _ _).2⟩

/-- VIEW SET changes the port's listener, and counts the runs it starts. -/
theorem changeView_form (port : Port) (mode : Option ViewMode) (obeys : Option Bool) (s : State) :
    ∃ x r q, changeView port mode obeys s = countRun q (countRun r (s.setListener port x)) ∧
      x.mode = mode.getD (s.journal.listener port).mode ∧ x.obeys = obeys.getD (s.journal.listener port).obeys := by
  have hrest (b : Bool) (u : State) (hu : ∃ x r, u = countRun r (s.setListener port x) ∧
      x.mode = (s.journal.listener port).mode ∧ x.obeys = b) :
      ∃ x r q, changeView port mode none u = countRun q (countRun r (s.setListener port x)) ∧
        x.mode = mode.getD (s.journal.listener port).mode ∧ x.obeys = b := by
    obtain ⟨x, r, rfl, hmode, hobeys⟩ := hu
    cases mode with
    | none => exact ⟨x, r, false, rfl, hmode, hobeys⟩
    | some m =>
      obtain ⟨y, q, hy, hymode, hyobeys⟩ := setMode_form port m (countRun r (s.setListener port x))
      refine ⟨y, r, q, ?_, hymode, ?_⟩
      · refine hy.trans ?_
        rw [← countRun_setListener, State.setListener_setListener]
      · rw [hyobeys, ← hobeys, countRun_setListener]
        exact congrArg Listener.obeys (setListener_listener_self _ port x)
  cases obeys with
  | none => exact hrest _ s ⟨_, false, (State.setListener_listener s port).symm, rfl, rfl⟩
  | some b => exact hrest b _ (setObedience_form port b s)

/-! ### VIEW SET (R130, R131) -/

theorem exec_viewSet_of_takes {port : Port} {s : State} (ht : Takes port .viewSet s) (mode : Option ViewMode)
    (obeys : Option Bool) :
    exec (.viewSet port mode obeys) s = .next (eventEnd (pushReply port
      (.answer 5 .ok (byte (modeCode (mode.getD (s.journal.listener port).mode))
        ++ yesNo (obeys.getD (s.journal.listener port).obeys))) (changeView port mode obeys s))) := by
  obtain ⟨x, r, q, hform, hmode, hobeys⟩ := changeView_form port mode obeys s
  have hlistener : (changeView port mode obeys s).journal.listener port = x := by
    rw [hform]
    simp only [countRun_frame]
    exact setListener_listener_self s port x
  refine congrArg Host.Outcome.next ((takeRequest_taken ht).trans ?_)
  rw [← hmode, ← hobeys, ← hlistener]
  rfl

theorem dozeReady_changeView (port : Port) (mode : Option ViewMode) (obeys : Option Bool) (s : State) :
    dozeReady (changeView port mode obeys s) = dozeReady s := by
  obtain ⟨x, r, q, hform, _⟩ := changeView_form port mode obeys s
  rw [hform, dozeReady_countRun, dozeReady_countRun, dozeReady_setListener]

theorem reachAll_eq (s : State) : reachAll s = setAll (fun port => reachThrough s.holds.holds
    (waitingEntries s.journal (s.journal.listener port)) (s.journal.listener port)) s := by
  have hm : (reachAll s).journal.machine = _ := reachAll_listener .machine s
  have hs : (reachAll s).journal.station = _ := reachAll_listener .station s
  have hf : (reachAll s).journal.feed = _ := reachAll_listener .feed s
  refine State.eq_of_blocks ?_
  simp only [reachAll_frame, setAll_frame, setAll_journal, true_and, and_true]
  rw [reachAll_journal, hm, hs, hf]
  rfl

/-- The reach of a part at rest with the listener of one port replaced. -/
theorem reachAll_replaced {s : State} (hr : reachAll s = s) (port : Port) (x : Listener) :
    reachAll (s.setListener port x)
      = s.setListener port (reachThrough s.holds.holds (waitingEntries s.journal x) x) := by
  have hfixed := (reachAll_eq_self_iff s).mp hr
  have hset (y : Listener) : s.setListener port y
      = setAll (fun q => if q = port then y else s.journal.listener q) s := by
    cases port <;> rfl
  have hlisteners : (fun q => reachThrough s.holds.holds
        (waitingEntries s.journal ((s.journal.setListener port x).listener q))
        ((s.journal.setListener port x).listener q))
      = fun q => if q = port then reachThrough s.holds.holds (waitingEntries s.journal x) x
          else s.journal.listener q := by
    funext q
    by_cases hq : q = port
    · subst hq
      rw [Journal.listener_set_self, if_pos rfl]
    · rw [Journal.listener_set_other _ _ hq, if_neg hq, hfixed q]
  rw [reachAll_eq]
  simp only [State.setListener_journal, State.setListener_frame, waitingEntries_setListener]
  rw [hlisteners, hset, hset]
  rfl

theorem reachAll_countRun (b : Bool) (s : State) : reachAll (countRun b s) = countRun b (reachAll s) := by
  have one (port : Port) (s : State) : reachOne port (countRun b s) = countRun b (reachOne port s) := by
    simp only [reachOne, State.listener_eq, countRun_frame, countRun_setListener]
  simp only [reachAll, one]

/-- A listener that cannot reach stays as it is replaced. -/
theorem reachAll_still {s : State} (hr : reachAll s = s) (b : Bool) (port : Port) {x : Listener}
    (hx : canReach x = false) :
    reachAll (countRun b (s.setListener port x)) = countRun b (s.setListener port x) := by
  rw [reachAll_countRun, reachAll_replaced hr, reachThrough_stopped _ _ _ hx]

theorem reachAll_running {s : State} (hr : reachAll s = s) (port : Port) {x : Listener} (hx : x.run ≠ none) :
    reachAll (countOne .repaints (s.setListener port x)) = countOne .repaints (s.setListener port x) :=
  reachAll_still hr true port (canReach_of_run hx)

theorem canReach_of_off {l : Listener} (h : l.mode = .off) : canReach l = false := by
  simp [canReach, h]

theorem countRun_answers (b : Bool) (s : State) (port : Port) :
    ((countRun b s).port port).answers = (s.port port).answers := by
  cases b
  · rfl
  · exact (countOne_port .repaints s port).1

theorem answers_answered (port : Port) (r : Reply) (s : State) :
    ((driveAttention (pushReply port r s)).port port).answers = (s.port port).answers ++ [r] := by
  cases port <;> rfl

theorem reachAll_pushReply (port : Port) (r : Reply) (s : State) :
    reachAll (pushReply port r s) = pushReply port r (reachAll s) := by
  have set (q : Port) (l : Listener) (s : State) :
      (pushReply port r s).setListener q l = pushReply port r (s.setListener q l) := rfl
  have one (q : Port) (s : State) : reachOne q (pushReply port r s) = pushReply port r (reachOne q s) := by
    simp only [reachOne, State.listener_eq, pushReply_frame, set]
  simp only [reachAll, one]

/-- The end of a request that leaves no passage to DOZE due. -/
theorem eventEnd_answered {t : State} (hd : dozeReady t = false) (port : Port) (r : Reply) :
    eventEnd (pushReply port r t) = driveAttention (pushReply port r (reachAll t)) := by
  have hd' : dozeReady (pushReply port r t) = false := by simpa [dozeReady, loadPaused] using hd
  unfold eventEnd dozeIfReady
  rw [if_neg (by simp [hd']), reachAll_pushReply]

/-- Settles O39: the changes are those of the model, and the part goes on from where the listener then stands. -/
theorem viewSetSetsTheListener : Obligations.ViewSetSetsTheListener := by
  refine ⟨fun port s hr ht => ?_, fun port mode obeys s ht => ?_⟩
  · intro j l set reached answer gives called
    have hgives (mode : Option ViewMode) (obeys : Option Bool) {t u : State}
        (ht' : changeView port mode obeys s = t) (hu : reachAll t = u) : gives mode obeys u := by
      refine (exec_viewSet_of_takes ht mode obeys).trans (congrArg Host.Outcome.next ?_)
      have hd : dozeReady t = false := by rw [← ht', dozeReady_changeView, hr.1]
      rw [ht', ← hu, eventEnd_answered hd]
    have hmode (m : ViewMode) : ModeChanged (fun t => changeView port (some m) none s = t) port m s :=
      setMode_changed rfl
    have hobeys (b : Bool) : ObedienceChanged (fun t => changeView port none (some b) s = t) port b s :=
      setObedience_changed rfl
    refine ⟨fun mode obeys => ?_, fun mode obeys hm ho => ?_, fun hm => ?_, fun m hon hm => ⟨fun hp => ?_, fun hp => ?_⟩,
      fun ho => ⟨fun hm => ?_, fun h hm hpassed => ?_⟩, fun id ho hp => ?_⟩
    · obtain ⟨x, r, q, hform, hxm, hxo⟩ := changeView_form port mode obeys s
      have hreach := congrArg reachAll hform
      rw [reachAll_countRun, reachAll_countRun, reachAll_replaced hr.2.1] at hreach
      obtain ⟨hrm, hro⟩ := reachThrough_settings s.holds.holds (waitingEntries s.journal x) x
      refine ⟨_, hgives mode obeys rfl hreach, ?_, ?_, ?_, State.eq_of_blocks ?_⟩
      · simp only [driveAttention_frame, pushReply_frame, countRun_frame, State.setListener_journal,
          Journal.listener_set_self]
        exact hrm.trans hxm
      · simp only [driveAttention_frame, pushReply_frame, countRun_frame, State.setListener_journal,
          Journal.listener_set_self]
        exact hro.trans hxo
      · rw [answers_answered, countRun_answers, countRun_answers]
        rfl
      · simp [Journal.listener_set_self, j]
    · refine hgives mode obeys ?_ hr.2.1
      have hfirst : changeView port none obeys s = s := by
        cases obeys with
        | none => rfl
        | some b => exact setObedience_same ho
      cases mode with
      | none => exact hfirst
      | some m => exact (congrArg (setMode port m) hfirst).trans (if_pos hm.symm)
    · exact hgives _ _ ((hmode .off).2.1 rfl hm) (reachAll_still hr.2.1 false port (canReach_of_off rfl))
    · exact hgives _ _ (((hmode m).2.2 hon hm).1 hp) (reachAll_still hr.2.1 false port (canReach_of_paused hp))
    · obtain ⟨hpauses, hruns⟩ := ((hmode m).2.2 hon hm).2 hp
      have hfree (h : l.obeys = false ∨ s.holds.holds = []) : called m l.obeys { l with mode := m, run := none }
          = changeView port (some m) none s := by
        rw [hruns h]
        simp only [called]
        rcases h with h | h
        · rw [h]
          rfl
        · rw [h]
          cases l.obeys <;> rfl
      have hkept (h : OpenHold) (rest : List OpenHold) (ho : l.obeys = true) (hh : s.holds.holds = h :: rest) :
          called m l.obeys { l with mode := m, run := none } = changeView port (some m) none s := by
        rw [hpauses h rest ho hh]
        simp only [called]
        rw [ho, hh]
      by_cases hopen : l.obeys = false ∨ s.holds.holds = []
      · rw [hfree hopen]
        refine hgives _ _ rfl ?_
        rw [hruns hopen]
        exact reachAll_running hr.2.1 port (x := { l with
          mode := m, cursor := j.head, repaintPending := false, run := some _ }) (Option.some_ne_none _)
      · obtain ⟨ho, hne⟩ := not_or.mp hopen
        have hobeys' : l.obeys = true := Bool.eq_true_of_not_eq_false ho
        obtain ⟨h, rest, hh⟩ := List.exists_cons_of_ne_nil hne
        rw [hkept h rest hobeys' hh]
        refine hgives _ _ rfl ?_
        rw [hpauses h rest hobeys' hh]
        exact reachAll_still hr.2.1 false port (x := { l with
          mode := m, paused := some h.id, notes := _, repaintPending := true, run := none })
          (canReach_of_paused (Option.some_ne_none _))
    · exact hgives _ _ (((hobeys true).2.1 rfl ho).1 (.inl hm)) (reachAll_still hr.2.1 false port (canReach_of_off hm))
    · exact hgives _ _ (((hobeys true).2.1 rfl ho).2 h hm hpassed)
        (reachAll_still hr.2.1 false port (canReach_of_paused (Option.some_ne_none h.id)))
    · intro owed notes ended
      obtain ⟨hquiet, hruns⟩ := ((hobeys false).2.2 rfl ho).2 id hp
      refine ⟨fun hpending => ?_, fun hpending hm => ?_⟩
      · exact hgives _ _ (hquiet (.inl hpending)) (reachAll_replaced hr.2.1 port ended)
      · exact hgives _ _ (hruns hpending hm)
          (reachAll_still hr.2.1 true port (canReach_of_run (Option.some_ne_none _)))
  · intro l ends moves
    have hend (t : State) (h : changeView port mode obeys s = t) : ends t := by
      rw [← h]
      exact exec_viewSet_of_takes ht mode obeys
    have hmoves (u : State) (h : changeView port mode obeys s = changeView port mode none u) : moves u := by
      cases mode with
      | none => exact hend _ h
      | some m => exact setMode_changed (hend _ h)
    cases obeys with
    | none => exact hmoves s rfl
    | some b => exact setObedience_changed (hmoves _ rfl)

end Sys2Proof.Machine
end

section
/-! PROOFS. What settled units do to the Hold Table (R104, R140), and what a settlement and a recomputation leave. -/

namespace Sys2Proof.Machine

/-! ### Hold actions beside the window -/

/-- The Translator with another window, provisional list and settle timer. -/
def rewound (w : List WindowStroke) (p : List TextUnit) (timer : Option Tick) (t : Translator) : Translator :=
  { t with window := w, provisional := p, settleTimer := timer }

@[simp] theorem closeNewestCommand_withTrans (x : Translator) (s : State) :
    closeNewestCommand (withTrans x s) = withTrans x (closeNewestCommand s) := by
  unfold closeNewestCommand
  rw [show (withTrans x s).holds = s.holds from rfl]
  split
  · rfl
  · rw [closeThis_withTrans]

/-- A COMMAND open is taken unless 8 holds are open. -/
theorem openHold_command (owner : Option Word) (s : State) :
    openHold .command owner s = if 8 ≤ s.holds.holds.length then (s, .full) else takeHold .command owner s := rfl

theorem holdAction_full {u : TextUnit} {s : State} (h : unitCommand u = .feedHold)
    (hl : 8 ≤ s.holds.holds.length) : holdAction u s = s := by
  unfold holdAction
  rw [h, openHold_command, if_pos hl]

theorem holdAction_opens {u : TextUnit} {s : State} (h : unitCommand u = .feedHold)
    (hl : ¬8 ≤ s.holds.holds.length) :
    holdAction u s = recordHold u.id (firstFreeId s.holds.holds 255 s.holds.nextId)
      (takeHold .command (some u.id) s).1 := by
  unfold holdAction
  rw [h, openHold_command, if_neg hl]
  rfl

theorem holdAction_feedResume {u : TextUnit} (h : unitCommand u = .feedResume) (s : State) :
    holdAction u s = closeNewestCommand s := by
  unfold holdAction
  rw [h]

theorem isFeedControl_iff (u : TextUnit) :
    isFeedControl u = true ↔ unitCommand u = .feedHold ∨ unitCommand u = .feedResume := by
  simp [isFeedControl]

theorem holdAction_none {u : TextUnit} (h : isFeedControl u = false) (s : State) : holdAction u s = s := by
  have hno := (isFeedControl_iff u).not.mp (by simp [h])
  unfold holdAction
  split
  · exact absurd (.inl ‹_›) hno
  · exact absurd (.inr ‹_›) hno
  · rfl

theorem holdAction_rewound (w : List WindowStroke) (p : List TextUnit) (timer : Option Tick) (u : TextUnit)
    (s : State) :
    holdAction u (withTrans (rewound w p timer s.trans) s)
      = withTrans (rewound w p timer (holdAction u s).trans) (holdAction u s) := by
  cases hc : isFeedControl u with
  | false => simp only [holdAction_none hc]
  | true =>
    rcases (isFeedControl_iff u).mp hc with hc | hc
    · by_cases hl : 8 ≤ s.holds.holds.length
      · rw [holdAction_full (s := s) hc hl, holdAction_full (s := withTrans (rewound w p timer s.trans) s) hc hl]
      · rw [holdAction_opens (s := s) hc hl,
          holdAction_opens (s := withTrans (rewound w p timer s.trans) s) hc hl, takeHold_withTrans]
        have htrans : (takeHold .command (some u.id) s).1.trans = s.trans := by simp
        simp only [recordHold, htrans]
        rfl
    · rw [holdAction_feedResume hc, holdAction_feedResume hc, closeNewestCommand_withTrans,
        (closeNewestCommand_frame s).2.2.2.2.1]

theorem holdActions_rewound (w : List WindowStroke) (p : List TextUnit) (timer : Option Tick) (l : List TextUnit)
    (s : State) :
    holdActions l (withTrans (rewound w p timer s.trans) s)
      = withTrans (rewound w p timer (holdActions l s).trans) (holdActions l s) := by
  induction l generalizing s with
  | nil => rfl
  | cons u rest ih => rw [holdActions, holdAction_rewound, ih, holdActions]

theorem holdActions_none {l : List TextUnit} (h : ∀ u ∈ l, isFeedControl u = false) (s : State) :
    holdActions l s = s := by
  induction l with
  | nil => rfl
  | cons u rest ih =>
    rw [holdActions, holdAction_none (h u List.mem_cons_self), ih fun x hx => h x (List.mem_cons_of_mem _ hx)]

/-! ### What the settled units of one settlement do -/

theorem holdAction_holdsOk (u : TextUnit) {s : State} (h : HoldsOk s.holds) : HoldsOk (holdAction u s).holds := by
  have hopen := openHold_holdsOk .command (some u.id) s (by simp) h
  unfold holdAction
  split
  · split
    · rename_i t id heq
      rw [heq] at hopen
      exact hopen
    · rename_i t _ _ heq
      rw [heq] at hopen
      exact hopen
  · unfold closeNewestCommand
    split
    · exact h
    · exact closeThis_holdsOk _ _ s h
  · exact h

theorem newestCommandHold_none {holds : List OpenHold} (h : ∀ x ∈ holds, x.source ≠ .command) :
    newestCommandHold holds = none := by
  simpa [newestCommandHold] using h

theorem newestCommandHold_some {older newer : List OpenHold} {h : OpenHold} (hh : h.source = .command)
    (hnewer : ∀ x ∈ newer, x.source ≠ .command) : newestCommandHold (older ++ h :: newer) = some h := by
  have hnone : newer.reverse.find? (fun x => x.source == .command) = none := by simpa using hnewer
  simp [newestCommandHold, List.find?_append, hnone, hh]

theorem feedControlsActed {becomes : State → Prop} {l : List TextUnit} {s : State} (hh : HoldsOk s.holds)
    (hb : becomes (holdActions l s)) : FeedControlsActed becomes l s := by
  induction l generalizing s with
  | nil => exact hb
  | cons u rest ih =>
    have hnext : FeedControlsActed becomes rest (holdAction u s) := ih (holdAction_holdsOk u hh) hb
    refine ⟨fun hno => ?_, fun hold => ⟨fun hfull => ?_, fun hl => ?_⟩,
      fun hresume => ⟨fun hnone => ?_, fun older h newer hholds hsource hnewer => ?_⟩⟩
    · rwa [holdAction_none hno] at hnext
    · rwa [holdAction_full hold (Nat.le_of_eq hfull.symm)] at hnext
    · refine takeHold_opened hh hl fun id t htaken => ?_
      rw [holdAction_opens hold (Nat.not_le.mpr hl)] at hnext
      simp only [takeHold, Prod.mk.injEq, OpenAnswer.opened.injEq] at htaken
      obtain ⟨rfl, rfl⟩ := htaken
      exact hnext
    · rw [holdAction_feedResume hresume] at hnext
      unfold closeNewestCommand at hnext
      rwa [newestCommandHold_none hnone] at hnext
    · rw [holdAction_feedResume hresume] at hnext
      unfold closeNewestCommand at hnext
      rw [hholds, newestCommandHold_some hsource hnewer] at hnext
      exact closeThis_closed (cause := .resume) hnext

theorem feedControlActed {becomes : State → Prop} {units : List TextUnit} {fixed : State} {after : Translator}
    (hb : becomes (holdActions units (withTrans after fixed))) : FeedControlActed becomes units fixed after := by
  refine ⟨fun hnone => ?_, fun hh => feedControlsActed hh hb⟩
  rwa [holdActions_none hnone] at hb

/-! ### The settlement of every unit (R105) -/

/-- The Translator after the settlement of every unit. -/
def everySettledTrans (t : Translator) : Translator := { t with
  window := [], provisional := [], settleTimer := none,
  base := ((t.provisional.map (fun u => u.after)).getLast?).getD t.base,
  undo := (t.undo ++ t.provisional).drop (t.undo.length + t.provisional.length - 32) }

theorem settleEvery_eq {s : State} (h : s.trans.undo.length ≤ 32) :
    settleEvery s = holdActions s.trans.provisional
      (withTrans (everySettledTrans s.trans) (fixesAppended s.trans.provisional s)) := by
  have hmoved : everySettledTrans s.trans
      = rewound [] [] none (settledAll s.trans.provisional s.trans) := by
    rw [settledAll_fields _ h]
    rfl
  have hrewound := holdActions_rewound [] [] none s.trans.provisional (settleUnits s.trans.provisional s)
  rw [settleUnits_eq, withTrans_trans, withTrans_withTrans] at hrewound
  rw [hmoved, hrewound, ← settleUnits_eq]
  rfl

theorem settleEvery_settled {becomes : State → Prop} {v : State} (hb : becomes (settleEvery v)) :
    EverySettled becomes v := by
  intro hundo
  rw [settleEvery_eq hundo] at hb
  exact feedControlActed hb

/-! ### A recomputation (R99 to R106) -/

/-- Every unit is to be settled, whatever the window holds. -/
def settlesAll (t : Translator) (units : List TextUnit) : Prop :=
  t.settleAll = true ∨ ∃ u, units.getLast? = some u ∧ isFeedControl u = true

theorem settlesAll_iff (t : Translator) (units : List TextUnit) :
    (endsInFeedControl units || t.settleAll) = true ↔ settlesAll t units := by
  unfold endsInFeedControl settlesAll
  cases units.getLast? with
  | none => simp
  | some u => simp [or_comm]

/-- The settle timer after a recomputation. -/
def timerAfter (restart : Bool) (t : Translator) (tick : Tick) (left : List WindowStroke) : Option Tick :=
  if left = [] then none
  else if restart = true then (if t.settleDelay = 0 then none else some tick)
  else t.settleTimer

/-- The Translator when `m` of its units have been settled. -/
def frontSettled (m : Nat) (restart : Bool) (tick : Tick) (t : Translator) : Translator :=
  rewound (t.window.drop (((t.provisional.take m).map (fun u => u.strokes.length)).sum)) (t.provisional.drop m)
    (timerAfter restart t tick (t.window.drop (((t.provisional.take m).map (fun u => u.strokes.length)).sum)))
    (settledAll (t.provisional.take m) t)

/-- With `restart` set, the settle timer is restarted. -/
def restartIf (restart : Bool) (s : State) : State := if restart then restartSettle s else s

/-- The hold actions leave the window, the provisional list, the delay and the timer. -/
theorem holdActions_trans (l : List TextUnit) (s : State) :
    (holdActions l s).trans = { s.trans with undo := (holdActions l s).trans.undo } := (holdActions_recorded l s).1

/-- The settle timer is judged after the hold actions as it would be before them. -/
theorem restartIf_holdActions (restart : Bool) (l : List TextUnit) (s : State) :
    restartIf restart (stopIfEmpty (holdActions l s))
      = holdActions l (withTrans (rewound s.trans.window s.trans.provisional
          (timerAfter restart s.trans s.time.tick s.trans.window) s.trans) s) := by
  rw [holdActions_rewound]
  have htrans := holdActions_trans l s
  have htime : (holdActions l s).time = s.time := by simp
  generalize holdActions l s = y at htrans htime
  generalize y.trans.undo = undo at htrans
  refine State.eq_of_blocks ?_
  unfold restartIf restartSettle stopIfEmpty timerAfter rewound
  cases hw : s.trans.window with
  | nil => cases restart <;> simp [htrans, hw]
  | cons w rest => cases restart <;> simp [htrans, hw, htime]

theorem stopIfEmpty_stopped {s : State} (h : s.trans.settleTimer = none) : stopIfEmpty s = s := by
  unfold stopIfEmpty
  split
  · exact eq_withTrans (by rw [← h])
  · rfl

/-- The units settled from the front leave the strokes of the others. -/
theorem drop_settled {t : Translator} (h : t.window = (t.provisional.map (fun u => u.strokes)).flatten) (m : Nat) :
    t.window.drop (((t.provisional.take m).map (fun u => u.strokes.length)).sum)
      = ((t.provisional.drop m).map (fun u => u.strokes)).flatten := by
  rw [h, List.map_drop, ← List.drop_sum_flatten, List.map_map, List.map_take]
  rfl

theorem frontSettled_all {t : Translator} (restart : Bool) (tick : Tick) (hundo : t.undo.length ≤ 32)
    (h : t.window = (t.provisional.map (fun u => u.strokes)).flatten) :
    frontSettled t.provisional.length restart tick t = everySettledTrans t := by
  have hleft := drop_settled h t.provisional.length
  rw [List.drop_length, List.map_nil, List.flatten_nil] at hleft
  unfold frontSettled timerAfter
  rw [hleft, if_pos rfl, List.take_length, List.drop_length, settledAll_fields _ hundo]
  rfl

theorem frontSettled_eq {m : Nat} {t : Translator} (restart : Bool) (tick : Tick) (hundo : t.undo.length ≤ 32)
    (hm : m ≤ t.provisional.length) :
    rewound (settledAll (t.provisional.take m) t).window (settledAll (t.provisional.take m) t).provisional
      (timerAfter restart (settledAll (t.provisional.take m) t) tick (settledAll (t.provisional.take m) t).window)
      (settledAll (t.provisional.take m) t) = frontSettled m restart tick t := by
  unfold frontSettled
  rw [settledAll_fields _ hundo, List.length_take, Nat.min_eq_left hm]
  rfl

theorem settleWindow_eq {s : State} (restart : Bool) (h : s.trans.undo.length ≤ 32)
    (hcovers : s.trans.window = (s.trans.provisional.map (fun u => u.strokes)).flatten) :
    ∃ m, m ≤ s.trans.provisional.length ∧
      (settlesAll s.trans s.trans.provisional → m = s.trans.provisional.length) ∧
      (¬settlesAll s.trans s.trans.provisional →
        (m < s.trans.provisional.length →
          mustSettleAt s.dict (settledAll (s.trans.provisional.take m) s.trans) = false) ∧
        ∀ k, k < m → mustSettleAt s.dict (settledAll (s.trans.provisional.take k) s.trans) = true) ∧
      restartIf restart (settleWindow s) = holdActions (s.trans.provisional.take m)
        (withTrans (frontSettled m restart s.time.tick s.trans)
          (fixesAppended (s.trans.provisional.take m) s)) := by
  unfold settleWindow
  by_cases hall : settlesAll s.trans s.trans.provisional
  · refine ⟨s.trans.provisional.length, Nat.le_refl _, fun _ => rfl, fun hno => absurd hall hno, ?_⟩
    rw [if_pos ((settlesAll_iff _ _).mpr hall), settleEvery_eq h, frontSettled_all restart _ h hcovers,
      List.take_length]
    generalize hx : withTrans (everySettledTrans s.trans) (fixesAppended s.trans.provisional s) = x
    have htrans : x.trans = everySettledTrans s.trans := by rw [← hx, withTrans_trans]
    have hstopped : (holdActions s.trans.provisional x).trans.settleTimer = none := by
      rw [holdActions_trans, htrans]
      rfl
    have hrestart := restartIf_holdActions restart s.trans.provisional x
    rw [stopIfEmpty_stopped hstopped, htrans] at hrestart
    rw [hrestart]
    exact congrArg _ (eq_withTrans htrans)
  · obtain ⟨m, hle, heq, hstop, hgo⟩ := settleFront_eq s.trans.provisional s
    refine ⟨m, hle, fun hyes => absurd hyes hall, fun _ => ⟨hstop, hgo⟩, ?_⟩
    rw [if_neg ((settlesAll_iff _ _).not.mpr hall), heq]
    dsimp only
    rw [restartIf_holdActions, withTrans_trans, withTrans_withTrans]
    simp only [withTrans_frame, fixesAppended_frame]
    rw [frontSettled_eq restart _ h hle]

/-- The Translator once the difference of a new segmentation has been appended. -/
def redivided (d : Dictionary) (t : Translator) : Translator := { t with
  recomputePending := false,
  idCounter := unitIdAfter t.idCounter
    ((segment d t.base t.window).drop (commonRun t.provisional (segment d t.base t.window))).length,
  provisional := nextUnits t (segment d t.base t.window) }

theorem recompute_eq (s : State) :
    recompute s = settleWindow (withTrans (redivided s.dict s.trans)
      (differenceAppended s.trans (segment s.dict s.trans.base s.trans.window) s)) := by
  have happended (x t : Translator) (new : List TextUnit) :
      differenceAppended t new (withTrans x s) = withTrans x (differenceAppended t new s) := by
    unfold differenceAppended
    rw [appendTake_withTrans, putsAppended_withTrans]
  show settleWindow (applyDifference _ (withTrans { s.trans with recomputePending := false } s)) = _
  rw [applyDifference_eq, happended, withTrans_withTrans]
  rfl

theorem redivided_covers (d : Dictionary) (t : Translator) :
    (redivided d t).window = ((redivided d t).provisional.map (fun u => u.strokes)).flatten := by
  obtain ⟨hflat, _⟩ := segment_covers d t.base t.window
  exact (hflat.symm).trans (congrArg List.flatten (nextUnits_strokes t _).symm)

/-- Settlement need not go on, by what is left of the window. -/
theorem mustSettleAt_eq_false_iff (d : Dictionary) (t : Translator) :
    mustSettleAt d t = false ↔ t.window = [] ∨
      (t.window.length < 8 ∧ (lookup d (t.window.map (fun w => w.chord))).extendable = true) := by
  unfold mustSettleAt keyOf
  simp only [Bool.and_eq_false_iff, Bool.or_eq_false_iff, Bool.not_eq_false', List.isEmpty_iff,
    decide_eq_false_iff_not, Nat.not_le]
  exact Iff.rfl

theorem recompute_recomputed {becomes : State → Prop} {restart : Bool} {v : State}
    (hb : becomes (restartIf restart (recompute v))) : Recomputed becomes restart v := by
  unfold Recomputed
  intro tr old new c back idAt fresh kept units took put left stops all hundo
  rw [recompute_eq] at hb
  have hput : differenceAppended v.trans (segment v.dict v.trans.base v.trans.window) v = put := rfl
  have hunits : (redivided v.dict v.trans).provisional = units := rfl
  have hdict : put.dict = v.dict := by rw [← hput]; simp [differenceAppended]
  have htime : put.time = v.time := by rw [← hput]; simp [differenceAppended]
  rw [hput] at hb
  obtain ⟨m, hle, hall, hfront, heq⟩ := settleWindow_eq (s := withTrans (redivided v.dict v.trans) put) restart hundo
    (redivided_covers v.dict v.trans)
  simp only [withTrans_trans, hunits, withTrans_frame] at hle hall hfront heq
  rw [heq] at hb
  have hleft (k : Nat) :
      mustSettleAt v.dict (settledAll (units.take k) (redivided v.dict v.trans)) = false ↔ stops k := by
    rw [mustSettleAt_eq_false_iff, settledAll_fields _ (t := redivided v.dict v.trans) hundo]
    rfl
  refine ⟨m, hle, hall, fun hno => ?_, ?_⟩
  · obtain ⟨hstop, hgo⟩ := hfront hno
    rw [hdict] at hstop hgo
    refine ⟨?_, fun k hk hstops => ?_⟩
    · rcases Nat.lt_or_ge m units.length with hlt | hge
      · exact (hleft m).mp (hstop hlt)
      · left
        have hcovers := drop_settled (redivided_covers v.dict v.trans) m
        rw [hunits, List.drop_eq_nil_of_le hge] at hcovers
        exact hcovers
    · exact Bool.noConfusion ((hgo k hk).symm.trans ((hleft k).mpr hstops))
  · intro settled fixed after
    have hafter : frontSettled m restart put.time.tick (redivided v.dict v.trans) = after := by
      have hfresh : fresh.length = (new.drop c).length := List.length_mapIdx
      unfold frontSettled timerAfter
      rw [settledAll_fields _ (t := redivided v.dict v.trans) hundo, htime]
      simp only [after, hfresh]
      rfl
    rw [hafter, fixesAppended_withTrans, withTrans_withTrans] at hb
    exact feedControlActed hb

end Sys2Proof.Machine
end

section
/-! PROOFS. The settle timer and TRANSLATE SET (R106, R113). -/

namespace Sys2Proof.Machine

/-! ### What appended entries leave of the journal and the counters -/

/-- An append looks at the journal and the open holds alone. -/
theorem placeInJournal_journal_congr {s t : State} (b : EntryBody) (h : JournalOk s.journal)
    (hj : t.journal = s.journal) (hh : t.holds = s.holds) :
    (placeInJournal b t).journal = (placeInJournal b s).journal := by
  rw [placeInJournal_eq h, placeInJournal_eq (hj ▸ h)]
  simp only [roomMade, madeRoom, hj, hh]

theorem appendEntry_journal_congr {s t : State} (b : EntryBody) (h : JournalOk s.journal)
    (hj : t.journal = s.journal) (hh : t.holds = s.holds) :
    (appendEntry b t).journal = (appendEntry b s).journal := by
  have hplaced := placeInJournal_journal_congr b h hj hh
  unfold appendEntry
  rw [reachAll_eq, reachAll_eq, setAll_journal, setAll_journal, hplaced]
  simp only [placeInJournal_frame, hh]

theorem appendEntry_reached (b : EntryBody) {s : State} (h : JournalOk s.journal) :
    reachAll (appendEntry b s) = appendEntry b s :=
  reachAll_again _ (placeInJournal_journalOk b s h)

theorem reachAll_countOne (c : Counter) (s : State) : reachAll (countOne c s) = countOne c (reachAll s) := by
  have one (port : Port) (s : State) : reachOne port (countOne c s) = countOne c (reachOne port s) := by
    have hset (l : Listener) : countOne c (s.setListener port l) = (countOne c s).setListener port l := by
      refine (countEvents_setJournal c 1 (s.journal.setListener port l) s).trans ?_
      rw [State.setListener, show (countOne c s).journal = s.journal by simp]
      rfl
    simp only [reachOne, State.listener_eq, countOne_frame, hset]
  simp only [reachAll, one]

theorem fixAppended_ok (u : TextUnit) {s : State} (h : JournalOk s.journal) :
    JournalOk (fixAppended u s).journal ∧ reachAll (fixAppended u s) = fixAppended u s := by
  unfold fixAppended
  dsimp only
  split
  · rw [reachAll_countOne, appendEntry_reached _ h]
    exact ⟨by simpa using appendEntry_journalOk _ s h, rfl⟩
  · exact ⟨appendEntry_journalOk _ s h, appendEntry_reached _ h⟩

theorem fixesAppended_reached (l : List TextUnit) {s : State} (h : JournalOk s.journal) (hr : reachAll s = s) :
    reachAll (fixesAppended l s) = fixesAppended l s := by
  induction l generalizing s with
  | nil => exact hr
  | cons u rest ih => exact ih (fixAppended_ok u h).1 (fixAppended_ok u h).2

/-- The FIX entries of units, the counts left out. -/
def fixesOnly (l : List TextUnit) (s : State) : State :=
  l.foldl (fun v u => appendEntry
    (.fix u.id u.text ((u.strokes.map (fun w => w.stamp)).head?.getD { ms := 0, quality := .free })) v) s

theorem fixesAppended_journal (l : List TextUnit) {s t : State} (h : JournalOk s.journal)
    (hj : t.journal = s.journal) (hh : t.holds = s.holds) :
    (fixesAppended l t).journal = (fixesOnly l s).journal := by
  induction l generalizing s t with
  | nil => exact hj
  | cons u rest ih =>
    refine ih (t := fixAppended u t) (appendEntry_journalOk _ s h) ?_ (by simp [hh])
    have happended := appendEntry_journal_congr
      (.fix u.id u.text ((u.strokes.map (fun w => w.stamp)).head?.getD { ms := 0, quality := .free })) h hj hh
    unfold fixAppended
    dsimp only
    split
    · simpa using happended
    · exact happended

theorem fixesAppended_uncounted {l : List TextUnit} (h : ∀ u ∈ l, u.kind ≠ .raw) (s : State) :
    fixesAppended l s = fixesOnly l s := by
  induction l generalizing s with
  | nil => rfl
  | cons u rest ih =>
    have hfix : fixAppended u s = appendEntry
        (.fix u.id u.text ((u.strokes.map (fun w => w.stamp)).head?.getD { ms := 0, quality := .free })) s :=
      if_neg (h u List.mem_cons_self)
    rw [fixesAppended_cons, hfix, ih fun x hx => h x (List.mem_cons_of_mem _ hx)]
    rfl

/-! ### UNTRANSLATES -/

theorem countOne_running (c : Counter) (s : State) :
    (countOne c s).counters.running
      = s.counters.running.set (counterIndex c) (addTally (runningTally s.counters c) 1) := by
  unfold countOne countEvents
  rw [if_neg Nat.one_ne_zero]
  dsimp only
  split
  · rw [(raiseNotice_frame _ _).2.2.2.2.2.2.2.2.2.1]
  · rfl

theorem runningTally_countOne {c : Counter} {s : State} (h : counterIndex c < s.counters.running.length) :
    runningTally (countOne c s).counters c = addTally (runningTally s.counters c) 1 := by
  unfold runningTally
  rw [countOne_running]
  simp [List.getD_eq_getElem?_getD, h, runningTally]

theorem runningTally_countOne_other {c c' : Counter} (h : counterIndex c ≠ counterIndex c') (s : State) :
    runningTally (countOne c s).counters c' = runningTally s.counters c' := by
  unfold runningTally
  rw [countOne_running]
  simp [List.getD_eq_getElem?_getD, h]

theorem appendEntry_counters (b : EntryBody) {s : State} (h : JournalOk s.journal) :
    (appendEntry b s).counters = (countRuns (roomRuns s) s).counters := by
  unfold appendEntry
  rw [placeInJournal_eq h]
  simp

theorem runningTally_countRun (b : Bool) (s : State) :
    runningTally (countRun b s).counters .untranslates = runningTally s.counters .untranslates ∧
    (countRun b s).counters.running.length = s.counters.running.length := by
  cases b with
  | false => exact ⟨rfl, rfl⟩
  | true => exact ⟨runningTally_countOne_other (by decide) s, by simp [countOne_running]⟩

theorem runningTally_appendEntry (b : EntryBody) {s : State} (h : JournalOk s.journal) :
    runningTally (appendEntry b s).counters .untranslates = runningTally s.counters .untranslates ∧
    (appendEntry b s).counters.running.length = s.counters.running.length := by
  rw [appendEntry_counters b h]
  simp only [countRuns, runningTally_countRun, and_self]

theorem untranslates_fixesAppended (l : List TextUnit) {s : State} (h : JournalOk s.journal)
    (hlen : s.counters.running.length = 13) (hle : (runningTally s.counters .untranslates).value ≤ 65535) :
    (runningTally (fixesAppended l s).counters .untranslates).value
      = min 65535 ((runningTally s.counters .untranslates).value + l.countP (fun u => u.kind == .raw)) := by
  induction l generalizing s with
  | nil =>
    rw [List.countP_nil, Nat.add_zero, Nat.min_eq_right hle]
    rfl
  | cons u rest ih =>
    have hfix : (runningTally (fixAppended u s).counters .untranslates).value
        = min 65535 ((runningTally s.counters .untranslates).value + if u.kind = .raw then 1 else 0) ∧
        (fixAppended u s).counters.running.length = 13 := by
      obtain ⟨htally, hlength⟩ := runningTally_appendEntry
        (.fix u.id u.text ((u.strokes.map (fun w => w.stamp)).head?.getD { ms := 0, quality := .free })) h
      unfold fixAppended
      dsimp only
      split
      · rw [runningTally_countOne (by rw [hlength, hlen]; decide), htally, countOne_running, List.length_set, hlength]
        exact ⟨Nat.min_comm _ _, hlen⟩
      · rw [htally, hlength, Nat.add_zero, Nat.min_eq_right hle]
        exact ⟨rfl, hlen⟩
    obtain ⟨hvalue, hlength⟩ := hfix
    rw [fixesAppended_cons, ih (fixAppended_ok u h).1 hlength (by rw [hvalue]; exact Nat.min_le_left _ _), hvalue,
      List.countP_cons]
    by_cases hraw : u.kind = .raw
    · simp only [hraw, if_true, beq_self_eq_true]
      omega
    · simp only [hraw, if_false, beq_iff_eq]
      omega

/-! ### The settle timer (R106) -/

theorem settleEvent_due {s : State} (h : timerDue s.trans.settleTimer s.time.tick s.trans.settleDelay = true) :
    settleEvent s = settleEvery s := if_pos h

theorem settleEvent_not_due {s : State} (h : ¬timerDue s.trans.settleTimer s.time.tick s.trans.settleDelay = true) :
    settleEvent s = s := if_neg h

/-! ### TRANSLATE SET (R113) -/

theorem settleDelayTaken_eq (present : Nat) (delay : Option Nat) :
    settleDelayTaken present delay = match delay with
      | none => present
      | some v => if v = 0 then 0 else min 10000 (max 100 v) := by
  rcases delay with _ | _ | v <;> rfl

theorem settleDelayAdjusted_eq_false_iff (present : Nat) (delay : Option Nat) :
    settleDelayAdjusted delay = false
      ↔ delay.getD (settleDelayTaken present delay) = settleDelayTaken present delay := by
  rcases delay with _ | _ | v
  · exact iff_of_true rfl rfl
  · exact iff_of_true rfl rfl
  · rw [settleDelayAdjusted, bne_eq_false_iff_eq]
    exact eq_comm

theorem loadPaused_eq_false (d : Dictionary) :
    loadPaused d = false ↔ d.layer ≠ .loading ∧ d.layer ≠ .checking := by
  simp [loadPaused]

theorem timerAfterDelay_eq (s : State) (d : Nat) :
    timerAfterDelay s d =
      if d = 0 then none
      else if s.trans.settleTimer ≠ none then some s.time.tick
      else if s.trans.settleDelay = 0 ∧ s.trans.window ≠ [] ∧ s.dict.layer ≠ .loading ∧ s.dict.layer ≠ .checking then
        some s.time.tick
      else none := by
  unfold timerAfterDelay
  simp only [Option.isSome_iff_ne_none, Bool.and_eq_true, decide_eq_true_iff, Bool.not_eq_true',
    loadPaused_eq_false, List.isEmpty_eq_false_iff, and_assoc]

/-- Settles O35: the settlement of every unit in closed form, and TRANSLATE SET field by field. -/
theorem settleTimerAndTranslateSet : Obligations.SettleTimerAndTranslateSet := by
  refine ⟨fun s hr => ⟨fun hno => ?_, fun hdue hready hj hc hundo hfeed => ?_⟩, fun s hdue => ?_,
    fun delay chord s hr ht => ⟨fun hrange => ?_, fun hrange => ?_⟩⟩
  · show Host.Outcome.next (eventEnd (settleEvent s)) = _
    rw [settleEvent_not_due (mt (timerDue_iff _ _ _).mp hno), eventEnd_of_rested hr]
  · intro fix
    have hexec : settleEvent s
        = withTrans (everySettledTrans s.trans) (fixesAppended s.trans.provisional s) := by
      rw [settleEvent_due ((timerDue_iff _ _ _).mpr hdue), settleEvery_eq hundo, holdActions_none hfeed]
    have hreach : reachAll (settleEvent s) = settleEvent s := by
      rw [hexec, reachAll_withTrans, fixesAppended_reached _ hj hr.2.1]
    have hd : dozeReady (settleEvent s) = false := by
      refine dozeReady_of_part ?_
      rw [hexec]
      simp [hready]
    refine ⟨_, congrArg Host.Outcome.next (eventEnd_quiet hd hreach), ?_, ?_, fun hraw => ?_, ?_, State.eq_of_blocks ?_⟩
    all_goals rw [hexec]
    · simp [everySettledTrans]
    · simp only [driveAttention_frame, withTrans_frame]
      exact fixesAppended_journal _ hj rfl rfl
    · rw [fixesAppended_uncounted hraw]
      rfl
    · simp only [driveAttention_frame, withTrans_frame]
      exact untranslates_fixesAppended _ hj hc.1.1 (runningTally_tallyOk hc .untranslates).1
    · simp
  · refine settleEvery_settled (becomes := fun t => exec .settleTimerExpiry s = .next (eventEnd t)) ?_
    rw [← settleEvent_due ((timerDue_iff _ _ _).mpr hdue)]
    rfl
  · obtain ⟨c, rfl, hc⟩ := hrange
    refine congrArg Host.Outcome.next (takeRequest_refused (v := refuse .outOfRange) hr ht (if_neg ?_))
    rw [optionalChordInRange_iff]
    intro hok
    have := hok c rfl
    omega
  · intro d deleteChord timer
    have hd : settleDelayTaken s.trans.settleDelay delay = d := settleDelayTaken_eq _ _
    have hchord : chordTaken s.trans.deleteChord chord = deleteChord := by
      cases chord <;> rfl
    have htimer : (if delay.isSome then timerAfterDelay s d else s.trans.settleTimer) = timer := by
      rw [timerAfterDelay_eq]
      cases delay <;> rfl
    have howner : translateSetOwner delay chord s
        = ({ s with trans := { s.trans with settleDelay := d, deleteChord := deleteChord, settleTimer := timer } },
           answerAdjusted (settleDelayAdjusted delay) (num 2 d ++ num 3 deleteChord.toNat)) := by
      unfold translateSetOwner
      rw [if_pos ((optionalChordInRange_iff chord).mpr hrange)]
      simp only [hd, hchord, htimer]
    have hstatus := answerAdjusted_status_iff (num 2 d ++ num 3 deleteChord.toNat)
      (hd ▸ settleDelayAdjusted_eq_false_iff s.trans.settleDelay delay)
    have htaken := takeRequest_quiet hr ht howner rfl rfl rfl rfl hr.1
    rw [hstatus] at htaken
    exact congrArg Host.Outcome.next htaken

end Sys2Proof.Machine
end

section
/-! PROOFS. The end of a load and the resume of the Translator (R68 to R73, R99, R111). -/

namespace Sys2Proof.Machine

/-! ### The resume -/

theorem translatorRuns_iff (s : State) :
    translatorRuns s = true ↔ loadPaused s.dict = false ∧ s.power.part ≠ .doze := by
  simp [translatorRuns]

/-- With an empty window and no units, a recomputation appends nothing. -/
theorem recompute_empty {s : State} (restart : Bool) (hw : s.trans.window = []) (hp : s.trans.provisional = []) :
    restartIf restart (recompute s)
      = { s with trans := { s.trans with recomputePending := false, settleTimer := none } } := by
  have hnew : segment s.dict s.trans.base s.trans.window = [] := by rw [hw]; rfl
  have hrun : commonRun [] ([] : List TextUnit) = 0 := rfl
  have hdivided : redivided s.dict s.trans = { s.trans with recomputePending := false } := by
    unfold redivided nextUnits
    rw [hnew, hp, hrun]
    exact congrArg (fun p => { s.trans with recomputePending := false, provisional := p }) hp.symm
  have happended : differenceAppended s.trans (segment s.dict s.trans.base s.trans.window) s = s := by
    rw [hnew]
    unfold differenceAppended
    rw [hp, hrun]
    rfl
  rw [recompute_eq, happended, hdivided]
  have hsettled : settleWindow (withTrans { s.trans with recomputePending := false } s)
      = { s with trans := { s.trans with recomputePending := false, settleTimer := none } } := by
    have hp' : (withTrans { s.trans with recomputePending := false } s).trans.provisional = [] := hp
    unfold settleWindow settleEvery
    rw [hp']
    refine State.eq_of_blocks ?_
    cases hall : s.trans.settleAll
    · simp [withTrans, endsInFeedControl, settleFront, stopIfEmpty, holdActions, hall, hw]
    · simp [withTrans, endsInFeedControl, settleUnits, holdActions, hall, hw, hp]
  rw [hsettled]
  cases restart with
  | false => rfl
  | true =>
    refine State.eq_of_blocks ?_
    simp [restartIf, restartSettle, hw]

theorem resumeTranslator_doze {v : State} (hd : v.power.part = .doze) :
    resumeTranslator v = { v with trans := { v.trans with recomputePending := true } } := by
  have hno : translatorRuns v = false := by simp [translatorRuns, hd]
  simp [resumeTranslator, askRecompute, hno]

theorem resumeTranslator_runs {v : State} (hl : loadPaused v.dict = false) (hd : v.power.part ≠ .doze) :
    resumeTranslator v = restartIf true (recompute v) :=
  if_pos ((translatorRuns_iff v).mpr ⟨hl, hd⟩)

/-! ### The end of a load (R68, R71 to R73) -/

/-- The dictionary a load leaves. -/
def loadEnded (layer : LayerState) (result : CheckResult) (header : Option ImageHeader) (d : Dictionary) :
    Dictionary :=
  { d with layer := layer, result := result, claim := .none, inactivity := none, header := header }

theorem endLoad_eq (layer : LayerState) (result : CheckResult) (header : Option ImageHeader) (s : State) :
    endLoad layer result header s = resumeTranslator (raiseNotice
      { kind := .dict, fields := byte (layerCode layer) ++ byte (resultCode result) }
      { s with dict := loadEnded layer result header s.dict }) := rfl

/-- What the end of a load leaves, `becomes` being told the state: the recomputation left pending in DOZE, and
elsewhere the window recomputed and the settle timer restarted. -/
theorem endLoad_resumed {becomes : State → Prop} {layer : LayerState} {result : CheckResult}
    {header : Option ImageHeader} {s : State} (hl : layer ≠ .loading ∧ layer ≠ .checking)
    (hb : becomes (endLoad layer result header s)) :
    let notice : Notice := { kind := .dict, fields := byte (layerCode layer) ++ byte (resultCode result) }
    let d := loadEnded layer result header s.dict
    (s.power.part = .doze →
      becomes (raiseNotice notice { s with dict := d, trans := { s.trans with recomputePending := true } })) ∧
    (s.power.part ≠ .doze → Recomputed becomes true (raiseNotice notice { s with dict := d })) ∧
    (s.trans.window = [] → s.trans.provisional = [] → s.power.part ≠ .doze →
      becomes (raiseNotice notice
        { s with dict := d, trans := { s.trans with recomputePending := false, settleTimer := none } })) := by
  intro notice d
  have hpaused : loadPaused (raiseNotice notice { s with dict := d }).dict = false := by
    simpa [loadPaused, d, loadEnded] using hl
  rw [endLoad_eq] at hb
  refine ⟨fun hdoze => ?_, fun hdoze => ?_, fun hw hp hdoze => ?_⟩
  · rw [resumeTranslator_doze (by simpa using hdoze)] at hb
    exact hb
  · rw [resumeTranslator_runs hpaused (by simpa using hdoze)] at hb
    exact recompute_recomputed hb
  · rw [resumeTranslator_runs hpaused (by simpa using hdoze), recompute_empty _ (by simpa using hw) (by simpa using hp)]
      at hb
    exact hb

/-! ### The check of an image (R69) -/

theorem checkImage_eq (d : Dictionary) :
    checkImage d =
      if d.received ≠ d.total then .incomplete
      else if d.total < 20 ∨ readNumber d.memory 0 2 ≠ 1 then .format
      else if readNumber d.memory 2 1 < 10 ∨ 22 < readNumber d.memory 2 1 ∨ readNumber d.memory 3 1 < 1 ∨
          64 < readNumber d.memory 3 1 then .range
      else if readNumber d.memory 8 4 ≠ d.total then .length
      else if readNumber d.memory 12 4 < 16 + 2 ^ readNumber d.memory 2 1 * 8 ∨
          d.total - 4 < readNumber d.memory 12 4 then .layout
      else if (crc32 (readBytes d.memory 0 (d.total - 4))).toNat ≠ readNumber d.memory (d.total - 4) 4 then .crc
      else .passed := by
  unfold checkImage
  refine ite_congr rfl (fun _ => rfl) fun _ => ?_
  refine ite_congr ?_ (fun _ => rfl) fun hformat => ?_
  · simp only [Bool.or_eq_true, decide_eq_true_iff, bne_iff_ne]
    rfl
  refine ite_congr ?_ (fun _ => rfl) fun _ => ?_
  · simp only [shapeInRange, Bool.not_eq_true', Bool.and_eq_false_iff, decide_eq_false_iff_not, Nat.not_le, or_assoc]
    rfl
  refine ite_congr rfl (fun _ => rfl) fun hlength => ?_
  refine ite_congr ?_ (fun _ => rfl) fun _ => ?_
  · have htotal : readNumber d.memory 8 4 = d.total := not_not.mp hlength
    have hend (x : Nat) : imageLength d.memory < x + 4 ↔ d.total - 4 < x := by
      have hlong : ¬d.total < 20 := fun hshort => hformat (.inl hshort)
      change readNumber d.memory 8 4 < x + 4 ↔ _
      omega
    simp only [layoutHolds, Bool.not_eq_true', Bool.and_eq_false_iff, decide_eq_false_iff_not, Nat.not_le, hend]
    rfl
  refine ite_congr ?_ (fun _ => rfl) fun _ => rfl
  simp only [crcHolds, Bool.not_eq_true', beq_eq_false_iff_ne]

/-! ### LOAD END and the check (R69, R71) -/

/-- The end of an event that ends a load in DOZE, or with nothing to recompute. -/
theorem eventEnd_loadEnded {s t : State} (hr : Rested s) (hready : s.power.part ≠ .settling) (n : Notice)
    (hj : t.journal = s.journal) (hh : t.holds = s.holds) (hp : t.power = s.power) :
    eventEnd (raiseNotice n t) = driveAttention (raiseNotice n t) :=
  eventEnd_raiseNotice hr n hj hh (dozeReady_of_part (by rwa [hp]))

theorem exec_checkCompletion (s : State) : exec .checkCompletion s = .next (eventEnd (checkEvent s)) := rfl

theorem endLoad_framed (layer : LayerState) (result : CheckResult) (header : Option ImageHeader) (s : State) :
    let t := eventEnd (endLoad layer result header s)
    t.dict = loadEnded layer result header s.dict ∧
    t = { s with
      dict := t.dict, trans := t.trans, journal := t.journal, holds := t.holds, power := t.power,
      wake := t.wake, counters := t.counters, ports := t.ports } := by
  refine ⟨?_, State.eq_of_blocks ?_⟩
  · simp [endLoad_dict, loadEnded]
  · simp

/-- Settles O28: the check's result decides how the load ends. -/
theorem loadEndAndTheCheck : Obligations.LoadEndAndTheCheck := by
  refine ⟨fun port s hr ht => ?_, fun s hr => ?_⟩
  · have hown := ownClaim_ne_none (port := port) ht.2
    obtain ⟨hbusy, hfree, howned⟩ := claimRefusal_eq s.dict hown
    refine ⟨fun hheld hother => ?_, fun hwrong => ?_, fun hclaim hloading => ?_⟩
    · refine congrArg Host.Outcome.next (takeRequest_refused (v := refuse .busy) hr ht ?_)
      rw [loadEndOwner, hbusy hheld hother]
    · refine congrArg Host.Outcome.next (takeRequest_refused (v := refuse .wrongState) hr ht ?_)
      rcases hwrong with hnone | ⟨hclaim, hlayer⟩
      · rw [loadEndOwner, hfree hnone]
      · rw [loadEndOwner, howned hclaim]
        exact if_pos hlayer
    · refine congrArg Host.Outcome.next
        (takeRequest_raiseNotice (v := answerOk (num 4 s.dict.received)) hr ht ?_ rfl rfl ?_)
      · rw [loadEndOwner, howned hclaim]
        exact if_neg (not_not.mpr hloading)
      · simp [dozeReady, loadPaused]
  · intro m total b probe region result d
    have hresult : checkImage s.dict = result := checkImage_eq s.dict
    refine ⟨fun hlayer => ?_, fun hchecking => ?_⟩
    · have hevent : checkEvent s = s := if_neg hlayer
      rw [exec_checkCompletion, hevent, eventEnd_of_rested hr]
    · obtain ⟨layer, header, hevent, hd, hl⟩ : ∃ layer header, checkEvent s = endLoad layer result header s ∧
          d = loadEnded layer result header s.dict ∧ (layer ≠ .loading ∧ layer ≠ .checking) := by
        have hevent : checkEvent s = completeCheck result s := by
          rw [← hresult]
          exact if_pos hchecking
        by_cases hp : result = .passed
        · refine ⟨.valid, some (imageHeader m), ?_, ?_, by simp⟩
          · rw [hevent, completeCheck, if_pos hp, hp]
          · simp only [d, if_pos hp, hp]
            rfl
        · refine ⟨.failed, none, ?_, ?_, by simp⟩
          · rw [hevent, completeCheck, if_neg hp]
          · simp only [d, if_neg hp]
            rfl
      have hexec : exec .checkCompletion s = .next (eventEnd (endLoad layer result header s)) := by
        rw [exec_checkCompletion, hevent]
      obtain ⟨hdoze, hruns, hempty⟩ := endLoad_resumed
        (becomes := fun t => exec .checkCompletion s = .next (eventEnd t)) hl hexec
      rw [hd]
      refine ⟨fun hpart => ?_, hruns, ⟨_, hexec, endLoad_framed _ _ _ _⟩, fun hw hp hpart => ?_⟩
      · rw [hdoze hpart]
        exact congrArg Host.Outcome.next (eventEnd_loadEnded hr (by simp [hpart]) _ rfl rfl rfl)
      · rw [hempty hw hp (by simp [hpart])]
        exact congrArg Host.Outcome.next (eventEnd_loadEnded hr (by simp [hpart]) _ rfl rfl rfl)

/-! ### A load abandoned (R68, R72) -/

theorem inactivityDue_iff (s : State) :
    inactivityDue s = true ↔ s.dict.layer = .loading ∧
      ∃ start, s.dict.inactivity = some start ∧ 20480 ≤ (s.time.tick - start).toNat := by
  unfold inactivityDue
  rw [Bool.and_eq_true, beq_iff_eq, timerDue_iff]
  refine and_congr_right fun _ => exists_congr fun start => and_congr_right fun _ => ?_
  omega

/-- The end of a request that ends a load in DOZE, or with nothing to recompute. -/
theorem eventEnd_loadAnswered {s t : State} (hr : Rested s) (hready : s.power.part ≠ .settling) (n : Notice)
    (port : Port) (r : Reply) (hj : t.journal = s.journal) (hh : t.holds = s.holds) (hp : t.power = s.power) :
    eventEnd (pushReply port r (raiseNotice n t)) = driveAttention (pushReply port r (raiseNotice n t)) :=
  eventEnd_rested hr (by simpa using hj) (by simpa using hh) (dozeReady_of_part (by simpa [hp] using hready))

/-- Settles O29: the timer and LOAD ABORT end the load in the same way. -/
theorem loadsAreAbandoned : Obligations.LoadsAreAbandoned := by
  intro s hr d resumed due framed ended left
  have hl : LayerState.empty ≠ .loading ∧ LayerState.empty ≠ .checking := by simp
  refine ⟨fun hno => ?_, fun hdue => ?_, fun port ht => ?_⟩
  · have hevent : inactivityEvent s = s := if_neg (mt (inactivityDue_iff s).mp hno)
    show Host.Outcome.next (eventEnd (inactivityEvent s)) = _
    rw [hevent, eventEnd_of_rested hr]
  · have hexec : exec .inactivityTimeout s = .next (eventEnd (endLoad .empty .none none s)) :=
      congrArg (fun t => Host.Outcome.next (eventEnd t)) (if_pos ((inactivityDue_iff s).mpr hdue))
    obtain ⟨hdoze, hruns, hempty⟩ := endLoad_resumed
      (becomes := fun t => exec .inactivityTimeout s = .next (eventEnd t)) hl hexec
    refine ⟨fun hpart => ?_, hruns, ⟨_, hexec, endLoad_framed _ _ _ _⟩, fun hw hp hpart => ?_⟩
    · rw [hdoze hpart]
      exact congrArg Host.Outcome.next (eventEnd_loadEnded hr (by simp [hpart]) _ rfl rfl rfl)
    · rw [hempty hw hp (by simp [hpart])]
      exact congrArg Host.Outcome.next (eventEnd_loadEnded hr (by simp [hpart]) _ rfl rfl rfl)
  · have hown := ownClaim_ne_none (port := port) ht.2
    obtain ⟨hbusy, hfree, howned⟩ := claimRefusal_eq s.dict hown
    refine ⟨fun hheld hother => ?_, fun hnone => ?_, fun hclaim => ?_⟩
    · refine congrArg Host.Outcome.next (takeRequest_refused (v := refuse .busy) hr ht ?_)
      rw [loadAbortOwner, hbusy hheld hother]
    · refine congrArg Host.Outcome.next (takeRequest_refused (v := refuse .wrongState) hr ht ?_)
      rw [loadAbortOwner, hfree hnone]
    · have howner : loadAbortOwner port s = (endLoad .empty .none none s, answerOk (num 4 s.dict.received)) := by
        rw [loadAbortOwner, howned hclaim]
      have hexec : exec (.loadAbort port) s = .next (eventEnd
          (pushReply port (.answer 16 .ok (num 4 s.dict.received)) (endLoad .empty .none none s))) := by
        refine congrArg Host.Outcome.next ((takeRequest_taken ht).trans ?_)
        rw [howner]
        rfl
      obtain ⟨hdoze, hruns, hempty⟩ := endLoad_resumed
        (becomes := fun t => exec (.loadAbort port) s
          = .next (eventEnd (pushReply port (.answer 16 .ok (num 4 s.dict.received)) t))) hl hexec
      refine ⟨fun hpart => ?_, hruns, ⟨_, hexec, ?_, State.eq_of_blocks ?_⟩, fun hw hp hpart => ?_⟩
      · rw [hdoze hpart]
        exact congrArg Host.Outcome.next (eventEnd_loadAnswered hr (by simp [hpart]) _ _ _ rfl rfl rfl)
      · simp [endLoad_dict, d]
      · simp
      · rw [hempty hw hp (by simp [hpart])]
        exact congrArg Host.Outcome.next (eventEnd_loadAnswered hr (by simp [hpart]) _ _ _ rfl rfl rfl)

end Sys2Proof.Machine
end

section
/-! PROOFS. Recomputations and retranslations asked by a request (R80, R99, R112), FOLD SET and SPEAKER SET
(R81, R82). -/

namespace Sys2Proof.Machine

/-! ### Retranslation (R112) -/

/-- The UNFIX entries of units reopened, and the closes of the holds they own. -/
def unfixed (l : List TextUnit) (s : State) : State :=
  l.foldl (fun x u => closeOwned u.holdId u.id (appendEntry (.unfix u.id u.text.length) x)) s

theorem unfixed_cons (u : TextUnit) (rest : List TextUnit) (s : State) :
    unfixed (u :: rest) s = unfixed rest (closeOwned u.holdId u.id (appendEntry (.unfix u.id u.text.length) s)) :=
  rfl

@[simp] theorem unfixed_withTrans (x : Translator) (s : State) (l : List TextUnit) :
    unfixed l (withTrans x s) = withTrans x (unfixed l s) := by
  induction l generalizing s with
  | nil => rfl
  | cons u rest ih => rw [unfixed_cons, appendEntry_withTrans, closeOwned_withTrans, ih, unfixed_cons]

@[simp] theorem unfixed_trans (l : List TextUnit) (s : State) : (unfixed l s).trans = s.trans := by
  induction l generalizing s with
  | nil => rfl
  | cons u rest ih => rw [unfixed_cons, ih]; simp

theorem reopenUnit_eq (u : TextUnit) (s : State) :
    reopenUnit u s = withTrans { s.trans with undo := s.trans.undo.dropLast, base := u.before } (unfixed [u] s) := by
  unfold reopenUnit
  show closeOwned u.holdId u.id (withTrans
    { (appendEntry _ (withTrans { s.trans with undo := s.trans.undo.dropLast } s)).trans with base := u.before }
    (appendEntry _ (withTrans { s.trans with undo := s.trans.undo.dropLast } s))) = _
  rw [appendEntry_withTrans, withTrans_trans, withTrans_withTrans, closeOwned_withTrans]
  rfl

/-- The newest units of an undo history, newest first. -/
def newestUnits (undo : List TextUnit) (n : Nat) : List TextUnit := undo.reverse.take n

/-- The newest `n` units and a window fit into 8 strokes. -/
def unitsFit (t : Translator) (n : Nat) : Prop :=
  ((newestUnits t.undo n).map (fun u => u.strokes.length)).sum + t.window.length ≤ 8

/-- The Translator with its newest `n` units reopened into the window. -/
def reopened (t : Translator) (n : Nat) : Translator := { t with
  undo := t.undo.take (t.undo.length - n),
  window := ((newestUnits t.undo n).reverse.map (fun u => u.strokes)).flatten ++ t.window,
  base := (((newestUnits t.undo n).map (fun u => u.before)).getLast?).getD t.base }

theorem newestUnits_concat (rest : List TextUnit) (u : TextUnit) (n : Nat) :
    newestUnits (rest ++ [u]) (n + 1) = u :: newestUnits rest n := by
  simp [newestUnits]

theorem reopened_zero (t : Translator) : reopened t 0 = t := by
  simp [reopened, newestUnits]

theorem reopened_succ (t : Translator) {rest : List TextUnit} {u : TextUnit} (h : t.undo = rest ++ [u]) (n : Nat) :
    reopened t (n + 1)
      = reopened { t with undo := rest, base := u.before, window := u.strokes ++ t.window } n := by
  have hbase : ((newestUnits rest n).map (fun u => u.before)).getLast?.getD u.before
      = ((u :: newestUnits rest n).map (fun u => u.before)).getLast?.getD t.base := by
    cases newestUnits rest n with
    | nil => rfl
    | cons v more => simp [List.getLast?_cons]
  unfold reopened
  rw [h, newestUnits_concat, ← hbase]
  simp

theorem reopenUnits_eq (r : Nat) (s : State) :
    ∃ n, n ≤ r ∧ n ≤ s.trans.undo.length ∧ (0 < n → unitsFit s.trans n) ∧
      (n = r ∨ n = s.trans.undo.length ∨ ¬unitsFit s.trans (n + 1)) ∧
      reopenUnits r s
        = (n, withTrans (reopened s.trans n) (unfixed (newestUnits s.trans.undo n) s)) := by
  induction r generalizing s with
  | zero =>
    refine ⟨0, Nat.le_refl _, Nat.zero_le _, fun h => absurd h (Nat.lt_irrefl _), .inl rfl, ?_⟩
    rw [reopened_zero]
    rfl
  | succ r ih =>
    unfold reopenUnits
    rcases List.eq_nil_or_concat s.trans.undo with hnil | ⟨rest, u, hundo⟩
    · refine ⟨0, Nat.zero_le _, Nat.zero_le _, fun h => absurd h (Nat.lt_irrefl _), .inr (.inl (by rw [hnil]; rfl)), ?_⟩
      rw [reopened_zero, hnil]
      rfl
    · rw [List.concat_eq_append] at hundo
      have hlength : s.trans.undo.length = rest.length + 1 := by rw [hundo]; simp
      have hnewest (n : Nat) : newestUnits s.trans.undo (n + 1) = u :: newestUnits rest n := by
        rw [hundo, newestUnits_concat]
      have hfits (n : Nat) : unitsFit s.trans (n + 1) ↔
          u.strokes.length + ((newestUnits rest n).map (fun u => u.strokes.length)).sum + s.trans.window.length ≤ 8 := by
        rw [unitsFit, hnewest, List.map_cons, List.sum_cons]
      have hlast : s.trans.undo.getLast? = some u := by rw [hundo, List.getLast?_concat]
      have hdrop : s.trans.undo.dropLast = rest := by rw [hundo, List.dropLast_concat]
      rw [hlast]
      dsimp only
      split
      · rename_i hwide
        have hno : ¬unitsFit s.trans (0 + 1) := by
          rw [hfits]
          change 8 < u.strokes.length + s.trans.window.length at hwide
          omega
        refine ⟨0, Nat.zero_le _, Nat.zero_le _, fun h => absurd h (Nat.lt_irrefl _), .inr (.inr hno), ?_⟩
        rw [reopened_zero]
        rfl
      · rename_i hwide
        have hfit : u.strokes.length + s.trans.window.length ≤ 8 := Nat.not_lt.mp hwide
        have hmoved : { reopenUnit u s with trans := { (reopenUnit u s).trans with
              window := u.strokes ++ (reopenUnit u s).trans.window } }
            = withTrans { s.trans with undo := rest, base := u.before, window := u.strokes ++ s.trans.window }
                (unfixed [u] s) := by
          rw [reopenUnit_eq, withTrans_trans, hdrop]
          rfl
        rw [hmoved]
        obtain ⟨n, hle, hundoLe, hn, hstop, heq⟩ := ih
          (withTrans { s.trans with undo := rest, base := u.before, window := u.strokes ++ s.trans.window }
            (unfixed [u] s))
        rw [withTrans_trans] at hundoLe hn hstop heq
        have hfits' (n : Nat) : unitsFit
            { s.trans with undo := rest, base := u.before, window := u.strokes ++ s.trans.window } n
            ↔ unitsFit s.trans (n + 1) := by
          rw [hfits]
          change ((newestUnits rest n).map (fun u => u.strokes.length)).sum + (u.strokes ++ s.trans.window).length ≤ 8 ↔ _
          rw [List.length_append]
          omega
        rw [hfits'] at hn hstop
        refine ⟨n + 1, Nat.succ_le_succ hle, ?_, fun _ => ?_, ?_, ?_⟩
        · rw [hlength]
          exact Nat.succ_le_succ hundoLe
        · rcases Nat.eq_zero_or_pos n with rfl | hpos
          · rw [hfits]
            simp only [newestUnits, List.take_zero, List.map_nil, List.sum_nil]
            omega
          · exact hn hpos
        · rw [hlength]
          exact hstop.imp (congrArg (· + 1)) (Or.imp_left (congrArg (· + 1)))
        · rw [heq]
          dsimp only
          rw [reopened_succ _ hundo, hnewest, unfixed_withTrans, withTrans_withTrans]
          rfl

theorem retranslate_eq (r : Nat) (s : State) :
    ∃ n, n ≤ r ∧ n ≤ s.trans.undo.length ∧ (0 < n → unitsFit s.trans n) ∧
      (n = r ∨ n = s.trans.undo.length ∨ ¬unitsFit s.trans (n + 1)) ∧
      retranslate r s = (n, restartIf true (recompute (withTrans
        { reopened s.trans n with provisional := [] }
        (unfixed (newestUnits s.trans.undo n) (appendTake (textTotal s.trans.provisional) s))))) := by
  obtain ⟨n, hle, hundo, hn, hstop, heq⟩ := reopenUnits_eq r
    (withTrans { s.trans with provisional := [] } (appendTake (textTotal s.trans.provisional) s))
  refine ⟨n, hle, hundo, hn, hstop, ?_⟩
  have hstart : retranslate r s = ((reopenUnits r
      (withTrans { s.trans with provisional := [] } (appendTake (textTotal s.trans.provisional) s))).1,
      restartIf true (recompute (reopenUnits r
        (withTrans { s.trans with provisional := [] } (appendTake (textTotal s.trans.provisional) s))).2)) := by
    have hset : { appendTake (textTotal s.trans.provisional) s with
        trans := { (appendTake (textTotal s.trans.provisional) s).trans with provisional := [] } }
        = withTrans { s.trans with provisional := [] } (appendTake (textTotal s.trans.provisional) s) := by
      simp [withTrans]
    unfold retranslate
    dsimp only
    rw [hset]
    rfl
  rw [hstart, heq, unfixed_withTrans, withTrans_withTrans]
  rfl

theorem retranslate_retranslated {becomes : Nat → State → Prop} {r : Nat} {s : State}
    (hb : ∀ n t, retranslate r s = (n, t) → becomes n t) : Retranslated becomes r s := by
  obtain ⟨n, hle, hundo, hn, hstop, heq⟩ := retranslate_eq r s
  exact ⟨n, hle, hundo, hn, hstop, recompute_recomputed (hb _ _ heq)⟩

/-- With nothing put and nothing to reopen, a retranslation appends nothing. -/
theorem retranslate_empty {r : Nat} {s : State} (hw : s.trans.window = []) (hp : s.trans.provisional = [])
    (hu : s.trans.undo = []) :
    retranslate r s = (0, { s with trans := { s.trans with recomputePending := false, settleTimer := none } }) := by
  obtain ⟨n, _, hundo, _, _, heq⟩ := retranslate_eq r s
  have hzero : n = 0 := by
    rw [hu] at hundo
    exact Nat.le_zero.mp hundo
  have htaken : appendTake (textTotal s.trans.provisional) s = s := by
    rw [hp]
    rfl
  have hsame : withTrans { reopened s.trans 0 with provisional := [] } (unfixed (newestUnits s.trans.undo 0) s) = s := by
    rw [reopened_zero]
    exact eq_withTrans (congrArg (fun p => { s.trans with provisional := p }) hp)
  rw [heq, hzero, htaken, hsame, recompute_empty true hw hp]

/-! ### A recomputation asked (R80, R99) -/

/-- The end of an event leaves the answers that wait. -/
theorem eventEnd_answers (s : State) (port : Port) : ((eventEnd s).port port).answers = (s.port port).answers := by
  have hattention (t : State) : ((driveAttention t).port port).answers = (t.port port).answers := by
    cases port <;> rfl
  have hreach (t : State) : (reachAll t).port port = t.port port := rfl
  unfold eventEnd
  rw [hattention, hreach]
  exact (dozeIfReady_port s port).1

theorem pushReply_answers (port : Port) (r : Reply) (s : State) :
    ((pushReply port r s).port port).answers = (s.port port).answers ++ [r] := by
  cases port <;> rfl

theorem askRetranslate_stays {r : Nat} {s : State} (h : ¬translatorRuns s = true) :
    askRetranslate r s = (0, { s with trans := { s.trans with recomputePending := true } }) := by
  have hno : translatorRuns s = false := Bool.eq_false_iff.mpr h
  unfold askRetranslate askRecompute
  rw [hno, Bool.and_false]
  rfl

theorem askRetranslate_zero {s : State} (h : translatorRuns s = true) : askRetranslate 0 s = (0, recompute s) :=
  congrArg (Prod.mk 0) (if_pos h)

theorem askRetranslate_runs {r : Nat} {s : State} (h : translatorRuns s = true) (hr : 0 < r) :
    askRetranslate r s = retranslate r s := by
  unfold askRetranslate
  rw [h, Bool.and_true]
  exact if_pos (decide_eq_true hr)

theorem askRetranslate_le (r : Nat) (s : State) : (askRetranslate r s).1 ≤ r := by
  unfold askRetranslate
  split
  · obtain ⟨n, hle, _, _, _, heq⟩ := retranslate_eq r s
    rw [heq]
    exact hle
  · exact Nat.zero_le _

/-- What an answer leaves of a request that changes the layers and asks a recomputation. -/
theorem recomputeAsked {k : RequestKind} {f : Nat → List Byte} {owner : State → State × Verdict} {d : Dictionary}
    {limit : Nat} {s : State} {nothing : Prop} (hr : Rested s) (ht : Takes .station k s)
    (ho : owner s = ((askRetranslate limit { s with dict := d }).2,
      answerOk (f (askRetranslate limit { s with dict := d }).1)))
    (hd : loadPaused d = loadPaused s.dict) (hn : nothing → limit = 0 ∨ s.trans.undo = []) :
    RecomputeAsked (.next (takeRequest .station k owner s)) nothing (fun n => .answer (kindCode k) .ok (f n)) limit d
      s := by
  have hquiet : dozeReady { s with dict := d } = false := by
    have hdoze := hr.1
    unfold dozeReady at hdoze ⊢
    rw [hd]
    exact hdoze
  have hruns : translatorRuns { s with dict := d } = true ↔ loadPaused s.dict = false ∧ s.power.part ≠ .doze := by
    rw [translatorRuns_iff, ← hd]
  have htaken : takeRequest .station k owner s = eventEnd (pushReply .station
      (.answer (kindCode k) .ok (f (askRetranslate limit { s with dict := d }).1))
      (askRetranslate limit { s with dict := d }).2) := by
    rw [takeRequest_taken ht, ho]
    rfl
  have hquietly {x : Translator} (hw : x.window = s.trans.window)
      (hasked : askRetranslate limit { s with dict := d } = (0, { s with dict := d, trans := x })) :
      takeRequest .station k owner s
        = replied .station (.answer (kindCode k) .ok (f 0)) { s with dict := d, trans := x } := by
    rw [hasked] at ho
    have hdoze : dozeReady { s with dict := d, trans := x } = false := by
      unfold dozeReady at hquiet ⊢
      rw [hw]
      exact hquiet
    exact takeRequest_quiet hr ht ho rfl rfl rfl rfl hdoze
  refine ⟨fun hstays => ?_, fun hl hdoze hw hp hnothing => ?_, fun hl hdoze => ⟨fun hzero => ?_, fun hpos => ?_⟩,
    ⟨_, (askRetranslate limit { s with dict := d }).1, congrArg Host.Outcome.next htaken, askRetranslate_le _ _, ?_,
      ?_, State.eq_of_blocks ?_⟩⟩
  · refine congrArg Host.Outcome.next (hquietly rfl (askRetranslate_stays ?_))
    rw [hruns]
    rcases hstays with hl | hdoze
    · simp [hl]
    · simp [hdoze]
  · have hyes := hruns.mpr ⟨hl, hdoze⟩
    refine congrArg Host.Outcome.next
      (hquietly (x := { s.trans with recomputePending := false, settleTimer := none }) rfl ?_)
    rcases Nat.eq_zero_or_pos limit with rfl | hpos
    · rw [askRetranslate_zero hyes]
      exact congrArg (Prod.mk 0) (recompute_empty (s := { s with dict := d }) false hw hp)
    · rw [askRetranslate_runs hyes hpos]
      exact retranslate_empty (s := { s with dict := d }) hw hp ((hn hnothing).resolve_left (Nat.ne_of_gt hpos))
  · subst hzero
    refine recompute_recomputed (restart := false) (congrArg Host.Outcome.next ?_)
    rw [htaken, askRetranslate_zero (hruns.mpr ⟨hl, hdoze⟩)]
    rfl
  · refine retranslate_retranslated fun n t heq => congrArg Host.Outcome.next ?_
    rw [htaken, askRetranslate_runs (hruns.mpr ⟨hl, hdoze⟩) hpos, heq]
  · simp
  · rw [eventEnd_answers, pushReply_answers]
    exact congrArg (· ++ [_]) (askRetranslate_port limit { s with dict := d } .station).1
  · simp

/-! ### FOLD SET and SPEAKER SET (R81, R82) -/

theorem lineCode_iff (c : Byte) : lineCode c = true ↔ (32 ≤ c.toNat ∧ c.toNat ≤ 126) ∨ 128 ≤ c.toNat := by
  simp [lineCode]

theorem foldInRange_iff (key : Nat) (suffix : Text) :
    foldInRange key suffix = true ↔ 1 ≤ key ∧ key ≤ 22 ∧ 1 ≤ suffix.length ∧ suffix.length ≤ 8 ∧
      ∀ c ∈ suffix, (32 ≤ c.toNat ∧ c.toNat ≤ 126) ∨ 128 ≤ c.toNat := by
  simp only [foldInRange, Bool.and_eq_true, decide_eq_true_iff, List.all_eq_true, lineCode_iff, and_assoc]

theorem labelInRange_iff (label : Text) :
    labelInRange label = true ↔ label.length ≤ 32 ∧
      ∀ c ∈ label, (32 ≤ c.toNat ∧ c.toNat ≤ 126) ∨ 128 ≤ c.toNat := by
  simp only [labelInRange, Bool.and_eq_true, decide_eq_true_iff, List.all_eq_true, lineCode_iff]

/-- Settles O32: both tables are part of the layers, and no unit is reopened for them. -/
theorem foldAndSpeakerTablesAreSet : Obligations.FoldAndSpeakerTablesAreSet := by
  unfold Obligations.FoldAndSpeakerTablesAreSet
  intro plain
  refine ⟨fun rule inUse key suffix s hr ht => ?_,
    fun slot label s hr ht => ⟨fun hwrong => ?_, fun hslot hlen hplain => ?_⟩⟩
  · intro used unused rules
    have hgiven : used ∨ unused → foldRule inUse key suffix
        = some { inUse := inUse, key := key.getD 0, suffix := suffix.getD [] } := by
      rintro (⟨rfl, k, t, rfl, rfl, hk, hk', ht, ht', hplain⟩ | ⟨rfl, rfl, rfl⟩)
      · exact if_pos ((foldInRange_iff k t).mpr ⟨hk, hk', ht, ht', hplain⟩)
      · rfl
    have hneither : ¬used → ¬unused → foldRule inUse key suffix = none := by
      intro hused hunused
      rcases inUse with _ | _ <;> rcases key with _ | k <;> rcases suffix with _ | t <;> try rfl
      · exact absurd ⟨rfl, rfl, rfl⟩ hunused
      · refine if_neg fun hrange => hused ⟨rfl, k, t, rfl, rfl, ?_⟩
        exact (foldInRange_iff k t).mp hrange
    refine ⟨fun hwrong => ?_, fun hle hasked => ?_⟩
    · refine congrArg Host.Outcome.next (takeRequest_refused (v := refuse .outOfRange) hr ht ?_)
      unfold foldSetOwner
      rcases hwrong with hwrong | ⟨hused, hunused⟩
      · rw [decide_eq_false (Nat.not_le.mpr hwrong)]
      · rw [hneither hused hunused]
        cases decide (rule ≤ 3) <;> rfl
    · refine recomputeAsked (limit := 0) hr ht ?_ rfl fun _ => .inl rfl
      unfold foldSetOwner
      rw [decide_eq_true hle, hgiven hasked]
      rfl
  · refine congrArg Host.Outcome.next (takeRequest_refused (v := refuse .outOfRange) hr ht (if_neg ?_))
    rw [Bool.and_eq_true, decide_eq_true_iff, labelInRange_iff]
    rintro ⟨hslot, hlen, hplain⟩
    rcases hwrong with hwrong | hwrong | hwrong
    · omega
    · omega
    · exact hwrong hplain
  · refine recomputeAsked (limit := 0) hr ht ?_ rfl fun _ => .inl rfl
    refine if_pos ?_
    rw [Bool.and_eq_true, decide_eq_true_iff, labelInRange_iff]
    exact ⟨hslot, hlen, hplain⟩

end Sys2Proof.Machine
end

section
/-! PROOFS. DEFINE and UNDEFINE: the slots of the Job table (R76 to R80). -/

namespace Sys2Proof.Machine

/-! ### The slot of a key after each operation -/

theorem jobSlot_key {slots : List JobSlot} {q : JobKey} {x : JobSlot} (h : jobSlot slots q = some x) : x.key = q := by
  have := List.find?_some h
  simpa using this

/-- An operation on the slots that keeps their keys. -/
theorem jobSlot_map {f : JobSlot → JobSlot} (hf : ∀ x, (f x).key = x.key) (slots : List JobSlot) (q : JobKey) :
    jobSlot (slots.map f) q = (jobSlot slots q).map f := by
  unfold jobSlot
  rw [List.find?_map]
  simp only [Function.comp_def, hf]

theorem jobSlot_setEntry_self (k : JobKey) (e : Option Entry) (slots : List JobSlot) :
    jobSlot (setEntry k e slots) k = (jobSlot slots k).map (fun x => { x with entry := e }) := by
  unfold setEntry
  rw [jobSlot_map fun x => by split <;> rfl]
  cases hx : jobSlot slots k with
  | none => rfl
  | some x => simp [jobSlot_key hx]

theorem jobSlot_setEntry_other {k q : JobKey} (h : q ≠ k) (e : Option Entry) (slots : List JobSlot) :
    jobSlot (setEntry k e slots) q = jobSlot slots q := by
  unfold setEntry
  rw [jobSlot_map fun x => by split <;> rfl]
  cases hx : jobSlot slots q with
  | none => rfl
  | some x => simp [jobSlot_key hx, h]

theorem jobSlot_raiseCounts (keys : List JobKey) (slots : List JobSlot) (q : JobKey) :
    jobSlot (raiseCounts keys slots) q
      = (jobSlot slots q).map (fun x => if q ∈ keys then { x with extensions := x.extensions + 1 } else x) := by
  unfold raiseCounts
  rw [jobSlot_map fun x => by split <;> rfl]
  cases hx : jobSlot slots q with
  | none => rfl
  | some x => simp [jobSlot_key hx]

theorem jobSlot_lowerCounts (keys : List JobKey) (slots : List JobSlot) (q : JobKey) :
    jobSlot (lowerCounts keys slots) q
      = (jobSlot slots q).map (fun x => if q ∈ keys then { x with extensions := x.extensions - 1 } else x) := by
  unfold lowerCounts
  rw [jobSlot_map fun x => by split <;> rfl]
  cases hx : jobSlot slots q with
  | none => rfl
  | some x => simp [jobSlot_key hx]

theorem jobSlot_takeSlots_some {slots : List JobSlot} {q : JobKey} {x : JobSlot} (keys : List JobKey)
    (h : jobSlot slots q = some x) : jobSlot (takeSlots keys slots) q = some x := by
  unfold takeSlots jobSlot at *
  rw [List.find?_append, h]
  rfl

/-- A slot taken for a key that has none holds no entry, and has count 0. -/
theorem jobSlot_takeSlots_none {slots : List JobSlot} {q : JobKey} (keys : List JobKey)
    (h : jobSlot slots q = none) :
    jobSlot (takeSlots keys slots) q
      = if q ∈ keys then some { key := q, entry := none, extensions := 0 } else none := by
  have hfree : (jobSlot slots q).isNone = true := by rw [h]; rfl
  unfold takeSlots
  rw [jobSlot, List.find?_append, show slots.find? (fun x => x.key == q) = none from h, Option.none_or,
    List.find?_map]
  simp only [Function.comp_def]
  split
  · rename_i hq
    have hmem : q ∈ keys.filter (fun k => (jobSlot slots k).isNone) := List.mem_filter.mpr ⟨hq, hfree⟩
    obtain ⟨y, hy⟩ := Option.isSome_iff_exists.mp
      (List.find?_isSome (p := fun k : List Chord => k == q).mpr ⟨q, hmem, beq_self_eq_true q⟩)
    have hyq : y = q := by simpa using List.find?_some hy
    rw [hy, hyq]
    rfl
  · rename_i hq
    have hnone : (keys.filter (fun k => (jobSlot slots k).isNone)).find? (fun k => k == q) = none := by
      rw [List.find?_eq_none]
      intro k hk
      rw [beq_iff_eq]
      rintro rfl
      exact hq (List.mem_of_mem_filter hk)
    rw [hnone]
    rfl

/-! ### DEFINE (R77, R78) -/

theorem keyLengthInRange_iff (key : List Nat) : keyLengthInRange key = true ↔ 1 ≤ key.length ∧ key.length ≤ 8 := by
  simp [keyLengthInRange]

theorem chordsInRange_iff (key : List Nat) : key.all chordInRange = true ↔ ∀ c ∈ key, 1 ≤ c ∧ c ≤ 8388607 := by
  simp only [List.all_eq_true, chordInRange_iff]

theorem defineInRange_iff (key : List Nat) (e : Entry) (r : Nat) :
    defineInRange key e r = true ↔ 1 ≤ key.length ∧ key.length ≤ 8 ∧ (∀ c ∈ key, 1 ≤ c ∧ c ≤ 8388607) ∧
      entryWellFormed e = true ∧ r ≤ 8 := by
  simp only [defineInRange, Bool.and_eq_true, keyLengthInRange_iff, chordsInRange_iff, decide_eq_true_iff, and_assoc]

theorem setEntry_length (k : JobKey) (e : Option Entry) (slots : List JobSlot) :
    (setEntry k e slots).length = slots.length := List.length_map _

theorem raiseCounts_length (keys : List JobKey) (slots : List JobSlot) :
    (raiseCounts keys slots).length = slots.length := List.length_map _

/-- The proper prefixes of a key that have no slot. -/
def missingPrefixes (slots : List JobSlot) (k : List Chord) : List (List Chord) :=
  (properPrefixes k).filter (fun p => (jobSlot slots p).isNone)

theorem takeSlots_length {slots : List JobSlot} {k : List Chord} (h : jobSlot slots k = none) :
    (takeSlots (properPrefixes k ++ [k]) slots).length = slots.length + 1 + (missingPrefixes slots k).length := by
  simp [takeSlots, List.filter_append, h, missingPrefixes]
  omega

/-- Every proper leading run of a key in the table has a slot. -/
theorem JobTableOk.prefix_isSome {slots : List JobSlot} (h : JobTableOk slots) {k : JobKey} {x : JobSlot}
    (hx : jobSlot slots k = some x) {p : JobKey} (hp : p ∈ properPrefixes k) : (jobSlot slots p).isSome = true := by
  obtain ⟨_, _, hlen, hext, hnone, hclosed⟩ := h
  have hmem : x ∈ slots := List.mem_of_find?_eq_some hx
  have hkey := jobSlot_key hx
  cases he : x.entry with
  | some e => exact hclosed x hmem (by rw [he]; rfl) p (by rw [hkey]; exact hp)
  | none =>
    have hpos := hnone x hmem he
    rw [hext x hmem] at hpos
    obtain ⟨y, hy, hreal, hprefix⟩ := extension_of_pos _ _ (hlen x hmem).1 hpos
    exact hclosed y hy hreal p (properPrefixes_trans (by rw [hkey]; exact hp) hprefix)

/-- A key made real in slots that hold it and its prefixes. -/
theorem jobSlot_madeReal_self (k : JobKey) (e : Entry) (slots : List JobSlot) :
    jobSlot (raiseCounts (properPrefixes k) (setEntry k (some e) slots)) k
      = (jobSlot slots k).map (fun x => { x with entry := some e }) := by
  rw [jobSlot_raiseCounts, jobSlot_setEntry_self, Option.map_map]
  simp [Function.comp_def, not_mem_properPrefixes_self]

theorem jobSlot_madeReal_other {k q : JobKey} (h : q ≠ k) (e : Entry) (slots : List JobSlot) :
    jobSlot (raiseCounts (properPrefixes k) (setEntry k (some e) slots)) q
      = (jobSlot slots q).map (fun x =>
          if q ∈ properPrefixes k then { x with extensions := x.extensions + 1 } else x) := by
  rw [jobSlot_raiseCounts, jobSlot_setEntry_other h]

/-- The slots a DEFINE leaves of `slots`, as R78 gives them. -/
def SlotsDefined (k : List Chord) (e : Entry) (slots after : List JobSlot) : Prop :=
  let old := jobSlot slots k
  let isReal : Prop := ∃ x, old = some x ∧ x.entry.isSome = true
  jobSlot after k = some { key := k, entry := some e, extensions := (old.map (fun x => x.extensions)).getD 0 } ∧
  (∀ q, q ≠ k →
    (q ∈ properPrefixes k → ¬isReal →
      jobSlot after q = some {
        key := q, entry := (jobSlot slots q).bind (fun x => x.entry),
        extensions := ((jobSlot slots q).map (fun x => x.extensions)).getD 0 + 1 }) ∧
    (q ∉ properPrefixes k ∨ isReal → jobSlot after q = jobSlot slots q)) ∧
  after.length = slots.length + (if old = none then 1 + (missingPrefixes slots k).length else 0)

theorem defineSlots_none {slots : List JobSlot} {k : List Chord} (e : Entry) (hk : jobSlot slots k = none)
    (hfull : 1024 < slots.length + 1 + (missingPrefixes slots k).length) : defineSlots k e slots = none := by
  unfold defineSlots
  rw [hk]
  refine if_pos ?_
  rw [setEntry_length, takeSlots_length hk]
  exact hfull

theorem defineSlots_some {slots : List JobSlot} {k : List Chord} (e : Entry) (h : JobTableOk slots)
    (hroom : ¬(jobSlot slots k = none ∧ 1024 < slots.length + 1 + (missingPrefixes slots k).length)) :
    ∃ after, defineSlots k e slots = some after ∧ SlotsDefined k e slots after := by
  cases hk : jobSlot slots k with
  | some x =>
    have hkey := jobSlot_key hk
    have hself (after : List JobSlot)
        (hafter : jobSlot after k = (jobSlot slots k).map (fun x => { x with entry := some e })) :
        jobSlot after k = some {
          key := k, entry := some e, extensions := ((jobSlot slots k).map (fun x => x.extensions)).getD 0 } := by
      rw [hafter, hk, ← hkey]
      rfl
    cases hreal : x.entry.isSome with
    | true =>
      refine ⟨setEntry k (some e) slots, ?_, hself _ (jobSlot_setEntry_self k _ slots),
        fun q hq => ⟨fun _ hno => ?_, fun _ => ?_⟩, ?_⟩
      · unfold defineSlots
        rw [hk]
        simp [hreal]
      · exact absurd ⟨x, hk, hreal⟩ hno
      · exact jobSlot_setEntry_other hq _ slots
      · rw [setEntry_length, hk]
        rfl
    | false =>
      refine ⟨raiseCounts (properPrefixes k) (setEntry k (some e) slots), ?_,
        hself _ (jobSlot_madeReal_self k e slots), fun q hq => ⟨fun hp _ => ?_, fun hno => ?_⟩, ?_⟩
      · unfold defineSlots
        rw [hk]
        simp [hreal]
      · obtain ⟨y, hy⟩ := Option.isSome_iff_exists.mp (h.prefix_isSome hk hp)
        rw [jobSlot_madeReal_other hq, hy, ← jobSlot_key hy]
        simp [jobSlot_key hy, hp]
      · have hp : q ∉ properPrefixes k := hno.resolve_right fun ⟨z, hz, hr⟩ => by
          rw [hk, Option.some.injEq] at hz
          rw [← hz, hreal] at hr
          exact Bool.noConfusion hr
        rw [jobSlot_madeReal_other hq]
        simp [hp]
      · rw [raiseCounts_length, setEntry_length, hk]
        rfl
  | none =>
    have hroom' : ¬1024 < (setEntry k (some e) (takeSlots (properPrefixes k ++ [k]) slots)).length := by
      rw [setEntry_length, takeSlots_length hk]
      exact fun hfull => hroom ⟨hk, hfull⟩
    refine ⟨raiseCounts (properPrefixes k) (setEntry k (some e) (takeSlots (properPrefixes k ++ [k]) slots)), ?_, ?_,
      fun q hq => ⟨fun hp _ => ?_, fun hno => ?_⟩, ?_⟩
    · unfold defineSlots
      rw [hk]
      exact if_neg hroom'
    · rw [jobSlot_madeReal_self, jobSlot_takeSlots_none _ hk, hk]
      simp
    · rw [jobSlot_madeReal_other hq]
      cases hy : jobSlot slots q with
      | none => rw [jobSlot_takeSlots_none _ hy]; simp [hp]
      | some y =>
        rw [jobSlot_takeSlots_some _ hy]
        have := jobSlot_key hy
        subst this
        simp [hp]
    · have hp : q ∉ properPrefixes k := hno.resolve_right fun ⟨z, hz, _⟩ => by rw [hk] at hz; cases hz
      rw [jobSlot_madeReal_other hq]
      cases hy : jobSlot slots q with
      | none => rw [jobSlot_takeSlots_none _ hy]; simp [hp, hq]
      | some y => rw [jobSlot_takeSlots_some _ hy]; simp [hp]
    · rw [raiseCounts_length, setEntry_length, takeSlots_length hk, hk, if_pos rfl]
      omega

/-! ### UNDEFINE (R79) -/

/-- A slot left with neither an entry nor a count is freed. -/
def slotLeft (x : JobSlot) : Option JobSlot := if x.entry = none ∧ x.extensions = 0 then none else some x

theorem slotUsed_iff (x : JobSlot) : slotUsed x = true ↔ ¬(x.entry = none ∧ x.extensions = 0) := by
  unfold slotUsed
  cases x.entry <;> simp [Nat.pos_iff_ne_zero]

theorem jobSlot_filter_used {slots : List JobSlot} (h : (slots.map (fun x => x.key)).Nodup) (q : JobKey) :
    jobSlot (slots.filter slotUsed) q = (jobSlot slots q).bind slotLeft := by
  cases hx : jobSlot slots q with
  | none =>
    rw [jobSlot_eq_none_iff] at hx
    refine (jobSlot_eq_none_iff _ q).mpr fun hmem => hx ?_
    obtain ⟨y, hy, hyq⟩ := List.mem_map.mp hmem
    exact List.mem_map.mpr ⟨y, List.mem_of_mem_filter hy, hyq⟩
  | some x =>
    have hmem : x ∈ slots := List.mem_of_find?_eq_some hx
    have hkey := jobSlot_key hx
    by_cases hused : slotUsed x = true
    · have hleft : slotLeft x = some x := if_neg ((slotUsed_iff x).mp hused)
      rw [Option.bind_some, hleft]
      have hsome : (jobSlot (slots.filter slotUsed) q).isSome = true :=
        (jobSlot_isSome_iff _ q).mpr (List.mem_map.mpr ⟨x, List.mem_filter.mpr ⟨hmem, hused⟩, hkey⟩)
      obtain ⟨y, hy⟩ := Option.isSome_iff_exists.mp hsome
      have hymem := List.mem_of_mem_filter (List.mem_of_find?_eq_some hy)
      rw [hy, List.inj_on_of_nodup_map h hymem hmem ((jobSlot_key hy).trans hkey.symm)]
    · have hleft : slotLeft x = none := if_pos (not_not.mp (mt (slotUsed_iff x).mpr hused))
      rw [Option.bind_some, hleft]
      refine (jobSlot_eq_none_iff _ q).mpr fun hq => hused ?_
      obtain ⟨y, hy, hyq⟩ := List.mem_map.mp hq
      rw [← List.inj_on_of_nodup_map h (List.mem_of_mem_filter hy) hmem (hyq.trans hkey.symm)]
      exact (List.mem_filter.mp hy).2

theorem jobSlot_undefineSlots {slots : List JobSlot} (h : JobTableOk slots) (k : List Chord) :
    jobSlot (undefineSlots k slots) k = (jobSlot slots k).bind (fun x => slotLeft { x with entry := none }) ∧
    ∀ q, q ≠ k →
      (q ∈ properPrefixes k → jobSlot (undefineSlots k slots) q
        = (jobSlot slots q).bind (fun x => slotLeft { x with extensions := x.extensions - 1 })) ∧
      (q ∉ properPrefixes k → jobSlot (undefineSlots k slots) q = jobSlot slots q) := by
  obtain ⟨_, hnodup, _, _, hnone, _⟩ := h
  have hkeys : ((lowerCounts (properPrefixes k) (setEntry k none slots)).map (fun x => x.key)).Nodup := by
    rw [lowerCounts_keys, setEntry_keys]
    exact hnodup
  unfold undefineSlots
  refine ⟨?_, fun q hq => ⟨fun hp => ?_, fun hp => ?_⟩⟩
  · rw [jobSlot_filter_used hkeys, jobSlot_lowerCounts, jobSlot_setEntry_self]
    cases jobSlot slots k <;> simp [not_mem_properPrefixes_self]
  · rw [jobSlot_filter_used hkeys, jobSlot_lowerCounts, jobSlot_setEntry_other hq]
    cases jobSlot slots q <;> simp [hp]
  · rw [jobSlot_filter_used hkeys, jobSlot_lowerCounts, jobSlot_setEntry_other hq]
    cases hx : jobSlot slots q with
    | none => rfl
    | some x =>
      have hused : ¬(x.entry = none ∧ x.extensions = 0) := fun ⟨he, hz⟩ => by
        have := hnone x (List.mem_of_find?_eq_some hx) he
        omega
      simp [hp, slotLeft, hused]

theorem realSlot_isSome_iff (slots : List JobSlot) (k : List Chord) :
    (realSlot slots k).isSome = true ↔ ∃ x, jobSlot slots k = some x ∧ x.entry.isSome = true := by
  unfold realSlot
  cases jobSlot slots k with
  | none => simp
  | some x => cases x.entry <;> simp

theorem undefineInRange_iff (key : List Nat) (s : State) :
    (keyLengthInRange key && key.all chordInRange && (realSlot s.dict.job (chordsOf key)).isSome) = true ↔
      1 ≤ key.length ∧ key.length ≤ 8 ∧ (∀ c ∈ key, 1 ≤ c ∧ c ≤ 8388607) ∧
      ∃ x, jobSlot s.dict.job (chordsOf key) = some x ∧ x.entry.isSome = true := by
  simp only [Bool.and_eq_true, keyLengthInRange_iff, chordsInRange_iff, realSlot_isSome_iff, and_assoc]

/-- Settles O31: the slots by their lookups, and the recomputation asked. -/
theorem defineAndUndefineChangeTheJobTable : Obligations.DefineAndUndefineChangeTheJobTable := by
  refine ⟨fun key entry r s hr ht hjob => ?_, fun key s hr ht hjob => ?_⟩
  · intro k ranged old isReal missing full refusal
    refine ⟨fun hno => ?_, fun hyes hfull => ?_, fun hyes hroom => ?_⟩
    · refine congrArg Host.Outcome.next (takeRequest_refused (v := refuse .outOfRange) hr ht (if_neg ?_))
      rwa [defineInRange_iff]
    · refine congrArg Host.Outcome.next (takeRequest_refused (v := refuse .full) hr ht ?_)
      unfold defineOwner
      rw [if_pos ((defineInRange_iff key entry r).mpr hyes)]
      rw [show chordsOf key = k from rfl, defineSlots_none entry hfull.1 hfull.2]
    · obtain ⟨slots, hslots, hself, hothers, hlength⟩ := defineSlots_some (k := k) entry hjob hroom
      refine ⟨slots, hself, hothers, hlength, ?_⟩
      refine recomputeAsked (limit := r) (f := fun n => byte n ++ num 2 slots.length) hr ht ?_ rfl id
      unfold defineOwner
      rw [if_pos ((defineInRange_iff key entry r).mpr hyes)]
      rw [show chordsOf key = k from rfl, hslots]
      refine Prod.ext rfl ?_
      simp [defineFields, setJob, setDict]
  · intro k old ranged left
    refine ⟨fun hno => ?_, fun hyes => ?_⟩
    · refine congrArg Host.Outcome.next (takeRequest_refused (v := refuse .outOfRange) hr ht (if_neg ?_))
      rwa [undefineInRange_iff]
    · obtain ⟨hself, hothers⟩ := jobSlot_undefineSlots hjob k
      refine ⟨undefineSlots k s.dict.job, hself, hothers, ?_⟩
      refine recomputeAsked (limit := 0) hr ht ?_ rfl fun _ => .inl rfl
      unfold undefineOwner
      rw [if_pos ((undefineInRange_iff key s).mpr hyes)]
      refine Prod.ext rfl ?_
      simp [setJob, setDict]
      rfl

end Sys2Proof.Machine
end

section
/-! PROOFS. The entry into SETTLING and the passage to DOZE (R147 to R151). -/

namespace Sys2Proof.Machine

/-! ### The passage to DOZE and an answer that waits -/

theorem queueNotice_answers (n : Notice) (p : PortState) (a : List Reply) :
    queueNotice n { p with answers := a } = { queueNotice n p with answers := a } ∧
    (queueNotice n p).answers = p.answers := by
  unfold queueNotice
  split
  · split <;> exact ⟨rfl, rfl⟩
  · exact ⟨rfl, rfl⟩

theorem raiseNotice_pushReply (n : Notice) (port : Port) (r : Reply) (s : State) :
    raiseNotice n (pushReply port r s) = pushReply port r (raiseNotice n s) := by
  have one (q : Port) (s : State) : noticeOn q n (pushReply port r s) = pushReply port r (noticeOn q n s) := by
    by_cases h : q = port
    · subst h
      cases q <;>
        simp [noticeOn, pushReply, State.setPort, State.port, Ports.set, Ports.get, queueNotice_answers]
    · match q, port, h with
      | .machine, .station, _ | .machine, .feed, _ | .station, .machine, _ | .station, .feed, _
      | .feed, .machine, _ | .feed, .station, _ => rfl
  simp only [raiseNotice, one]

/-- The entry into DOZE (R151). -/
theorem enterDoze_eq (s : State) :
    enterDoze s = raiseNotice { kind := .power, fields := byte 2 ++ byte (reasonCode s.power.reason) ++ [0] }
      { s with
        power := { s.power with
          part := .doze,
          causes := if s.power.clearOnDoze = true then { pattern := false, machine := false, station := false }
                    else s.power.causes },
        wake := { s.wake with count := 0, gapTimer := false },
        trans := { s.trans with settleAll := false } } := rfl

theorem dozeIfReady_pushReply (port : Port) (r : Reply) (s : State) :
    dozeIfReady (pushReply port r s) = pushReply port r (dozeIfReady s) := by
  have hd : dozeReady (pushReply port r s) = dozeReady s := by simp [dozeReady, loadPaused]
  unfold dozeIfReady
  rw [hd]
  split
  · rw [enterDoze_eq, enterDoze_eq, ← raiseNotice_pushReply]
    simp only [pushReply_frame]
    rfl
  · rfl

/-! ### The entry into SETTLING (R150) -/

/-- A part that has entered SETTLING, its units not yet settled. -/
def settlingPart (reason : DozeReason) (s : State) : State :=
  raiseNotice { kind := .power, fields := byte 1 ++ byte (reasonCode reason) ++ [0] }
    { s with
      power := { s.power with part := .settling, reason := reason, idleTimer := none },
      trans := { s.trans with settleAll := true } }

theorem enterSettling_eq (reason : DozeReason) (s : State) :
    enterSettling reason s
      = if loadPaused s.dict then settlingPart reason s else settleEvery (settlingPart reason s) := rfl

@[simp] theorem settlingPart_frame (reason : DozeReason) (s : State) :
    (settlingPart reason s).capture = s.capture ∧ (settlingPart reason s).log = s.log ∧
    (settlingPart reason s).time = s.time ∧ (settlingPart reason s).dict = s.dict ∧
    (settlingPart reason s).trans = { s.trans with settleAll := true } ∧
    (settlingPart reason s).journal = s.journal ∧ (settlingPart reason s).holds = s.holds ∧
    (settlingPart reason s).power = { s.power with part := .settling, reason := reason, idleTimer := none } ∧
    (settlingPart reason s).wake = s.wake ∧ (settlingPart reason s).counters = s.counters ∧
    (settlingPart reason s).pending = s.pending := by
  simp [settlingPart]

/-- Nothing keeps the part from passing on to DOZE once its units are settled (R151). -/
def nothingWaits (s : State) : Prop :=
  s.capture.assembler.state = .idle ∧ s.log.translator.cursor = s.log.head

theorem settleEvery_emptied (s : State) :
    (settleEvery s).trans.window = [] ∧ (settleEvery s).trans.provisional = [] := ⟨rfl, rfl⟩

theorem dozeReady_settled {reason : DozeReason} {s : State} (hl : loadPaused s.dict = false) :
    dozeReady (settleEvery (settlingPart reason s)) = true ↔ nothingWaits s := by
  unfold dozeReady nothingWaits
  rw [(settleEvery_emptied _).1]
  simp [hl]

/-- An answer that a request has given, if one has. -/
def answering (r : Option Reply) (t : State) : State :=
  match r with
  | none => t
  | some r => pushReply .machine r t

theorem answering_frame (r : Option Reply) (t : State) :
    (driveAttention (answering r t)).capture = t.capture ∧ (driveAttention (answering r t)).log = t.log ∧
    (driveAttention (answering r t)).time = t.time ∧ (driveAttention (answering r t)).dict = t.dict ∧
    (driveAttention (answering r t)).trans = t.trans ∧ (driveAttention (answering r t)).power = t.power ∧
    (driveAttention (answering r t)).pending = t.pending := by
  cases r <;> simp [answering]

theorem answering_answers (r : Option Reply) (t : State) :
    ((driveAttention (answering r t)).port .machine).answers = (t.port .machine).answers ++ r.toList := by
  cases r with
  | none => exact (List.append_nil _).symm
  | some r => exact pushReply_answers .machine r t

/-- The entry into SETTLING from READY, by the state it leaves and the answer that follows it. -/
theorem settlingBegun {o : Host.Outcome State Fault Refusal} {reason : DozeReason} {delay : Nat}
    {timer : Option Tick} {answer : PartState → Option Reply} {s w : State} (hr : Rested s)
    (hw : w = dozeIfReady (enterSettling reason
      { s with power := { s.power with idleDelay := delay, idleTimer := timer } }))
    (ho : o = .next (driveAttention (answering (answer w.power.part) (reachAll w)))) :
    SettlingBegun o reason delay answer s := by
  unfold SettlingBegun
  intro p answering' begun still dozed ended
  have hanswer (x : PartState) (t : State) : answering' x t = answering (answer x) t := rfl
  have hbegun : settlingPart reason { s with power := { s.power with idleDelay := delay, idleTimer := timer } }
      = begun := rfl
  rw [enterSettling_eq, hbegun] at hw
  have hreach {t : State} (hj : t.journal = s.journal) (hh : t.holds = s.holds) : reachAll t = t :=
    reachAll_congr hj hh hr.2.1
  refine ⟨fun hl => ?_, fun hl => ?_⟩
  · have hstays : dozeReady begun = false := by simp [dozeReady, ← hbegun, hl]
    have hw' : w = begun := by
      rw [hw, if_pos hl]
      exact if_neg (by simp [hstays])
    rw [ho, hanswer, hw', hreach (by simp [← hbegun]) (by simp [← hbegun]), ← hbegun]
    simp
  · rw [if_neg (by simp [hl])] at hw
    have hready : dozeReady (settleEvery begun) = true ↔ still := by
      rw [← hbegun]
      exact dozeReady_settled hl
    have hpower : (settleEvery begun).power = p := by
      rw [← hbegun]
      simp [p]
    have hwake : (settleEvery begun).wake = s.wake := by
      rw [← hbegun]
      simp
    have hdozed : enterDoze (settleEvery begun) = dozed (settleEvery begun) := by
      rw [enterDoze_eq, hpower, hwake]
    have hstays (hnot : ¬still) : w = settleEvery begun := hw.trans (if_neg (mt hready.mp hnot))
    have hpasses (hstill : still) : w = dozed (settleEvery begun) :=
      (hw.trans (if_pos (hready.mpr hstill))).trans hdozed
    have hpart : (dozed (settleEvery begun)).power.part = .doze := by simp [dozed]
    have hend : ended (settleEvery begun) := by
      refine ⟨fun hnot => ?_, fun hstill => ?_⟩
      · rw [ho, hanswer, hstays hnot, hpower]
      · rw [ho, hanswer, hpasses hstill, hpart]
    refine ⟨settleEvery_settled hend, fun hwindow hprov => ?_, ?_⟩
    · intro settled
      have hsettled : settleEvery begun = settled := by
        have hunits : begun.trans.provisional = [] := by rw [← hbegun]; simpa using hprov
        have hempty : begun.trans.window = [] := by rw [← hbegun]; simpa using hwindow
        unfold settleEvery
        rw [hunits]
        refine State.eq_of_blocks ?_
        simp [settled, holdActions, settleUnits, hunits, hempty]
      rw [← hsettled]
      have hj : (settleEvery begun).journal = s.journal ∧ (settleEvery begun).holds = s.holds := by
        rw [hsettled]
        simp [settled, ← hbegun]
      refine ⟨fun hnot => ?_, fun hstill => ?_⟩
      · rw [hend.1 hnot, hreach hj.1 hj.2]
      · rw [hend.2 hstill, hreach (by simp [dozed, hj]) (by simp [dozed, hj])]
    · have hframe := answering_frame (answer w.power.part) (reachAll w)
      have hanswers : ((driveAttention (answering (answer w.power.part) (reachAll w))).port .machine).answers
          = (s.port .machine).answers ++ (answer w.power.part).toList := by
        rw [answering_answers, hw]
        simp [← hbegun, settlingPart]
      simp only [reachAll_frame] at hframe
      obtain ⟨hcapture, hlog, htime, hdict, htrans, hpow, hpending⟩ := hframe
      have hleft : w.power = { p with part := w.power.part, causes := w.power.causes } ∧ w.trans.window = [] ∧
          w.trans.provisional = [] ∧ (w.trans.settleAll = true ↔ w.power.part = .settling) ∧
          w.capture = s.capture ∧ w.log = s.log ∧ w.time = s.time ∧ w.dict = s.dict ∧ w.pending = s.pending := by
        by_cases hstill : still
        · rw [hpasses hstill]
          refine ⟨?_, ?_⟩ <;> simp [dozed, settleEvery_emptied, ← hbegun]
        · rw [hstays hstill, hpower]
          refine ⟨rfl, ?_⟩
          simp [settleEvery_emptied, p, ← hbegun]
      obtain ⟨hkept, hwindow, hprov, hall, hcapt, hlg, htm, hdc, hpend⟩ := hleft
      refine ⟨_, w.power.part, ho, ?_, ?_, ?_, ?_, ?_, ?_, hanswers, State.eq_of_blocks ?_⟩
      · intro hstill
        rw [hpasses hstill, hpart]
      · intro hnot
        rw [hstays hnot, hpower]
      · rw [hpow]
        exact hkept
      · rw [htrans]
        exact hwindow
      · rw [htrans]
        exact hprov
      · rw [htrans]
        exact hall
      · exact ⟨hcapture.trans hcapt, hlog.trans hlg, htime.trans htm, hdict.trans hdc, rfl, rfl, rfl, rfl, rfl,
          rfl, rfl, hpending.trans hpend⟩

/-! ### The idle timer (R148) and DOZE (R149) -/

theorem idleDue_iff (s : State) :
    idleDue s = true ↔ s.power.part = .ready ∧ s.power.idleDelay ≠ 0 ∧ ∃ start, s.power.idleTimer = some start ∧
      s.power.idleDelay * 60000 * 4096 ≤ (s.time.tick - start).toNat * 1000 := by
  simp [idleDue, timerDue_iff, idleMs, and_assoc]

theorem timerAfterIdle_eq (s : State) (d : Nat) :
    timerAfterIdle s d =
      (if d = 0 then none
       else if s.power.idleDelay = 0 ∧ s.power.part = .ready then some s.time.tick
       else s.power.idleTimer) := by
  simp [timerAfterIdle]

theorem eventEnd_passes (s : State) : eventEnd s = driveAttention (reachAll (dozeIfReady s)) := rfl

theorem eventEnd_passes_answered (port : Port) (r : Reply) (s : State) :
    eventEnd (pushReply port r s) = driveAttention (pushReply port r (reachAll (dozeIfReady s))) := by
  rw [eventEnd_passes, dozeIfReady_pushReply, reachAll_pushReply]

/-- The passage leaves nothing more to pass: a part in DOZE is not in SETTLING. -/
theorem dozeReady_dozeIfReady (s : State) : dozeReady (dozeIfReady s) = false := by
  unfold dozeIfReady
  split
  next => exact dozeReady_of_part (by simp [enterDoze_eq])
  next h => exact Bool.eq_false_iff.mpr h

theorem idleTimerExpires {s : State} (hr : Rested s) (hd : idleDue s = true) :
    SettlingBegun (exec .idleTimerExpiry s) .idle s.power.idleDelay (fun _ => none) s := by
  refine settlingBegun (timer := s.power.idleTimer) hr rfl ?_
  exact congrArg Host.Outcome.next (congrArg eventEnd (if_pos hd))

theorem idleSet_expires {minutes : Nat} {s : State} (hr : Rested s) (ht : Takes .machine .idleSet s)
    (hd : idleDue (setPower { s.power with
      idleDelay := min 240 minutes, idleTimer := timerAfterIdle s (min 240 minutes) } s) = true) :
    SettlingBegun (exec (.idleSet .machine minutes) s) .idle (min 240 minutes)
      (fun _ => some (.answer 22 (if 240 < minutes then .adjusted else .ok) (byte (min 240 minutes)))) s := by
  refine settlingBegun (timer := timerAfterIdle s (min 240 minutes)) hr rfl ?_
  have hexec := takeRequest_taken (owner := idleSetOwner minutes) ht
  have howner : (idleSetOwner minutes s).1 = enterSettling .idle { s with power := { s.power with
      idleDelay := min 240 minutes, idleTimer := timerAfterIdle s (min 240 minutes) } } := if_pos hd
  rw [howner, eventEnd_passes_answered] at hexec
  refine congrArg Host.Outcome.next (hexec.trans ?_)
  simp [idleSetOwner, answering, kindCode, answerAdjusted]

/-- Settles O43. -/
theorem idlingAndDozeBeginSettling : Obligations.IdlingAndDozeBeginSettling := by
  refine ⟨fun s hr => ?_, fun minutes s hr ht => ?_, fun s hr ht => ?_, fun s => ?_⟩
  · refine ⟨fun hnot => ?_, fun hdue => idleTimerExpires hr ((idleDue_iff s).mpr hdue)⟩
    refine congrArg Host.Outcome.next ?_
    exact (congrArg eventEnd (if_neg (mt (idleDue_iff s).mp hnot))).trans (eventEnd_of_rested hr)
  · intro d status timer due
    have htimer : timerAfterIdle s d = timer := timerAfterIdle_eq s d
    have hdue : idleDue (setPower { s.power with idleDelay := d, idleTimer := timerAfterIdle s d } s) = true ↔ due := by
      rw [htimer]
      exact idleDue_iff _
    refine ⟨fun hnot => ?_, fun h => idleSet_expires hr ht (hdue.mpr h)⟩
    refine congrArg Host.Outcome.next ?_
    have howner : idleSetOwner minutes s = ({ s with power := { s.power with idleDelay := d, idleTimer := timer } },
        answerAdjusted (decide (240 < minutes)) (byte d)) := by
      rw [← htimer]
      exact congrArg (Prod.mk · _) (if_neg (mt hdue.mp hnot))
    refine (takeRequest_quiet hr ht howner rfl rfl rfl rfl ?_).trans ?_
    · exact hr.1
    · simp [answerAdjusted, status, d]
  · have htaken := takeRequest_taken (owner := dozeOwner) ht
    have hstays {t : State} (hask : askDoze s = t) (hp : t.ports = s.ports) (hj : t.journal = s.journal)
        (hh : t.holds = s.holds) (hl : t.log = s.log) (hd : dozeReady t = dozeReady s) :
        exec (.doze .machine) s = .next (answered .machine .doze .ok (byte (partCode t.power.part)) t) := by
      refine congrArg Host.Outcome.next ?_
      have howner : dozeOwner s = (t, answerOk (byte (partCode t.power.part))) := by
        unfold dozeOwner
        rw [hask]
      exact takeRequest_quiet hr ht howner hp hj hh hl (hd.trans hr.1)
    refine ⟨fun hp => ?_, fun hp hi => ?_, fun hp hi => ?_, fun hp => ?_⟩
    · refine settlingBegun (timer := s.power.idleTimer) hr rfl ?_
      have hask : askDoze s = dozeIfReady (enterSettling .request s) := by
        unfold askDoze
        rw [hp]
      have howner : dozeOwner s = (dozeIfReady (enterSettling .request s),
          answerOk (byte (partCode (dozeIfReady (enterSettling .request s)).power.part))) := by
        unfold dozeOwner
        rw [hask]
      rw [howner, eventEnd_answered (dozeReady_dozeIfReady _)] at htaken
      exact congrArg Host.Outcome.next htaken
    · have hask : askDoze s = { s with power := { s.power with reason := .request } } := by
        unfold askDoze
        rw [hp, hi]
        rfl
      rw [hstays hask rfl rfl rfl rfl rfl, hp]
      rfl
    · have hask : askDoze s = s := by
        unfold askDoze
        rw [hp]
        cases hreason : s.power.reason with
        | idle => exact absurd hreason hi
        | request => rfl
        | none => rfl
      rw [hstays hask rfl rfl rfl rfl rfl, hp]
      rfl
    · have hask : askDoze s = s := by
        unfold askDoze
        rw [hp]
      rw [hstays hask rfl rfl rfl rfl rfl, hp]
      rfl
  · intro ready
    have hready : dozeReady s = true ↔ ready := by
      simp [dozeReady, ready, loadPaused_eq_false_iff, and_assoc]
    refine ⟨fun hnot => ?_, fun h => ?_⟩
    · rw [eventEnd_passes, dozeIfReady, if_neg (mt hready.mp hnot)]
    · rw [eventEnd_passes, dozeIfReady, if_pos (hready.mpr h), enterDoze_eq]

end Sys2Proof.Machine
end

section
/-! PROOFS. The taking of a record by the Translator (R85 to R88, R108 to R110). -/

namespace Sys2Proof.Machine

/-! ### Windows that hold nothing -/

theorem settleEvery_empty {s : State} (hw : s.trans.window = []) (hp : s.trans.provisional = []) :
    settleEvery s = withTrans { s.trans with settleTimer := none } s := by
  unfold settleEvery
  rw [hp]
  refine State.eq_of_blocks ?_
  simp [settleUnits, holdActions, withTrans, hw, hp]

theorem settleWindow_empty {s : State} (hw : s.trans.window = []) (hp : s.trans.provisional = []) :
    settleWindow s = withTrans { s.trans with settleTimer := none } s := by
  unfold settleWindow
  rw [settleEvery_empty hw hp, hp]
  refine State.eq_of_blocks ?_
  cases hall : s.trans.settleAll
  · simp [withTrans, endsInFeedControl, settleFront, stopIfEmpty, holdActions, hall, hw]
  · simp [withTrans, endsInFeedControl, hall]

/-- A window that has lost its last stroke takes back what was put, and puts nothing. -/
theorem recompute_emptied {s : State} (restart : Bool) (hw : s.trans.window = []) :
    restartIf restart (recompute s)
      = appendTake (textTotal s.trans.provisional)
          (withTrans { s.trans with recomputePending := false, provisional := [], settleTimer := none } s) := by
  have hnew : segment s.dict s.trans.base s.trans.window = [] := by rw [hw]; rfl
  have hrun : commonRun s.trans.provisional [] = 0 := by cases s.trans.provisional <;> rfl
  have hdivided : redivided s.dict s.trans = { s.trans with recomputePending := false, provisional := [] } := by
    unfold redivided nextUnits
    rw [hnew, hrun]
    rfl
  have happended : differenceAppended s.trans (segment s.dict s.trans.base s.trans.window) s
      = appendTake (textTotal s.trans.provisional) s := by
    rw [hnew]
    unfold differenceAppended
    rw [hrun]
    rfl
  have hsettled := settleWindow_empty (s := withTrans { s.trans with recomputePending := false, provisional := [] }
    (appendTake (textTotal s.trans.provisional) s)) hw rfl
  rw [recompute_eq, happended, hdivided, hsettled, withTrans_withTrans, appendTake_withTrans]
  cases restart with
  | false => rfl
  | true =>
    refine State.eq_of_blocks ?_
    simp [restartIf, restartSettle, withTrans, hw]

/-! ### What a record makes of the part (R85) -/

/-- The records the Translator passes over. -/
def silentBody (b : RecordBody) : Prop :=
  (∃ c stamp, b = .wake c stamp) ∨ (∃ old new q, b = .timestep old new q) ∨ (∃ old new stamp, b = .take old new stamp)

theorem handleRecord_silent {r : LogRecord} (v : State) (h : silentBody r.body) : handleRecord r v = v := by
  unfold handleRecord
  obtain ⟨c, stamp, h⟩ | ⟨old, new, q, h⟩ | ⟨old, new, stamp, h⟩ := h <;> rw [h]

theorem handleRecord_mark {r : LogRecord} {stamp : Stamp} (v : State) (h : r.body = .mark stamp) :
    handleRecord r v = appendEntry (.mark r.seq stamp.ms) v := by
  unfold handleRecord
  rw [h]

theorem handleRecord_job {r : LogRecord} {opened closed : Nat} {keep : Bool} {stamp : Stamp} (v : State)
    (h : r.body = .job opened closed keep stamp) : handleRecord r v = handleJob closed opened v := by
  unfold handleRecord
  rw [h]

theorem handleRecord_stroke {r : LogRecord} {chord : Chord} {stamp : Stamp} {duration : Nat} {held : Bool} (v : State)
    (h : r.body = .stroke chord stamp duration held) (hc : chord ≠ v.trans.deleteChord) :
    handleRecord r v = restartIf true (recompute
      { v with trans := { v.trans with window := v.trans.window ++ [{ chord := chord, seq := r.seq, stamp := stamp }] } }) := by
  unfold handleRecord
  rw [h]
  exact if_neg hc

theorem handleRecord_delete {r : LogRecord} {stamp : Stamp} {duration : Nat} {held : Bool} (v : State)
    (h : r.body = .stroke v.trans.deleteChord stamp duration held) : handleRecord r v = handleDelete v := by
  unfold handleRecord
  rw [h]
  exact if_pos rfl

theorem handleDelete_drops {v : State} (hw : v.trans.window ≠ []) :
    handleDelete v = restartIf true (recompute
      (withTrans { v.trans with window := v.trans.window.dropLast } (countOne .deletes v))) := by
  have htrans : (countOne .deletes v).trans = v.trans := by simp
  unfold handleDelete dropStroke
  dsimp only
  rw [htrans, if_pos (by simpa using hw)]
  rfl

theorem handleDelete_undo {v : State} {rest : List TextUnit} {u : TextUnit} (hw : v.trans.window = [])
    (hu : v.trans.undo = rest ++ [u]) : handleDelete v = undoUnit u (countOne .deletes v) := by
  have htrans : (countOne .deletes v).trans = v.trans := by simp
  unfold handleDelete
  dsimp only
  rw [htrans, if_neg (by simp [hw]), hu, List.getLast?_concat]

theorem handleDelete_dead {v : State} (hw : v.trans.window = []) (hu : v.trans.undo = []) :
    handleDelete v = countOne .deadDeletes (countOne .deletes v) := by
  have htrans : (countOne .deletes v).trans = v.trans := by simp
  unfold handleDelete
  dsimp only
  rw [htrans, if_neg (by simp [hw]), hu]
  rfl

/-- The newest unit of the history, reopened. -/
theorem reopened_eq {v : State} {rest : List TextUnit} {u : TextUnit} (hu : v.trans.undo = rest ++ [u]) :
    reopenUnit u (countOne .deletes v)
      = withTrans { v.trans with undo := rest, base := u.before }
          (closeOwned u.holdId u.id (appendEntry (.unfix u.id u.text.length) (countOne .deletes v))) := by
  have htrans : (countOne .deletes v).trans = v.trans := by simp
  rw [reopenUnit_eq, htrans, hu, List.dropLast_concat]
  rfl

theorem handleDelete_reopens {v : State} {rest : List TextUnit} {u : TextUnit} (hw : v.trans.window = [])
    (hu : v.trans.undo = rest ++ [u]) (hl : u.strokes.length ≤ 1) :
    handleDelete v = withTrans { v.trans with undo := rest, base := u.before }
      (closeOwned u.holdId u.id (appendEntry (.unfix u.id u.text.length) (countOne .deletes v))) := by
  rw [handleDelete_undo hw hu, ← reopened_eq hu]
  exact if_pos hl

theorem handleDelete_redivides {v : State} {rest : List TextUnit} {u : TextUnit} (hw : v.trans.window = [])
    (hu : v.trans.undo = rest ++ [u]) (hl : 2 ≤ u.strokes.length) :
    handleDelete v = restartIf true (recompute (withTrans
      { v.trans with undo := rest, base := u.before, window := u.strokes.dropLast, provisional := [] }
      (closeOwned u.holdId u.id (appendEntry (.unfix u.id u.text.length) (countOne .deletes v))))) := by
  have hopened := reopened_eq hu
  rw [handleDelete_undo hw hu]
  unfold undoUnit
  dsimp only
  rw [if_neg (by omega), hopened]
  rfl

theorem handleRecord_handled {becomes : State → Prop} {r : LogRecord} {v : State}
    (hb : becomes (handleRecord r v)) : RecordHandled becomes r v := by
  unfold RecordHandled
  intro tr silent
  refine ⟨fun h => ?_, fun stamp h => ?_, fun opened closed keep stamp h => ?_, fun chord stamp duration held h => ?_⟩
  · rwa [handleRecord_silent v h] at hb
  · rwa [handleRecord_mark v h] at hb
  · rw [handleRecord_job v h] at hb
    exact settleEvery_settled hb
  refine ⟨fun hc => ?_, fun hc => ?_⟩
  · rw [handleRecord_stroke v h hc] at hb
    exact recompute_recomputed hb
  subst hc
  rw [handleRecord_delete v h] at hb
  refine ⟨fun hw => ?_, fun rest u hw hu => ⟨fun hl => ?_, fun hl => ?_⟩, fun hw hu => ?_⟩
  · rw [handleDelete_drops hw] at hb
    exact recompute_recomputed hb
  · rwa [handleDelete_reopens hw hu hl] at hb
  · rw [handleDelete_redivides hw hu hl] at hb
    exact recompute_recomputed hb
  · rwa [handleDelete_dead hw hu] at hb

/-! ### The take (R29, R85, R86, R99) -/

/-- The part when the record under the Translator's cursor has been passed. -/
def translatorPassed (s : State) : State :=
  { s with log := { s.log with translator := { s.log.translator with
      cursor := s.log.translator.cursor + 1, passed := s.log.translator.passed + 1, inRun := false,
      sinceTaken := 0 } } }

theorem recordToTake_eq {s : State} (hl : s.dict.layer ≠ .loading) (hc : s.dict.layer ≠ .checking)
    (hp : s.power.part ≠ .doze) (hh : s.log.translator.cursor ≠ s.log.head) :
    recordToTake s = recordAt s.log s.log.translator.cursor :=
  if_pos (by simp [(loadPaused_eq_false_iff _).mpr ⟨hl, hc⟩, hp, hh])

theorem recordToTake_none {s : State} (h : s.dict.layer = .loading ∨ s.dict.layer = .checking ∨
    s.power.part = .doze ∨ s.log.translator.cursor = s.log.head) : recordToTake s = none := by
  refine if_neg ?_
  obtain h | h | h | h := h <;> simp [loadPaused, h]

/-- A GAP settles every unit, empties the history and is appended (R86). -/
theorem handleGap_gapped {becomes : State → Prop} {lost : Nat} {v : State} (hb : becomes (handleGap lost v)) :
    EverySettled (fun t => becomes (appendEntry (.gap lost) { t with trans := { t.trans with undo := [] } })) v :=
  settleEvery_settled hb

theorem takeRecord_eq (r : LogRecord) (s : State) :
    takeRecord r s = handleRecord r
      (if 0 < s.log.translator.sinceTaken then handleGap s.log.translator.sinceTaken
        (if s.trans.recomputePending = true then recompute (translatorPassed s) else translatorPassed s)
       else if s.trans.recomputePending = true then recompute (translatorPassed s) else translatorPassed s) := rfl

theorem takeRecord_plain {s : State} (r : LogRecord) (h0 : s.log.translator.sinceTaken = 0)
    (hp : s.trans.recomputePending = false) : takeRecord r s = handleRecord r (translatorPassed s) := by
  rw [takeRecord_eq, if_neg (by omega), if_neg (by simp [hp])]

theorem takeRecord_gap {s : State} (r : LogRecord) (h0 : 0 < s.log.translator.sinceTaken)
    (hp : s.trans.recomputePending = false) :
    takeRecord r s = handleRecord r (handleGap s.log.translator.sinceTaken (translatorPassed s)) := by
  rw [takeRecord_eq, if_pos h0, if_neg (by simp [hp])]

theorem takeRecord_pending {s : State} (r : LogRecord) (h0 : s.log.translator.sinceTaken = 0)
    (hp : s.trans.recomputePending = true) :
    takeRecord r s = handleRecord r (recompute (translatorPassed s)) := by
  rw [takeRecord_eq, if_neg (by omega), if_pos hp]

/-- The records that stand before a take, and then the record. -/
theorem takeRecord_taken {s : State} {r : LogRecord} {becomes : State → Prop} (hb : becomes (takeRecord r s)) :
    let handled := RecordHandled becomes r
    let gapped := EverySettled (fun t => handled
      (appendEntry (.gap s.log.translator.sinceTaken) { t with trans := { t.trans with undo := [] } }))
    (s.trans.recomputePending = false →
      (s.log.translator.sinceTaken = 0 → handled (translatorPassed s)) ∧
      (0 < s.log.translator.sinceTaken → gapped (translatorPassed s))) ∧
    (s.trans.recomputePending = true →
      (s.log.translator.sinceTaken = 0 → Recomputed handled false (translatorPassed s)) ∧
      (0 < s.log.translator.sinceTaken → Recomputed gapped false (translatorPassed s))) := by
  refine ⟨fun hp => ⟨fun h0 => ?_, fun h0 => ?_⟩, fun hp => ⟨fun h0 => ?_, fun h0 => ?_⟩⟩
  · rw [takeRecord_plain r h0 hp] at hb
    exact handleRecord_handled hb
  · rw [takeRecord_gap r h0 hp] at hb
    exact handleGap_gapped (handleRecord_handled hb)
  · rw [takeRecord_pending r h0 hp] at hb
    exact recompute_recomputed (handleRecord_handled hb)
  · rw [takeRecord_eq, if_pos h0, if_pos hp] at hb
    exact recompute_recomputed (handleGap_gapped (handleRecord_handled hb))

/-- Settles O33. -/
theorem translatorTakesARecord : Obligations.TranslatorTakesARecord := by
  have hexec {s : State} {r : LogRecord} (h : recordToTake s = some r) :
      exec .translatorTake s = .next (eventEnd (takeRecord r s)) := by
    refine congrArg Host.Outcome.next (congrArg eventEnd ?_)
    unfold takeEvent
    rw [h]
  refine ⟨fun s hr hok => ?_, fun s r hl hc hp hh hrec => ?_⟩
  · intro g tr passed counted became silent
    refine ⟨fun h => ?_, fun r hl hc hp hh hrec => ?_⟩
    · refine congrArg Host.Outcome.next ?_
      have htake : takeEvent s = s := by
        unfold takeEvent
        rw [recordToTake_none h]
      exact (congrArg eventEnd htake).trans (eventEnd_of_rested hr)
    have hnext := hexec ((recordToTake_eq hl hc (by simp [hp]) hh).trans hrec)
    have hended {t : State} (heq : takeRecord r s = t) (hpower : t.power = s.power) (hreach : reachAll t = t) :
        became t := by
      rw [heq, eventEnd_quiet (dozeReady_of_part (by simp [hpower, hp])) hreach] at hnext
      exact hnext
    have hquiet {t : State} (hj : t.journal = s.journal) (hh : t.holds = s.holds) : reachAll t = t :=
      reachAll_congr hj hh hr.2.1
    have happended (b : EntryBody) {t : State} (hj : t.journal = s.journal) :
        reachAll (appendEntry b t) = appendEntry b t := appendEntry_reached b (hj ▸ hok)
    have hpassed : translatorPassed s = passed := rfl
    refine ⟨fun h0 hpend => ?_, fun hsilent hw hpr => ⟨fun h0 hpend => ?_, fun h0 hpend => ?_⟩⟩
    · have htaken := takeRecord_plain r h0 hpend
      rw [hpassed] at htaken
      refine ⟨fun h => ?_, fun stamp h => ?_, fun opened closed keep stamp h hw hpr => ?_,
        fun stamp duration held h => ⟨fun hw hu => ?_, fun rest u hw hu hlen hid => ?_, fun w p hw hpr => ?_⟩⟩
      · exact hended (htaken.trans (handleRecord_silent _ h)) rfl (hquiet rfl rfl)
      · exact hended (htaken.trans (handleRecord_mark _ h)) (by simp [passed]) (happended _ rfl)
      · have hjob : handleRecord r passed = appendEntry (.job closed opened) { passed with trans := { tr with
            undo := [], settleTimer := none,
            base := { line := true, cap := true, low := false, att := false, num := false, glu := false } } } := by
          rw [handleRecord_job _ h]
          unfold handleJob
          rw [settleEvery_empty (s := passed) hw hpr]
          rfl
        exact hended (htaken.trans hjob) (by simp [passed]) (happended _ rfl)
      · exact hended (htaken.trans (handleRecord_delete passed h |>.trans (handleDelete_dead (v := passed) hw hu)))
          (by simp [counted, passed]) (hquiet (by simp [counted, passed]) (by simp [counted, passed]))
      · have hdelete := (handleRecord_delete passed h).trans (handleDelete_reopens (v := passed) hw hu hlen.le)
        rw [hid] at hdelete
        have hopened : handleRecord r passed = appendEntry (.unfix u.id u.text.length)
            { counted with trans := { tr with undo := rest, base := u.before } } :=
          hdelete.trans (appendEntry_withTrans _ _ _).symm
        exact hended (htaken.trans hopened) (by simp [counted, passed]) (happended _ (by simp [counted, passed]))
      · intro emptied
        have hne : passed.trans.window ≠ [] := by
          rw [show passed.trans.window = [w] from hw]
          exact List.cons_ne_nil _ _
        have hdelete := (handleRecord_delete passed h).trans (handleDelete_drops hne)
        have hdropped : handleRecord r passed
            = if p.text = [] then emptied else appendEntry (.take p.text.length) emptied := by
          have hrecomputed := recompute_emptied (s := withTrans { passed.trans with window := [] } counted) true rfl
          have hlast : passed.trans.window.dropLast = [] := by rw [show passed.trans.window = [w] from hw]; rfl
          have htimer : withTrans { passed.trans with
              window := [], provisional := [], settleTimer := none, recomputePending := false } counted = emptied := by
            rw [← hpend]
            rfl
          have htotal : textTotal tr.provisional = p.text.length := by rw [hpr]; simp [textTotal]
          rw [hlast] at hdelete
          rw [hdelete, hrecomputed, withTrans_withTrans, withTrans_trans, htimer, show textTotal _ = _ from htotal]
          simp [appendTake]
        have hempty : reachAll emptied = emptied :=
          hquiet (by simp [emptied, counted, passed]) (by simp [emptied, counted, passed])
        have hpower : emptied.power = s.power := by simp [emptied, counted, passed]
        refine hended (htaken.trans hdropped) ?_ ?_
        · split
          · exact hpower
          · simpa using hpower
        · split
          · exact hempty
          · exact happended _ (by simp [emptied, counted, passed])
    · have hdone : takeRecord r s
          = { passed with trans := { tr with recomputePending := false, settleTimer := none } } := by
        rw [takeRecord_pending r h0 hpend, handleRecord_silent _ hsilent]
        exact recompute_empty (s := passed) false hw hpr
      exact hended hdone rfl (hquiet rfl rfl)
    · have hdone : takeRecord r s = appendEntry (.gap g.translator.sinceTaken)
          { passed with trans := { tr with undo := [], settleTimer := none } } := by
        rw [takeRecord_gap r h0 hpend, handleRecord_silent _ hsilent]
        unfold handleGap
        rw [settleEvery_empty (s := translatorPassed s) hw hpr]
        rfl
      exact hended hdone (by simp [passed]) (happended _ rfl)
  · exact takeRecord_taken (becomes := fun t => exec .translatorTake s = .next (eventEnd t))
      (hexec ((recordToTake_eq hl hc hp hh).trans hrec))

end Sys2Proof.Machine
end

section
/-! PROOFS. The segmentation of a window into units (R90 to R98). -/

namespace Sys2Proof.Machine

/-! ### The texts of units (R92 to R98) -/

theorem entryText_eq (e : Entry) (f : FormatState) :
    entryText e f = if conditionHolds e.condition f = true then e.alternate.getD e.text else e.text := by
  unfold entryText
  cases e.alternate <;> simp

theorem joinedText_eq (flags : EntryFlags) (f : FormatState) (chosen : Text) :
    joinedText flags f chosen = if chosen = [] then []
      else if f.line = true ∨ f.att = true ∨ flags.attachBefore = true ∨ (flags.glue = true ∧ f.glu = true)
      then caseText f chosen else 32 :: caseText f chosen := by
  simp [joinedText, or_assoc]

theorem entryUnit_source (d : Dictionary) (f : FormatState) (strokes : List WindowStroke) (layer : Layer)
    (e : Entry) : (entryUnit d f strokes layer e).source = some { layer := layer, entry := e, rule := none } := by
  unfold entryUnit
  dsimp only
  split <;> rfl

theorem entryUnit_entry {d : Dictionary} {f : FormatState} {strokes : List WindowStroke} {layer : Layer} {e : Entry}
    (h : e.command = .none) :
    (entryUnit d f strokes layer e).kind = .entry ∧
    (entryUnit d f strokes layer e).text = joinedText e.flags f (entryText e f) ∧
    (entryUnit d f strokes layer e).after
      = joinedAfter e.flags f (entryText e f) (joinedText e.flags f (entryText e f)) := by
  unfold entryUnit
  rw [if_pos h]
  exact ⟨rfl, rfl, rfl⟩

theorem entryUnit_command {d : Dictionary} {f : FormatState} {strokes : List WindowStroke} {layer : Layer} {e : Entry}
    (h : e.command ≠ .none) :
    (entryUnit d f strokes layer e).kind = .command ∧
    (entryUnit d f strokes layer e).text = commandText d e.command ∧
    (entryUnit d f strokes layer e).after = commandAfter d e.command f := by
  unfold entryUnit
  rw [if_neg h]
  exact ⟨rfl, rfl, rfl⟩

theorem numberUnit_eq (f : FormatState) (w : WindowStroke) :
    (numberUnit f w).kind = .number ∧ (numberUnit f w).source = none ∧
    (numberUnit f w).text = (if f.line = true ∨ f.att = true ∨ f.num = true then numberText w.chord
      else 32 :: numberText w.chord) ∧
    (numberUnit f w).after = { line := false, cap := false, low := false, att := false, num := true, glu := false } := by
  simp [numberUnit, newUnit, or_assoc]

theorem rawUnit_eq (f : FormatState) (w : WindowStroke) :
    (rawUnit f w).kind = .raw ∧ (rawUnit f w).source = none ∧
    (rawUnit f w).text = (if f.line = true ∨ f.att = true then outline w.chord else 32 :: outline w.chord) ∧
    (rawUnit f w).after = { f with line := false, att := false, num := false, glu := false } := by
  simp [rawUnit, newUnit]

/-! ### Folds (R92) -/

theorem foldEntry_eq_some_iff {d : Dictionary} {c : Chord} {r : FoldRule} {layer : Layer} {e : Entry} :
    foldEntry d c r = some (layer, e) ↔ r.inUse = true ∧ c.getLsbD r.key = true ∧ withoutKey c r.key ≠ 0 ∧
      (lookup d [withoutKey c r.key]).entry = some (layer, e) ∧ e.command = .none := by
  unfold foldEntry hasKey
  by_cases h : r.inUse = true ∧ c.getLsbD r.key = true ∧ withoutKey c r.key ≠ 0
  · obtain ⟨huse, hkey, hrest⟩ := h
    rw [if_pos (by simpa [huse, hkey] using hrest)]
    cases hl : (lookup d [withoutKey c r.key]).entry with
    | none => simp
    | some x =>
      obtain ⟨l, x⟩ := x
      by_cases hx : x.command = .none
      · simp only [hx, if_true, Option.some.injEq, Prod.mk.injEq, huse, hkey, true_and]
        refine ⟨fun ⟨hlayer, he⟩ => ⟨hrest, ⟨hlayer, he⟩, he ▸ hx⟩, fun ⟨_, heq, _⟩ => heq⟩
      · simp only [hx, if_false, huse, hkey, true_and, reduceCtorEq, false_iff, Option.some.injEq, Prod.mk.injEq]
        rintro ⟨_, ⟨rfl, rfl⟩, hcommand⟩
        exact hx hcommand
  · rw [if_neg (by simpa [and_assoc] using h)]
    simp only [reduceCtorEq, false_iff]
    rintro ⟨huse, hkey, hrest, _⟩
    exact h ⟨huse, hkey, hrest⟩

theorem foldFrom_none {d : Dictionary} {c : Chord} {l : List FoldRule} (n : Nat)
    (h : ∀ r ∈ l, foldEntry d c r = none) : foldFrom d c n l = none := by
  induction l generalizing n with
  | nil => rfl
  | cons r rest ih =>
    unfold foldFrom
    rw [h r List.mem_cons_self]
    exact ih (n + 1) fun q hq => h q (List.mem_cons_of_mem _ hq)

/-- The first rule that applies. -/
theorem foldFrom_first {d : Dictionary} {c : Chord} {l : List FoldRule} {r : FoldRule} {layer : Layer} {e : Entry}
    (n i : Nat) (hr : l[i]? = some r) (hfold : foldEntry d c r = some (layer, e))
    (hbefore : ∀ j q, j < i → l[j]? = some q → foldEntry d c q = none) :
    foldFrom d c n l = some (n + i, r, layer, e) := by
  induction l generalizing n i with
  | nil => cases hr
  | cons q rest ih =>
    unfold foldFrom
    cases i with
    | zero =>
      cases hr
      rw [hfold]
      rfl
    | succ i =>
      rw [hbefore 0 q (Nat.succ_pos i) rfl]
      have := ih (n + 1) i hr fun j x hj hx => hbefore (j + 1) x (Nat.succ_lt_succ hj) hx
      rw [this, show n + 1 + i = n + (i + 1) by omega]

theorem singleUnit_number {d : Dictionary} {f : FormatState} {w : WindowStroke} (h : isNumber w.chord = true) :
    singleUnit d f w = numberUnit f w := if_pos h

theorem singleUnit_fold {d : Dictionary} {f : FormatState} {w : WindowStroke} {n : Nat} {r : FoldRule}
    {layer : Layer} {e : Entry} (h : isNumber w.chord = false)
    (hf : foldFrom d w.chord 0 d.folds = some (n, r, layer, e)) : singleUnit d f w = foldUnit f w n r layer e := by
  unfold singleUnit
  rw [if_neg (by simp [h]), hf]

theorem singleUnit_raw {d : Dictionary} {f : FormatState} {w : WindowStroke} (h : isNumber w.chord = false)
    (hf : foldFrom d w.chord 0 d.folds = none) : singleUnit d f w = rawUnit f w := by
  unfold singleUnit
  rw [if_neg (by simp [h]), hf]

/-! ### The first unit (R90) -/

/-- The entry that a leading run of strokes gives. -/
def runEntry (d : Dictionary) (w : List WindowStroke) (k : Nat) : Option (Layer × Entry) :=
  (lookup d ((w.take k).map (fun x => x.chord))).entry

theorem longestMatch_found {d : Dictionary} {w : List WindowStroke} {n k : Nat} {layer : Layer} {e : Entry}
    (h1 : 1 ≤ k) (hn : k ≤ n) (hk : runEntry d w k = some (layer, e))
    (hlonger : ∀ j, k < j → j ≤ n → runEntry d w j = none) : longestMatch d w n = some (k, layer, e) := by
  induction n with
  | zero => omega
  | succ n ih =>
    unfold longestMatch
    rcases Nat.lt_or_ge k (n + 1) with hlt | hge
    · rw [show (lookup d (keyOf (w.take (n + 1)))).entry = none from hlonger (n + 1) hlt le_rfl]
      exact ih (by omega) fun j hj hjn => hlonger j hj (by omega)
    · obtain rfl : k = n + 1 := by omega
      rw [show (lookup d (keyOf (w.take (n + 1)))).entry = some (layer, e) from hk]

theorem longestMatch_none {d : Dictionary} {w : List WindowStroke} {n : Nat}
    (h : ∀ k, 1 ≤ k → k ≤ n → runEntry d w k = none) : longestMatch d w n = none := by
  induction n with
  | zero => rfl
  | succ n ih =>
    unfold longestMatch
    rw [show (lookup d (keyOf (w.take (n + 1)))).entry = none from h (n + 1) (by omega) le_rfl]
    exact ih fun k h1 hk => h k h1 (by omega)

theorem firstUnit_entry {d : Dictionary} {f : FormatState} {w : WindowStroke} {rest : List WindowStroke} {k : Nat}
    {layer : Layer} {e : Entry} (h : longestMatch d (w :: rest) (rest.length + 1) = some (k, layer, e)) :
    firstUnit d f w rest = entryUnit d f ((w :: rest).take k) layer e := by
  unfold firstUnit
  rw [h]

theorem firstUnit_single {d : Dictionary} {f : FormatState} {w : WindowStroke} {rest : List WindowStroke}
    (h : longestMatch d (w :: rest) (rest.length + 1) = none) : firstUnit d f w rest = singleUnit d f w := by
  unfold firstUnit
  rw [h]

theorem entryUnit_before (d : Dictionary) (f : FormatState) (strokes : List WindowStroke) (layer : Layer) (e : Entry) :
    (entryUnit d f strokes layer e).before = f ∧ (entryUnit d f strokes layer e).holdId = none := by
  unfold entryUnit
  dsimp only
  split <;> exact ⟨rfl, rfl⟩

theorem singleUnit_before (d : Dictionary) (f : FormatState) (w : WindowStroke) :
    (singleUnit d f w).before = f ∧ (singleUnit d f w).holdId = none := by
  unfold singleUnit
  split
  · exact ⟨rfl, rfl⟩
  · split <;> exact ⟨rfl, rfl⟩

theorem firstUnit_before (d : Dictionary) (f : FormatState) (w : WindowStroke) (rest : List WindowStroke) :
    (firstUnit d f w rest).before = f ∧ (firstUnit d f w rest).holdId = none := by
  unfold firstUnit
  split
  · exact entryUnit_before d f _ _ _
  · exact singleUnit_before d f w

/-! ### The rest of the window (R90) -/

/-- More room for units than the window has strokes changes nothing. -/
theorem segmentFrom_room (d : Dictionary) {n m : Nat} (f : FormatState) (window : List WindowStroke)
    (hn : window.length ≤ n) (hm : window.length ≤ m) : segmentFrom d n f window = segmentFrom d m f window := by
  induction n generalizing m f window with
  | zero =>
    obtain rfl := List.eq_nil_of_length_eq_zero (Nat.le_zero.mp hn)
    cases m <;> rfl
  | succ n ih =>
    cases window with
    | nil => cases m <;> rfl
    | cons w rest =>
      obtain ⟨k, hk, hstrokes⟩ := firstUnit_strokes d f w rest
      have hlen : (firstUnit d f w rest).strokes.length = k + 1 := by
        rw [hstrokes, List.length_take, List.length_cons]
        omega
      cases m with
      | zero => exact absurd hm (by simp)
      | succ m =>
        refine congrArg (List.cons _) (ih _ _ ?_ ?_)
        · rw [hlen, List.drop_succ_cons, List.length_drop]
          simp only [List.length_cons] at hn
          omega
        · rw [hlen, List.drop_succ_cons, List.length_drop]
          simp only [List.length_cons] at hm
          omega

theorem segment_cons (d : Dictionary) (f : FormatState) (w : WindowStroke) (rest : List WindowStroke) :
    segment d f (w :: rest) = firstUnit d f w rest :: segment d (firstUnit d f w rest).after
      ((w :: rest).drop (firstUnit d f w rest).strokes.length) := by
  obtain ⟨k, hk, hstrokes⟩ := firstUnit_strokes d f w rest
  have hlen : (firstUnit d f w rest).strokes.length = k + 1 := by
    rw [hstrokes, List.length_take, List.length_cons]
    omega
  refine congrArg (List.cons _) (segmentFrom_room d _ _ ?_ le_rfl)
  rw [hlen, List.drop_succ_cons, List.length_drop]
  omega

end Sys2Proof.Machine
end

section
/-! PROOFS. A stroke taken by the Translator (R89, R90, R99 to R106). -/

namespace Sys2Proof.Machine

/-- The unit of a window of one stroke, under the next id. -/
def loneUnit (d : Dictionary) (t : Translator) (w : WindowStroke) : TextUnit :=
  { firstUnit d t.base w [] with id := nextUnitId t.idCounter }

theorem firstUnit_lone (d : Dictionary) (f : FormatState) (w : WindowStroke) :
    (firstUnit d f w []).strokes = [w] := by
  obtain ⟨k, hk, hstrokes⟩ := firstUnit_strokes d f w []
  obtain rfl : k = 0 := Nat.le_zero.mp hk
  exact hstrokes

theorem loneUnit_strokes (d : Dictionary) (t : Translator) (w : WindowStroke) : (loneUnit d t w).strokes = [w] :=
  firstUnit_lone d t.base w

theorem segment_one (d : Dictionary) (f : FormatState) (w : WindowStroke) : segment d f [w] = [firstUnit d f w []] := by
  rw [segment_cons, firstUnit_lone]
  rfl

/-- A stroke alone in the window, its unit put. -/
def onePut (w : WindowStroke) (v : State) : State :=
  withTrans { v.trans with
      window := [w], recomputePending := false, idCounter := nextUnitId v.trans.idCounter,
      provisional := [loneUnit v.dict v.trans w] }
    (appendEntry (.put (nextUnitId v.trans.idCounter) w.seq (loneUnit v.dict v.trans w).text) v)

theorem recompute_one {v : State} {w : WindowStroke} (hw : v.trans.window = [w]) (hp : v.trans.provisional = []) :
    recompute v = settleWindow (onePut w v) := by
  have hrun (l : List TextUnit) : commonRun [] l = 0 := rfl
  have hdivided : redivided v.dict v.trans = { v.trans with
      window := [w], recomputePending := false, idCounter := nextUnitId v.trans.idCounter,
      provisional := [loneUnit v.dict v.trans w] } := by
    unfold redivided nextUnits
    rw [hw, segment_one, hp, hrun]
    rfl
  have happended : differenceAppended v.trans (segment v.dict v.trans.base v.trans.window) v
      = appendEntry (.put (nextUnitId v.trans.idCounter) w.seq (loneUnit v.dict v.trans w).text) v := by
    have hstrokes := loneUnit_strokes v.dict v.trans w
    unfold differenceAppended
    rw [hw, segment_one, hp, hrun]
    show appendEntry (.put (nextUnitId v.trans.idCounter)
      ((((loneUnit v.dict v.trans w).strokes.map (fun w => w.seq)).head?).getD 0) _) v = _
    rw [hstrokes]
    rfl
  rw [recompute_eq, happended, hdivided]
  rfl

/-- The unit is settled, and nothing waits. -/
def oneSettled (w : WindowStroke) (v : State) : State :=
  withTrans { v.trans with
      window := [], provisional := [], recomputePending := false, idCounter := nextUnitId v.trans.idCounter,
      base := (loneUnit v.dict v.trans w).after,
      undo := (v.trans.undo ++ [loneUnit v.dict v.trans w]).drop (v.trans.undo.length + 1 - 32), settleTimer := none }
    (fixAppended (loneUnit v.dict v.trans w)
      (appendEntry (.put (nextUnitId v.trans.idCounter) w.seq (loneUnit v.dict v.trans w).text) v))

theorem endsInFeedControl_one (u : TextUnit) : endsInFeedControl [u] = isFeedControl u := rfl

theorem holdActions_one {u : TextUnit} (s : State) (h : isFeedControl u = false) : holdActions [u] s = s :=
  holdActions_none (fun _ hx => List.mem_singleton.mp hx ▸ h) s

theorem settleFront_one (u : TextUnit) (s : State) :
    settleFront [u] s = if mustSettle s = true then ([u], settleUnit u s) else ([], s) := rfl

/-- A lone unit that is no feed control, with settle-all not set. -/
theorem settleWindow_one {s : State} {u : TextUnit} (hp : s.trans.provisional = [u])
    (hall : s.trans.settleAll = false) (hf : isFeedControl u = false) :
    settleWindow s = stopIfEmpty (if mustSettle s = true then settleUnit u s else s) := by
  unfold settleWindow
  rw [hp, endsInFeedControl_one, hf, hall, if_neg (by decide), settleFront_one]
  by_cases h : mustSettle s = true
  · rw [if_pos h, if_pos h]
    exact congrArg stopIfEmpty (holdActions_one _ hf)
  · rw [if_neg h, if_neg h]
    rfl

theorem mustSettle_onePut (w : WindowStroke) (v : State) :
    mustSettle (onePut w v) = !(lookup v.dict [w.chord]).extendable := by
  simp [mustSettle, windowExtendable, onePut, keyOf, Config.windowCapacity]

/-- A stroke that begins a longer key waits. -/
theorem recompute_waits {v : State} {w : WindowStroke} (hw : v.trans.window = [w]) (hp : v.trans.provisional = [])
    (hall : v.trans.settleAll = false) (hf : isFeedControl (loneUnit v.dict v.trans w) = false)
    (hx : (lookup v.dict [w.chord]).extendable = true) :
    restartIf true (recompute v) = withTrans { (onePut w v).trans with
      settleTimer := if v.trans.settleDelay = 0 then none else some v.time.tick } (onePut w v) := by
  rw [recompute_one hw hp, settleWindow_one (s := onePut w v) (u := loneUnit v.dict v.trans w) rfl hall hf,
    if_neg (by simp [mustSettle_onePut, hx])]
  refine State.eq_of_blocks ?_
  simp [restartIf, restartSettle, stopIfEmpty, onePut, withTrans]

/-- A stroke that begins no longer key is settled. -/
theorem recompute_settles {v : State} {w : WindowStroke} (hw : v.trans.window = [w]) (hp : v.trans.provisional = [])
    (hall : v.trans.settleAll = false) (hf : isFeedControl (loneUnit v.dict v.trans w) = false)
    (hx : (lookup v.dict [w.chord]).extendable = false) :
    restartIf true (recompute v) = oneSettled w v := by
  rw [recompute_one hw hp, settleWindow_one (s := onePut w v) (u := loneUnit v.dict v.trans w) rfl hall hf,
    if_pos (by simp [mustSettle_onePut, hx]), settleUnit_eq]
  have hone : (loneUnit v.dict v.trans w).strokes = [w] := loneUnit_strokes _ _ _
  have hsettled : settledOne (loneUnit v.dict v.trans w) (onePut w v).trans = { v.trans with
      window := [], provisional := [], recomputePending := false, idCounter := nextUnitId v.trans.idCounter,
      base := (loneUnit v.dict v.trans w).after,
      undo := (v.trans.undo ++ [loneUnit v.dict v.trans w]).drop (v.trans.undo.length + 1 - 32) } := by
    unfold settledOne pushUndo
    simp [onePut, hone, Config.undoCapacity]
  rw [hsettled]
  unfold onePut
  rw [fixAppended_withTrans, withTrans_withTrans]
  rfl

/-! ### The take of a stroke (R85, R89) -/

theorem takeRecord_stroke {s : State} {r : LogRecord} {chord : Chord} {stamp : Stamp} {duration : Nat} {held : Bool}
    (h0 : s.log.translator.sinceTaken = 0) (hp : s.trans.recomputePending = false)
    (hbody : r.body = .stroke chord stamp duration held) (hc : chord ≠ s.trans.deleteChord) :
    takeRecord r s = restartIf true (recompute { translatorPassed s with trans := { s.trans with
      window := s.trans.window ++ [{ chord := chord, seq := r.seq, stamp := stamp }] } }) :=
  (takeRecord_plain r h0 hp).trans (handleRecord_stroke (translatorPassed s) hbody hc)

/-- The unit of a lone stroke, by the entry the stroke gives (R90 to R98). -/
theorem firstUnit_one (d : Dictionary) (f : FormatState) (w : WindowStroke) :
    (∀ layer e, (lookup d [w.chord]).entry = some (layer, e) → firstUnit d f w [] = entryUnit d f [w] layer e) ∧
    ((lookup d [w.chord]).entry = none → firstUnit d f w [] = singleUnit d f w) := by
  refine ⟨fun layer e h => ?_, fun h => ?_⟩
  · exact firstUnit_entry (k := 1) (longestMatch_found le_rfl le_rfl h fun j h1 h2 => by simp at h2; omega)
  · refine firstUnit_single (longestMatch_none fun k h1 hk => ?_)
    obtain rfl : k = 1 := by simp at hk; omega
    exact h

theorem foldFrom_unused {d : Dictionary} (c : Chord) (h : ∀ x ∈ d.folds, x.inUse = false) :
    foldFrom d c 0 d.folds = none :=
  foldFrom_none 0 fun x hx => if_neg (by simp [h x hx])

theorem loneUnit_fields (d : Dictionary) (t : Translator) (w : WindowStroke) :
    (loneUnit d t w).source = (firstUnit d t.base w []).source ∧ (loneUnit d t w).kind = (firstUnit d t.base w []).kind ∧
    (loneUnit d t w).text = (firstUnit d t.base w []).text ∧
    (loneUnit d t w).after = (firstUnit d t.base w []).after := ⟨rfl, rfl, rfl, rfl⟩

/-- The stroke that a record gives the window. -/
def strokeOf (r : LogRecord) (chord : Chord) (stamp : Stamp) : WindowStroke :=
  { chord := chord, seq := r.seq, stamp := stamp }

/-- The part with one stroke in the window. -/
def joinedAlone (w : WindowStroke) (s : State) : State :=
  withTrans { s.trans with window := [w] } (translatorPassed s)

theorem takeRecord_alone {s : State} {r : LogRecord} {chord : Chord} {stamp : Stamp} {duration : Nat} {held : Bool}
    (h0 : s.log.translator.sinceTaken = 0) (hp : s.trans.recomputePending = false)
    (hbody : r.body = .stroke chord stamp duration held) (hc : chord ≠ s.trans.deleteChord)
    (hw : s.trans.window = []) :
    takeRecord r s = restartIf true (recompute (joinedAlone (strokeOf r chord stamp) s)) := by
  rw [takeRecord_stroke h0 hp hbody hc, hw]
  rfl

theorem alone_waits {s : State} {w : WindowStroke} (hpend : s.trans.recomputePending = false)
    (hp : s.trans.provisional = []) (hall : s.trans.settleAll = false)
    (hf : isFeedControl (loneUnit s.dict s.trans w) = false) (hx : (lookup s.dict [w.chord]).extendable = true) :
    restartIf true (recompute (joinedAlone w s))
      = appendEntry (.put (nextUnitId s.trans.idCounter) w.seq (loneUnit s.dict s.trans w).text)
          (withTrans { s.trans with
            window := [w], provisional := [loneUnit s.dict s.trans w], idCounter := nextUnitId s.trans.idCounter,
            settleTimer := if s.trans.settleDelay = 0 then none else some s.time.tick } (translatorPassed s)) := by
  refine (recompute_waits (v := joinedAlone w s) rfl hp hall hf hx).trans ?_
  unfold onePut joinedAlone
  rw [withTrans_withTrans, ← appendEntry_withTrans, withTrans_trans, withTrans_withTrans, ← hpend]
  rfl

/-- The unit of a lone stroke, put and fixed. -/
def aloneFixed (w : WindowStroke) (s : State) : State :=
  appendEntry (.fix (nextUnitId s.trans.idCounter) (loneUnit s.dict s.trans w).text w.stamp)
    (appendEntry (.put (nextUnitId s.trans.idCounter) w.seq (loneUnit s.dict s.trans w).text)
      (withTrans { s.trans with
        idCounter := nextUnitId s.trans.idCounter, base := (loneUnit s.dict s.trans w).after,
        undo := (s.trans.undo ++ [loneUnit s.dict s.trans w]).drop (s.trans.undo.length + 1 - 32),
        settleTimer := none } (translatorPassed s)))

theorem fixAppended_lone (d : Dictionary) (t : Translator) (w : WindowStroke) (s : State) :
    fixAppended (loneUnit d t w) s
      = if (loneUnit d t w).kind = .raw then
          countOne .untranslates (appendEntry (.fix (nextUnitId t.idCounter) (loneUnit d t w).text w.stamp) s)
        else appendEntry (.fix (nextUnitId t.idCounter) (loneUnit d t w).text w.stamp) s := by
  have hstamp : ((loneUnit d t w).strokes.map (fun x => x.stamp)).head?.getD { ms := 0, quality := .free }
      = w.stamp := by
    rw [loneUnit_strokes]
    rfl
  unfold fixAppended
  rw [hstamp]
  rfl

theorem alone_settles {s : State} {w : WindowStroke} (hpend : s.trans.recomputePending = false)
    (hw : s.trans.window = []) (hp : s.trans.provisional = []) (hall : s.trans.settleAll = false)
    (hf : isFeedControl (loneUnit s.dict s.trans w) = false) (hx : (lookup s.dict [w.chord]).extendable = false) :
    restartIf true (recompute (joinedAlone w s))
      = if (loneUnit s.dict s.trans w).kind = .raw then countOne .untranslates (aloneFixed w s)
        else aloneFixed w s := by
  refine (recompute_settles (v := joinedAlone w s) rfl hp hall hf hx).trans ?_
  have hkept : { (joinedAlone w s).trans with
      window := [], provisional := [], recomputePending := false,
      idCounter := nextUnitId (joinedAlone w s).trans.idCounter,
      base := (loneUnit s.dict s.trans w).after,
      undo := ((joinedAlone w s).trans.undo ++ [loneUnit s.dict s.trans w]).drop
        ((joinedAlone w s).trans.undo.length + 1 - 32), settleTimer := none }
      = { s.trans with
        idCounter := nextUnitId s.trans.idCounter, base := (loneUnit s.dict s.trans w).after,
        undo := (s.trans.undo ++ [loneUnit s.dict s.trans w]).drop (s.trans.undo.length + 1 - 32),
        settleTimer := none } := by
    simp [joinedAlone, hw, hp, hpend]
  have hlone : loneUnit (joinedAlone w s).dict (joinedAlone w s).trans w = loneUnit s.dict s.trans w := rfl
  unfold oneSettled
  rw [hlone, hkept, ← fixAppended_withTrans, fixAppended_lone, ← appendEntry_withTrans, joinedAlone,
    withTrans_withTrans]
  rfl

/-- The unit of a lone stroke, by the entry the stroke gives. -/
theorem loneUnit_entry {d : Dictionary} {t : Translator} {w : WindowStroke} {layer : Layer} {e : Entry}
    (h : (lookup d [w.chord]).entry = some (layer, e)) :
    (loneUnit d t w).source = some { layer := layer, entry := e, rule := none } ∧
    (e.command = .none → (loneUnit d t w).kind = .entry ∧
      (loneUnit d t w).text = joinedText e.flags t.base (entryText e t.base) ∧
      (loneUnit d t w).after = joinedAfter e.flags t.base (entryText e t.base) (loneUnit d t w).text) ∧
    (e.command ≠ .none → (loneUnit d t w).kind = .command ∧ (loneUnit d t w).text = commandText d e.command ∧
      (loneUnit d t w).after = commandAfter d e.command t.base) := by
  obtain ⟨hsource, hkind, htext, hafter⟩ := loneUnit_fields d t w
  rw [hsource, hkind, htext, hafter, (firstUnit_one d t.base w).1 layer e h, entryUnit_source]
  refine ⟨rfl, fun hcommand => ?_, fun hcommand => entryUnit_command hcommand⟩
  obtain ⟨hkind, htext, hafter⟩ := entryUnit_entry (d := d) (f := t.base) (strokes := [w]) (layer := layer) hcommand
  rw [hkind, htext, hafter]
  exact ⟨rfl, rfl, rfl⟩

theorem loneUnit_number {d : Dictionary} {t : Translator} {w : WindowStroke}
    (h : (lookup d [w.chord]).entry = none) (hn : isNumber w.chord = true) :
    (loneUnit d t w).kind = .number ∧ (loneUnit d t w).text = (numberUnit t.base w).text ∧
    (loneUnit d t w).after = (numberUnit t.base w).after := by
  obtain ⟨_, hkind, htext, hafter⟩ := loneUnit_fields d t w
  rw [hkind, htext, hafter, (firstUnit_one d t.base w).2 h, singleUnit_number hn]
  exact ⟨rfl, rfl, rfl⟩

theorem loneUnit_raw {d : Dictionary} {t : Translator} {w : WindowStroke} (h : (lookup d [w.chord]).entry = none)
    (hn : isNumber w.chord = false) (hfolds : ∀ x ∈ d.folds, x.inUse = false) :
    (loneUnit d t w).kind = .raw ∧ (loneUnit d t w).text = (rawUnit t.base w).text ∧
    (loneUnit d t w).after = (rawUnit t.base w).after := by
  obtain ⟨_, hkind, htext, hafter⟩ := loneUnit_fields d t w
  rw [hkind, htext, hafter, (firstUnit_one d t.base w).2 h, singleUnit_raw hn (foldFrom_unused _ hfolds)]
  exact ⟨rfl, rfl, rfl⟩

/-- Settles O34. -/
theorem takenStrokeIsPutAndSettled : Obligations.TakenStrokeIsPutAndSettled := by
  have hexec {s : State} {r : LogRecord} (h : recordToTake s = some r) :
      exec .translatorTake s = .next (eventEnd (takeRecord r s)) := by
    refine congrArg Host.Outcome.next (congrArg eventEnd ?_)
    unfold takeEvent
    rw [h]
  refine ⟨fun s r chord stamp duration held hr hok hl hchk hp hh h0 hrec hbody => ?_,
    fun s r chord stamp duration held hl hchk hp hh h0 hrec hbody hc hpend => ?_, fun d f w rest => ?_⟩
  · intro tr hc hw hpr hpend hall reader passed w found f id
    have hnext := hexec ((recordToTake_eq hl hchk (by simp [hp]) hh).trans hrec)
    rw [takeRecord_alone h0 hpend hbody hc hw] at hnext
    have hended {t : State} (heq : restartIf true (recompute (joinedAlone (strokeOf r chord stamp) s)) = t)
        (hpower : t.power = s.power) (hreach : reachAll t = t) :
        exec .translatorTake s = .next (driveAttention t) := by
      rwa [heq, eventEnd_quiet (dozeReady_of_part (by simp [hpower, hp])) hreach] at hnext
    refine ⟨loneUnit s.dict tr w, rfl, loneUnit_strokes _ _ _, (firstUnit_before _ _ _ _).1,
      (firstUnit_before _ _ _ _).2, fun layer e he => ?_, fun hnone hnum => ?_, fun hnone hnum hfolds => ?_,
      fun hx hf => ?_, fun hx hf => ?_⟩
    · obtain ⟨hsource, hentry, hcommand⟩ := loneUnit_entry (t := tr) (w := w) he
      refine ⟨hsource, fun h => ?_, hcommand⟩
      obtain ⟨hkind, htext, hafter⟩ := hentry h
      rw [entryText_eq] at htext hafter
      exact ⟨hkind, htext.trans (joinedText_eq e.flags f _), hafter⟩
    · obtain ⟨hkind, htext, hafter⟩ := loneUnit_number (t := tr) (w := w) hnone hnum
      obtain ⟨_, _, htexts, hafters⟩ := numberUnit_eq f w
      exact ⟨hkind, htext.trans htexts, hafter.trans hafters⟩
    · obtain ⟨hkind, htext, hafter⟩ := loneUnit_raw (t := tr) (w := w) hnone hnum hfolds
      obtain ⟨_, _, htexts, hafters⟩ := rawUnit_eq f w
      exact ⟨hkind, htext.trans htexts, hafter.trans hafters⟩
    · exact hended (alone_waits hpend hpr hall hf hx) (by simp [passed]) (appendEntry_reached _ hok)
    · intro settled
      have hreach : reachAll (aloneFixed w s) = aloneFixed w s :=
        appendEntry_reached _ (appendEntry_journalOk _ _ hok)
      refine hended (alone_settles hpend hw hpr hall hf hx) ?_ ?_
      · split <;> simp [settled, passed]
      · split
        · exact (reachAll_countOne _ _).trans (congrArg (countOne .untranslates) hreach)
        · exact hreach
  · have hnext := hexec ((recordToTake_eq hl hchk hp hh).trans hrec)
    rw [takeRecord_stroke h0 hpend hbody hc] at hnext
    exact recompute_recomputed (becomes := fun t => exec .translatorTake s = .next (eventEnd t)) hnext
  · intro all entryOf folds chosen
    refine ⟨rfl, firstUnit d f w rest, segment_cons d f w rest, (firstUnit_before _ _ _ _).1,
      (firstUnit_before _ _ _ _).2, fun k layer e h1 hk he hlonger => ?_, fun hnone => ?_⟩
    · rw [show firstUnit d f w rest = entryUnit d f (all.take k) layer e from
        firstUnit_entry (longestMatch_found h1 hk he hlonger), entryUnit_source, entryUnit_strokes]
      refine ⟨rfl, rfl, fun hcommand => ?_, fun hcommand => entryUnit_command hcommand⟩
      obtain ⟨hkind, htext, hafter⟩ :=
        entryUnit_entry (d := d) (f := f) (strokes := all.take k) (layer := layer) hcommand
      rw [hkind, htext, hafter, show entryText e f = chosen e from entryText_eq e f]
      exact ⟨rfl, rfl, rfl⟩
    rw [show firstUnit d f w rest = singleUnit d f w from firstUnit_single (longestMatch_none hnone)]
    refine ⟨singleUnit_strokes d f w, fun hnum => ?_, fun hnum => ⟨fun i r layer e hi hfold hbefore => ?_, fun hno => ?_⟩⟩
    · rw [singleUnit_number hnum]
      exact numberUnit_eq f w
    · have hfirst := foldFrom_first 0 i hi (foldEntry_eq_some_iff.mpr hfold) fun j q hj hq =>
        Option.eq_none_iff_forall_ne_some.mpr fun x hx => hbefore j q x.1 x.2 hj hq (foldEntry_eq_some_iff.mp hx)
      rw [Nat.zero_add] at hfirst
      rw [singleUnit_fold hnum hfirst, foldUnit, show entryText e f = chosen e from entryText_eq e f]
      exact ⟨rfl, rfl, rfl, rfl⟩
    · rw [singleUnit_raw hnum (foldFrom_none 0 fun r hr =>
        Option.eq_none_iff_forall_ne_some.mpr fun x hx => hno r hr x.1 x.2 (foldEntry_eq_some_iff.mp hx))]
      exact rawUnit_eq f w

end Sys2Proof.Machine
end

section
/-! PROOFS. The append of a record to the Stroke Log: overwrite and loss (R24 to R26, R31). -/

namespace Sys2Proof.Machine

/-! ### A loss (R25, R26) -/

/-- The part with another Stroke Log. -/
def withLog (g : StrokeLog) (s : State) : State := { s with log := g }

@[simp] theorem withLog_log (g : StrokeLog) (s : State) : (withLog g s).log = g := rfl

theorem withLog_withLog (g h : StrokeLog) (s : State) : withLog g (withLog h s) = withLog g s := rfl

/-- The notice of a loss on the port of a reader, when the loss begins a run. -/
def lossNoticed (name : ReaderName) (r : Reader) (v : State) : State :=
  match readerPort name with
  | none => v
  | some port =>
    if r.inRun = true then v
    else noticeOn port
      { kind := .loss,
        fields := byte (readerCode name) ++ num 4 (r.lost + 1).toNat ++ num 4 (r.cursor + 1).toNat } v

/-- What a loss of a reader counts and notices. -/
def lossCounted (name : ReaderName) (r : Reader) (v : State) : State := lossNoticed name r (countOne .logLosses v)

theorem lossCounted_withLog (name : ReaderName) (r : Reader) (g : StrokeLog) (v : State) :
    lossCounted name r (withLog g v) = withLog g (lossCounted name r v) := by
  have hcount : countOne .logLosses (withLog g v) = withLog g (countOne .logLosses v) := by
    unfold countOne countEvents withLog
    rw [if_neg one_ne_zero, if_neg one_ne_zero]
    dsimp only
    split <;> rfl
  unfold lossCounted
  rw [hcount]
  unfold lossNoticed
  cases name with
  | translator => rfl
  | machine | station =>
    dsimp only [readerPort]
    split <;> rfl

@[simp] theorem lossCounted_frame (name : ReaderName) (r : Reader) (v : State) :
    (lossCounted name r v).capture = v.capture ∧ (lossCounted name r v).log = v.log ∧
    (lossCounted name r v).time = v.time ∧ (lossCounted name r v).dict = v.dict ∧
    (lossCounted name r v).trans = v.trans ∧ (lossCounted name r v).journal = v.journal ∧
    (lossCounted name r v).holds = v.holds ∧ (lossCounted name r v).power = v.power ∧
    (lossCounted name r v).wake = v.wake ∧ (lossCounted name r v).counters = (countOne .logLosses v).counters ∧
    (lossCounted name r v).pending = v.pending := by
  unfold lossCounted lossNoticed
  cases name with
  | translator => simp [readerPort]
  | machine | station =>
    dsimp only [readerPort]
    split <;> simp

theorem lossCounted_counters (name : ReaderName) (r : Reader) (v : State) :
    (lossCounted name r v).counters = (countOne .logLosses v).counters := by simp

/-- A reader that has lost the record it stood on. -/
def overranReader (name : ReaderName) (r : Reader) : Reader := { r with
  cursor := r.cursor + 1, lost := r.lost + 1,
  sinceTaken := if name = .translator then r.sinceTaken + 1 else r.sinceTaken,
  inRun := if name = .translator then r.inRun else true }

theorem takeLoss_overran (name : ReaderName) (r : Reader) (s : State) :
    takeLoss name { r with
        cursor := r.cursor + 1, lost := r.lost + 1,
        sinceTaken := if name = .translator then r.sinceTaken + 1 else r.sinceTaken } s
      = withLog (s.log.setReader name (overranReader name r)) (lossCounted name r s) := by
  have hlog : (countOne .logLosses s).log = s.log := by simp
  unfold takeLoss
  dsimp only
  cases name with
  | translator =>
    show withLog ((countOne .logLosses s).log.setReader .translator _) (countOne .logLosses s) = _
    rw [hlog]
    rfl
  | machine =>
    simp only [readerPort, reduceCtorEq, if_false, lossCounted, lossNoticed]
    rw [State.setReader, hlog]
    split <;> rfl
  | station =>
    simp only [readerPort, reduceCtorEq, if_false, lossCounted, lossNoticed]
    rw [State.setReader, hlog]
    split <;> rfl

theorem setReader_self (g : StrokeLog) (name : ReaderName) : g.setReader name (g.reader name) = g := by
  cases name <;> rfl

/-- A reader when a record has been removed. -/
def movedReader (name : ReaderName) (removed : Word) (r : Reader) : Reader :=
  if r.cursor = removed then overranReader name r else r

/-- What the removal of a record counts and notices for a reader. -/
def removalCounted (name : ReaderName) (removed : Word) (r : Reader) (v : State) : State :=
  if r.cursor = removed then lossCounted name r v else v

theorem overwriteReader_eq (name : ReaderName) (removed : Word) (s : State) :
    overwriteReader name removed s
      = withLog (s.log.setReader name (movedReader name removed (s.log.reader name)))
          (removalCounted name removed (s.log.reader name) s) := by
  unfold overwriteReader movedReader removalCounted
  dsimp only
  split
  · exact takeLoss_overran name _ s
  · rw [setReader_self]
    rfl

theorem removalCounted_withLog (name : ReaderName) (removed : Word) (r : Reader) (g : StrokeLog) (v : State) :
    removalCounted name removed r (withLog g v) = withLog g (removalCounted name removed r v) := by
  unfold removalCounted
  split
  · exact lossCounted_withLog name r g v
  · rfl

/-! ### The removal of the oldest record (R25) -/

/-- What the removal of the oldest record counts and notices: for the Translator, the Machine port's reader and
then the Station port's (log entry 29). -/
def lossesCounted (g : StrokeLog) (removed : Word) (s : State) : State :=
  removalCounted .station removed g.station
    (removalCounted .machine removed g.machine (removalCounted .translator removed g.translator s))

theorem makeRoom_full {s : State} {oldest : LogRecord} {rest : List LogRecord} (h : s.log.records = oldest :: rest)
    (hlen : 4096 ≤ s.log.records.length) :
    makeRoom s = withLog { s.log with
        records := rest,
        translator := movedReader .translator oldest.seq s.log.translator,
        machine := movedReader .machine oldest.seq s.log.machine,
        station := movedReader .station oldest.seq s.log.station }
      (lossesCounted s.log oldest.seq s) := by
  unfold makeRoom
  rw [h] at hlen ⊢
  dsimp only
  have hfull : ¬(oldest :: rest).length < Config.logCapacity := Nat.not_lt.mpr hlen
  rw [if_neg hfull]
  rw [show ({ s with log := { s.log with records := rest } } : State) = withLog { s.log with records := rest } s
    from rfl]
  rw [overwriteReader_eq .translator, overwriteReader_eq .machine, overwriteReader_eq .station]
  simp only [withLog_log, removalCounted_withLog, withLog_withLog]
  rfl

theorem makeRoom_room {s : State} (h : s.log.records.length < 4096) : makeRoom s = s := by
  unfold makeRoom
  split
  · rfl
  · exact if_pos h

/-- The part after room has been made for a record. -/
theorem appendRecord_eq (b : RecordBody) (s : State) :
    appendRecord b s = withLog { (makeRoom s).log with
        records := (makeRoom s).log.records ++ [{ seq := (makeRoom s).log.head, body := b }],
        head := (makeRoom s).log.head + 1,
        wrapped := (makeRoom s).log.wrapped || (makeRoom s).log.head + 1 == 0,
        machine := followHead ((makeRoom s).log.head + 1) (makeRoom s).log.machine,
        station := followHead ((makeRoom s).log.head + 1) (makeRoom s).log.station } (makeRoom s) := rfl

/-- The oldest record is removed under the cursor of a reader that is on. -/
def recordLost (g : StrokeLog) (name : ReaderName) : Bool :=
  decide (g.records.length = 4096) && (g.reader name).on && decide ((g.reader name).cursor = g.head - 4096)

theorem recordLost_iff (g : StrokeLog) (name : ReaderName) :
    recordLost g name = true ↔
      g.records.length = 4096 ∧ (g.reader name).on = true ∧ (g.reader name).cursor = g.head - 4096 := by
  simp [recordLost, and_assoc]

/-- No reader that is off stands on the oldest record of a full ring. -/
theorem recordLost_of_cursor {g : StrokeLog} (h : LogOk g) (hlen : g.records.length = 4096) (name : ReaderName) :
    recordLost g name = true ↔ (g.reader name).cursor = g.head - 4096 := by
  rw [recordLost_iff]
  refine ⟨fun ⟨_, _, hc⟩ => hc, fun hc => ⟨hlen, ?_, hc⟩⟩
  by_contra hoff
  have hhead : (g.reader name).cursor = g.head := (h.2.2 name).1.2 (by simpa using hoff)
  rw [hhead] at hc
  bv_omega

/-- A reader when room has been made. -/
def roomReader (g : StrokeLog) (name : ReaderName) : Reader :=
  if recordLost g name = true then overranReader name (g.reader name) else g.reader name

/-- What making room counts and notices for a reader. -/
def roomCounted (g : StrokeLog) (name : ReaderName) (v : State) : State :=
  if recordLost g name = true then lossCounted name (g.reader name) v else v

/-- The log when room has been made. -/
def roomyLog (g : StrokeLog) : StrokeLog := { g with
  records := if g.records.length = 4096 then g.records.tail else g.records,
  translator := roomReader g .translator, machine := roomReader g .machine, station := roomReader g .station }

theorem roomyLog_reader (g : StrokeLog) (name : ReaderName) : (roomyLog g).reader name = roomReader g name := by
  cases name <;> rfl

theorem makeRoom_eq {s : State} (h : LogOk s.log) :
    makeRoom s = withLog (roomyLog s.log)
      (roomCounted s.log .station (roomCounted s.log .machine (roomCounted s.log .translator s))) := by
  by_cases hlen : s.log.records.length = 4096
  · obtain ⟨oldest, rest, hrecords⟩ : ∃ oldest rest, s.log.records = oldest :: rest :=
      List.exists_cons_of_length_pos (by omega)
    have hseq := (LogRing.drop h.1 hrecords hlen).2
    have hlost (name : ReaderName) := recordLost_of_cursor h hlen name
    have hreader (name : ReaderName) : movedReader name (s.log.head - 4096) (s.log.reader name)
        = roomReader s.log name := if_congr (hlost name).symm rfl rfl
    have hcount (name : ReaderName) (v : State) :
        removalCounted name (s.log.head - 4096) (s.log.reader name) v = roomCounted s.log name v :=
      if_congr (hlost name).symm rfl rfl
    have hlosses : lossesCounted s.log (s.log.head - 4096) s
        = roomCounted s.log .station (roomCounted s.log .machine (roomCounted s.log .translator s)) := by
      rw [← hcount, ← hcount, ← hcount]
      rfl
    rw [makeRoom_full hrecords hlen.ge, hseq, hlosses]
    refine congrArg (withLog · _) ?_
    unfold roomyLog
    rw [if_pos hlen, ← hreader, ← hreader, ← hreader, hrecords]
    rfl
  · have hlost (name : ReaderName) : ¬recordLost s.log name = true := fun hl =>
      hlen ((recordLost_iff s.log name).mp hl).1
    have hshort : s.log.records.length < 4096 := lt_of_le_of_ne h.1.1 hlen
    rw [makeRoom_room hshort]
    simp only [roomyLog, roomCounted, roomReader, if_neg (hlost _), if_neg hlen]
    rfl

/-- A reader after an append. -/
def appendedReader (name : ReaderName) (head : Word) (r : Reader) : Reader :=
  match name with
  | .translator => r
  | .machine | .station => followHead head r

theorem appendRecord_reader (b : RecordBody) (s : State) (name : ReaderName) :
    (appendRecord b s).log.reader name
      = appendedReader name ((makeRoom s).log.head + 1) ((makeRoom s).log.reader name) := by
  cases name <;> rfl

/-- The counters and the ports after room has been made. -/
theorem roomCounted_eq (g : StrokeLog) (name : ReaderName) (v : State) :
    (recordLost g name = true → roomCounted g name v = lossCounted name (g.reader name) v) ∧
    (¬recordLost g name = true → roomCounted g name v = v) :=
  ⟨fun h => if_pos h, fun h => if_neg h⟩

/-- LOG_LOSSES has its tally, and it is within its bound. -/
def LossesBounded (s : State) : Prop :=
  s.counters.running.length = 13 ∧ (runningTally s.counters .logLosses).value ≤ 65535

theorem roomCounted_losses {g : StrokeLog} {name : ReaderName} {v : State} (h : LossesBounded v) :
    LossesBounded (roomCounted g name v) ∧
    (runningTally (roomCounted g name v).counters .logLosses).value
      = min 65535 ((runningTally v.counters .logLosses).value + if recordLost g name = true then 1 else 0) := by
  unfold roomCounted LossesBounded
  obtain ⟨hlen, hval⟩ := h
  by_cases hl : recordLost g name = true
  · rw [if_pos hl, if_pos hl]
    have htally : runningTally (lossCounted name (g.reader name) v).counters .logLosses
        = addTally (runningTally v.counters .logLosses) 1 := by
      rw [lossCounted_counters]
      exact runningTally_countOne (by rw [hlen]; decide)
    have hvalue : (addTally (runningTally v.counters .logLosses) 1).value
        = min 65535 ((runningTally v.counters .logLosses).value + 1) := Nat.min_comm _ _
    rw [htally, hvalue]
    refine ⟨⟨?_, Nat.min_le_left _ _⟩, rfl⟩
    rw [lossCounted_counters, countOne_running, List.length_set, hlen]
  · rw [if_neg hl, if_neg hl]
    exact ⟨⟨hlen, hval⟩, by omega⟩

/-- Settles O14. -/
theorem appendPlacesTheRecordAtTheHead : Obligations.AppendPlacesTheRecordAtTheHead := by
  intro b s hok hcounters g full moved t
  have hmoved (name : ReaderName) : recordLost g name = true ↔ moved name := recordLost_iff g name
  have hroom := makeRoom_eq hok
  have hlog : (makeRoom s).log = roomyLog g := by rw [hroom]; rfl
  have htail : (roomyLog g).records = if full then g.records.tail else g.records := rfl
  have hreader (name : ReaderName) : t.log.reader name = appendedReader name (g.head + 1) (roomReader g name) := by
    rw [← roomyLog_reader, ← hlog]
    exact (appendRecord_reader b s name).trans (by rw [hlog]; rfl)
  have hlosses : LossesBounded s := ⟨hcounters.1.1, (runningTally_tallyOk hcounters .logLosses).1⟩
  have ht : t = withLog t.log
      (roomCounted g .station (roomCounted g .machine (roomCounted g .translator s))) := by
    show appendRecord b s = withLog (appendRecord b s).log _
    rw [appendRecord_eq, hroom]
    rfl
  have hcount : t.counters
      = (roomCounted g .station (roomCounted g .machine (roomCounted g .translator s))).counters := by rw [ht]; rfl
  have hports : t.ports
      = (roomCounted g .station (roomCounted g .machine (roomCounted g .translator s))).ports := by rw [ht]; rfl
  have hheld (name : ReaderName) (h : ¬moved name) : roomReader g name = g.reader name :=
    if_neg (mt (hmoved name).mp h)
  refine ⟨?_, ?_, ?_, ?_, fun name => ?_, ?_, ?_, fun hnone => ?_, ?_⟩
  · rw [← htail, ← hlog]
    show (makeRoom s).log.records ++ [{ seq := (makeRoom s).log.head, body := b }] = _
    rw [hlog]
    rfl
  · show (makeRoom s).log.head + 1 = _
    rw [hlog]
    rfl
  · show (makeRoom s).log.job = _
    rw [hlog]
    rfl
  · show ((makeRoom s).log.wrapped || (makeRoom s).log.head + 1 == 0) = true ↔ _
    rw [hlog, Bool.or_eq_true, beq_iff_eq]
    exact or_congr Iff.rfl (by
      show g.head + 1 = 0 ↔ g.head = 4294967295
      bv_omega)
  · intro r r'
    have hr' : r' = appendedReader name (g.head + 1) (roomReader g name) := hreader name
    refine ⟨fun hoff => ?_, fun hm => ?_, fun hon hm => ?_⟩
    · rw [hr', hheld name fun hm => by simp [r, hm.2.1] at hoff]
      cases name with
      | translator => exact absurd (hok.2.1.symm.trans hoff) (by decide)
      | machine | station => exact if_neg (by simpa [r] using hoff)
    · have hover : roomReader g name = overranReader name r := if_pos ((hmoved name).mpr hm)
      have hstays : r' = overranReader name r := by
        rw [hr', hover]
        cases name with
        | translator => rfl
        | machine | station => exact if_pos hm.2.1
      rw [hstays]
      exact ⟨hm.2.1, rfl, rfl, rfl, fun h => if_pos h, fun h => if_neg h⟩
    · rw [hr', hheld name hm]
      cases name with
      | translator => rfl
      | machine | station => exact if_pos hon
  · obtain ⟨h1, hv1⟩ := roomCounted_losses (g := g) (name := .translator) hlosses
    obtain ⟨h2, hv2⟩ := roomCounted_losses (g := g) (name := .machine) h1
    obtain ⟨h3, hv3⟩ := roomCounted_losses (g := g) (name := .station) h2
    rw [hcount, hv3, hv2, hv1]
    simp only [hmoved]
    omega
  · intro loses
    refine ⟨roomCounted g .translator s, roomCounted g .machine (roomCounted g .translator s),
      roomCounted g .station (roomCounted g .machine (roomCounted g .translator s)),
      fun h => ?_, fun h => ?_, fun h => ?_, fun h => ?_, fun h => ?_, fun h => ?_, hcount, hports⟩
    · exact (roomCounted_eq g .translator s).1 ((hmoved _).mpr h)
    · exact (roomCounted_eq g .translator s).2 (mt (hmoved _).mp h)
    · exact (roomCounted_eq g .machine _).1 ((hmoved _).mpr h)
    · exact (roomCounted_eq g .machine _).2 (mt (hmoved _).mp h)
    · exact (roomCounted_eq g .station _).1 ((hmoved _).mpr h)
    · exact (roomCounted_eq g .station _).2 (mt (hmoved _).mp h)
  · have hkeeps (name : ReaderName) (v : State) : roomCounted g name v = v :=
      (roomCounted_eq g name v).2 (mt (hmoved name).mp (hnone name))
    rw [hkeeps, hkeeps, hkeeps] at hcount hports
    exact ⟨hcount, hports⟩
  · refine State.eq_of_blocks ?_
    simp [t]

end Sys2Proof.Machine
end

section
/-! PROOFS. The HOLD group, the strokes and the Wake Detector (R5, R11 to R21, R153 to R155). -/

namespace Sys2Proof.Machine

/-! ### The HOLD group (R20, R21, R139) -/

theorem holdGroup_same (b : Bool) (s : State) : holdGroup b b s = s := by
  cases b <;> rfl

theorem holdGroupPress_opened {s t : State} {id : Nat} (h : openHold .line none s = (t, .opened id)) :
    holdGroupPress s = setGranted true t := by
  unfold holdGroupPress
  rw [h]

theorem holdGroupPress_existing {s t : State} {id : Nat} (h : openHold .line none s = (t, .existing id)) :
    holdGroupPress s = setGranted true t := by
  unfold holdGroupPress
  rw [h]

theorem holdGroupPress_full {s t : State} (h : openHold .line none s = (t, .full)) :
    holdGroupPress s = setGranted false t := by
  unfold holdGroupPress
  rw [h]

theorem holdGroup_moved (before after : Bool) {s : State} (hok : HoldsOk s.holds) :
    HoldGroupMoved before after (holdGroup before after s) s := by
  unfold HoldGroupMoved
  intro granted
  refine ⟨fun hsame => hsame ▸ holdGroup_same before s, fun hb ha => ?_, fun hb ha => ?_⟩
  · subst hb ha
    refine ⟨fun h hh hsource => ?_, fun hnone => ?_⟩
    · have hfound : existingHold s .line = some h := by
        rw [← hsource]
        exact existingHold_eq_some hok hh (by simp [hsource])
      exact holdGroupPress_existing (openHold_existing hfound)
    · have hfree : existingHold s .line = none := (existingHold_eq_none_iff (by decide)).mpr hnone
      refine ⟨fun hfull => holdGroupPress_full (openHold_full hfree hfull), fun hroom => ?_⟩
      exact takeHold_opened hok hroom fun id t heq => holdGroupPress_opened ((openHold_taken hfree hroom).trans heq)
  · subst hb ha
    refine ⟨fun hnot => if_neg (c := s.capture.holdGranted = true) (by simp [hnot]), fun hyes => ?_⟩
    have hrelease : holdGroup true false s = granted false (closeWhere (fun h => h.source == .line) .owner s) :=
      if_pos hyes
    refine ⟨fun hnone => ?_, fun h hh hsource => ?_⟩
    · rw [hrelease, closeWhere_none fun h hh => by simp [hnone h hh]]
    · have hfind := find_source hok hh (by simp [hsource])
      rw [hsource] at hfind
      refine closeThis_closed (cause := .owner) ?_
      rw [hrelease, closeWhere_found hfind]

/-! ### The Wake Detector (R153 to R155) -/

theorem elapsed_iff (start now : Tick) (ms : Nat) :
    elapsed start now ms = true ↔ ms * 4096 ≤ (now - start).toNat * 1000 :=
  decide_eq_true_iff

theorem withinGap_iff (w : WakeDetector) (openTick : Tick) :
    withinGap w openTick = true ↔ ¬w.gap * 4096 ≤ (openTick - w.lastMatch).toNat * 1000 := by
  unfold withinGap
  rw [Bool.not_eq_true', ← Bool.not_eq_true, elapsed_iff]

/-- The Wake Detector after a match that does not wake the part. -/
theorem matchStroke_cases (m : Nat) (openTick : Tick) {s : State} {w : WakeDetector} {now : Tick} (hw : s.wake = w)
    (ht : s.time.tick = now) :
    (w.needed ≤ m → matchStroke m openTick s = woken .pattern s) ∧
    (m < w.needed → ¬w.gap * 4096 ≤ (now - openTick).toNat * 1000 →
      matchStroke m openTick s = { s with wake :=
        { w with count := m, lastMatch := openTick, gapTimer := true, heldOver := false } }) ∧
    (m < w.needed → w.gap * 4096 ≤ (now - openTick).toNat * 1000 →
      matchStroke m openTick s = countEvents .bumps m { s with wake :=
        { w with count := 0, lastMatch := openTick, gapTimer := false, heldOver := false } }) := by
  subst hw ht
  unfold matchStroke
  refine ⟨fun hm => ?_, fun hm hgap => ?_, fun hm hgap => ?_⟩
  · rw [if_pos hm, wakePart_eq]
  · rw [if_neg (by omega), if_neg (mt (elapsed_iff _ _ _).mp hgap)]
  · rw [if_neg (by omega), if_pos ((elapsed_iff _ _ _).mpr hgap)]

theorem judgeWake_other {chord : Chord} {openTick : Tick} {s : State} (h : chord ≠ s.wake.chord) :
    judgeWake chord openTick s = countEvents .bumps (s.wake.count + 1)
      { s with wake := { s.wake with count := 0, gapTimer := false, heldOver := false } } := if_neg h

/-- A stroke that matches makes the count `m` of the state `judged`. -/
theorem judgeWake_matches {chord : Chord} {openTick : Tick} {s judged : State} {m : Nat} (h : chord = s.wake.chord)
    (hm : let within : Prop :=
        s.wake.heldOver = true ∨ ¬s.wake.gap * 4096 ≤ (openTick - s.wake.lastMatch).toNat * 1000
      (s.wake.count = 0 ∧ m = 1 ∧ judged = s) ∨ (s.wake.count ≠ 0 ∧ within ∧ m = s.wake.count + 1 ∧ judged = s) ∨
      (s.wake.count ≠ 0 ∧ ¬within ∧ m = 1 ∧ judged = countEvents .bumps s.wake.count s)) :
    judgeWake chord openTick s = matchStroke m openTick judged := by
  have hwithin : (s.wake.heldOver || withinGap s.wake openTick) = true ↔
      s.wake.heldOver = true ∨ ¬s.wake.gap * 4096 ≤ (openTick - s.wake.lastMatch).toNat * 1000 := by
    rw [Bool.or_eq_true, withinGap_iff]
  unfold judgeWake
  dsimp only
  rw [if_pos h]
  obtain ⟨h0, rfl, rfl⟩ | ⟨h0, hw, rfl, rfl⟩ | ⟨h0, hw, rfl, rfl⟩ := hm
  · rw [if_pos h0]
  · rw [if_neg h0, if_pos (hwithin.mpr hw)]
  · rw [if_neg h0, if_neg (mt hwithin.mp hw)]

theorem judgeWake_judged {becomes : State → Prop} {a : Assembler} {closed : State}
    (hb : becomes (judgeWake a.chord a.openTick closed)) : WakeJudged becomes a closed := by
  refine ⟨fun hother => ?_, fun hsame => ?_⟩
  · rwa [judgeWake_other hother] at hb
  · intro within m judged hm
    have hkept : judged.wake = closed.wake ∧ judged.time = closed.time := by
      obtain ⟨_, _, rfl⟩ | ⟨_, _, _, rfl⟩ | ⟨_, _, _, rfl⟩ := hm
      · exact ⟨rfl, rfl⟩
      · exact ⟨rfl, rfl⟩
      · simp
    obtain ⟨hwake, htime⟩ := hkept
    rw [judgeWake_matches hsame hm] at hb
    obtain ⟨hwakes, hgoes, hexpires⟩ := matchStroke_cases m a.openTick hwake (congrArg TimeFollower.tick htime)
    refine ⟨fun h => ?_, fun h hgap => ?_, fun h hgap => ?_⟩
    · rwa [hwakes h] at hb
    · rw [hgoes h hgap] at hb
      exact hb
    · rw [hexpires h hgap] at hb
      exact hb

/-! ### A closed stroke (R13, R14, R17, R18) -/

theorem handStroke_log {a : Assembler} (duration : Nat) (held : Bool) {stamp : Stamp} (s : State)
    (hd : a.destination = .log) (hs : a.stamp = some stamp) :
    handStroke a duration held s = countOne .strokes (appendRecord (.stroke a.chord stamp duration held) s) := by
  unfold handStroke
  rw [hd, hs]
  rfl

theorem handStroke_discarded {a : Assembler} (duration : Nat) (held : Bool) {s : State}
    (hd : a.destination = .wake) (hp : s.power.part ≠ .doze) : handStroke a duration held s = s := by
  unfold handStroke
  rw [hd]
  exact if_neg hp

theorem handStroke_wake {a : Assembler} (duration : Nat) (held : Bool) {s : State}
    (hd : a.destination = .wake) (hp : s.power.part = .doze) :
    handStroke a duration held s = judgeWake a.chord a.openTick s := by
  unfold handStroke
  rw [hd]
  exact if_pos hp

theorem handStroke_handed {becomes : State → Prop} {a : Assembler} {duration : Nat} {held : Bool} {closed : State}
    (hb : becomes (handStroke a duration held closed)) : StrokeHanded becomes a duration held closed := by
  refine ⟨fun hd stamp hs => ?_, fun hd => ⟨fun hp => ?_, fun hp => ?_⟩⟩
  · rwa [handStroke_log duration held closed hd hs] at hb
  · rwa [handStroke_discarded duration held hd hp] at hb
  · rw [handStroke_wake duration held hd hp] at hb
    exact judgeWake_judged hb

/-! ### The lines of a scan (R4, R5, R19) -/

theorem markPress_doze (n : Nat) {s : State} (h : s.power.part = .doze) : markPress n s = s := by
  induction n with
  | zero => rfl
  | succ n ih =>
    unfold markPress
    rw [if_pos h, ih]

theorem markPress_awake {α : Type} (l : List α) {s : State} (h : s.power.part ≠ .doze) :
    markPress l.length s = l.foldl (fun t _ => appendRecord (.mark (stampNow s)) t) s := by
  have hgo (l : List α) (t : State) (hp : t.power.part ≠ .doze) (ht : t.time = s.time) :
      markPress l.length t = l.foldl (fun t _ => appendRecord (.mark (stampNow s)) t) t := by
    induction l generalizing t with
    | nil => rfl
    | cons x rest ih =>
      have hstamp : stampNow t = stampNow s := by simp only [stampNow, ht]
      rw [List.length_cons, markPress, if_neg hp, hstamp]
      exact ih _ (by simpa using hp) (by simpa using ht)
  exact hgo l s h rfl

theorem marksReported_eq (depths : List Byte) (s : State) :
    marksReported depths s
      = markPress (markPresses s.capture.lines (scanLines s.capture.debounce s.capture.lines depths))
          { s with capture := { s.capture with
              lines := scanLines s.capture.debounce s.capture.lines depths } } := by
  generalize hlined : ({ s with capture := { s.capture with
    lines := scanLines s.capture.debounce s.capture.lines depths } } : State) = lined
  have hpower : lined.power = s.power := by rw [← hlined]
  have hstamp : stampNow lined = stampNow s := by rw [← hlined]; rfl
  unfold marksReported markPresses
  dsimp only
  rw [hlined]
  split
  next h => rw [markPress_doze _ (hpower ▸ h)]
  next h => rw [List.countP_eq_length_filter, markPress_awake _ (hpower ▸ h), hstamp]

theorem scanEvent_eq (depths : List Byte) (s : State) :
    scanEvent depths s
      = assemble (pressedKeys (scanLines s.capture.debounce s.capture.lines depths))
          (pressedKeys (scanLines s.capture.debounce s.capture.lines depths) &&& ~~~(pressedKeys s.capture.lines))
          (holdReported depths s) := by
  unfold holdReported
  rw [marksReported_eq]
  rfl

end Sys2Proof.Machine
end

section
/-! PROOFS. SCAN: the lines, the opening, joining and closing of a stroke (R4, R5, R11 to R13, R16 to R21). -/

namespace Sys2Proof.Machine

/-! ### The acceptance of a line (R4) -/

theorem scanLines_getElem? (debounce : Nat) (lines : List Line) (depths : List Byte) (n : Nat) :
    (scanLines debounce lines depths)[n]? = lines[n]?.map (fun l => scanLine debounce l (depths.getD n 0)) := by
  induction lines generalizing depths n with
  | nil => simp [scanLines]
  | cons l ls ih =>
    cases depths with
    | nil =>
      cases n with
      | zero => rfl
      | succ n => simpa [scanLines] using ih [] n
    | cons d ds =>
      cases n with
      | zero => rfl
      | succ n => simpa [scanLines] using ih ds n

theorem scanLines_length (debounce : Nat) (lines : List Line) (depths : List Byte) :
    (scanLines debounce lines depths).length = lines.length := by
  induction lines generalizing depths with
  | nil => simp [scanLines]
  | cons l ls ih => cases depths <;> simp [scanLines, ih]

theorem scanLine_unsampled {debounce : Nat} {l : Line} (depth : Byte) (h : l.enabled = false ∨ l.role = .unused) :
    scanLine debounce l depth = l := if_neg (by obtain h | h := h <;> simp [sampled, h])

theorem disagrees_iff (l : Line) (depth : Byte) :
    disagrees l depth = true ↔ if l.pressed then depth.toNat < l.release else l.press ≤ depth.toNat := by
  unfold disagrees
  split <;> simp

theorem scanLine_sampled {debounce : Nat} {l : Line} {depth : Byte} (he : l.enabled = true) (hu : l.role ≠ .unused) :
    (¬disagrees l depth = true → scanLine debounce l depth = { l with count := 0 }) ∧
    (disagrees l depth = true → l.count + 1 < debounce →
      scanLine debounce l depth = { l with count := l.count + 1 }) ∧
    (disagrees l depth = true → debounce ≤ l.count + 1 →
      scanLine debounce l depth = { l with pressed := !l.pressed, count := 0 }) := by
  unfold scanLine
  rw [if_pos (by simp [sampled, he, hu])]
  refine ⟨fun h => if_neg h, fun h hc => ?_, fun h hc => ?_⟩
  · rw [if_pos h, if_neg (by omega)]
  · rw [if_pos h, if_pos hc]

/-! ### What a scan leaves (R5) -/

theorem holdGroup_capture (before after : Bool) (s : State) :
    (holdGroup before after s).capture
      = { s.capture with holdGranted := (holdGroup before after s).capture.holdGranted } := by
  have hopen : (openHold .line none s).1.capture = s.capture := by simp
  unfold holdGroup holdGroupRelease
  split
  · cases hres : openHold .line none s with
    | mk t answer =>
      have hkept : t.capture = s.capture := by simpa [hres] using hopen
      cases answer with
      | existing id => rw [holdGroupPress_existing hres, ← hkept]; rfl
      | opened id => rw [holdGroupPress_opened hres, ← hkept]; rfl
      | full => rw [holdGroupPress_full hres, ← hkept]; rfl
  · split
    · split
      · simp [setGranted]
      · rfl
    · rfl

@[simp] theorem holdReported_frame (depths : List Byte) (s : State) :
    (holdReported depths s).time = s.time ∧ (holdReported depths s).dict = s.dict ∧
    (holdReported depths s).trans = s.trans ∧ (holdReported depths s).power = s.power ∧
    (holdReported depths s).wake = s.wake ∧ (holdReported depths s).pending = s.pending := by
  unfold holdReported
  rw [marksReported_eq]
  simp

theorem holdReported_capture (depths : List Byte) (s : State) :
    (holdReported depths s).capture
      = { s.capture with
          lines := scanLines s.capture.debounce s.capture.lines depths,
          holdGranted := (holdReported depths s).capture.holdGranted } := by
  unfold holdReported
  rw [holdGroup_capture, marksReported_eq]
  simp

/-- A scan that reports no mark and no change of the HOLD group. -/
theorem holdReported_quiet {depths : List Byte} {s : State}
    (hm : markPresses s.capture.lines (scanLines s.capture.debounce s.capture.lines depths) = 0)
    (hh : holdPressed (scanLines s.capture.debounce s.capture.lines depths) = holdPressed s.capture.lines) :
    holdReported depths s
      = { s with capture := { s.capture with
          lines := scanLines s.capture.debounce s.capture.lines depths } } := by
  unfold holdReported
  rw [marksReported_eq, hm, hh, holdGroup_same]
  rfl

/-! ### The Stroke Assembler at a scan (R11 to R13, R16) -/

theorem assemble_idle {keys became : Chord} {u : State} (h : u.capture.assembler.state = .idle) :
    (keys = 0 → assemble keys became u = u) ∧ (keys ≠ 0 → assemble keys became u = openStroke keys u) := by
  unfold assemble
  dsimp only
  rw [h]
  exact ⟨fun hk => if_pos hk, fun hk => if_neg hk⟩

theorem assemble_gathering {keys became : Chord} {u : State} (h : u.capture.assembler.state = .gathering) :
    (keys = 0 → assemble keys became u = closeStroke u) ∧
    (keys ≠ 0 → assemble keys became u = setAssembler
      { u.capture.assembler with chord := u.capture.assembler.chord ||| became } u) := by
  unfold assemble
  dsimp only
  rw [h]
  exact ⟨fun hk => if_pos hk, fun hk => if_neg hk⟩

theorem assemble_drain {keys became : Chord} {u : State} (h : u.capture.assembler.state = .drain) :
    (keys = 0 → assemble keys became u = setAssembler { u.capture.assembler with state := .idle } u) ∧
    (keys ≠ 0 → assemble keys became u = u) := by
  unfold assemble
  dsimp only
  rw [h]
  exact ⟨fun hk => if_pos hk, fun hk => if_neg hk⟩

/-- Only the assembler and settle-all change when the keys reach the Stroke Assembler. -/
theorem assemble_leaves (keys became : Chord) (u : State) :
    (assemble keys became u).capture
      = { u.capture with assembler := (assemble keys became u).capture.assembler } ∧
    (assemble keys became u).trans
      = { u.trans with settleAll := (assemble keys became u).trans.settleAll } := by
  have hopen : (openStroke keys u).trans = { u.trans with settleAll := (openStroke keys u).trans.settleAll } := by
    rw [openStroke_eq]
    split
    · rfl
    · unfold reportOpening
      split
      · rfl
      · simp [returnToReady, setSettleAll, setAssembler]
      · rfl
  unfold assemble
  dsimp only
  split <;> split
  · exact ⟨rfl, rfl⟩
  · exact ⟨by simp [openStroke_capture], hopen⟩
  · exact ⟨by simp [closeStroke_capture], by simp⟩
  · exact ⟨rfl, rfl⟩
  · exact ⟨rfl, rfl⟩
  · exact ⟨rfl, rfl⟩

theorem scanEvent_capture (depths : List Byte) (s : State) :
    (scanEvent depths s).capture = { s.capture with
      lines := scanLines s.capture.debounce s.capture.lines depths,
      holdGranted := (scanEvent depths s).capture.holdGranted,
      assembler := (scanEvent depths s).capture.assembler } := by
  rw [scanEvent_eq, (assemble_leaves _ _ _).1, holdReported_capture]

theorem scanEvent_trans (depths : List Byte) (s : State) :
    (scanEvent depths s).trans = { s.trans with settleAll := (scanEvent depths s).trans.settleAll } := by
  rw [scanEvent_eq, (assemble_leaves _ _ _).2]
  simp

theorem eventEnd_trans (s : State) :
    (eventEnd s).trans = { s.trans with settleAll := (eventEnd s).trans.settleAll } := by
  unfold eventEnd dozeIfReady
  split
  · simp [enterDoze, setSettleAll]
  · simp

theorem exec_scan (depths : List Byte) (s : State) : exec (.scan depths) s = .next (eventEnd (scanEvent depths s)) := rfl

/-- A state that agrees with another on what a scan leaves alone. -/
theorem eq_of_scan {s t : State}
    (hc : t.capture = { s.capture with
      lines := t.capture.lines, holdGranted := t.capture.holdGranted, assembler := t.capture.assembler })
    (htime : t.time = s.time) (hdict : t.dict = s.dict)
    (htrans : t.trans = { s.trans with settleAll := t.trans.settleAll }) (hpending : t.pending = s.pending) :
    t = { s with
      capture := { s.capture with
        lines := t.capture.lines, holdGranted := t.capture.holdGranted, assembler := t.capture.assembler },
      log := t.log, trans := { s.trans with settleAll := t.trans.settleAll }, journal := t.journal,
      holds := t.holds, power := t.power, wake := t.wake, counters := t.counters, ports := t.ports } :=
  State.eq_of_blocks ⟨hc, rfl, htime, hdict, htrans, rfl, rfl, rfl, rfl, rfl, rfl, hpending⟩

/-- Settles O7. -/
theorem scanJudgesEveryLine : Obligations.ScanJudgesEveryLine := by
  refine ⟨fun depths s => ⟨eventEnd (scanEvent depths s), rfl, ?_, fun n l depth hl hd => ?_, ?_⟩,
    fun depths s hok => ?_⟩
  · rw [(eventEnd_frame _).1, scanEvent_capture]
    exact scanLines_length _ _ _
  · have hline : (eventEnd (scanEvent depths s)).capture.lines[n]? = some (scanLine s.capture.debounce l depth) := by
      rw [(eventEnd_frame _).1, scanEvent_capture]
      simp [scanLines_getElem?, hl, List.getD_eq_getElem?_getD, hd]
    intro disagree
    refine ⟨fun hu => ?_, fun he hu => ?_⟩
    · rw [hline, scanLine_unsampled depth hu]
    · obtain ⟨hagrees, hcounts, hflips⟩ := scanLine_sampled (debounce := s.capture.debounce) (depth := depth) he hu
      refine ⟨fun h => ?_, fun h hc => ?_, fun h hc => ?_⟩
      · rw [hline, hagrees (mt (disagrees_iff l depth).mp h)]
      · rw [hline, hcounts ((disagrees_iff l depth).mpr h) hc]
      · rw [hline, hflips ((disagrees_iff l depth).mpr h) hc]
  · refine eq_of_scan ?_ (by simp) (by simp) ?_ (by simp)
    · have hlines : (scanEvent depths s).capture.lines
          = scanLines s.capture.debounce s.capture.lines depths := by rw [scanEvent_capture]
      rw [(eventEnd_frame _).1, hlines]
      exact scanEvent_capture depths s
    · rw [eventEnd_trans, scanEvent_trans]
  · intro after
    refine ⟨holdGroup_moved _ _ (by rw [marksReported_eq]; simpa using hok), fun hidle hkeys => ?_⟩
    have hstate : (holdReported depths s).capture.assembler.state = .idle := by
      rw [holdReported_capture]
      exact hidle
    rw [exec_scan, scanEvent_eq, (assemble_idle hstate).1 hkeys]

end Sys2Proof.Machine
end

section
/-! PROOFS. The opening, joining and closing of strokes at a scan and at the stroke limit, and the Wake Detector
(R11 to R18, R148, R150, R153 to R155). -/

namespace Sys2Proof.Machine

/-! ### The opening of a stroke (R11, R148, R150) -/

/-- The part with a stroke opened at the present tick. -/
def strokeOpened (keys : Chord) (stamp : Option Stamp) (destination : Destination) (u : State) : State :=
  { u with capture := { u.capture with assembler := {
      state := .gathering, chord := keys, openTick := u.time.tick, stamp := stamp, limit := u.capture.strokeLimit,
      destination := destination } } }

theorem openStroke_doze {keys : Chord} {u : State} (h : u.power.part = .doze) :
    openStroke keys u = strokeOpened keys none .wake u := by
  rw [openStroke_eq, if_pos h, openedStroke, if_pos h, if_pos h]
  rfl

theorem openStroke_awake {keys : Chord} {u : State} (h : u.power.part ≠ .doze) :
    openStroke keys u = reportOpening (strokeOpened keys (some (stampNow u)) .log u) := by
  rw [openStroke_eq, if_neg h, openedStroke, if_neg h, if_neg h]
  rfl

theorem reportOpening_ready {s : State} (h : s.power.part = .ready) :
    reportOpening s = { s with power := { s.power with
      idleTimer := if s.power.idleDelay = 0 then none else some s.time.tick } } := by
  unfold reportOpening
  rw [h]
  rfl

theorem reportOpening_stays {s : State} (h : s.power.part = .settling) (hr : s.power.reason ≠ .idle) :
    reportOpening s = s := by
  unfold reportOpening
  rw [h]
  cases hreason : s.power.reason with
  | idle => exact absurd hreason hr
  | request => rfl
  | none => rfl

theorem reportOpening_returns {s : State} (h : s.power.part = .settling) (hr : s.power.reason = .idle) :
    reportOpening s = raiseNotice { kind := .power, fields := [0, 0, 0] }
      { s with
        power := { s.power with
          part := .ready, reason := .none, idleTimer := if s.power.idleDelay = 0 then none else some s.time.tick },
        trans := { s.trans with settleAll := false } } := by
  unfold reportOpening
  rw [h, hr]
  rfl

theorem dozeReady_gathering {t : State} (h : t.capture.assembler.state = .gathering) : dozeReady t = false := by
  simp [dozeReady, h]

/-- What the opening of a stroke makes of Power Control, by the part state and the doze reason. -/
theorem openStroke_cases {keys : Chord} {u : State} {p : Power} {x : Translator} {time : TimeFollower}
    (hp : u.power = p) (hx : u.trans = x) (ht : u.time = time) :
    let opened := strokeOpened keys (some (stampNow u)) .log u
    let timer : Option Tick := if p.idleDelay = 0 then none else some time.tick
    (p.part = .ready → openStroke keys u = { opened with power := { p with idleTimer := timer } }) ∧
    (p.part = .settling → p.reason ≠ .idle → openStroke keys u = opened) ∧
    (p.part = .settling → p.reason = .idle →
      openStroke keys u = raiseNotice { kind := .power, fields := [0, 0, 0] }
        { opened with
          power := { p with part := .ready, reason := .none, idleTimer := timer },
          trans := { x with settleAll := false } }) ∧
    (p.part = .doze → openStroke keys u = strokeOpened keys none .wake u) := by
  subst hp hx ht
  refine ⟨fun h => ?_, fun h hr => ?_, fun h hr => ?_, openStroke_doze⟩
  · rw [openStroke_awake (by simp [h])]
    exact reportOpening_ready h
  · rw [openStroke_awake (by simp [h])]
    exact reportOpening_stays h hr
  · rw [openStroke_awake (by simp [h])]
    exact reportOpening_returns h hr

theorem scanEvent_opens {depths : List Byte} {s : State} (h : s.capture.assembler.state = .idle) :
    (pressedKeys (scanLines s.capture.debounce s.capture.lines depths) = 0 →
      scanEvent depths s = holdReported depths s) ∧
    (pressedKeys (scanLines s.capture.debounce s.capture.lines depths) ≠ 0 →
      scanEvent depths s = openStroke (pressedKeys (scanLines s.capture.debounce s.capture.lines depths))
        (holdReported depths s)) := by
  have hstate : (holdReported depths s).capture.assembler.state = .idle := by
    rw [holdReported_capture]
    exact h
  rw [scanEvent_eq]
  exact assemble_idle hstate

theorem strokeOpened_holdReported (keys : Chord) (stamp : Option Stamp) (destination : Destination)
    (depths : List Byte) (s : State) :
    strokeOpened keys stamp destination (holdReported depths s)
      = { holdReported depths s with capture := { (holdReported depths s).capture with assembler := {
          state := .gathering, chord := keys, openTick := s.time.tick, stamp := stamp,
          limit := s.capture.strokeLimit, destination := destination } } } := by
  have htime : (holdReported depths s).time.tick = s.time.tick := by simp
  have hlimit : (holdReported depths s).capture.strokeLimit = s.capture.strokeLimit := by rw [holdReported_capture]
  unfold strokeOpened
  rw [htime, hlimit]

/-- Settles O8. -/
theorem scanOpensAStroke : Obligations.ScanOpensAStroke := by
  refine ⟨fun depths s hr hidle => ?_, fun depths s hidle => ?_⟩
  · intro after hm hh opened timer
    obtain ⟨hnone, hsome⟩ := scanEvent_opens (depths := depths) hidle
    have hquiet := holdReported_quiet hm hh
    rw [hquiet] at hnone hsome
    refine ⟨fun hk => ?_, fun hk => ?_⟩
    · rw [exec_scan, hnone hk]
      exact congrArg Host.Outcome.next (eventEnd_same hr rfl rfl rfl rfl hr.1)
    obtain ⟨hready, hstays, hreturns, hdoze⟩ := openStroke_cases (keys := pressedKeys after)
      (u := { s with capture := { s.capture with lines := after } }) rfl rfl rfl
    refine ⟨fun hp => ?_, fun hp hreason => ?_, fun hp hreason => ?_, fun hp => ?_⟩
    · rw [exec_scan, hsome hk, hready hp]
      exact congrArg Host.Outcome.next (eventEnd_same hr rfl rfl rfl rfl (dozeReady_gathering rfl))
    · rw [exec_scan, hsome hk, hstays hp (by simp [hreason])]
      exact congrArg Host.Outcome.next (eventEnd_same hr rfl rfl rfl rfl (dozeReady_gathering rfl))
    · rw [exec_scan, hsome hk, hreturns hp hreason]
      exact congrArg Host.Outcome.next (eventEnd_raiseNotice hr _ rfl rfl (dozeReady_gathering rfl))
    · rw [exec_scan, hsome hk, hdoze hp]
      exact congrArg Host.Outcome.next (eventEnd_same hr rfl rfl rfl rfl (dozeReady_gathering rfl))
  · intro keys u opened timer became
    obtain ⟨hnone, hsome⟩ := scanEvent_opens (depths := depths) hidle
    have hbecame {t : State} (h : scanEvent depths s = t) : became t := by rw [← h]; rfl
    refine ⟨fun hk => hbecame (hnone hk), fun hk => ?_⟩
    have hopened (stamp : Option Stamp) (destination : Destination) :
        strokeOpened keys stamp destination u = opened stamp destination :=
      strokeOpened_holdReported keys stamp destination depths s
    obtain ⟨htime, _, htrans, hpower, _⟩ := holdReported_frame depths s
    have hstamp : stampNow u = stampNow s := by simp only [stampNow, u, htime]
    obtain ⟨hready, hstays, hreturns, hdoze⟩ := openStroke_cases (keys := keys) hpower htrans htime
    rw [show stampNow (holdReported depths s) = _ from hstamp, hopened] at hready hstays hreturns
    refine ⟨fun hp => hbecame ((hsome hk).trans (hready hp)), fun hp hreason => hbecame ((hsome hk).trans (hstays hp hreason)),
      fun hp hreason => hbecame ((hsome hk).trans (hreturns hp hreason)),
      fun hp => hbecame ((hsome hk).trans ((hdoze hp).trans (hopened _ _)))⟩

/-! ### Keys that join, and the close (R12, R13, R15, R16) -/

theorem holdReported_assembler (depths : List Byte) (s : State) :
    (holdReported depths s).capture.assembler = s.capture.assembler := by
  rw [holdReported_capture]

theorem closeStroke_eq {u : State} {a : Assembler} {now : Tick} (ha : u.capture.assembler = a)
    (ht : u.time.tick = now) :
    closeStroke u = handStroke a (((now - a.openTick).toNat * 1000 + 2048) / 4096) false
      (setAssembler { a with state := .idle, chord := 0 } u) := by
  subst ha ht
  rfl

theorem scanEvent_joins {depths : List Byte} {s : State} (h : s.capture.assembler.state = .gathering) :
    let keys := pressedKeys (scanLines s.capture.debounce s.capture.lines depths)
    (keys ≠ 0 → scanEvent depths s = setAssembler
      { s.capture.assembler with
        chord := s.capture.assembler.chord ||| (keys &&& ~~~(pressedKeys s.capture.lines)) } (holdReported depths s)) ∧
    (keys = 0 → scanEvent depths s = handStroke s.capture.assembler
      (((s.time.tick - s.capture.assembler.openTick).toNat * 1000 + 2048) / 4096) false
      (setAssembler { s.capture.assembler with state := .idle, chord := 0 } (holdReported depths s))) := by
  intro keys
  have ha := holdReported_assembler depths s
  obtain ⟨hclose, hjoin⟩ := assemble_gathering (u := holdReported depths s) (keys := keys)
    (became := keys &&& ~~~(pressedKeys s.capture.lines)) (by rw [ha, h])
  rw [ha] at hjoin
  rw [scanEvent_eq]
  exact ⟨fun hk => hjoin hk, fun hk => (hclose hk).trans (closeStroke_eq ha (by simp))⟩

theorem scanEvent_drains {depths : List Byte} {s : State} (h : s.capture.assembler.state = .drain) :
    let keys := pressedKeys (scanLines s.capture.debounce s.capture.lines depths)
    (keys ≠ 0 → scanEvent depths s = holdReported depths s) ∧
    (keys = 0 → scanEvent depths s
      = setAssembler { s.capture.assembler with state := .idle } (holdReported depths s)) := by
  intro keys
  have ha := holdReported_assembler depths s
  obtain ⟨hend, hstay⟩ := assemble_drain (u := holdReported depths s) (keys := keys)
    (became := keys &&& ~~~(pressedKeys s.capture.lines)) (by rw [ha, h])
  rw [ha] at hend
  rw [scanEvent_eq]
  exact ⟨fun hk => hstay hk, fun hk => hend hk⟩

/-- A STROKE record waits for the Translator, so the passage to DOZE is not due. -/
theorem eventEnd_strokeRecord {s t : State} (hr : Rested s) (hok : LogOk t.log) (hj : t.journal = s.journal)
    (hh : t.holds = s.holds) (b : RecordBody) :
    eventEnd (countOne .strokes (appendRecord b t)) = driveAttention (countOne .strokes (appendRecord b t)) := by
  refine eventEnd_rested hr (by simpa using hj) (by simpa using hh) (dozeReady_of_waiting ?_)
  simpa using appendRecord_translator_waits b hok

/-- Settles O9. -/
theorem scanJoinsAndClosesTheStroke : Obligations.ScanJoinsAndClosesTheStroke := by
  refine ⟨fun depths s hr => ?_, fun depths s => ?_⟩
  · intro a before after hm hh scanned
    have hquiet := holdReported_quiet hm hh
    refine ⟨fun hstate => ?_, fun hstate => ?_⟩
    · obtain ⟨hjoins, hcloses⟩ := scanEvent_joins (depths := depths) hstate
      rw [hquiet] at hjoins hcloses
      refine ⟨fun hk => ?_, fun stamp hk hd hs hok => ?_⟩
      · rw [exec_scan, hjoins hk]
        exact congrArg Host.Outcome.next (eventEnd_same hr rfl rfl rfl rfl (dozeReady_gathering hstate))
      · rw [exec_scan, hcloses hk, handStroke_log _ _ _ hd hs]
        exact congrArg Host.Outcome.next (eventEnd_strokeRecord (t := scanned { a with state := .idle, chord := 0 })
          hr hok rfl rfl _)
    · obtain ⟨hstays, hends⟩ := scanEvent_drains (depths := depths) hstate
      rw [hquiet] at hstays hends
      refine ⟨fun hk => ?_, fun hk hp => ?_⟩
      · rw [exec_scan, hstays hk]
        exact congrArg Host.Outcome.next (eventEnd_same hr rfl rfl rfl rfl hr.1)
      · rw [exec_scan, hends hk]
        exact congrArg Host.Outcome.next (eventEnd_same hr rfl rfl rfl rfl (dozeReady_of_part hp))
  · intro a before keys u scanned became
    have hbecame {t : State} (h : scanEvent depths s = t) : became t := by rw [← h]; rfl
    refine ⟨fun hstate => ?_, fun hstate => ?_⟩
    · obtain ⟨hjoins, hcloses⟩ := scanEvent_joins (depths := depths) hstate
      exact ⟨fun hk => hbecame (hjoins hk), fun hk => handStroke_handed (hbecame (hcloses hk))⟩
    · obtain ⟨hstays, hends⟩ := scanEvent_drains (depths := depths) hstate
      exact ⟨fun hk => hbecame (hstays hk), fun hk => hbecame (hends hk)⟩

/-! ### The stroke limit (R14) -/

theorem strokeLimitDue_iff (s : State) :
    strokeLimitDue s = true ↔ s.capture.assembler.state = .gathering ∧
      s.capture.assembler.limit * 4096 ≤ (s.time.tick - s.capture.assembler.openTick).toNat * 1000 := by
  simp only [strokeLimitDue, Bool.and_eq_true, beq_iff_eq, elapsed_iff]

theorem strokeLimitEvent_due {s : State} (h : strokeLimitDue s = true) :
    strokeLimitEvent s = handStroke s.capture.assembler s.capture.assembler.limit true
      { countOne .heldStrokes s with
        capture := { s.capture with assembler := { s.capture.assembler with state := .drain, chord := 0 } } } := by
  have hcapture : (countOne .heldStrokes s).capture = s.capture := by simp
  unfold strokeLimitEvent
  rw [if_pos h]
  dsimp only [setAssembler]
  rw [hcapture]

theorem exec_strokeLimit (s : State) : exec .strokeLimitExpiry s = .next (eventEnd (strokeLimitEvent s)) := rfl

/-- Settles O10. -/
theorem strokeLimitClosesTheStroke : Obligations.StrokeLimitClosesTheStroke := by
  refine ⟨fun s hr => ?_, fun s => ?_⟩
  · intro a expired
    refine ⟨fun hnot => ?_, fun stamp hstate hexpired hd hs hok => ?_⟩
    · have hdue : ¬strokeLimitDue s = true := fun hd => by
        obtain ⟨hstate, hexpired⟩ := (strokeLimitDue_iff s).mp hd
        exact hnot.elim (fun h => h hstate) (fun h => h hexpired)
      rw [exec_strokeLimit, show strokeLimitEvent s = s from if_neg hdue, eventEnd_of_rested hr]
    · intro counted
      rw [exec_strokeLimit, strokeLimitEvent_due ((strokeLimitDue_iff s).mpr ⟨hstate, hexpired⟩),
        handStroke_log _ _ _ hd hs]
      refine congrArg Host.Outcome.next (eventEnd_strokeRecord hr ?_ ?_ ?_ _)
      · simpa using hok
      · simp
      · simp
  · intro a hstate hexpired
    refine handStroke_handed (congrArg (fun t => Host.Outcome.next (eventEnd t)) ?_)
    exact strokeLimitEvent_due ((strokeLimitDue_iff s).mpr ⟨hstate, hexpired⟩)

/-! ### The gap timer and the strokes of the Wake Detector (R153 to R155) -/

theorem gapDue_iff (s : State) :
    gapDue s = true ↔ s.wake.gapTimer = true ∧
      s.wake.gap * 4096 ≤ (s.time.tick - s.wake.lastMatch).toNat * 1000 := by
  rw [gapDue, Bool.and_eq_true, elapsed_iff]

theorem gapExpires_held {s : State} (hg : s.capture.assembler.state = .gathering)
    (hd : s.capture.assembler.destination = .wake) :
    gapExpires s = { s with wake := { s.wake with gapTimer := false, heldOver := true } } :=
  if_pos (by simp [hg, hd])

theorem gapExpires_drops {s : State}
    (h : s.capture.assembler.state ≠ .gathering ∨ s.capture.assembler.destination ≠ .wake) :
    gapExpires s = countEvents .bumps s.wake.count { s with wake := { s.wake with count := 0, gapTimer := false } } :=
  if_neg (by obtain h | h := h <;> simp [h])

theorem exec_gapTimer (s : State) : exec .gapTimerExpiry s = .next (eventEnd (gapEvent s)) := rfl

/-- The Wake Detector leaves the part in DOZE, or READY. -/
theorem judgeWake_part (chord : Chord) (openTick : Tick) {s : State} (h : s.power.part = .doze) :
    (judgeWake chord openTick s).power.part ≠ .settling := by
  have hmatch (m : Nat) {t : State} (ht : t.power.part = .doze) :
      (matchStroke m openTick t).power.part ≠ .settling := by
    unfold matchStroke
    split
    · simp [wakePart]
    · split <;> simp [ht]
  unfold judgeWake
  dsimp only
  split
  · split
    · exact hmatch 1 h
    · split
      · exact hmatch _ h
      · exact hmatch 1 (by simpa using h)
  · simp [h]

/-- Settles O45. -/
theorem wakeDetectorJudgesStrokes : Obligations.WakeDetectorJudgesStrokes := by
  intro s hr a w beyond
  refine ⟨fun hnot => ?_, fun htimer hgap => ?_, fun depths => ?_⟩
  · have hdue : ¬gapDue s = true := fun hd => by
      obtain ⟨htimer, hgap⟩ := (gapDue_iff s).mp hd
      exact hnot.elim (fun h => by simp [w, htimer] at h) (fun h => h hgap)
    rw [exec_gapTimer, show gapEvent s = s from if_neg hdue, eventEnd_of_rested hr]
  · have hevent : gapEvent s = gapExpires s := if_pos ((gapDue_iff s).mpr ⟨htimer, hgap⟩)
    refine ⟨fun hstate hd => ?_, fun hnot => ?_⟩
    · rw [exec_gapTimer, hevent, gapExpires_held hstate hd]
      exact congrArg Host.Outcome.next (eventEnd_same hr rfl rfl rfl rfl hr.1)
    · rw [exec_gapTimer, hevent, gapExpires_drops hnot]
      refine congrArg Host.Outcome.next (eventEnd_rested hr (by simp) (by simp) ?_)
      have hready := hr.1
      simpa [dozeReady, loadPaused] using hready
  · intro after hm hh hk hstate hd closed
    obtain ⟨_, hcloses⟩ := scanEvent_joins (depths := depths) hstate
    have hclosed := hcloses hk
    rw [holdReported_quiet hm hh] at hclosed
    refine ⟨fun hp => ?_, fun hp => ?_, fun hp => ?_⟩
    · rw [exec_scan, hclosed, handStroke_discarded _ _ hd (by simp [setAssembler, hp])]
      exact congrArg Host.Outcome.next (eventEnd_same hr rfl rfl rfl rfl (dozeReady_of_part (by simp [setAssembler, hp])))
    · rw [exec_scan, hclosed, handStroke_discarded _ _ hd (by simp [setAssembler, hp])]
      rfl
    · rw [handStroke_wake _ _ hd (by simp [setAssembler, hp])] at hclosed
      have hnext : exec (.scan depths) s = .next (driveAttention (judgeWake a.chord a.openTick closed)) := by
        rw [exec_scan, hclosed]
        refine congrArg Host.Outcome.next (eventEnd_rested hr (by simp [setAssembler]) (by simp [setAssembler]) ?_)
        exact dozeReady_of_part (judgeWake_part _ _ hp)
      exact judgeWake_judged (becomes := fun t => exec (.scan depths) s = .next (driveAttention t)) hnext

end Sys2Proof.Machine
end

section
/-! PROOFS. LINE SET and LINE TOGGLE (R6 to R8, R21). -/

namespace Sys2Proof.Machine

/-! ### Lines replaced (R7, R13, R16, R21) -/

theorem lastKeyReleased_cases (u : State) :
    (u.capture.assembler.state = .idle → lastKeyReleased u = u) ∧
    (u.capture.assembler.state = .gathering → lastKeyReleased u = closeStroke u) ∧
    (u.capture.assembler.state = .drain →
      lastKeyReleased u = setAssembler { u.capture.assembler with state := .idle } u) := by
  unfold lastKeyReleased
  refine ⟨fun h => ?_, fun h => ?_, fun h => ?_⟩ <;> rw [h]

theorem replaceLines_replaced {becomes : State → Prop} {after : List Line} {s : State}
    (hb : becomes (replaceLines after s)) : LinesReplaced becomes after s := by
  unfold LinesReplaced
  intro before a lined u last assembled
  have ha : u.capture.assembler = a := (holdGroup_sensing _ _ lined).2
  have htick : u.time.tick = s.time.tick := by simp [u, lined]
  have hlast : (pressedKeys before != 0 && pressedKeys after == 0) = true ↔ last := by simp [last]
  have hreported : replaceLines after s
      = if (pressedKeys before != 0 && pressedKeys after == 0) = true then lastKeyReleased u else u := rfl
  obtain ⟨hidle, hgathering, hdrain⟩ := lastKeyReleased_cases u
  rw [ha] at hidle hgathering hdrain
  rw [hreported] at hb
  refine ⟨fun hok => holdGroup_moved _ _ hok, fun hnot => ?_, fun hl hstate => ?_, fun hl hstate => ?_⟩
  · by_cases hl : last
    · rw [if_pos (hlast.mpr hl), hidle (hnot.resolve_left (not_not.mpr hl))] at hb
      exact hb
    · rwa [if_neg (mt hlast.mp hl)] at hb
  · rw [if_pos (hlast.mpr hl), hdrain hstate] at hb
    exact hb
  · rw [if_pos (hlast.mpr hl), hgathering hstate] at hb
    rw [closeStroke_eq ha htick] at hb
    exact handStroke_handed hb

/-! ### Lines of which none is released -/

/-- Two lists of lines differ in lines that are not pressed alone. -/
def SamePressed (before after : List Line) : Prop :=
  List.Forall₂ (fun b a => a = b ∨ (b.pressed = false ∧ a.pressed = false)) before after

theorem SamePressed.keys {before after : List Line} (h : SamePressed before after) :
    pressedKeys after = pressedKeys before ∧ holdPressed after = holdPressed before := by
  have hmap : after.map lineChord = before.map lineChord := by
    induction h with
    | nil => rfl
    | cons hd _ ih =>
      refine congrArg₂ List.cons ?_ ih
      obtain rfl | ⟨hb, ha⟩ := hd
      · rfl
      · rw [lineChord_of_not_pressed ha, lineChord_of_not_pressed hb]
  have hkeys (l : List Line) : pressedKeys l = (l.map lineChord).foldl (fun c x => c ||| x) 0 := by
    rw [List.foldl_map]
    rfl
  refine ⟨by rw [hkeys, hmap, ← hkeys], ?_⟩
  unfold holdPressed
  induction h with
  | nil => rfl
  | cons hd _ ih =>
    rw [List.any_cons, List.any_cons, ih (List.cons.inj hmap).2]
    obtain rfl | ⟨hb, ha⟩ := hd
    · rfl
    · rw [hb, ha, Bool.and_false, Bool.and_false]

theorem replaceLines_same {after : List Line} {s : State} (h : SamePressed s.capture.lines after) :
    replaceLines after s = { s with capture := { s.capture with lines := after } } := by
  obtain ⟨hkeys, hhold⟩ := h.keys
  unfold replaceLines reportReleases
  dsimp only
  rw [hkeys, hhold, holdGroup_same, if_neg (by simp)]

theorem samePressed_set {lines : List Line} {n : Nat} {l new : Line} (hl : lines[n]? = some l)
    (hb : l.pressed = false) (ha : new.pressed = false) : SamePressed lines (lines.set n new) := by
  induction lines generalizing n with
  | nil => exact .nil
  | cons x rest ih =>
    cases n with
    | zero =>
      cases hl
      exact .cons (.inr ⟨hb, ha⟩) (List.forall₂_same.mpr fun _ _ => .inl rfl)
    | succ n => exact .cons (.inl rfl) (ih hl)

theorem samePressed_toggle {set : BitVec 32} {lines : List Line} {n : Nat}
    (h : ∀ i l, lines[i]? = some l → set.getLsbD (n + i) = true → l.pressed = false) :
    SamePressed lines (toggleLines set n lines) := by
  induction lines generalizing n with
  | nil => exact .nil
  | cons x rest ih =>
    refine .cons ?_ (ih fun i l hi hset => h (i + 1) l hi (by rwa [show n + (i + 1) = n + 1 + i by omega]))
    split
    next hset => exact .inr ⟨h 0 x rfl hset, rfl⟩
    next => exact .inl rfl

/-! ### LINE SET (R6, R7) -/

theorem roleOf_none {n : Nat} {function : LineFunction} {key : Option Nat}
    (h : 31 < n ∨ (function = .steno ∧ ∀ k, key = some k → 22 < k)) :
    decide (n ≤ 31) = false ∨ roleOf function key = none := by
  obtain h | ⟨rfl, hk⟩ := h
  · exact .inl (by simpa using h)
  · right
    cases key with
    | none => rfl
    | some k => exact if_neg (Nat.not_le.mpr (hk k rfl))

theorem roleOf_some {function : LineFunction} {key : Option Nat} {role : LineRole}
    (h : (function = .steno ∧ (∃ k, k ≤ 22 ∧ key = some k ∧ role = .steno k)) ∨
      (function = .mark ∧ key = none ∧ role = .mark) ∨ (function = .hold ∧ key = none ∧ role = .hold) ∨
      (function = .unused ∧ key = none ∧ role = .unused)) : roleOf function key = some role := by
  obtain ⟨rfl, k, hk, rfl, rfl⟩ | ⟨rfl, rfl, rfl⟩ | ⟨rfl, rfl, rfl⟩ | ⟨rfl, rfl, rfl⟩ := h
  · exact if_pos hk
  · rfl
  · rfl
  · rfl

theorem lineSetOwner_refused {n : Nat} {function : LineFunction} {key : Option Nat} (press release : Option Nat)
    (s : State) (h : decide (n ≤ 31) = false ∨ roleOf function key = none) :
    lineSetOwner n function key press release s = (s, refuse .outOfRange) := by
  unfold lineSetOwner
  obtain h | h := h
  · rw [h]
  · rw [h]
    cases decide (n ≤ 31) <;> rfl

theorem lineSetOwner_taken {n : Nat} {function : LineFunction} {key press release : Option Nat} {s : State}
    {l : Line} {role : LineRole} (hn : n ≤ 31) (hl : s.capture.lines[n]? = some l)
    (hrole : roleOf function key = some role) :
    lineSetOwner n function key press release s
      = (replaceLines (s.capture.lines.set n (configureLine l role press release)) s,
         answerAdjusted (levelsAdjusted l press release) (lineFields n (configureLine l role press release))) := by
  have hline : lineAt s.capture.lines n = l := by simp [lineAt, List.getD_eq_getElem?_getD, hl]
  unfold lineSetOwner
  rw [decide_eq_true hn, hrole, hline]

theorem pressTaken_eq {l : Line} {press : Option Nat} (hp : ∀ v, press = some v → v ≤ 255) :
    clampField 1 255 l.press press = (if press = some 0 then 1 else press.getD l.press) ∧
    (clamped 1 255 press = true ↔ press = some 0) := by
  cases press with
  | none => exact ⟨rfl, by simp [clamped]⟩
  | some v =>
    have hv : v ≤ 255 := hp v rfl
    by_cases h0 : v = 0
    · subst h0
      exact ⟨rfl, by simp [clamped, clampTo]⟩
    · have htaken : clampTo 1 255 v = v := by
        unfold clampTo
        omega
      exact ⟨by simp [clampField, htaken, h0], by simp [clamped, htaken, h0]⟩

/-- The line and the status of a LINE SET whose levels are in range. -/
theorem configureLine_eq {l : Line} {role : LineRole} {press release : Option Nat}
    (hp : ∀ v, press = some v → v ≤ 255) :
    let p := if press = some 0 then 1 else press.getD l.press
    let asked := release.getD l.release
    configureLine l role press release
      = { l with role := role, press := p, release := min asked p, pressed := false, count := 0 } ∧
    (levelsAdjusted l press release = true ↔ press = some 0 ∨ p < asked) := by
  intro p asked
  obtain ⟨htaken, hclamped⟩ := pressTaken_eq (l := l) hp
  unfold configureLine levelsAdjusted
  rw [htaken]
  exact ⟨rfl, by rw [Bool.or_eq_true, hclamped, decide_eq_true_iff]⟩

/-- Settles O11. -/
theorem lineSetConfiguresALine : Obligations.LineSetConfiguresALine := by
  intro n function key press release s hr ht
  have hstatus {b : Bool} {p : Prop} [Decidable p] (f : List Byte) (h : b = true ↔ p) :
      (answerAdjusted b f).status = if p then .adjusted else .ok := if_congr h rfl rfl
  refine ⟨fun h => ?_, fun l role hn hl hup hrole hp _ _ => ?_, fun l role hn hl hrole hp _ _ => ?_⟩
  · exact congrArg Host.Outcome.next (takeRequest_refused hr ht (lineSetOwner_refused press release s (roleOf_none h)))
  · intro p asked new
    obtain ⟨hline, hadjusted⟩ := configureLine_eq (l := l) (role := role) (release := release) hp
    have hnew : configureLine l role press release = new := by
      rw [hline]
      simp [new, p, asked, hup]
    have howner := lineSetOwner_taken (press := press) (release := release) hn hl (roleOf_some hrole)
    rw [hnew, replaceLines_same (samePressed_set (new := new) hl hup hup)] at howner
    refine congrArg Host.Outcome.next ((takeRequest_quiet hr ht howner rfl rfl rfl rfl hr.1).trans ?_)
    rw [hstatus _ hadjusted]
    rfl
  · intro p asked new
    obtain ⟨hline, hadjusted⟩ := configureLine_eq (l := l) (role := role) (release := release) hp
    have hnew : configureLine l role press release = new := hline
    have howner := lineSetOwner_taken (press := press) (release := release) hn hl (roleOf_some hrole)
    rw [hnew] at howner
    refine replaceLines_replaced (congrArg Host.Outcome.next ((takeRequest_taken ht).trans ?_))
    rw [howner, hstatus _ hadjusted]
    rfl

/-! ### LINE TOGGLE (R8) -/

theorem toggleLines_eq (set : BitVec 32) (n : Nat) (lines : List Line) :
    toggleLines set n lines = lines.mapIdx (fun i l =>
      if set.getLsbD (n + i) then { l with enabled := !l.enabled, pressed := false, count := 0 } else l) := by
  induction lines generalizing n with
  | nil => rfl
  | cons x rest ih =>
    rw [toggleLines, ih, List.mapIdx_cons]
    simp only [Nat.add_right_comm, ← Nat.add_assoc, Nat.add_zero]
    rfl

theorem testBit_bits (l : List Bool) (n : Nat) : (bits l).testBit n = l.getD n false := by
  induction l generalizing n with
  | nil => simp [bits]
  | cons b rest ih =>
    cases n with
    | zero => cases b <;> simp [bits, Nat.testBit_zero, Nat.add_mod]
    | succ n =>
      have hhalf : ((if b = true then 1 else 0) + 2 * bits rest) / 2 = bits rest := by split <;> omega
      rw [bits, Nat.testBit_succ, hhalf, ih]
      rfl

/-- Settles O12. -/
theorem lineToggleFlipsTheSet : Obligations.LineToggleFlipsTheSet := by
  intro set s hr ht a before after
  have hafter : toggleLines set 0 before = after := by
    rw [toggleLines_eq]
    simp only [Nat.zero_add]
    rfl
  have howner : lineToggleOwner set s = (replaceLines after s, answerOk (num 4 (enabledSet after))) := by
    rw [← hafter]
    rfl
  have hreplaced : LinesReplaced
      (fun t => exec (.lineToggle .machine set) s
        = .next (eventEnd (pushReply .machine (.answer 19 .ok (num 4 (enabledSet after))) t))) after s := by
    refine replaceLines_replaced (congrArg Host.Outcome.next ((takeRequest_taken ht).trans ?_))
    rw [howner]
    rfl
  refine ⟨enabledSet after, fun n l hl => ?_, fun hnone => ?_, fun stamp hpressed hk hh hstate hd hs hok => ?_, hreplaced⟩
  · unfold enabledSet
    rw [testBit_bits]
    simp [List.getD_eq_getElem?_getD, hl]
  · have hsame : SamePressed before after := by
      rw [← hafter]
      exact samePressed_toggle fun i l hl hset => hnone i l hl (by simpa using hset)
    rw [replaceLines_same hsame] at howner
    exact congrArg Host.Outcome.next (takeRequest_quiet hr ht howner rfl rfl rfl rfl hr.1)
  · obtain ⟨_, _, _, hhanded⟩ := hreplaced
    have hgroup := (hhanded ⟨hpressed, hk⟩ hstate).1 hd stamp hs
    rw [show holdPressed after = holdPressed s.capture.lines from hh, holdGroup_same] at hgroup
    rw [hgroup]
    refine congrArg Host.Outcome.next ((eventEnd_answered (dozeReady_of_waiting ?_) _ _).trans ?_)
    · simpa using appendRecord_translator_waits _ (s := { s with capture := { s.capture with
        lines := after, assembler := { a with state := .idle, chord := 0 } } }) hok
    · rw [reachAll_congr (t := countOne .strokes _) (by simp) (by simp) hr.2.1]

end Sys2Proof.Machine
end

section
/-! PROOFS. A lookup in both layers (R60 to R64, R182). -/

namespace Sys2Proof.Machine

/-! ### The Job table over the main layer (R60) -/

theorem lookup_absent {d : Dictionary} {key : List Chord} (h : jobSlot d.job key = none) :
    lookup d key = { entry := (searchMain d key).entry.map (fun e => (Layer.main, e)),
                     extendable := (searchMain d key).extendable } := by
  unfold lookup
  rw [h]
  generalize searchMain d key = main
  obtain ⟨entry, extends_⟩ := main
  cases entry <;> rfl

theorem lookup_real {d : Dictionary} {key : List Chord} {x : JobSlot} {e : Entry} (h : jobSlot d.job key = some x)
    (he : x.entry = some e) :
    lookup d key = { entry := some (.job, e),
                     extendable := decide (0 < x.extensions) || (searchMain d key).extendable } := by
  unfold lookup
  rw [h]
  simp only [Option.bind_some, he]

theorem lookup_unreal {d : Dictionary} {key : List Chord} {x : JobSlot} (h : jobSlot d.job key = some x)
    (he : x.entry = none) :
    lookup d key = { entry := (searchMain d key).entry.map (fun e => (Layer.main, e)),
                     extendable := decide (0 < x.extensions) || (searchMain d key).extendable } := by
  unfold lookup
  rw [h]
  simp only [Option.bind_some, he]
  generalize searchMain d key = main
  obtain ⟨entry, extends_⟩ := main
  cases entry <;> rfl

/-! ### The slots of the main layer (R62 to R64) -/

theorem recordCodes_iff (m : List Host.Cell) (n : Nat) (key : List Chord) :
    recordCodes m n key.length = key.map (fun c => c.toNat) ↔
      ∀ (k : Nat) (c : Chord), key[k]? = some c → readNumber m (n + 3 * k) 3 = c.toNat := by
  induction key generalizing n with
  | nil => simp [recordCodes]
  | cons c rest ih =>
    rw [List.length_cons, recordCodes, List.map_cons, List.cons.injEq, ih]
    refine ⟨fun ⟨h0, hrest⟩ k x hx => ?_, fun h => ⟨h 0 c rfl, fun k x hx => ?_⟩⟩
    · cases k with
      | zero =>
        cases hx
        exact h0
      | succ k => rw [show n + 3 * (k + 1) = n + 3 + 3 * k by omega, hrest k x hx]
    · rw [← h (k + 1) x hx, show n + 3 * (k + 1) = n + 3 + 3 * k by omega]

theorem slotMatches_iff (m : List Host.Cell) (record : Nat) (key : List Chord) :
    slotMatches m record key = true ↔
      record + 29 ≤ regionLength m ∧ 1 ≤ key.length ∧ key.length ≤ 8 ∧
      readNumber m (imageRegion m + record) 1 = key.length ∧
      ∀ (n : Nat) (c : Chord), key[n]? = some c → readNumber m (imageRegion m + record + 1 + 3 * n) 3 = c.toNat := by
  rw [← recordCodes_iff]
  simp only [slotMatches, Bool.and_eq_true, decide_eq_true_iff, beq_iff_eq]
  constructor
  · rintro ⟨⟨⟨⟨hin, h1⟩, h8⟩, hlen⟩, hcodes⟩
    rw [hlen] at h1 h8 hcodes
    exact ⟨hin, h1, h8, hlen, hcodes⟩
  · rintro ⟨hin, h1, h8, hlen, hcodes⟩
    rw [hlen]
    exact ⟨⟨⟨⟨hin, h1⟩, h8⟩, rfl⟩, hcodes⟩

/-- What a slot that matches gives. -/
def slotFound (m : List Host.Cell) (slot : Nat) : Found :=
  { entry := entryAt m (readNumber m (imageRegion m + readNumber m (slot + 4) 4 + 25) 4),
    extendable := readByte m (slot + 1) != 0 }

/-- The byte at which the `i`th slot examined stands. -/
def probedSlot (exponent bucket i : Nat) : Nat := 16 + 8 * ((bucket + i) % 2 ^ exponent)

theorem probedSlot_succ (exponent bucket i : Nat) :
    probedSlot exponent ((bucket + 1) % 2 ^ exponent) i = probedSlot exponent bucket (i + 1) := by
  unfold probedSlot
  rw [Nat.mod_add_mod, Nat.add_assoc, Nat.add_comm 1 i]

theorem probeFrom_empty {m : List Host.Cell} {exponent bucket probes : Nat} {key : List Chord}
    (h0 : readByte m (16 + 8 * bucket) = 0) : probeFrom m exponent key (probes + 1) bucket = absent := if_pos h0

theorem probeFrom_match {m : List Host.Cell} {exponent bucket probes : Nat} {key : List Chord}
    (h0 : readByte m (16 + 8 * bucket) ≠ 0)
    (hm : slotMatches m (readNumber m (16 + 8 * bucket + 4) 4) key = true) :
    probeFrom m exponent key (probes + 1) bucket = slotFound m (16 + 8 * bucket) := by
  unfold probeFrom
  exact (if_neg h0).trans (if_pos hm)

theorem probeFrom_next {m : List Host.Cell} {exponent bucket probes : Nat} {key : List Chord}
    (h0 : readByte m (16 + 8 * bucket) ≠ 0)
    (hm : ¬slotMatches m (readNumber m (16 + 8 * bucket + 4) 4) key = true) :
    probeFrom m exponent key (probes + 1) bucket = probeFrom m exponent key probes ((bucket + 1) % 2 ^ exponent) := by
  rw [probeFrom]
  exact (if_neg h0).trans (if_neg hm)

/-- The slots examined, in order, until one is EMPTY or matches. -/
theorem probeFrom_first {m : List Host.Cell} {exponent : Nat} {key : List Chord} (probes bucket : Nat)
    (hb : bucket < 2 ^ exponent) :
    let slot := probedSlot exponent bucket
    let ended (i : Nat) : Prop :=
      readByte m (slot i) = 0 ∨ slotMatches m (readNumber m (slot i + 4) 4) key = true
    (∀ i, i < probes → (∀ k, k < i → ¬ended k) →
      (readByte m (slot i) = 0 → probeFrom m exponent key probes bucket = absent) ∧
      (readByte m (slot i) ≠ 0 → slotMatches m (readNumber m (slot i + 4) 4) key = true →
        probeFrom m exponent key probes bucket = slotFound m (slot i))) ∧
    ((∀ i, i < probes → ¬ended i) → probeFrom m exponent key probes bucket = absent) := by
  induction probes generalizing bucket with
  | zero => exact ⟨fun i hi => absurd hi (by omega), fun _ => rfl⟩
  | succ n ih =>
    intro slot ended
    have hslot : slot 0 = 16 + 8 * bucket := by
      simp only [slot, probedSlot, Nat.add_zero, Nat.mod_eq_of_lt hb]
    have hnext (h : ¬ended 0) : probeFrom m exponent key (n + 1) bucket
        = probeFrom m exponent key n ((bucket + 1) % 2 ^ exponent) := by
      obtain ⟨h0, hm⟩ := not_or.mp h
      rw [hslot] at h0 hm
      exact probeFrom_next h0 hm
    obtain ⟨hfirst, hnone⟩ := ih ((bucket + 1) % 2 ^ exponent) (Nat.mod_lt _ (by omega))
    simp only [probedSlot_succ] at hfirst hnone
    refine ⟨fun i hi hbefore => ?_, fun hall => ?_⟩
    · cases i with
      | zero =>
        rw [hslot]
        exact ⟨probeFrom_empty, probeFrom_match⟩
      | succ i =>
        rw [hnext (hbefore 0 (by omega))]
        exact hfirst i (by omega) fun k hk => hbefore (k + 1) (by omega)
    · rw [hnext (hall 0 (by omega))]
      exact hnone fun i hi => hall (i + 1) (by omega)

/-! ### The search of the main layer (R60, R64) -/

theorem searchMain_closed {d : Dictionary} (key : List Chord) (h : d.layer ≠ .valid) : searchMain d key = absent := by
  unfold searchMain
  cases hlayer : d.layer with
  | valid => exact absurd hlayer h
  | empty | loading | checking | failed => rfl

theorem searchMain_valid {d : Dictionary} {header : ImageHeader} (key : List Chord) (h : d.layer = .valid)
    (hh : d.header = some header) :
    searchMain d key = probeFrom d.memory header.exponent key header.probe (bucketOf header key) := by
  unfold searchMain
  rw [h, hh]

theorem prefixOnly_iff (m : List Host.Cell) (reference : Nat) :
    (decide (reference = prefixOnlyReference) || decide (regionLength m ≤ reference)) = true ↔
      reference = 4294967295 ∨ regionLength m ≤ reference := by
  rw [Bool.or_eq_true, decide_eq_true_iff, decide_eq_true_iff]
  rfl

theorem jobSlot_of_mem {slots : List JobSlot} (h : (slots.map (fun x => x.key)).Nodup) {x : JobSlot} (hx : x ∈ slots) :
    jobSlot slots x.key = some x := by
  obtain ⟨y, hy⟩ := Option.isSome_iff_exists.mp
    (List.find?_isSome (p := fun y : JobSlot => y.key == x.key).mpr ⟨x, hx, beq_self_eq_true _⟩)
  have hkey : y.key = x.key := by simpa using List.find?_some hy
  rw [jobSlot, hy, List.inj_on_of_nodup_map h (List.mem_of_find?_eq_some hy) hx hkey]

/-- Settles O30. -/
theorem lookupSearchesBothLayers : Obligations.LookupSearchesBothLayers := by
  intro d key hnodup m region regionLength_ answers
  have hanswers {found : Found} (hmain : searchMain d key = found) : answers found.entry found.extendable := by
    subst hmain
    refine ⟨fun hnone => ?_, fun x hx hkey => ⟨fun e he => ?_, fun he => ?_⟩⟩
    · exact lookup_absent (List.find?_eq_none.mpr fun x hx => by simpa using hnone x hx)
    · exact lookup_real (hkey ▸ jobSlot_of_mem hnodup hx) he
    · exact lookup_unreal (hkey ▸ jobSlot_of_mem hnodup hx) he
  refine ⟨fun hclosed => hanswers (found := absent) (searchMain_closed key hclosed), fun h hvalid hheader => ?_⟩
  intro hash bucket slot record empty holds entry
  have hbucket : bucketOf h key = bucket := rfl
  have hlt : bucket < 2 ^ h.exponent := Nat.mod_lt _ (Nat.two_pow_pos _)
  have hsearch := searchMain_valid key hvalid hheader
  rw [hbucket] at hsearch
  obtain ⟨hfirst, hnone⟩ := probeFrom_first (m := m) (key := key) h.probe bucket hlt
  have hholds (i : Nat) : slotMatches m (record i) key = true ↔ holds i := slotMatches_iff m (record i) key
  have hended (i : Nat) (hne : ¬empty i ∧ ¬holds i) :
      ¬(readByte m (probedSlot h.exponent bucket i) = 0 ∨
        slotMatches m (readNumber m (probedSlot h.exponent bucket i + 4) 4) key = true) :=
    not_or.mpr ⟨hne.1, mt (hholds i).mp hne.2⟩
  refine ⟨fun i hi hbefore => ⟨fun he => ?_, fun he hm => ?_⟩, fun hall => ?_⟩
  · exact hanswers (found := absent) (hsearch.trans ((hfirst i hi fun k hk => hended k (hbefore k hk)).1 he))
  · have hfound := hanswers (hsearch.trans
      ((hfirst i hi fun k hk => hended k (hbefore k hk)).2 he ((hholds i).mpr hm)))
    have hentry : (slotFound m (slot i)).entry = entry i := if_congr (prefixOnly_iff m _) rfl rfl
    have hextends : (slotFound m (slot i)).extendable = decide (readByte m (slot i + 1) ≠ 0) := by
      rw [slotFound, bne, decide_not]
      rfl
    rw [← hentry, ← hextends]
    exact hfound
  · exact hanswers (found := absent) (hsearch.trans (hnone fun i hi => hended i (hall i hi)))

end Sys2Proof.Machine
end

section
/-! PROOFS. The transmitters: what goes out next, and the end of a frame (R32, R122, R174). -/

namespace Sys2Proof.Machine

/-! ### The message begun (R174) -/

theorem setSending_setPort (port : Port) (x : Option Sending) (a : PortState) (t : State) :
    setSending port x (t.setPort port a) = t.setPort port { a with sending := x } := by
  cases port <;> rfl

/-- The frame of a message on a port. -/
def framed (port : Port) (s : State) (m : Byte × List Byte) : Sending :=
  { frame := buildFrame m.1 (portBody port s m.2), sent := 0 }

theorem beginMessage_chosen {port : Port} {s t : State} {m : Byte × List Byte} {a : PortState}
    (hfree : (s.port port).sending = none) (hc : chooseMessage port s = some (m, t.setPort port a)) :
    beginMessage port s = t.setPort port { a with sending := some (framed port s m) } := by
  unfold beginMessage
  rw [hfree, hc]
  exact setSending_setPort _ _ _ _

theorem beginMessage_quiet {port : Port} {s : State} (hc : chooseMessage port s = none) : beginMessage port s = s := by
  unfold beginMessage
  rw [hc]
  cases (s.port port).sending <;> rfl

theorem beginMessage_busy {port : Port} {s : State} (h : (s.port port).sending ≠ none) : beginMessage port s = s := by
  obtain ⟨x, hx⟩ := Option.ne_none_iff_exists'.mp h
  unfold beginMessage
  rw [hx]

/-! ### The choice (R174) -/

theorem chooseMessage_answer {port : Port} {s : State} {r : Reply} {rest : List Reply}
    (h : (s.port port).answers = r :: rest) :
    chooseMessage port s = some (replyMessage r, s.setPort port { s.port port with answers := rest }) := by
  unfold chooseMessage
  rw [h]
  rfl

theorem chooseMessage_notice {port : Port} {s : State} {n : Notice} {rest : List Notice}
    (h : (s.port port).answers = []) (hn : (s.port port).notices = n :: rest) :
    chooseMessage port s = some (noticeMessage n, s.setPort port { s.port port with notices := rest }) := by
  unfold chooseMessage
  rw [h, hn]
  rfl

theorem chooseMessage_stream {port : Port} {s : State} (h : (s.port port).answers = [])
    (hn : (s.port port).notices = []) : chooseMessage port s = streamChoice port s := by
  unfold chooseMessage
  rw [h, hn]

/-- The port's reader is the one of a name. -/
theorem ownReader_eq_some_iff (port : Port) (name : ReaderName) :
    ownReader port = some name ↔ (port = .machine ∧ name = .machine) ∨ (port = .station ∧ name = .station) := by
  cases port <;> cases name <;> simp [ownReader]

theorem readerChoice_some {port : Port} {name : ReaderName} {s : State} {r : LogRecord}
    (hp : ownReader port = some name) (hr : readerOffer s.log name = some r) :
    readerChoice port s = some ((130, strokeBody (s.log.reader name).lost r),
      (s.setReader name (passRecord (s.log.reader name))).setPort port { s.port port with turn := .listener }) := by
  unfold readerChoice
  rw [hp]
  dsimp only
  rw [hr]
  rfl

theorem readerChoice_none {port : Port} {s : State}
    (h : ∀ name, ownReader port = some name → readerOffer s.log name = none) : readerChoice port s = none := by
  unfold readerChoice
  cases hp : ownReader port with
  | none => rfl
  | some name =>
    dsimp only
    rw [h name hp]

theorem listenerChoice_some {port : Port} {s : State} {m : Byte × List Byte} {l : Listener}
    (h : listenerOffer s.journal (s.listener port) = some (m, l)) :
    listenerChoice port s = some (m, (s.setListener port l).setPort port { s.port port with turn := .stroke }) := by
  unfold listenerChoice
  rw [h]
  rfl

theorem listenerChoice_none {port : Port} {s : State} (h : listenerOffer s.journal (s.listener port) = none) :
    listenerChoice port s = none := by
  unfold listenerChoice
  rw [h]

/-- The reader goes out on its turn, or when the listener offers nothing. -/
theorem streamChoice_reader {port : Port} {s : State} {c : (Byte × List Byte) × State}
    (hr : readerChoice port s = some c) (h : (s.port port).turn = .stroke ∨ listenerChoice port s = none) :
    streamChoice port s = some c := by
  unfold streamChoice
  cases ht : (s.port port).turn with
  | stroke => exact (congrArg (fun x => Option.orElse x _) hr)
  | listener =>
    have hl := h.resolve_left (by rw [ht]; decide)
    rw [hl]
    exact hr

/-- The listener goes out on its turn, or when the reader offers nothing. -/
theorem streamChoice_listener {port : Port} {s : State} {c : (Byte × List Byte) × State}
    (hl : listenerChoice port s = some c) (h : (s.port port).turn = .listener ∨ readerChoice port s = none) :
    streamChoice port s = some c := by
  unfold streamChoice
  cases ht : (s.port port).turn with
  | listener => exact (congrArg (fun x => Option.orElse x _) hl)
  | stroke =>
    have hr := h.resolve_left (by rw [ht]; decide)
    rw [hr]
    exact hl

theorem streamChoice_none {port : Port} {s : State} (hr : readerChoice port s = none)
    (hl : listenerChoice port s = none) : streamChoice port s = none := by
  unfold streamChoice
  rw [hr, hl]
  cases (s.port port).turn <;> rfl

/-! ### What the listener offers (R122) -/

theorem listenerOffer_note {j : Journal} {l : Listener} {n : Note} {rest : List Note} (h : l.notes = n :: rest) :
    listenerOffer j l = some (noteMessage n, { l with notes := rest }) := by
  unfold listenerOffer
  rw [h]

theorem listenerOffer_run {j : Journal} {l : Listener} {run : RepaintRun} (h : l.notes = []) (hr : l.run = some run) :
    listenerOffer j l = some ((132, repaintBody run), { l with
      run := if run.next + 1 < runParts run then some { run with next := run.next + 1 } else none }) := by
  unfold listenerOffer
  rw [h, hr]

theorem listenerOffer_entry {j : Journal} {l : Listener} {e : JournalEntry} (h : l.notes = []) (hr : l.run = none)
    (he : reachedEntry j l = some e) :
    listenerOffer j l = some ((131, textBody e), { l with cursor := l.cursor + 1 }) := by
  unfold listenerOffer
  rw [h, hr, he]

theorem listenerOffer_none {j : Journal} {l : Listener}
    (h : ¬(l.notes ≠ [] ∨ l.run ≠ none ∨ reachedEntry j l ≠ none)) : listenerOffer j l = none := by
  rw [← Option.not_isSome_iff_eq_none, listenerOffer_isSome, Option.isSome_iff_ne_none]
  exact h

/-! ### The end of a frame (R174) -/

theorem frameSentEvent_free {port : Port} {s : State} (h : (s.port port).sending = none) :
    frameSentEvent port s = s := if_neg (by simp only [h]; decide)

theorem frameSentEvent_sent {port : Port} {s : State} (h : (s.port port).sending ≠ none) :
    frameSentEvent port s = endFrame port s := if_pos (Option.isSome_iff_ne_none.mpr h)

theorem endFrame_chooses {port : Port} (h : port ≠ .machine) (s : State) :
    endFrame port s = beginMessage port (setSending port none s) := by
  cases port with
  | machine => exact absurd rfl h
  | station | feed => rfl

/-- Settles O52. -/
theorem transmittersSendWhatWaits : Obligations.TransmittersSendWhatWaits := by
  intro port s hr p l frame begins readerSends offered listenerSends readerOf noRecord
  have hexec : exec (.transmitBegin port) s = .next (eventEnd (beginMessage port s)) := rfl
  have hframe (kind : Byte) (body : List Byte) : buildFrame kind (portBody port s body) = frame kind body := by
    cases port <;> rfl
  have hbegins {kind : Byte} {body : List Byte} {x : PortState} {t : State} (hfree : p.sending = none)
      (hready : dozeReady t = false) (hc : chooseMessage port s = some ((kind, body), t.setPort port x)) :
      begins kind body x t := by
    have hbegun := beginMessage_chosen hfree hc
    rw [framed, hframe] at hbegun
    show exec (.transmitBegin port) s = _
    rw [hexec, hbegun]
    refine congrArg Host.Outcome.next ?_
    have hd : dozeReady (t.setPort port { x with sending := some { frame := frame kind body, sent := 0 } }) = false :=
      hready
    unfold eventEnd dozeIfReady
    rw [if_neg (by simp [hd])]
  have hreaders (name : ReaderName) : ownReader port = some name ↔ readerOf name := ownReader_eq_some_iff port name
  have hoffers : ¬offered → listenerChoice port s = none := fun h => listenerChoice_none (listenerOffer_none h)
  have hnoRecord : noRecord → readerChoice port s = none := fun h =>
    readerChoice_none fun name hn => h name ((hreaders name).mp hn)
  refine ⟨fun hbusy => ?_, fun hfree => ⟨fun r rest ha => ?_, fun n rest ha hn => ?_, fun ha hn => ⟨?_, ?_, ?_⟩⟩,
    fun hfree => ?_, fun hbusy => ?_⟩
  · rw [hexec, beginMessage_busy hbusy, eventEnd_of_rested hr]
  · exact hbegins hfree hr.1 (chooseMessage_answer ha)
  · exact hbegins hfree hr.1 (chooseMessage_notice ha hn)
  · intro name hname hoffer hturn
    obtain ⟨r, hr'⟩ := Option.ne_none_iff_exists'.mp hoffer
    refine ⟨r, hr', hbegins hfree ?_ ((chooseMessage_stream ha hn).trans
      (streamChoice_reader (readerChoice_some ((hreaders name).mpr hname) hr') (hturn.imp_right hoffers)))⟩
    obtain ⟨_, rfl⟩ | ⟨_, rfl⟩ := hname <;> exact hr.1
  · intro hoffered hturn
    have hlistens {m : Byte × List Byte} {l' : Listener} (ho : listenerOffer s.journal l = some (m, l')) :
        begins m.1 m.2 { p with turn := .stroke } (s.setListener port l') :=
      hbegins hfree hr.1 ((chooseMessage_stream ha hn).trans
        (streamChoice_listener (listenerChoice_some ho) (hturn.imp_right hnoRecord)))
    refine ⟨fun note rest h => ?_, fun run h hrun => ?_, fun e h hrun he => ?_⟩
    · exact hlistens (m := noteMessage note) (listenerOffer_note h)
    · exact hlistens (m := (132, repaintBody run)) (listenerOffer_run h hrun)
    · exact hlistens (m := (131, textBody e)) (listenerOffer_entry h hrun he)
  · intro hnone hrecord
    rw [hexec, beginMessage_quiet ((chooseMessage_stream ha hn).trans
      (streamChoice_none (hnoRecord hrecord) (hoffers hnone))), eventEnd_of_rested hr]
  · show Host.Outcome.next (eventEnd (frameSentEvent port s)) = _
    rw [frameSentEvent_free hfree, eventEnd_of_rested hr]
  · intro freed
    have hsent : exec (.frameSent port) s = .next (eventEnd (endFrame port s)) :=
      congrArg (fun t => Host.Outcome.next (eventEnd t)) (frameSentEvent_sent hbusy)
    refine ⟨fun hm => ?_, fun hm => ?_⟩
    · subst hm
      rw [hsent]
      exact congrArg Host.Outcome.next (eventEnd_rested hr rfl rfl hr.1)
    · rw [hsent, endFrame_chooses hm]
      rfl

end Sys2Proof.Machine
end

section
/-! PROOFS. The receive assembler and the frames it takes (R169 to R171, R175, R181). -/

namespace Sys2Proof.Machine

/-! ### Requests read from a body (R181) -/

/-- Whatever a parser gives has a property. -/
def Yields {α : Type} (P : α → Prop) (p : Parser α) : Prop :=
  ∀ (body : List Byte) (x : α) (rest : List Byte), p.run body = some (x, rest) → P x

theorem yields_pure {α : Type} {P : α → Prop} {x : α} (h : P x) : Yields P (pure x) := by
  intro body y rest he
  cases he
  exact h

theorem yields_bind {α β : Type} {P : β → Prop} {p : Parser α} {f : α → Parser β} (h : ∀ a, Yields P (f a)) :
    Yields P (p >>= f) := by
  intro body y rest he
  rw [StateT.run_bind] at he
  obtain ⟨⟨a, left⟩, _, hf⟩ := Option.bind_eq_some_iff.mp he
  exact h a left y rest hf

theorem requestBody_kind (port : Port) (k : RequestKind) :
    Yields (fun i => requestKind i = some (port, k)) (requestBody port k) := by
  cases k
  all_goals unfold requestBody
  all_goals repeat refine yields_bind fun _ => ?_
  all_goals exact yields_pure rfl

theorem parseRequest_kind {port : Port} {k : RequestKind} {body : List Byte} {i : Instr}
    (h : parseRequest port k body = some i) : requestKind i = some (port, k) := by
  unfold parseRequest at h
  split at h
  next j heq =>
    cases h
    exact requestBody_kind port k body i [] heq
  next => cases h

/-- A request taken from a frame is the command's own. -/
theorem exec_requestOf {i : Instr} {x : Port × RequestKind} (h : requestKind i = some x) (s : State) :
    exec i s = .next (requestOf i s) := by
  cases i
  all_goals cases h
  all_goals rfl

theorem ne_reset_of_request {i : Instr} {x : Port × RequestKind} (h : requestKind i = some x) : i ≠ .reset := by
  rintro rfl
  cases h

/-- A command that has ended leaves nothing to end. -/
theorem eventEnd_ended {i : Instr} {s t : State} (hi : i ≠ .reset) (hj : JournalOk s.journal)
    (he : exec i s = .next t) : eventEnd t = t := by
  obtain ⟨u, hu, rfl⟩ := keeps_journalOk.exec_ended hi hj he
  exact eventEnd_of_rested (eventEnd_journal_rested u hu)

/-! ### One byte judged (R169) -/

theorem judgeBytes_done (port : Port) (n : Nat) (t : State) : judgeBytes port n [] t = t := by
  cases n <;> rfl

theorem judgeBytes_cons (port : Port) (n : Nat) (b : Byte) (rest : List Byte) (t : State) :
    judgeBytes port (n + 1) (b :: rest) t
      = judgeBytes port n ((judgeByte port b t).1 ++ rest) (judgeByte port b t).2 := rfl

/-- A byte that gives none back. -/
theorem judgeBytes_one {port : Port} {b : Byte} {t u : State} (n : Nat) (h : judgeByte port b t = ([], u)) :
    judgeBytes port (n + 1) [b] t = u := by
  rw [judgeBytes_cons, h, List.nil_append, judgeBytes_done]

theorem judgeByte_hunt {port : Port} {t : State} (h : (t.port port).receive = .hunt) (b : Byte) :
    judgeByte port b t = ([], if b = 195 then setReceive port .length t else t) := by
  unfold judgeByte
  rw [h]

theorem judgeByte_length {port : Port} {t : State} (h : (t.port port).receive = .length) (b : Byte) :
    judgeByte port b t = judgeLength port b t := by
  unfold judgeByte
  rw [h]

theorem judgeByte_body {port : Port} {t : State} {n : Byte} {held : List Byte}
    (h : (t.port port).receive = .body (n :: held)) (b : Byte) :
    (held.length < n.toNat → judgeByte port b t = ([], setReceive port (.body (n :: held ++ [b])) t)) ∧
    (held.length = n.toNat → judgeByte port b t = judgeFrameHeld port (n :: held ++ [b]) t) := by
  unfold judgeByte
  rw [h]
  have hlen : (n :: held ++ [b]).length = held.length + 2 := by simp
  have hfirst : (n :: held ++ [b]).getD 0 0 = n := rfl
  dsimp only
  rw [hlen, hfirst]
  exact ⟨fun hl => if_pos (by omega), fun hl => if_neg (by omega)⟩

/-- Bytes without a start code leave a part in HUNT as it is. -/
theorem judgeBytes_hunt {port : Port} {t : State} (h : (t.port port).receive = .hunt) (n : Nat)
    {bytes rest : List Byte} (hb : ∀ x ∈ bytes, x ≠ 195) :
    judgeBytes port (bytes.length + n) (bytes ++ rest) t = judgeBytes port n rest t := by
  induction bytes with
  | nil => rw [List.length_nil, Nat.zero_add, List.nil_append]
  | cons x more ih =>
    have hx : x ≠ 195 := hb x List.mem_cons_self
    rw [List.length_cons, Nat.add_right_comm, List.cons_append, judgeBytes_cons, judgeByte_hunt h, if_neg hx]
    exact ih fun y hy => hb y (List.mem_cons_of_mem _ hy)

theorem setReceive_receive (port : Port) (r : Receive) (t : State) : ((setReceive port r t).port port).receive = r := by
  cases port <;> rfl

/-! ### What a frame held at its check byte leaves (R169) -/

theorem judgeFrameHeld_good {port : Port} {n b : Byte} {kind : Byte} {fields : List Byte} {t : State}
    (h : byteSum (n :: (kind :: fields) ++ [b]) = 0) :
    judgeFrameHeld port (n :: (kind :: fields) ++ [b]) t
      = ([], takeFrame port kind fields (setReceive port .hunt t)) := by
  have hfields : ((n :: (kind :: fields) ++ [b]).drop 2).dropLast = fields := by simp
  unfold judgeFrameHeld
  rw [if_pos h, hfields]
  rfl

theorem judgeFrameHeld_bad {port : Port} {bytes : List Byte} {t : State} (h : byteSum bytes ≠ 0) :
    judgeFrameHeld port bytes t = (bytes, countOne .badFrames (setReceive port .hunt t)) := if_neg h

/-- A frame that fails its check, its bytes judged again. -/
theorem judgeBytes_failed {port : Port} {t : State} (h : (t.port port).receive = .hunt) {front : List Byte}
    (hfront : ∀ x ∈ front, x ≠ 195) (b : Byte) (n : Nat) :
    judgeBytes port (front.length + (n + 1)) (front ++ [b]) t = if b = 195 then setReceive port .length t else t := by
  rw [judgeBytes_hunt h (n + 1) hfront]
  exact judgeBytes_one n (judgeByte_hunt h b)

/-! ### The exchange on the Machine port (R175) -/

/-- What a message begun leaves of a part: what each port hears, and whether the passage to DOZE is due. -/
def HearsAs (s t : State) : Prop :=
  (∀ port, (t.port port).receive = (s.port port).receive) ∧ dozeReady t = dozeReady s

theorem HearsAs.refl (s : State) : HearsAs s s := ⟨fun _ => rfl, rfl⟩

theorem HearsAs.trans {s t u : State} (h : HearsAs s t) (h' : HearsAs t u) : HearsAs s u :=
  ⟨fun port => (h'.1 port).trans (h.1 port), h'.2.trans h.2⟩

theorem HearsAs.setPort {s t : State} (h : HearsAs s t) (port : Port) {v : PortState}
    (hv : v.receive = (s.port port).receive) : HearsAs s (t.setPort port v) := by
  refine ⟨fun q => ?_, h.2⟩
  by_cases hq : q = port
  · subst hq
    rw [setPort_port_self]
    exact hv
  · rw [← h.1 q]
    match q, port, hq with
    | .machine, .station, _ | .machine, .feed, _ | .station, .machine, _ | .station, .feed, _
    | .feed, .machine, _ | .feed, .station, _ => rfl

theorem chooseMessage_hears {port : Port} {s t : State} {m : Byte × List Byte}
    (hc : chooseMessage port s = some (m, t)) : HearsAs s t := by
  rcases chooseMessage_cases hc with ⟨_, _, _, _, rfl⟩ | ⟨_, _, _, _, _, rfl⟩ | ⟨_, _, hr | hl⟩
  · exact (HearsAs.refl s).setPort port rfl
  · exact (HearsAs.refl s).setPort port rfl
  · obtain ⟨name, _, hname, _, _, rfl⟩ := readerChoice_cases hr
    have hkept (x : Reader) : HearsAs s (s.setReader name x) := by
      refine ⟨fun _ => rfl, ?_⟩
      obtain ⟨_, rfl⟩ | ⟨_, rfl⟩ := (ownReader_eq_some_iff port name).mp hname <;> rfl
    exact (hkept _).setPort port rfl
  · obtain ⟨_, _, rfl⟩ := listenerChoice_cases hl
    exact HearsAs.setPort (t := s.setListener port _) ⟨fun _ => rfl, rfl⟩ port rfl

theorem beginMessage_hears (port : Port) (s : State) : HearsAs s (beginMessage port s) := by
  rcases beginMessage_cases port s with heq | ⟨m, t, _, hc, heq⟩
  · rw [heq]
    exact HearsAs.refl s
  · have hchosen := chooseMessage_hears hc
    rw [heq]
    exact hchosen.setPort port (hchosen.1 port)

theorem exchange_eq (s : State) :
    exchange s = { beginMessage .machine s with ports :=
      { (beginMessage .machine s).ports with
        machine := { (beginMessage .machine s).ports.machine with
          sending := (beginMessage .machine s).ports.machine.sending.bind advanceSending },
        lastOut := exchangeByte (beginMessage .machine s) } } := rfl

theorem reachAll_exchange_hears (s : State) : HearsAs s (reachAll (exchange s)) := by
  have hexchange : HearsAs (beginMessage .machine s) (exchange s) := by
    rw [exchange_eq]
    generalize beginMessage .machine s = begun
    refine ⟨fun port => ?_, rfl⟩
    cases port <;> rfl
  have hreach : HearsAs (exchange s) (reachAll (exchange s)) := by
    generalize exchange s = t
    exact ⟨fun _ => rfl, by simp [dozeReady, loadPaused]⟩
  exact ((beginMessage_hears .machine s).trans hexchange).trans hreach

/-- What the part is when the byte received is judged. -/
def atReceipt (port : Port) (s : State) : State :=
  match port with
  | .machine => reachAll (exchange s)
  | .station | .feed => s

theorem exec_receiveByte (port : Port) (b : Byte) (s : State) :
    exec (.receiveByte port b) s = .next (eventEnd (judgeBytes port 65536 [b] (atReceipt port s))) := by
  cases port <;> rfl

theorem atReceipt_hears (port : Port) (s : State) : HearsAs s (atReceipt port s) := by
  cases port with
  | machine => exact reachAll_exchange_hears s
  | station | feed => exact HearsAs.refl s

theorem atReceipt_journalOk (port : Port) {s : State} (h : JournalOk s.journal) : JournalOk (atReceipt port s).journal := by
  cases port with
  | machine => exact reachAll_journalOk _ (beginMessage_journalOk .machine h)
  | station | feed => exact h

/-! ### The request a good frame holds (R170, R171) -/

theorem kindOf_feedQuery (kind : Byte) : (kindOf kind == some .feedQuery) = true ↔ kind = 34 := by
  rw [beq_iff_eq]
  refine ⟨fun h => ?_, fun h => h ▸ rfl⟩
  have hcode := List.find?_some h
  have hkind : kindCode .feedQuery = kind := by simpa using hcode
  exact hkind.symm

theorem takeFeedFrame_taken {kind address : Byte} {rest : List Byte} {v : State}
    (h : address.toNat = v.ports.feedAddress ∨ (address = 255 ∧ kind = 34)) :
    takeFeedFrame kind (address :: rest) v = takeKind .feed kind rest v := by
  unfold takeFeedFrame
  by_cases ha : address.toNat = v.ports.feedAddress
  · exact if_pos ha
  · obtain ⟨h255, hkind⟩ := h.resolve_left ha
    exact (if_neg ha).trans (if_pos (by
      rw [Bool.and_eq_true, decide_eq_true_iff]
      exact ⟨h255, (kindOf_feedQuery kind).mpr hkind⟩))

theorem takeFeedFrame_passed {kind address : Byte} {rest : List Byte} {v : State}
    (ha : address.toNat ≠ v.ports.feedAddress) (h : ¬(address = 255 ∧ kind = 34)) :
    takeFeedFrame kind (address :: rest) v = v := by
  unfold takeFeedFrame
  refine (if_neg ha).trans (if_neg fun hb => h ?_)
  rw [Bool.and_eq_true, decide_eq_true_iff] at hb
  exact ⟨hb.1, (kindOf_feedQuery kind).mp hb.2⟩

theorem takeKind_request {port : Port} {kind : Byte} {k : RequestKind} {fields : List Byte} {i : Instr} {v : State}
    (hk : kindOf kind = some k) (hi : parseRequest port k fields = some i) :
    takeKind port kind fields v = requestOf i v := by
  unfold takeKind
  rw [hk]
  dsimp only
  rw [hi]

theorem takeKind_shapeless {port : Port} {kind : Byte} {k : RequestKind} {fields : List Byte} {v : State}
    (hk : kindOf kind = some k) (hi : parseRequest port k fields = none) :
    takeKind port kind fields v = takeRequest port k (fun s => (s, refuse .outOfRange)) v := by
  unfold takeKind
  rw [hk]
  dsimp only
  rw [hi]

theorem takeKind_unknown {port : Port} {kind : Byte} {fields : List Byte} {v : State} (hk : kindOf kind = none) :
    takeKind port kind fields v = unknownKindRequest port kind v := by
  unfold takeKind
  rw [hk]

theorem kindCode_of_kindOf {kind : Byte} {k : RequestKind} (h : kindOf kind = some k) : kindCode k = kind := by
  simpa using List.find?_some h

theorem takeRequest_shapeless {port : Port} {kind : Byte} {k : RequestKind} {v : State} (hk : kindOf kind = some k)
    (hroom : (v.port port).answers.length < 4) :
    takeRequest port k (fun s => (s, refuse .outOfRange)) v
      = eventEnd (pushReply port
          (.answer kind (if permitted k port then .outOfRange else .notFromPort) []) v) := by
  have hfull : ¬answersFull v port = true := by
    rw [answersFull_iff]
    omega
  unfold takeRequest
  rw [if_neg hfull, kindCode_of_kindOf hk]
  split <;> rfl

/-- The end of an event after which the passage to DOZE is not due. -/
theorem eventEnd_awake {t : State} (h : dozeReady t = false) : eventEnd t = driveAttention (reachAll t) := by
  unfold eventEnd dozeIfReady
  rw [if_neg (by simp [h])]

theorem eventEnd_twice {t : State} (h : JournalOk t.journal) : eventEnd (eventEnd t) = eventEnd t :=
  eventEnd_of_rested (eventEnd_journal_rested t h)

theorem eventEnd_request {port : Port} {kind : Byte} {k : RequestKind} {fields : List Byte} {i : Instr} {v : State}
    (hv : JournalOk v.journal) (hk : kindOf kind = some k) (hi : parseRequest port k fields = some i) :
    Host.Outcome.next (eventEnd (takeKind port kind fields v)) = exec i v := by
  have hkind := parseRequest_kind hi
  have hexec := exec_requestOf hkind v
  rw [takeKind_request hk hi, eventEnd_ended (ne_reset_of_request hkind) hv hexec, hexec]

theorem eventEnd_shapeless {port : Port} {kind : Byte} {k : RequestKind} {fields : List Byte} {v : State}
    (hv : JournalOk v.journal) (hd : dozeReady v = false) (hk : kindOf kind = some k)
    (hi : parseRequest port k fields = none) (hroom : (v.port port).answers.length < 4) :
    eventEnd (takeKind port kind fields v) = driveAttention (reachAll (pushReply port
      (.answer kind (if permitted k port then .outOfRange else .notFromPort) []) v)) := by
  rw [takeKind_shapeless hk hi, takeRequest_shapeless hk hroom, eventEnd_twice (t := pushReply port _ v) hv]
  exact eventEnd_awake hd

theorem eventEnd_unknown {port : Port} {kind : Byte} {fields : List Byte} {v : State}
    (hv : JournalOk v.journal) (hk : kindOf kind = none) :
    Host.Outcome.next (eventEnd (takeKind port kind fields v)) = exec (.unknownKind port kind) v := by
  have hended : eventEnd (unknownKindRequest port kind v) = unknownKindRequest port kind v :=
    eventEnd_ended (i := .unknownKind port kind) (by rintro ⟨⟩) hv rfl
  rw [takeKind_unknown hk, hended]
  rfl

theorem takeFrame_of_ne_feed {port : Port} (h : port ≠ .feed) (kind : Byte) (fields : List Byte) (v : State) :
    takeFrame port kind fields v = takeKind port kind fields v := by
  cases port with
  | machine | station => rfl
  | feed => exact absurd rfl h

theorem judgeLength_long {b : Byte} (h : 252 ≤ b.toNat) (port : Port) (t : State) :
    judgeLength port b t = ([b], setReceive port .hunt t) := by
  have hzero : b ≠ 0 := by rintro rfl; exact absurd h (by decide)
  unfold judgeLength
  rw [if_neg hzero, if_neg (by omega)]

theorem judgeLength_short {b : Byte} (h : 1 ≤ b.toNat) (h' : b.toNat ≤ 251) (port : Port) (t : State) :
    judgeLength port b t = ([], setReceive port (.body [b]) t) := by
  have hzero : b ≠ 0 := by rintro rfl; exact absurd h (by decide)
  unfold judgeLength
  rw [if_neg hzero, if_pos h']

/-- Settles O51. -/
theorem receivedBytesMakeFrames : Obligations.ReceivedBytesMakeFrames := by
  intro port b s hr hj begun exchanged u heard became
  have hu : atReceipt port s = u := by
    cases port with
    | machine =>
      show reachAll (exchange s) = exchanged
      rw [exchange_eq]
      show reachAll { begun with ports := { begun.ports with
        machine := { begun.ports.machine with sending := begun.ports.machine.sending.bind advanceSending },
        lastOut := exchangeByte begun } } = _
      cases hs : begun.ports.machine.sending <;> simp only [exchanged, exchangeByte, hs] <;> rfl
    | station | feed => rfl
  obtain ⟨hreceive, hready⟩ := atReceipt_hears port s
  have hjournal := atReceipt_journalOk port hj
  have hexec := exec_receiveByte port b s
  rw [hu] at hreceive hready hjournal hexec
  rw [hr.1] at hready
  have hbecame {t : State} (hd : dozeReady t = false) (h : judgeBytes port (65535 + 1) [b] u = t) : became t := by
    show exec (.receiveByte port b) s = _
    rw [hexec, h, eventEnd_awake hd]
  have hcounted : dozeReady (countOne .badFrames (heard .hunt)) = false := by
    rw [← hready]
    simp [dozeReady, loadPaused, heard]
  have hcountedHunt : ((countOne .badFrames (heard .hunt)).port port).receive = .hunt := by
    have hkept : ((countOne .badFrames (heard .hunt)).port port).receive = ((heard .hunt).port port).receive :=
      (countOne_port .badFrames (heard .hunt) port).2.1
    rw [hkept]
    exact setReceive_receive port .hunt u
  have hanswers : ((heard .hunt).port port).answers = (u.port port).answers := by
    cases port <;> rfl
  refine ⟨fun h hb => ?_, fun h hb => ?_, fun h => ⟨fun hb => ?_, fun hlow hhigh => ?_, fun hlong => ?_⟩,
    fun n held h => ⟨fun hshort => ?_, fun hfull => ?_⟩⟩
  · refine hbecame hready (judgeBytes_one _ ?_)
    rw [judgeByte_hunt ((hreceive port).trans h), if_neg hb]
  · refine hbecame hready (judgeBytes_one _ ?_)
    rw [judgeByte_hunt ((hreceive port).trans h), if_pos hb]
    rfl
  · refine hbecame hcounted (judgeBytes_one _ ?_)
    rw [judgeByte_length ((hreceive port).trans h)]
    exact if_pos hb
  · refine hbecame hready (judgeBytes_one _ ?_)
    rw [judgeByte_length ((hreceive port).trans h)]
    exact judgeLength_short hlow hhigh port u
  · refine hbecame hready ?_
    have hb : b ≠ 195 := by rintro rfl; exact absurd hlong (by decide)
    rw [judgeBytes_cons, judgeByte_length ((hreceive port).trans h), judgeLength_long hlong]
    refine judgeBytes_one 65534 ?_
    rw [judgeByte_hunt (setReceive_receive port .hunt u), if_neg hb]
    rfl
  · exact hbecame hready (judgeBytes_one _ ((judgeByte_body ((hreceive port).trans h) b).1 hshort))
  · intro good taken
    have hjudged := (judgeByte_body ((hreceive port).trans h) b).2 hfull
    have htaken {kind : Byte} {fields : List Byte}
        (hk : judgeBytes port (65535 + 1) [b] u = takeKind port kind fields (heard .hunt)) : taken kind fields := by
      refine ⟨fun k i hkind hi => ?_, fun k hkind hi hroom => ?_, fun hkind => ?_⟩
      · rw [hexec, hk]
        exact eventEnd_request (v := heard .hunt) hjournal hkind hi
      · show exec (.receiveByte port b) s = _
        rw [hexec, hk]
        exact congrArg Host.Outcome.next (eventEnd_shapeless (v := heard .hunt) hjournal hready hkind hi (hanswers ▸ hroom))
      · rw [hexec, hk]
        exact eventEnd_unknown (v := heard .hunt) hjournal hkind
    refine ⟨fun kind fields hgood hheld => ?_, fun hbad hfront => ?_⟩
    · subst hheld
      have hframe : judgeBytes port (65535 + 1) [b] u = takeFrame port kind fields (heard .hunt) :=
        judgeBytes_one _ (hjudged.trans (judgeFrameHeld_good hgood))
      refine ⟨fun hp => htaken (hframe.trans (takeFrame_of_ne_feed hp kind fields _)), fun hp => ?_⟩
      subst hp
      refine ⟨fun hnone => ?_, fun address rest hrest => ⟨fun ha => ?_, fun ha hq => ?_⟩⟩
      · subst hnone
        exact hbecame hready hframe
      · subst hrest
        exact htaken (hframe.trans (takeFeedFrame_taken ha))
      · subst hrest
        exact hbecame hready (hframe.trans (takeFeedFrame_passed ha hq))
    · have hlength : (n :: held).length + (65534 - held.length + 1 - 1) = 65535 := by
        have := n.isLt
        rw [List.length_cons]
        omega
      have hfailed : judgeBytes port (65535 + 1) [b] u = if b = 195
          then setReceive port .length (countOne .badFrames (heard .hunt)) else countOne .badFrames (heard .hunt) := by
        rw [judgeBytes_cons, hjudged, judgeFrameHeld_bad hbad, List.append_nil]
        have hsteps : 65535 = (n :: held).length + ((65533 - held.length) + 1) := by
          have hbound := n.isLt
          rw [List.length_cons]
          omega
        rw [hsteps]
        exact judgeBytes_failed hcountedHunt hfront b (65533 - held.length)
      refine ⟨fun hb => ?_, fun hb => ?_⟩
      · rw [if_neg hb] at hfailed
        exact hbecame hcounted hfailed
      · rw [if_pos hb] at hfailed
        exact hbecame hcounted hfailed

end Sys2Proof.Machine
end

section
/-! PROOFS. The completion of a frame: its sync judgement, its block judgement and its acceptance (R39 to R55). -/

namespace Sys2Proof.Machine

/-! ### Counts and the Time Follower -/

theorem setTime_setTime (t t' : TimeFollower) (s : State) : setTime t (setTime t' s) = setTime t s := rfl

theorem setTime_self (s : State) : setTime s.time s = s := rfl

/-- A count looks at the Time Follower for the stamp of its SATURATE notice alone (R162). -/
theorem countEvents_setTime (c : Counter) (n : Nat) {t : TimeFollower} {s : State}
    (h : stampNow (setTime t s) = stampNow s) : countEvents c n (setTime t s) = setTime t (countEvents c n s) := by
  have hnotice : saturateNotice c (setTime t s) = saturateNotice c s := by
    unfold saturateNotice
    rw [h]
    rfl
  unfold countEvents
  rw [hnotice]
  split
  · rfl
  · dsimp only
    rw [apply_ite (setTime t)]
    rfl

theorem countOne_setTime (c : Counter) {t : TimeFollower} {s : State} (h : stampNow (setTime t s) = stampNow s) :
    countOne c (setTime t s) = setTime t (countOne c s) := countEvents_setTime c 1 h

theorem countEvents_time (c : Counter) (n : Nat) (s : State) : (countEvents c n s).time = s.time := by simp

theorem countOne_time (c : Counter) (s : State) : (countOne c s).time = s.time := by simp

/-! ### What the judgements of a frame leave -/

/-- `v` differs from `s` in the Time Follower, the counters and the ports alone. -/
def TimeOnly (s v : State) : Prop :=
  ∃ (t : TimeFollower) (q : Counters) (p : Ports), v = { s with time := t, counters := q, ports := p }

theorem TimeOnly.refl (s : State) : TimeOnly s s := ⟨s.time, s.counters, s.ports, rfl⟩

theorem TimeOnly.setTime {s v : State} (h : TimeOnly s v) (t : TimeFollower) :
    TimeOnly s (Sys2Proof.Machine.setTime t v) := by
  obtain ⟨_, q, p, rfl⟩ := h
  exact ⟨t, q, p, rfl⟩

theorem TimeOnly.raiseNotice {s v : State} (h : TimeOnly s v) (n : Notice) :
    TimeOnly s (Sys2Proof.Machine.raiseNotice n v) := by
  obtain ⟨t, q, p, rfl⟩ := h
  exact ⟨t, q, _, rfl⟩

theorem TimeOnly.countEvents {s v : State} (h : TimeOnly s v) (c : Counter) (n : Nat) :
    TimeOnly s (Sys2Proof.Machine.countEvents c n v) := by
  have hcounted (q : Counters) : TimeOnly s { v with counters := q } := by
    obtain ⟨t, _, p, rfl⟩ := h
    exact ⟨t, q, p, rfl⟩
  unfold Sys2Proof.Machine.countEvents
  split
  · exact h
  · dsimp only
    split
    · exact (hcounted _).raiseNotice _
    · exact hcounted _

theorem TimeOnly.countOne {s v : State} (h : TimeOnly s v) (c : Counter) :
    TimeOnly s (Sys2Proof.Machine.countOne c v) := h.countEvents c 1

/-- The end of an event that touches these alone. -/
theorem TimeOnly.eventEnd {s v : State} (h : TimeOnly s v) (hr : Rested s) :
    Sys2Proof.Machine.eventEnd v = driveAttention v := by
  obtain ⟨t, q, p, rfl⟩ := h
  exact eventEnd_rested hr rfl rfl hr.1

/-! ### The quality of a locked state (R55) -/

/-- The quality of a locked state under a reference. -/
def lockedQuality (t : TimeFollower) : Quality := if t.state = .block then .locked else .unchecked

theorem judgedQuality_absent {t : TimeFollower} (h : t.present = false) : judgedQuality t = .free := by
  simp [judgedQuality, h]

theorem judgedQuality_locked {t : TimeFollower} (h : t.present = true) (hs : t.state ≠ .search) :
    judgedQuality t = lockedQuality t := by
  unfold judgedQuality lockedQuality
  rw [if_pos h]
  cases hst : t.state with
  | search => exact absurd hst hs
  | frame | frameOnly | block => rfl

/-- A judgement of the quality, with what the change brings when there is one. -/
theorem rejudge_setTime {t : TimeFollower} {s : State} {q : Quality} (hq : judgedQuality t = q) :
    rejudge (setTime t s) = if t.quality = q then setTime t s else raiseNotice
      { kind := .time,
        fields := byte (qualityCode q) ++ byte (followerCode t.state) ++ num 4 (stampMs t t.tick) }
      (setTime { t with quality := q } s) := by
  split
  next h => exact rejudge_same (hq.trans h.symm)
  next h => exact rejudge_changed hq h

/-! ### The frame accepted (R50 to R53) -/

/-- What a frame's take word makes of `x`, the part whose take words are those of `t` (R53). -/
def Worded (becomes : State → Prop) (word : Nat) (t : TimeFollower) (x : State) : Prop :=
  (¬(t.pendingTake = some word ∧ t.take ≠ some word) →
    becomes { x with time := { x.time with pendingTake := some word } }) ∧
  (t.pendingTake = some word → t.take ≠ some word →
    becomes (appendRecord (.take t.take word (stampNow x)) { x with time := { x.time with take := some word } }))

theorem updateTake_worded {becomes : State → Prop} {word : Nat} {t : TimeFollower} {x : State}
    (hpending : x.time.pendingTake = t.pendingTake) (htake : x.time.take = t.take)
    (hb : becomes (updateTake word x)) : Worded becomes word t x := by
  let inForce := setTime { x.time with take := some word } x
  have hform : updateTake word x = if x.time.pendingTake = some word && x.time.take != some word
      then setTime { (appendRecord (.take x.time.take word (stampNow inForce)) inForce).time with
          pendingTake := some word } (appendRecord (.take x.time.take word (stampNow inForce)) inForce)
      else setTime { x.time with pendingTake := some word } x := by
    unfold updateTake
    dsimp only
    split <;> rfl
  rw [hform, hpending, htake] at hb
  refine ⟨fun hold => ?_, fun hp ht => ?_⟩
  · rw [if_neg (by simpa using hold)] at hb
    exact hb
  · rw [if_pos (by simp [hp, ht]), (appendRecord_frame _ inForce).2.1] at hb
    have hkept : ({ inForce.time with pendingTake := some word } : TimeFollower)
        = (appendRecord (.take t.take word (stampNow inForce)) inForce).time := by
      have hword : inForce.time.pendingTake = some word := hpending.trans hp
      rw [(appendRecord_frame _ inForce).2.1, ← hword]
    rw [hkept, setTime_self] at hb
    exact hb

/-- The Time Follower of a frame of decoded time `d` whose reference is taken (R51). -/
def TimeFollower.movedTo (t : TimeFollower) (d : Nat) : TimeFollower :=
  { t with tref := d, lref := t.frameTick, present := true, age := 0, step := none }

theorem takeReference_eq (d : Nat) (s : State) : takeReference d s = rejudge (setTime (s.time.movedTo d) s) := rfl

/-- A reference taken in a locked state. -/
theorem takeReference_locked {d : Nat} {s : State} (hs : s.time.state ≠ .search) :
    (s.time.quality = lockedQuality s.time → takeReference d s = setTime (s.time.movedTo d) s) ∧
    (s.time.quality = .free → takeReference d s = raiseNotice
      { kind := .time, fields := byte (qualityCode (lockedQuality s.time)) ++ byte (followerCode s.time.state)
          ++ num 4 (stampMs (s.time.movedTo d) s.time.tick) }
      (setTime { s.time.movedTo d with quality := lockedQuality s.time } s)) := by
  have hq : judgedQuality (s.time.movedTo d) = lockedQuality s.time := judgedQuality_locked rfl hs
  rw [takeReference_eq, rejudge_setTime hq]
  refine ⟨fun h => if_pos h, fun h => if_neg ?_⟩
  show s.time.quality ≠ lockedQuality s.time
  rw [h]
  unfold lockedQuality
  split <;> decide

/-- A frame agrees with the reference (R50, R51). -/
def Agrees (d : Nat) (t : TimeFollower) : Prop := within t.threshold d (stampMs t t.frameTick) = true

theorem updateReference_taken {d : Nat} {s : State} (h : s.time.present = false ∨ Agrees d s.time) :
    updateReference d s = takeReference d s := by
  unfold updateReference
  refine if_pos ?_
  rcases h with h | h
  · simp [h]
  · exact Bool.or_eq_true_iff.mpr (.inr h)

theorem updateReference_apart {d : Nat} {s : State} (hp : s.time.present = true) (hd : ¬Agrees d s.time) :
    (s.time.step = none → updateReference d s = holdStep d s) ∧
    (∀ (dc : Nat) (lc : Tick), s.time.step = some (dc, lc) →
      updateReference d s = if within s.time.threshold d (extrapolated dc lc s.time.frameTick)
        then takeStep (stampMs s.time s.time.frameTick) d s else holdStep d s) := by
  have hnot : ¬(!s.time.present || within s.time.threshold d (stampMs s.time s.time.frameTick)) = true := by
    rw [hp]
    exact hd
  unfold updateReference
  dsimp only
  rw [if_neg hnot]
  refine ⟨fun h => ?_, fun dc lc h => ?_⟩ <;> rw [h]

/-- A step taken under a reference. -/
theorem takeStep_locked {e d : Nat} {s : State} (hs : s.time.state ≠ .search)
    (hq : s.time.quality = lockedQuality s.time) :
    takeStep e d s = countOne .timeSteps
      (setTime (s.time.movedTo d) (appendRecord (.timestep e d (lockedQuality s.time)) s)) := by
  have htime : (appendRecord (.timestep e d s.time.quality) s).time = s.time := by simp
  have htaken := (takeReference_locked (d := d) (s := appendRecord (.timestep e d s.time.quality) s)
    (by rw [htime]; exact hs)).1 (by rw [htime]; exact hq)
  unfold takeStep
  dsimp only
  rw [htaken, htime, hq]

/-- The acceptance of a frame in a locked state. -/
theorem acceptFrame_accepted {becomes : State → Prop} {f : TimeFrame} {v : State} (hs : v.time.state ≠ .search)
    (hb : becomes (acceptFrame f v)) : FrameAccepted becomes f v := by
  unfold acceptFrame at hb
  unfold FrameAccepted
  intro t d tick after e near q moved held worded
  have hworded {x : State} (hx : updateReference d v = x) (hpending : x.time.pendingTake = t.pendingTake)
      (htake : x.time.take = t.take) : worded x := by
    subst hx
    exact updateTake_worded hpending htake hb
  have hnear : near d e ↔ Agrees d t := decide_eq_true_iff.symm
  have hheld (h : updateReference d v = holdStep d v) : worded held := hworded h rfl rfl
  refine ⟨fun hp hq => ?_, fun hp hq => ⟨fun hn => ?_, fun hn => ⟨fun hnone => ?_, fun dc lc hsome =>
    ⟨fun hfar => ?_, fun hagrees => ?_⟩⟩⟩⟩
  · exact hworded ((updateReference_taken (.inl hp)).trans ((takeReference_locked hs).2 hq)) rfl rfl
  · exact hworded ((updateReference_taken (.inr (hnear.mp hn))).trans ((takeReference_locked hs).1 hq)) rfl rfl
  · exact hheld ((updateReference_apart hp (mt hnear.mpr hn)).1 hnone)
  · refine hheld (((updateReference_apart hp (mt hnear.mpr hn)).2 dc lc hsome).trans (if_neg ?_))
    exact mt decide_eq_true_iff.mp hfar
  · have hstep := ((updateReference_apart hp (mt hnear.mpr hn)).2 dc lc hsome).trans
      (if_pos (decide_eq_true_iff.mpr hagrees))
    refine hworded (hstep.trans (takeStep_locked hs hq)) ?_ ?_
    · rw [countOne_time]
    · rw [countOne_time]

end Sys2Proof.Machine
end

section
/-! PROOFS. The sync judgement and the block judgement of a frame (R41 to R48). -/

namespace Sys2Proof.Machine

/-! ### The sync judgement (R41, R42) -/

/-- The sync error run after a frame. -/
def errorRun (f : TimeFrame) (t : TimeFollower) : Nat := if f.wrong = 0 then 0 else t.syncRun + 1

/-- The part with the sync errors of a frame counted. -/
def errorsCounted (f : TimeFrame) (s : State) : State :=
  if f.wrong = 0 then s else countEvents .syncErrors (if s.time.mode = .pattern then 1 else f.wrong) s

/-- The Time Follower when its frame has been taken up with a sync error run below 3. -/
def TimeFollower.synced (f : TimeFrame) (t : TimeFollower) : TimeFollower :=
  { t with frameDue := false, lockFrame := false, syncRun := errorRun f t }

theorem goodSync_iff (f : TimeFrame) : f.goodSync = true ↔ f.wrong = 0 := beq_iff_eq

theorem syncErrorCount_eq (mode : SyncErrorMode) (f : TimeFrame) :
    syncErrorCount mode f = if mode = .pattern then 1 else f.wrong := by
  cases mode <;> rfl

/-- The frame in progress, taken up. -/
def taken (s : State) : State := setTime { s.time with frameDue := false, lockFrame := false } s

theorem judgeSync_error {f : TimeFrame} {s : State} (h : f.wrong ≠ 0) :
    judgeSync f (taken s) = if 3 ≤ s.time.syncRun + 1 then setTime s.time.unlocked (errorsCounted f s)
      else setTime (s.time.synced f) (errorsCounted f s) := by
  have hcounted : countEvents .syncErrors (syncErrorCount (taken s).time.mode f) (taken s)
      = setTime (taken s).time (errorsCounted f s) := by
    rw [syncErrorCount_eq, errorsCounted, if_neg h]
    exact countEvents_setTime _ _ rfl
  have hrun : errorRun f s.time = s.time.syncRun + 1 := if_neg h
  unfold judgeSync TimeFollower.synced
  rw [if_neg (mt (goodSync_iff f).mp h), hcounted, hrun]
  rfl

theorem judgeSync_below {f : TimeFrame} {s : State} (h : errorRun f s.time < 3) :
    judgeSync f (taken s) = setTime (s.time.synced f) (errorsCounted f s) := by
  by_cases hgood : f.wrong = 0
  · have hrun : errorRun f s.time = 0 := if_pos hgood
    have hcounted : errorsCounted f s = s := if_pos hgood
    rw [judgeSync, if_pos ((goodSync_iff f).mpr hgood), TimeFollower.synced, hrun, hcounted]
    rfl
  · have hrun : errorRun f s.time = s.time.syncRun + 1 := if_neg hgood
    rw [judgeSync_error hgood, if_neg (by omega)]

/-! ### The frame after its sync judgement (R39) -/

/-- The acceptance of a frame that is good and in range. -/
def finishFrame (f : TimeFrame) (v : State) : State :=
  if f.goodSync && f.inRange v.time.rate then acceptFrame f v else v

/-- The Time Follower with a completed frame kept for the block check (R47). -/
def TimeFollower.keeping (f : TimeFrame) (t : TimeFollower) : TimeFollower :=
  { t with lastFrames := lastEight (t.lastFrames ++ [frameSummary f]) }

/-- The TIME notice of a Time Follower whose quality becomes `q` (R55). -/
def qualityNotice (q : Quality) (t : TimeFollower) : Notice :=
  { kind := .time,
    fields := byte (qualityCode q) ++ byte (followerCode t.state) ++ num 4 (stampMs t t.tick) }

/-- A frame whose block judgement leaves the Time Follower locked. -/
theorem judgeFrame_locked {first : Bool} {f : TimeFrame} {u x : State} {t : TimeFollower}
    (hj : judgeBlock first f u = setTime t x) (hs : t.state ≠ .search) :
    judgeFrame first f u = finishFrame f (
      if t.quality = judgedQuality t then setTime (t.keeping f) x
      else raiseNotice (qualityNotice (judgedQuality t) t)
        (setTime { t.keeping f with quality := judgedQuality t } x)) := by
  have hjudged := rejudge_setTime (t := t) (s := x) rfl
  unfold judgeFrame
  rw [hj, hjudged]
  dsimp only
  split
  · exact if_neg hs
  · exact if_neg hs

/-- A frame whose block judgement loses the lock. -/
theorem judgeFrame_search {first : Bool} {f : TimeFrame} {u x : State} {t : TimeFollower}
    (hj : judgeBlock first f u = setTime t x) (hs : t.state = .search) :
    judgeFrame first f u = rejudge (setTime t x) := by
  have hstate : (rejudge (setTime t x)).time.state = .search := by
    rw [rejudge_setTime rfl]
    split
    · exact hs
    · exact hs
  unfold judgeFrame
  rw [hj]
  exact if_pos hstate

theorem errorsCounted_timeOnly (f : TimeFrame) (s : State) : TimeOnly s (errorsCounted f s) := by
  unfold errorsCounted
  split
  · exact .refl s
  · exact (TimeOnly.refl s).countEvents _ _

theorem frameEvent_due {s : State} (hdue : s.time.frameDue = true) (hs : s.time.state ≠ .search) :
    frameEvent s = completeFrame s := if_pos (by simp [hdue, hs])

theorem frameEvent_below {s : State} (hdue : s.time.frameDue = true) (hs : s.time.state ≠ .search)
    (h : errorRun (decodeFrame s.time.cells) s.time < 3) :
    frameEvent s = judgeFrame s.time.lockFrame (decodeFrame s.time.cells)
      (setTime (s.time.synced (decodeFrame s.time.cells)) (errorsCounted (decodeFrame s.time.cells) s)) := by
  have hsync := judgeSync_below h
  rw [frameEvent_due hdue hs]
  unfold completeFrame
  dsimp only
  rw [show setTime { s.time with frameDue := false, lockFrame := false } s = taken s from rfl, hsync]
  exact if_neg hs

/-! ### The checks (R47, R48) -/

theorem wholeBlock_iff (l : List FrameSummary) :
    wholeBlock l = true ↔ l.map (fun x => x.position) = List.range 8 ∧ ∀ x ∈ l, x.goodSync = true := by
  unfold wholeBlock
  rw [Bool.and_eq_true, beq_iff_eq, beq_iff_eq, List.eq_replicate_iff]
  constructor
  · rintro ⟨⟨_, hgood⟩, hpos⟩
    exact ⟨hpos, fun x hx => hgood _ (List.mem_map_of_mem hx)⟩
  · rintro ⟨hpos, hgood⟩
    have hlen : l.length = 8 := by simpa using congrArg List.length hpos
    refine ⟨⟨by simpa using hlen, fun b hb => ?_⟩, hpos⟩
    obtain ⟨x, hx, rfl⟩ := List.mem_map.mp hb
    exact hgood x hx

theorem checkPasses_iff (l : List FrameSummary) (f : TimeFrame) :
    checkPasses l f = true ↔ f.wrong = 0 ∧ f.position = 0 ∧ l.map (fun x => x.position) = List.range 8 ∧
      (∀ x ∈ l, x.goodSync = true) ∧ f.check = (l.map (fun x => x.sum)).sum % 256 := by
  unfold checkPasses
  rw [Bool.and_eq_true, Bool.and_eq_true, Bool.and_eq_true, goodSync_iff, wholeBlock_iff, beq_iff_eq, beq_iff_eq]
  simp only [and_assoc]
  rfl

/-- The part with a failed check counted. -/
def checkCounted (pass : Bool) (s : State) : State := if pass then s else countOne .blockErrors s

theorem checkCounted_timeOnly {s v : State} (h : TimeOnly s v) (pass : Bool) : TimeOnly s (checkCounted pass v) := by
  unfold checkCounted
  split
  · exact h
  · exact h.countOne _

theorem judgeCheck_eq {f : TimeFrame} {t : TimeFollower} {x : State} {pass : Bool}
    (hstamp : stampNow (setTime t x) = stampNow x) (hpass : checkPasses t.lastFrames f = pass) :
    judgeCheck f (setTime t x) =
      if 4 ≤ (lastEight (t.history ++ [pass])).count false
      then failBlock f (setTime { t with history := lastEight (t.history ++ [pass]) } (checkCounted pass x))
      else setTime { t with history := lastEight (t.history ++ [pass]) } (checkCounted pass x) := by
  have hcounted : (if pass = true then setTime t x else countOne .blockErrors (setTime t x))
      = setTime t (checkCounted pass x) := by
    unfold checkCounted
    rw [countOne_setTime _ hstamp, apply_ite (setTime t)]
  unfold judgeCheck
  rw [setTime_time, hpass]
  dsimp only
  rw [hcounted]
  exact if_congr decide_eq_true_iff rfl rfl

/-! ### The block judgement (R43 to R48) -/

theorem nextRun_eq (run : Option Nat) (f : TimeFrame) :
    nextRun run f = if f.wrong = 0 ∧ f.position = 0 then some 0
      else match run with
        | none => none
        | some r => if f.wrong = 0 ∧ f.position = r + 1 then some (r + 1) else none := by
  have hgood : f.goodSync = decide (f.wrong = 0) := rfl
  unfold nextRun
  rw [hgood]
  cases run <;> simp

theorem blockDeclared_iff (f : TimeFrame) (run : Option Nat) :
    (f.goodSync && f.position == 0 && run == some 7) = true ↔ f.wrong = 0 ∧ f.position = 0 ∧ run = some 7 := by
  rw [Bool.and_eq_true, Bool.and_eq_true, goodSync_iff, beq_iff_eq, beq_iff_eq, and_assoc]

theorem judgeBlock_of_frame (first : Bool) (f : TimeFrame) {u : State} (h : u.time.state = .frame) :
    judgeBlock first f u = searchBlock first f u := by
  unfold judgeBlock
  rw [h]

theorem judgeBlock_of_block (first : Bool) (f : TimeFrame) {u : State} (h : u.time.state = .block) :
    judgeBlock first f u = if u.time.expected = 0
      then judgeCheck f (setTime { u.time with expected := (u.time.expected + 1) % 8 } u)
      else setTime { u.time with expected := (u.time.expected + 1) % 8 } u := by
  unfold judgeBlock
  split
  next hs => rw [h] at hs; cases hs
  next => rfl
  next hs => rw [h] at hs; cases hs
  next hs => rw [h] at hs; cases hs

theorem judgeBlock_of_frameOnly (first : Bool) (f : TimeFrame) {u : State} (h : u.time.state = .frameOnly) :
    judgeBlock first f u = u := by
  unfold judgeBlock
  rw [h]

/-- The window of the block search goes on. -/
theorem judgeBlock_searched {first : Bool} {f : TimeFrame} {t : TimeFollower} {x : State} (hs : t.state = .frame)
    (h : ¬(f.wrong = 0 ∧ f.position = 0 ∧ t.blockRun = some 7)) :
    judgeBlock first f (setTime t x) = setTime { t with
      window := nextWindow first t.window, blockRun := nextRun t.blockRun f,
      alternate := if nextWindow first t.window = 24 ∧ t.window ≠ 24 then .searching none else t.alternate } x := by
  rw [judgeBlock_of_frame first f (u := setTime t x) hs]
  refine (if_neg (mt (blockDeclared_iff f t.blockRun).mp h)).trans ?_
  have halternate : (if nextWindow first t.window == 24 && t.window != 24 then Alternate.searching none else t.alternate)
      = if nextWindow first t.window = 24 ∧ t.window ≠ 24 then .searching none else t.alternate :=
    if_congr (by simp) rfl rfl
  rw [← halternate]
  exact setTime_setTime _ t x

/-- BLOCK is declared, and its first check made. -/
theorem judgeBlock_declared {first : Bool} {f : TimeFrame} {t : TimeFollower} {x : State} {pass : Bool}
    (hs : t.state = .frame) (h : f.wrong = 0 ∧ f.position = 0 ∧ t.blockRun = some 7)
    (hstamp : stampNow (setTime t x) = stampNow x) (hpass : checkPasses t.lastFrames f = pass) :
    judgeBlock first f (setTime t x) = setTime { t with
      state := .block, expected := 1, history := [pass], alternate := .inactive, blockLimit := none }
      (checkCounted pass x) := by
  rw [judgeBlock_of_frame first f (u := setTime t x) hs]
  refine (if_pos ((blockDeclared_iff f t.blockRun).mpr h)).trans ?_
  refine (judgeCheck_eq (pass := pass) (x := x) (t := { t with
    state := .block, expected := 1, history := [], alternate := .inactive, blockLimit := none }) hstamp hpass).trans ?_
  cases pass <;> rfl

/-- A frame in BLOCK with no check due. -/
theorem judgeBlock_unchecked {first : Bool} {f : TimeFrame} {t : TimeFollower} {x : State} (hs : t.state = .block)
    (h : t.expected ≠ 0) :
    judgeBlock first f (setTime t x) = setTime { t with expected := (t.expected + 1) % 8 } x := by
  rw [judgeBlock_of_block first f (u := setTime t x) hs]
  exact if_neg h

/-- A frame in BLOCK that is checked. -/
theorem judgeBlock_checked {first : Bool} {f : TimeFrame} {t : TimeFollower} {x : State} {pass : Bool}
    (hs : t.state = .block) (h : t.expected = 0)
    (hstamp : stampNow (setTime t x) = stampNow x) (hpass : checkPasses t.lastFrames f = pass) :
    judgeBlock first f (setTime t x) =
      if 4 ≤ (lastEight (t.history ++ [pass])).count false
      then failBlock f
        (setTime { t with expected := 1, history := lastEight (t.history ++ [pass]) } (checkCounted pass x))
      else setTime { t with expected := 1, history := lastEight (t.history ++ [pass]) } (checkCounted pass x) := by
  have hexpected : (t.expected + 1) % 8 = 1 := by rw [h]
  rw [judgeBlock_of_block first f (u := setTime t x) hs, setTime_time, if_pos h, hexpected, setTime_setTime]
  exact judgeCheck_eq (t := { t with expected := 1 }) (x := x) hstamp hpass

end Sys2Proof.Machine
end

section
/-! PROOFS. A frame completed with fewer than 3 sync errors in a row, by the state (R39, R43 to R48). -/

namespace Sys2Proof.Machine

theorem failBlock_reframed {f : TimeFrame} {t : TimeFollower} {x : State} (h : t.reframe = true) :
    failBlock f (setTime t x) = setTime t.unlocked x := if_pos h

theorem failBlock_kept {f : TimeFrame} {t : TimeFollower} {x : State} (h : t.reframe = false) :
    failBlock f (setTime t x) = setTime { t with
      state := .frame, history := [], window := 1, blockRun := nextRun none f,
      blockLimit := some t.frameTick } x := if_neg (by simp [h])

/-- What a change of quality to `q` makes of a part under a reference, `t` being the Time Follower before it;
without one the quality stays FREE. -/
def qualityChanged (q : Quality) (t : TimeFollower) (u : State) : State :=
  if t.present = true then raiseNotice (qualityNotice q t) (setTime { u.time with quality := q } u) else u

theorem qualityChanged_locked {q : Quality} {t : TimeFollower} {u : State} (h : u.time.state ≠ .search) :
    (qualityChanged q t u).time.state ≠ .search := by
  unfold qualityChanged
  split
  · exact h
  · exact h

theorem qualityChanged_timeOnly {s u : State} (h : TimeOnly s u) (q : Quality) (t : TimeFollower) :
    TimeOnly s (qualityChanged q t u) := by
  unfold qualityChanged
  split
  · exact (h.setTime _).raiseNotice _
  · exact h

theorem qualityChanged_rate (q : Quality) (t : TimeFollower) (u : State) :
    (qualityChanged q t u).time.rate = u.time.rate := by
  unfold qualityChanged
  split
  · rfl
  · rfl

/-- A frame under whose block judgement the quality stays. -/
theorem judgeFrame_same {first : Bool} {f : TimeFrame} {u x : State} {t : TimeFollower} {q : Quality}
    (hj : judgeBlock first f u = setTime t x) (hs : t.state ≠ .search) (hl : lockedQuality t = q)
    (hq : t.quality = if t.present = true then q else .free) :
    judgeFrame first f u = finishFrame f (setTime (t.keeping f) x) := by
  have hsame : t.quality = judgedQuality t := by
    by_cases hp : t.present = true
    · rw [hq, if_pos hp, judgedQuality_locked hp hs, hl]
    · rw [hq, if_neg hp, judgedQuality_absent (by simpa using hp)]
  rw [judgeFrame_locked hj hs, if_pos hsame]

/-- A frame under whose block judgement a quality under a reference changes. -/
theorem judgeFrame_changed {first : Bool} {f : TimeFrame} {u x : State} {t : TimeFollower} {old q : Quality}
    (hj : judgeBlock first f u = setTime t x) (hs : t.state ≠ .search) (hl : lockedQuality t = q)
    (hq : t.quality = if t.present = true then old else .free) (hne : old ≠ q) :
    judgeFrame first f u = finishFrame f (qualityChanged q t (setTime (t.keeping f) x)) := by
  unfold qualityChanged
  by_cases hp : t.present = true
  · rw [if_pos hp] at hq ⊢
    rw [judgeFrame_locked hj hs, judgedQuality_locked hp hs, hl, if_neg (by rw [hq]; exact hne)]
    rfl
  · rw [if_neg hp] at hq ⊢
    rw [judgeFrame_locked hj hs, if_pos (hq.trans (judgedQuality_absent (by simpa using hp)).symm)]

/-- A frame whose block judgement loses the lock. -/
theorem judgeFrame_lost {first : Bool} {f : TimeFrame} {u x : State} {t : TimeFollower}
    (hj : judgeBlock first f u = setTime t.unlocked x)
    (hq : t.quality = if t.present = true then .locked else .free) :
    judgeFrame first f u = qualityChanged (if t.age ≤ t.coast * 4096 then .coast else .free) t.unlocked
      (setTime t.unlocked x) := by
  rw [judgeFrame_search hj rfl]
  have hjudged := rejudge_setTime (s := x) (judgedQuality_search_eq (t := t.unlocked) rfl)
  have hpresent : t.unlocked.present = t.present := rfl
  have hquality : t.unlocked.quality = t.quality := rfl
  have hage : t.unlocked.age = t.age := rfl
  have hcoast : t.unlocked.coast = t.coast := rfl
  rw [hjudged, qualityChanged, hpresent, hquality, hage, hcoast, hq]
  by_cases hp : t.present = true
  · have hlocked : Quality.locked ≠ if t.age ≤ t.coast * 4096 then .coast else .free := by
      split <;> decide
    have hjudge : (if t.present = true ∧ t.age ≤ t.coast * 4096 then Quality.coast else .free)
        = if t.age ≤ t.coast * 4096 then .coast else .free := if_congr (and_iff_right hp) rfl rfl
    rw [hjudge, if_pos hp, if_pos hp, if_neg hlocked, setTime_setTime]
    rfl
  · have hjudge : (if t.present = true ∧ t.age ≤ t.coast * 4096 then Quality.coast else .free) = .free :=
      if_neg fun h => hp h.1
    rw [hjudge, if_neg hp, if_neg hp, if_pos rfl]

/-- The completion of a frame with fewer than 3 sync errors in a row. -/
theorem frameEvent_judged {went lost : State → Prop} {s : State} (hdue : s.time.frameDue = true)
    (hwent : ∀ v, frameEvent s = finishFrame (decodeFrame s.time.cells) v → v.time.state ≠ .search →
      v.time.rate = s.time.rate → TimeOnly s v → went v)
    (hlost : ∀ v, frameEvent s = v → TimeOnly s v → lost v) : BlockJudged went lost s := by
  unfold BlockJudged
  intro f l good run synced pass checked judged quality changed hrun
  let t := s.time.synced f
  have hpass : checkPasses t.lastFrames f = pass := by
    rw [Bool.eq_iff_iff, checkPasses_iff]
    exact decide_eq_true_iff.symm
  have hstamp : stampNow (setTime t synced) = stampNow synced := by
    have htime : synced.time = s.time := by
      show (errorsCounted f s).time = s.time
      unfold errorsCounted
      split
      · rfl
      · exact countEvents_time _ _ s
    unfold stampNow
    rw [htime]
    rfl
  have hcompleted (hs : s.time.state ≠ .search) :
      frameEvent s = judgeFrame s.time.lockFrame f (setTime t synced) := frameEvent_below hdue hs hrun
  have hsynced : TimeOnly s synced := errorsCounted_timeOnly f s
  have hchecked : TimeOnly s checked := checkCounted_timeOnly hsynced pass
  have hcounted : checkCounted pass synced = checked := rfl
  have hunchecked (hs : s.time.state ≠ .block) : lockedQuality s.time = .unchecked := if_neg hs
  clear_value checked pass synced
  refine ⟨fun hs hq => ?_, fun hs hq => ⟨fun hnot => ?_, fun hgood hposition hseven => ?_⟩, fun hs hq =>
    ⟨fun hexpected => ?_, fun hexpected => ?_⟩⟩
  all_goals
    have hlocked : s.time.state ≠ .search := by
      rw [hs]
      decide
    have hcompleted := hcompleted hlocked
  · have hj : judgeBlock s.time.lockFrame f (setTime t synced) = setTime t synced :=
      judgeBlock_of_frameOnly s.time.lockFrame f (u := setTime t synced) hs
    have hkeeps := hcompleted.trans (judgeFrame_same hj hlocked (hunchecked (by rw [hs]; decide)) hq)
    exact hwent _ hkeeps hlocked rfl (hsynced.setTime _)
  · have hj := judgeBlock_searched (first := s.time.lockFrame) (t := t) (x := synced) hs hnot
    intro window
    have hkeeps := hcompleted.trans (judgeFrame_same hj hlocked (hunchecked (by rw [hs]; decide)) hq)
    rw [nextRun_eq] at hkeeps
    exact hwent _ hkeeps hlocked rfl (hsynced.setTime _)
  · have hj := judgeBlock_declared (first := s.time.lockFrame) (t := t) hs ⟨hgood, hposition, hseven⟩ hstamp hpass
    rw [hcounted] at hj
    have hkeeps := hcompleted.trans (judgeFrame_changed (q := .locked) hj (by rintro ⟨⟩) rfl hq (by decide))
    have hjudged := hwent _ hkeeps (qualityChanged_locked (by rintro ⟨⟩)) (qualityChanged_rate _ _ _)
      (qualityChanged_timeOnly (hchecked.setTime _) _ _)
    exact hjudged
  · have hj := judgeBlock_unchecked (first := s.time.lockFrame) (f := f) (x := synced) (t := t) hs hexpected
    have hkeeps := hcompleted.trans (judgeFrame_same hj hlocked (if_pos hs) hq)
    exact hwent _ hkeeps hlocked rfl (hsynced.setTime _)
  · intro history
    have hj := judgeBlock_checked (first := s.time.lockFrame) (t := t) hs hexpected hstamp hpass
    have hhistory : lastEight (t.history ++ [pass]) = history := rfl
    rw [hcounted, hhistory] at hj
    refine ⟨fun hfew => ?_, fun hmany hno => ?_, fun hmany hreframe => ?_⟩
    · rw [if_neg (by omega)] at hj
      have hkeeps := hcompleted.trans (judgeFrame_same hj hlocked (if_pos hs) hq)
      exact hwent _ hkeeps hlocked rfl (hchecked.setTime _)
    · rw [if_pos hmany, failBlock_kept (t := { t with expected := 1, history := history }) hno, nextRun_eq] at hj
      have hkeeps := hcompleted.trans (judgeFrame_changed (q := .unchecked) hj (by rintro ⟨⟩) rfl hq (by decide))
      have hjudged := hwent _ hkeeps (qualityChanged_locked (by rintro ⟨⟩)) (qualityChanged_rate _ _ _)
        (qualityChanged_timeOnly (hchecked.setTime _) _ _)
      exact hjudged
    · rw [if_pos hmany, failBlock_reframed (t := { t with expected := 1, history := history }) hreframe] at hj
      have hjudged := hlost _ (hcompleted.trans (judgeFrame_lost hj hq))
        (qualityChanged_timeOnly (hchecked.setTime _) _ _)
      exact hjudged

/-- A frame that keeps or challenges the reference is good and in range. -/
theorem accepted_iff (f : TimeFrame) (rate : Nat) : (f.goodSync && f.inRange rate) = true ↔
    f.wrong = 0 ∧ f.hours ≤ 23 ∧ f.minutes ≤ 59 ∧ f.seconds ≤ 59 ∧ f.number < rate := by
  rw [Bool.and_eq_true, goodSync_iff]
  simp [TimeFrame.inRange, and_assoc]

/-- Settles O21. -/
theorem blockCheckIsJudged : Obligations.BlockCheckIsJudged := by
  intro s hdue f accepted became ended
  have hexec : exec .frameCompletion s = .next (eventEnd (frameEvent s)) := rfl
  have haccepted (rate : Nat) (h : rate = s.time.rate) : (f.goodSync && f.inRange rate) = true ↔ accepted :=
    h ▸ accepted_iff f rate
  refine ⟨fun hnot hr => ?_, fun hacc => ?_⟩
  · have hbecame (v : State) (hv : frameEvent s = v) (ht : TimeOnly s v) : became v := by
      show exec .frameCompletion s = _
      rw [hexec, hv, ht.eventEnd hr]
    refine frameEvent_judged hdue (fun v hv _ hrate ht => ?_) hbecame
    exact hbecame v (hv.trans (if_neg (mt (haccepted _ hrate).mp hnot))) ht
  · have hended (v : State) (hv : frameEvent s = v) : ended v := by
      show exec .frameCompletion s = _
      rw [hexec, hv]
    refine frameEvent_judged hdue (fun v hv hs hrate _ => ?_) fun v hv _ => hended v hv
    exact acceptFrame_accepted hs (hended _ (hv.trans (if_pos ((haccepted _ hrate).mpr hacc))))

end Sys2Proof.Machine
end

section
/-! PROOFS. The sync error that loses the lock, the accepted frame and the first one (R42, R50 to R53). -/

namespace Sys2Proof.Machine

/-! ### The third sync error in a row (R42) -/

theorem frameEvent_lost {s : State} (hdue : s.time.frameDue = true) (hs : s.time.state ≠ .search)
    (hbad : (decodeFrame s.time.cells).wrong ≠ 0) (h : 3 ≤ s.time.syncRun + 1) :
    frameEvent s = rejudge (setTime s.time.unlocked (errorsCounted (decodeFrame s.time.cells) s)) := by
  have hsync := judgeSync_error (s := s) hbad
  rw [if_pos h] at hsync
  rw [frameEvent_due hdue hs]
  unfold completeFrame
  dsimp only
  rw [show setTime { s.time with frameDue := false, lockFrame := false } s = taken s from rfl, hsync]
  exact if_pos rfl

/-- Settles O18. -/
theorem syncErrorsLoseTheLock : Obligations.SyncErrorsLoseTheLock := by
  intro s hr hdue hs f counted kept hwrong
  have hbad : f.wrong ≠ 0 := by omega
  have hcounted : errorsCounted f s = counted := if_neg hbad
  refine ⟨fun hframe hrun hpresent habsent => ?_, fun hthird => ?_⟩
  · have hbelow : errorRun f s.time < 3 := by
      rw [errorRun, if_neg hbad]
      exact hrun
    have hquality : s.time.quality = if s.time.present = true then .unchecked else .free := by
      split
      next hp => exact hpresent hp
      next hp => exact habsent (by simpa using hp)
    have hjudged := ((blockCheckIsJudged s hdue).1 (fun h => hbad h.1) hr hbelow).1 hframe hquality
    rw [if_neg hbad, if_neg hbad] at hjudged
    exact hjudged
  · intro lost q
    have hevent := frameEvent_lost hdue hs hbad hthird
    have hq : judgedQuality s.time.unlocked = q := judgedQuality_search_eq rfl
    have hheld : s.time.unlocked.quality = s.time.quality := rfl
    rw [hcounted, rejudge_setTime hq, hheld] at hevent
    have htimed : TimeOnly s counted := (TimeOnly.refl s).countEvents _ _
    have hexec : exec .frameCompletion s = .next (eventEnd (frameEvent s)) := rfl
    refine ⟨fun hsame => ?_, fun hchanged => ?_⟩
    · rw [if_pos hsame] at hevent
      rw [hexec, hevent, (htimed.setTime _).eventEnd hr]
      rfl
    · rw [if_neg hchanged] at hevent
      rw [hexec, hevent, ((htimed.setTime _).raiseNotice _).eventEnd hr]
      rfl

/-! ### What an append takes from the part -/

theorem countOne_counters_congr (c : Counter) {s s' : State} (h : s.counters = s'.counters) :
    (countOne c s).counters = (countOne c s').counters := by
  have hform (v : State) : (countOne c v).counters = { v.counters with
      running := v.counters.running.set (counterIndex c) (addTally (runningTally v.counters c) 1) } := by
    unfold countOne countEvents
    rw [if_neg one_ne_zero]
    dsimp only
    split
    · simp
    · rfl
  rw [hform, hform, h]

theorem removalCounted_counters_congr (name : ReaderName) (removed : Word) (r : Reader) {s s' : State}
    (h : s.counters = s'.counters) :
    (removalCounted name removed r s).counters = (removalCounted name removed r s').counters := by
  unfold removalCounted
  split
  · rw [lossCounted_counters, lossCounted_counters, countOne_counters_congr _ h]
  · exact h

/-- Room is made in the log for what the log holds, and counted for what the log and the counters hold. -/
theorem makeRoom_congr {s s' : State} (hlog : s.log = s'.log) :
    (makeRoom s).log = (makeRoom s').log ∧
    (s.counters = s'.counters → (makeRoom s).counters = (makeRoom s').counters) := by
  by_cases hlen : 4096 ≤ s.log.records.length
  · obtain ⟨oldest, rest, hrecords⟩ := List.exists_cons_of_length_pos (l := s.log.records) (by omega)
    rw [makeRoom_full hrecords hlen, makeRoom_full (hlog ▸ hrecords) (hlog ▸ hlen)]
    refine ⟨by rw [withLog_log, withLog_log, hlog], fun hcounters => ?_⟩
    show (lossesCounted s.log oldest.seq s).counters = (lossesCounted s'.log oldest.seq s').counters
    rw [← hlog]
    exact removalCounted_counters_congr _ _ _
      (removalCounted_counters_congr _ _ _ (removalCounted_counters_congr _ _ _ hcounters))
  · rw [makeRoom_room (by omega), makeRoom_room (hlog ▸ by omega)]
    exact ⟨hlog, id⟩

theorem appendRecord_log_congr (b : RecordBody) {s s' : State} (h : s.log = s'.log) :
    (appendRecord b s).log = (appendRecord b s').log := by
  rw [appendRecord_eq, appendRecord_eq, withLog_log, withLog_log, (makeRoom_congr h).1]

theorem appendRecord_counters_congr (b : RecordBody) {s s' : State} (h : s.log = s'.log)
    (h' : s.counters = s'.counters) : (appendRecord b s).counters = (appendRecord b s').counters :=
  (makeRoom_congr h).2 h'

end Sys2Proof.Machine
end

section
/-! PROOFS. The reference and the take word of a frame accepted in any locked state (R50 to R53). -/

namespace Sys2Proof.Machine

/-! ### What the judgements before the acceptance leave of the reference -/

/-- What the acceptance of a frame looks at and the judgements before it leave. -/
structure Reference where
  tref : Nat
  lref : Tick
  present : Bool
  age : Nat
  step : Option (Nat × Tick)
  take : Option Nat
  pendingTake : Option Nat
  threshold : Nat
  rate : Nat
  frameTick : Tick
  tick : Tick

/-- The reference of a Time Follower, with its take words and the tick of its frame. -/
def referenceOf (t : TimeFollower) : Reference :=
  { tref := t.tref, lref := t.lref, present := t.present, age := t.age, step := t.step, take := t.take,
    pendingTake := t.pendingTake, threshold := t.threshold, rate := t.rate, frameTick := t.frameTick, tick := t.tick }

theorem failBlock_reference {f : TimeFrame} {s : State} (h : (failBlock f s).time.state ≠ .search) :
    referenceOf (failBlock f s).time = referenceOf s.time := by
  unfold failBlock at *
  split at h
  next => exact absurd rfl h
  next hno => rw [if_neg hno]; rfl

theorem judgeCheck_reference {f : TimeFrame} {s : State} (h : (judgeCheck f s).time.state ≠ .search) :
    referenceOf (judgeCheck f s).time = referenceOf s.time := by
  have heq := judgeCheck_eq (t := s.time) (x := s) (f := f) rfl rfl
  rw [setTime_self] at heq
  rw [heq] at h ⊢
  split at h
  next hmany => rw [if_pos hmany]; exact failBlock_reference h
  next hfew => rw [if_neg hfew]; rfl

theorem judgeBlock_reference {first : Bool} {f : TimeFrame} {s : State}
    (h : (judgeBlock first f s).time.state ≠ .search) :
    referenceOf (judgeBlock first f s).time = referenceOf s.time := by
  cases hs : s.time.state with
  | search =>
    unfold judgeBlock
    rw [hs]
  | frame =>
    rw [judgeBlock_of_frame _ _ hs] at h ⊢
    unfold searchBlock at h ⊢
    dsimp only at h ⊢
    split at h
    next hd => rw [if_pos hd]; exact judgeCheck_reference h
    next hd => rw [if_neg hd]; rfl
  | block =>
    rw [judgeBlock_of_block _ _ hs] at h ⊢
    split at h
    next hd => rw [if_pos hd]; exact judgeCheck_reference h
    next hd => rw [if_neg hd]; rfl
  | frameOnly => rw [judgeBlock_of_frameOnly _ _ hs]

/-- A quality judged again is all a judgement changes of the Time Follower. -/
theorem rejudge_time (s : State) : (rejudge s).time = { s.time with quality := judgedQuality s.time } := by
  by_cases h : judgedQuality s.time = s.time.quality
  · rw [rejudge_same h, h]
  · rw [rejudge_changed rfl (Ne.symm h)]
    rfl

/-- The part when an accepted frame `f` has been judged for blocks in a locked state. -/
structure JudgedForBlocks (s v : State) : Prop where
  locked : v.time.state ≠ .search
  log : v.log = s.log
  reference : referenceOf v.time = referenceOf s.time
  quality : v.time.quality = judgedQuality v.time

theorem frameEvent_accepted {s : State} (hdue : s.time.frameDue = true) (hs : s.time.state ≠ .search)
    (h : ((decodeFrame s.time.cells).goodSync && (decodeFrame s.time.cells).inRange s.time.rate) = true) :
    (frameEvent s).time.state = .search ∨
      ∃ v, frameEvent s = acceptFrame (decodeFrame s.time.cells) v ∧ JudgedForBlocks s v := by
  generalize hf : decodeFrame s.time.cells = f at *
  have hgood : f.wrong = 0 := (goodSync_iff f).mp (Bool.and_eq_true_iff.mp h).1
  have hrun : errorRun f s.time = 0 := if_pos hgood
  have hcounted : errorsCounted f s = s := if_pos hgood
  have hevent := frameEvent_below hdue hs (by rw [hf, hrun]; decide)
  rw [hf, hcounted] at hevent
  generalize hu : judgeBlock s.time.lockFrame f (setTime (s.time.synced f) s) = u at *
  have htime := rejudge_time u
  have hlog : (rejudge u).log = s.log := by
    rw [(rejudge_frame u).2.1, ← hu, (judgeBlock_frame _ f _).2.1]
    rfl
  have hevent : frameEvent s = if (rejudge u).time.state = .search then rejudge u
      else finishFrame f (keepSummary f (rejudge u)) := by
    rw [hevent, judgeFrame, hu]
    rfl
  generalize rejudge u = w at *
  rw [hevent]
  by_cases hw : w.time.state = .search
  · rw [if_pos hw]
    exact .inl hw
  · have hstate : u.time.state ≠ .search := by
      rw [htime] at hw
      exact hw
    have hreference : referenceOf w.time = referenceOf s.time := by
      subst hu
      rw [htime]
      exact judgeBlock_reference hstate
    have hrate : w.time.rate = s.time.rate := congrArg Reference.rate hreference
    rw [if_neg hw]
    refine .inr ⟨keepSummary f w, if_pos (hrate ▸ h), hw, hlog, hreference, ?_⟩
    show w.time.quality = judgedQuality w.time
    rw [htime]
    rfl

end Sys2Proof.Machine
end

section
/-! PROOFS. The accepted frame under a reference, and the first one (R50 to R53). -/

namespace Sys2Proof.Machine

/-! ### The reference and the take word after an acceptance -/

/-- A frame's take word comes in force. -/
def newWord (w : Nat) (t : TimeFollower) : Prop := t.pendingTake = some w ∧ t.take ≠ some w

/-- The take word after a frame. -/
theorem updateTake_after (w : Nat) (x : State) :
    (¬newWord w x.time → updateTake w x = setTime { x.time with pendingTake := some w } x) ∧
    (newWord w x.time → (updateTake w x).time = { x.time with pendingTake := some w, take := some w } ∧
      (updateTake w x).log = (appendRecord (.take x.time.take w (stampNow x)) x).log) := by
  have hworded : Worded (fun y => updateTake w x = y) w x.time x := updateTake_worded rfl rfl rfl
  refine ⟨fun hold => hworded.1 hold, fun hnew => ?_⟩
  have happended := hworded.2 hnew.1 hnew.2
  dsimp only at happended
  rw [happended]
  refine ⟨?_, appendRecord_log_congr _ (s := setTime { x.time with take := some w } x) (s' := x) rfl⟩
  rw [(appendRecord_frame _ _).2.1, ← hnew.1]

/-- A take word leaves the reference. -/
theorem updateTake_time (w : Nat) (x : State) :
    ∃ k, (updateTake w x).time = { x.time with pendingTake := some w, take := k } := by
  obtain ⟨hold, hnew⟩ := updateTake_after w x
  by_cases h : newWord w x.time
  · exact ⟨some w, (hnew h).1⟩
  · exact ⟨x.time.take, by rw [hold h]; rfl⟩

/-- The Time Follower when its reference is taken in a locked state. -/
theorem takeReference_time {d : Nat} {s : State} (hs : s.time.state ≠ .search) :
    (takeReference d s).time = { s.time.movedTo d with quality := lockedQuality s.time } := by
  have hq : judgedQuality (s.time.movedTo d) = lockedQuality s.time := judgedQuality_locked rfl hs
  rw [takeReference_eq, rejudge_time, setTime_time, hq]

theorem takeReference_log (d : Nat) (s : State) : (takeReference d s).log = s.log := by
  rw [takeReference_eq]
  exact (rejudge_frame _).2.1

/-- A step taken in a locked state. -/
theorem takeStep_after {e d : Nat} {s : State} (hs : s.time.state ≠ .search) :
    (takeStep e d s).time = { s.time.movedTo d with quality := lockedQuality s.time } ∧
    (takeStep e d s).log = (appendRecord (.timestep e d s.time.quality) s).log := by
  have htime : (appendRecord (.timestep e d s.time.quality) s).time = s.time := by simp
  have htaken := takeReference_time (d := d) (s := appendRecord (.timestep e d s.time.quality) s) (by rw [htime]; exact hs)
  rw [htime] at htaken
  unfold takeStep
  dsimp only
  rw [countOne_time, htaken, (countOne_frame _ _).2.1, takeReference_log]
  exact ⟨rfl, rfl⟩

/-- The reference update of a frame in a locked state. -/
theorem updateReference_after {d : Nat} {v : State} (hs : v.time.state ≠ .search) :
    (v.time.present = false ∨ Agrees d v.time →
      (updateReference d v).time = { v.time.movedTo d with quality := lockedQuality v.time } ∧
      (updateReference d v).log = v.log) ∧
    (v.time.present = true → ¬Agrees d v.time →
      (v.time.step = none → updateReference d v = holdStep d v) ∧
      (∀ (dc : Nat) (lc : Tick), v.time.step = some (dc, lc) →
        (within v.time.threshold d (extrapolated dc lc v.time.frameTick) = false →
          updateReference d v = holdStep d v) ∧
        (within v.time.threshold d (extrapolated dc lc v.time.frameTick) = true →
          (updateReference d v).time = { v.time.movedTo d with quality := lockedQuality v.time } ∧
          (updateReference d v).log
            = (appendRecord (.timestep (stampMs v.time v.time.frameTick) d v.time.quality) v).log))) := by
  refine ⟨fun h => ?_, fun hp hd => ⟨(updateReference_apart hp hd).1, fun dc lc hstep => ?_⟩⟩
  · rw [updateReference_taken h]
    exact ⟨takeReference_time hs, takeReference_log d v⟩
  · rw [(updateReference_apart hp hd).2 dc lc hstep]
    refine ⟨fun hfar => if_neg (by rw [hfar]; decide), fun hnear => ?_⟩
    rw [if_pos hnear]
    exact takeStep_after hs

/-- What the reference update leaves of the Time Follower, whatever it makes of the reference. -/
theorem updateReference_kept {d : Nat} {v : State} (hs : v.time.state ≠ .search) :
    (updateReference d v).time.take = v.time.take ∧ (updateReference d v).time.pendingTake = v.time.pendingTake ∧
    (updateReference d v).time.state = v.time.state ∧ (updateReference d v).time.tick = v.time.tick ∧
    (updateReference d v).time.present = true := by
  have htaken (h : (updateReference d v).time = { v.time.movedTo d with quality := lockedQuality v.time }) :
      (updateReference d v).time.take = v.time.take ∧ (updateReference d v).time.pendingTake = v.time.pendingTake ∧
      (updateReference d v).time.state = v.time.state ∧ (updateReference d v).time.tick = v.time.tick ∧
      (updateReference d v).time.present = true := by
    rw [h]
    exact ⟨rfl, rfl, rfl, rfl, rfl⟩
  have hheld (hp : v.time.present = true) (h : updateReference d v = holdStep d v) :
      (updateReference d v).time.take = v.time.take ∧ (updateReference d v).time.pendingTake = v.time.pendingTake ∧
      (updateReference d v).time.state = v.time.state ∧ (updateReference d v).time.tick = v.time.tick ∧
      (updateReference d v).time.present = true := by
    rw [h]
    exact ⟨rfl, rfl, rfl, rfl, hp⟩
  obtain ⟨htook, hapart⟩ := updateReference_after (d := d) hs
  by_cases h : v.time.present = false ∨ Agrees d v.time
  · exact htaken (htook h).1
  · obtain ⟨hp, hd⟩ := not_or.mp h
    have hp : v.time.present = true := by simpa using hp
    obtain ⟨hnone, hsome⟩ := hapart hp hd
    cases hstep : v.time.step with
    | none => exact hheld hp (hnone hstep)
    | some candidate =>
      obtain ⟨hfar, hnear⟩ := hsome candidate.1 candidate.2 hstep
      cases hw : within v.time.threshold d (extrapolated candidate.1 candidate.2 v.time.frameTick) with
      | false => exact hheld hp (hfar hw)
      | true => exact htaken (hnear hw).1

/-- A frame that carries the take word in force appends nothing for it. -/
theorem acceptFrame_log {f : TimeFrame} {v : State} (hs : v.time.state ≠ .search) (h : ¬newWord f.take v.time) :
    (acceptFrame f v).log = (updateReference (f.decoded v.time.rate) v).log := by
  obtain ⟨htake, hpending, _⟩ := updateReference_kept (d := f.decoded v.time.rate) hs
  have hold : ¬newWord f.take (updateReference (f.decoded v.time.rate) v).time := by
    rw [newWord, htake, hpending]
    exact h
  unfold acceptFrame
  rw [(updateTake_after f.take _).1 hold]
  rfl

theorem acceptFrame_time (f : TimeFrame) (v : State) :
    ∃ k, (acceptFrame f v).time
      = { (updateReference (f.decoded v.time.rate) v).time with pendingTake := some f.take, take := k } :=
  updateTake_time f.take _

/-- An event's end leaves the time and the log. -/
theorem exec_frameCompletion (s : State) :
    exec .frameCompletion s = .next (eventEnd (frameEvent s)) ∧
    (eventEnd (frameEvent s)).time = (frameEvent s).time ∧ (eventEnd (frameEvent s)).log = (frameEvent s).log := by
  generalize hu : frameEvent s = u
  refine ⟨congrArg (fun x => Host.Outcome.next (eventEnd x)) hu, by simp, by simp⟩

/-- The end of an event that has taken a step. -/
theorem eventEnd_step {s : State} (hr : Rested s) (hok : LogOk s.log) (b : RecordBody) (j m m' : TimeFollower) :
    eventEnd (setTime m (countOne .timeSteps (setTime m' (appendRecord b (setTime j s)))))
      = { s with
          time := m, log := (appendRecord b s).log, counters := (countOne .timeSteps (appendRecord b s)).counters,
          ports := (eventEnd (setTime m (countOne .timeSteps (setTime m' (appendRecord b (setTime j s)))))).ports } := by
  have hlog : (appendRecord b (setTime j s)).log = (appendRecord b s).log := appendRecord_log_congr b rfl
  have hcounters : (countOne .timeSteps (setTime m' (appendRecord b (setTime j s)))).counters
      = (countOne .timeSteps (appendRecord b s)).counters :=
    countOne_counters_congr _ (appendRecord_counters_congr b (s := setTime j s) rfl rfl)
  have hwaits := appendRecord_translator_waits b (s := setTime j s) hok
  generalize hA : appendRecord b (setTime j s) = A at *
  have hframe := appendRecord_frame b (setTime j s)
  rw [hA] at hframe
  obtain ⟨hcapture, htime, hdict, htrans, hjournal, hholds, hpower, hwake, hpending⟩ := hframe
  have hcounted := countOne_frame .timeSteps (setTime m' A)
  generalize countOne .timeSteps (setTime m' A) = B at *
  obtain ⟨hcapture', hlog', _, hdict', htrans', hjournal', hholds', hpower', hwake', hpending'⟩ := hcounted
  have hd : dozeReady (setTime m B) = false := dozeReady_of_waiting (by
    show B.log.translator.cursor ≠ B.log.head
    rw [hlog']
    exact hwaits)
  rw [eventEnd_rested (t := setTime m B) hr (hjournal'.trans hjournal) (hholds'.trans hholds) hd]
  exact State.eq_of_blocks ⟨hcapture'.trans hcapture, hlog'.trans hlog, rfl, hdict'.trans hdict,
    htrans'.trans htrans, hjournal'.trans hjournal, hholds'.trans hholds, hpower'.trans hpower,
    hwake'.trans hwake, hcounters, rfl, hpending'.trans hpending⟩

/-! ### The accepted frame under a reference (R50 to R52) -/

/-- Settles O19. -/
theorem acceptedFrameKeepsTheReference : Obligations.AcceptedFrameKeepsTheReference := by
  refine ⟨fun s hr hdue hs hpresent hquality => ?_, fun s hdue hs _ hpresent => ?_⟩
  · intro f d tick e near inRange hgood kept judged
    have hrun : (if f.wrong = 0 then 0 else s.time.syncRun + 1) < 3 := by
      rw [if_pos hgood]
      decide
    have hq : s.time.quality = if s.time.present = true then .unchecked else .free := by rw [if_pos hpresent, hquality]
    have hunchecked : (if s.time.state = .block then Quality.locked else .unchecked) = .unchecked :=
      if_neg (by rw [hs]; decide)
    obtain ⟨hrefused, haccepted⟩ := blockCheckIsJudged s hdue
    refine ⟨fun hnot => ?_, fun hin htake => ?_⟩
    · have hjudged := (hrefused (fun h => hnot h.2) hr hrun).1 hs hq
      rw [if_pos hgood, if_pos hgood] at hjudged
      exact hjudged.trans (congrArg Host.Outcome.next (driveAttention_rested hr rfl rfl rfl))
    · intro taken moved
      have hmoved : { moved with present := true } = moved := by
        rw [show moved = { moved with present := s.time.present } from rfl, hpresent]
      have hended (t : TimeFollower)
          (h : exec .frameCompletion s = .next (eventEnd { s with time := t })) :
          exec .frameCompletion s = .next { s with time := t } :=
        h.trans (congrArg Host.Outcome.next (eventEnd_setTime hr t))
      have hjudged := (haccepted ⟨hgood, hin⟩ hrun).1 hs hq
      rw [if_pos hgood, if_pos hgood] at hjudged
      have hold : ¬(s.time.pendingTake = some f.take ∧ s.time.take ≠ some f.take) := fun h => h.2 htake
      obtain ⟨hnear, hfar⟩ := hjudged.2 hpresent (hquality.trans hunchecked.symm)
      refine ⟨fun hn => ?_, fun hn hnone => ?_, fun dc lc hn hsome => ⟨fun hmiss => ?_, fun hhit hlog => ?_⟩⟩
      · have hagreed := hended { moved with present := true } ((hnear hn).1 hold)
        rw [hmoved] at hagreed
        exact hagreed
      · exact hended _ (((hfar hn).1 hnone).1 hold)
      · exact hended _ ((((hfar hn).2 dc lc hsome).1 hmiss).1 hold)
      · have htook := (((hfar hn).2 dc lc hsome).2 hhit).1 hold
        let stepped : TimeFollower := { judged with tref := d, lref := tick, present := true, age := 0, step := none }
        have hstepped : exec .frameCompletion s = .next (eventEnd (setTime
            { (countOne .timeSteps (setTime stepped (appendRecord (.timestep e d
                (if s.time.state = .block then .locked else .unchecked)) (setTime judged s)))).time with
              pendingTake := some f.take }
            (countOne .timeSteps (setTime stepped (appendRecord (.timestep e d
              (if s.time.state = .block then .locked else .unchecked)) (setTime judged s)))))) := htook
        rw [hunchecked, countOne_time] at hstepped
        have hend := eventEnd_step hr hlog (.timestep e d .unchecked) judged moved stepped
        have hpending : ({ (setTime stepped (appendRecord (.timestep e d .unchecked) (setTime judged s))).time with
            pendingTake := some f.take } : TimeFollower) = moved := hmoved
        rw [hpending] at hstepped
        refine ⟨_, hstepped, ?_⟩
        rw [hend]
        refine ⟨?_, ?_, rfl, rfl⟩
        · rw [(countOne_frame _ _).2.1]
          exact appendRecord_log_congr _ rfl
        · exact countOne_counters_congr _ (appendRecord_counters_congr _ rfl rfl)
  · intro f d tick after e near hgood hhours hminutes hseconds hnumber
    obtain ⟨hexec, htime, hlog⟩ := exec_frameCompletion s
    refine ⟨_, hexec, ?_⟩
    rw [htime, hlog]
    intro hlocked
    have haccepted := (accepted_iff f s.time.rate).mpr ⟨hgood, hhours, hminutes, hseconds, hnumber⟩
    obtain ⟨v, hv, hjudged⟩ := (frameEvent_accepted hdue hs haccepted).resolve_left hlocked
    have hword (h : s.time.take = some f.take) : ¬newWord f.take v.time := fun hnew =>
      hnew.2 ((congrArg Reference.take hjudged.reference).trans h)
    have hd : f.decoded v.time.rate = d := congrArg (fun r => f.decoded r.rate) hjudged.reference
    have hkept := updateReference_kept (d := d) hjudged.locked
    obtain ⟨htook, hapart⟩ := updateReference_after (d := d) hjudged.locked
    obtain ⟨k, hk⟩ := acceptFrame_time f v
    have hl (h : s.time.take = some f.take) := acceptFrame_log hjudged.locked (hword h)
    rw [hd] at hk hl
    rw [hv, hk]
    have hframeTick : v.time.frameTick = tick := congrArg Reference.frameTick hjudged.reference
    have hthreshold : v.time.threshold = s.time.threshold := congrArg Reference.threshold hjudged.reference
    have hstep : v.time.step = s.time.step := congrArg Reference.step hjudged.reference
    have hp : v.time.present = true := (congrArg Reference.present hjudged.reference).trans hpresent
    have htref : v.time.tref = s.time.tref := congrArg Reference.tref hjudged.reference
    have hlref : v.time.lref = s.time.lref := congrArg Reference.lref hjudged.reference
    have hage : v.time.age = s.time.age := congrArg Reference.age hjudged.reference
    have hstamp : stampMs v.time v.time.frameTick = e := by
      rw [stampMs, hframeTick, htref, hlref]
      rfl
    have hnear (a b : Nat) : within v.time.threshold a b = true ↔ near a b := by
      rw [hthreshold]
      exact decide_eq_true_iff
    have hagrees : Agrees d v.time ↔ near d e := by
      rw [Agrees, hstamp]
      exact hnear d e
    have hextrapolated (dc : Nat) (lc : Tick) : extrapolated dc lc v.time.frameTick = after dc lc := by
      rw [hframeTick]
      rfl
    generalize updateReference d v = x at *
    have hmoved (h : x.time = { v.time.movedTo d with quality := lockedQuality v.time }) :
        x.time.tref = d ∧ x.time.lref = tick ∧ x.time.present = true ∧ x.time.age = 0 ∧ x.time.step = none := by
      rw [h]
      exact ⟨rfl, hframeTick, rfl, rfl, rfl⟩
    have hheld (h : x = holdStep d v) :
        x.time.tref = s.time.tref ∧ x.time.lref = s.time.lref ∧ x.time.present = true ∧
        x.time.age = s.time.age ∧ x.time.step = some (d, tick) ∧
        (s.time.take = some f.take → (acceptFrame f v).log = s.log) := by
      refine ⟨?_, ?_, ?_, ?_, ?_, fun ht => (hl ht).trans ?_⟩ <;> rw [h]
      · exact htref
      · exact hlref
      · exact hp
      · exact hage
      · exact congrArg (fun y => some (d, y)) hframeTick
      · exact hjudged.log
    refine ⟨fun hn => ?_, fun hn hnone => ?_, fun dc lc hn hsome => ⟨fun hfar => ?_, fun hclose => ?_⟩⟩
    · obtain ⟨hx, hxlog⟩ := htook (.inr (hagrees.mpr hn))
      exact ⟨hmoved hx, fun ht => (hl ht).trans (hxlog.trans hjudged.log)⟩
    · exact hheld ((hapart hp (mt hagrees.mp hn)).1 (hstep.trans hnone))
    · obtain ⟨hmiss, _⟩ := (hapart hp (mt hagrees.mp hn)).2 dc lc (hstep.trans hsome)
      rw [hextrapolated] at hmiss
      exact hheld (hmiss (Bool.eq_false_iff.mpr (mt (hnear d _).mp hfar)))
    · obtain ⟨_, hhit⟩ := (hapart hp (mt hagrees.mp hn)).2 dc lc (hstep.trans hsome)
      rw [hextrapolated] at hhit
      obtain ⟨hx, hxlog⟩ := hhit ((hnear d _).mpr hclose)
      refine ⟨hmoved hx, fun ht => (hl ht).trans (hxlog.trans ?_)⟩
      have hquality : v.time.quality = if x.time.state = .block then .locked else .unchecked := by
        rw [hjudged.quality, judgedQuality_locked hp hjudged.locked, hx]
        rfl
      rw [hstamp, hquality]
      exact appendRecord_log_congr _ hjudged.log

end Sys2Proof.Machine
end

section
/-! PROOFS. The first accepted frame and the take word (R50, R51, R53). -/

namespace Sys2Proof.Machine

/-- The end of an event that has appended a record. -/
theorem eventEnd_appended {s : State} (hr : Rested s) (hok : LogOk s.log) (b : RecordBody) (t : TimeFollower) :
    eventEnd (appendRecord b (setTime t s)) = driveAttention (appendRecord b (setTime t s)) := by
  have hwaits := appendRecord_translator_waits b (s := setTime t s) hok
  obtain ⟨_, _, _, _, hjournal, hholds, _⟩ := appendRecord_frame b (setTime t s)
  exact eventEnd_rested hr hjournal hholds (dozeReady_of_waiting hwaits)

/-- Settles O20. -/
theorem firstFrameAndTakeWord : Obligations.FirstFrameAndTakeWord := by
  refine ⟨fun s hr hdue hs => ?_, fun s hdue hs hquality => ?_⟩
  · intro f d tick e hgood hhours hminutes hseconds hnumber kept moved
    have hrun : (if f.wrong = 0 then 0 else s.time.syncRun + 1) < 3 := by
      rw [if_pos hgood]
      decide
    have hunchecked : (if s.time.state = .block then Quality.locked else .unchecked) = .unchecked :=
      if_neg (by rw [hs]; decide)
    have haccepted := ((blockCheckIsJudged s hdue).2 ⟨hgood, hhours, hminutes, hseconds, hnumber⟩ hrun).1 hs
    refine ⟨fun habsent hfree hpending => ?_, fun hpresent hq hok _ hnear hpending htake => ?_⟩
    · have hjudged := haccepted (hfree.trans (if_neg (by simp [habsent])).symm)
      rw [if_pos hgood, if_pos hgood] at hjudged
      let notice (q : Quality) (state : FollowerState) : Notice :=
        { kind := .time,
          fields := byte (qualityCode q) ++ byte (followerCode state) ++ num 4 (stampMs moved s.time.tick) }
      have hfirst : exec .frameCompletion s = .next (eventEnd (raiseNotice
          (notice (if s.time.state = .block then .locked else .unchecked) s.time.state)
          (setTime { moved with quality := if s.time.state = .block then .locked else .unchecked } s))) :=
        (hjudged.1 habsent hfree).1 (fun h => hpending h.1)
      have hbytes : notice (if s.time.state = .block then .locked else .unchecked) s.time.state
          = { kind := .time, fields := [1, 3] ++ num 4 (stampMs moved s.time.tick) } := by
        rw [hunchecked, hs]
        rfl
      have hended (n : Notice) (t : TimeFollower) :
          eventEnd (raiseNotice n (setTime t s)) = driveAttention (raiseNotice n (setTime t s)) :=
        eventEnd_raiseNotice hr n rfl rfl hr.1
      rw [hbytes, hunchecked, hended] at hfirst
      exact hfirst
    · have hjudged := haccepted (hq.trans (if_pos hpresent).symm)
      rw [if_pos hgood, if_pos hgood] at hjudged
      have hnew : exec .frameCompletion s = .next (eventEnd (appendRecord
          (.take s.time.take f.take { ms := stampMs moved s.time.tick, quality := s.time.quality })
          (setTime { moved with take := some f.take, pendingTake := s.time.pendingTake, quality := s.time.quality }
            s))) := ((hjudged.2 hpresent (hq.trans hunchecked.symm)).1 hnear).2 hpending htake
      rw [hq, hpending, eventEnd_appended hr hok] at hnew
      exact hnew
  · intro f d hgood hhours hminutes hseconds hnumber
    obtain ⟨hexec, htime, hlog⟩ := exec_frameCompletion s
    refine ⟨_, hexec, ?_⟩
    rw [htime, hlog]
    intro hlocked
    have haccepted := (accepted_iff f s.time.rate).mpr ⟨hgood, hhours, hminutes, hseconds, hnumber⟩
    obtain ⟨v, hv, hjudged⟩ := (frameEvent_accepted hdue hs haccepted).resolve_left hlocked
    have hd : f.decoded v.time.rate = d := congrArg (fun r => f.decoded r.rate) hjudged.reference
    obtain ⟨htake, hpending, hstate, htick, hpresent⟩ := updateReference_kept (d := d) hjudged.locked
    obtain ⟨htook, hapart⟩ := updateReference_after (d := d) hjudged.locked
    have haccept : acceptFrame f v = updateTake f.take (updateReference d v) := by rw [acceptFrame, hd]
    have hqualityOk : QualityOk (frameEvent s).time := frameEvent_qualityOk hquality
    rw [hv, haccept] at hqualityOk hlocked ⊢
    intro q new
    have hwords : newWord f.take (updateReference d v).time ↔ new := by
      rw [newWord, htake, hpending]
      exact Iff.of_eq (congrArg (fun r => r.pendingTake = some f.take ∧ r.take ≠ some f.take) hjudged.reference)
    obtain ⟨hold, hnew⟩ := updateTake_after f.take (updateReference d v)
    obtain ⟨k, hk⟩ := updateTake_time f.take (updateReference d v)
    have hq : (updateTake f.take (updateReference d v)).time.quality = q := by
      obtain ⟨_, hjudge | ⟨hsearch, _⟩⟩ := hqualityOk
      · rw [hjudge]
        exact judgedQuality_locked (by rw [hk]; exact hpresent) hlocked
      · exact absurd hsearch hlocked
    have hsame : v.time.take = s.time.take := congrArg Reference.take hjudged.reference
    refine ⟨fun habsent => ?_, hq, by rw [hk], fun h => ?_, fun h => ?_⟩
    · obtain ⟨htime, hlog⟩ := htook (.inl ((congrArg Reference.present hjudged.reference).trans habsent))
      have hlref : v.time.frameTick = s.time.frameTick := congrArg Reference.frameTick hjudged.reference
      rw [hk, htime]
      refine ⟨rfl, hlref, rfl, rfl, rfl, fun h => ?_⟩
      rw [hold (mt hwords.mp h)]
      exact hlog.trans hjudged.log
    · rw [hold (mt hwords.mp h)]
      exact htake.trans hsame
    · obtain ⟨htime, hlog⟩ := hnew (hwords.mpr h)
      refine ⟨by rw [htime], fun hstep => ?_⟩
      have hbooks : (updateReference d v).log = s.log := by
        by_cases hstays : v.time.present = false ∨ Agrees d v.time
        · exact (htook hstays).2.trans hjudged.log
        · obtain ⟨hp, hapart'⟩ := not_or.mp hstays
          rw [(hapart (by simpa using hp) hapart').1 ((congrArg Reference.step hjudged.reference).trans hstep)]
          exact hjudged.log
      have hsTick : v.time.tick = s.time.tick := congrArg Reference.tick hjudged.reference
      have hstamp : stampNow (updateReference d v)
          = { ms := stampMs (updateTake f.take (updateReference d v)).time s.time.tick, quality := q } := by
        rw [← hq, htime, ← hsTick, ← htick]
        rfl
      rw [hlog, htake, hsame, hstamp]
      exact appendRecord_log_congr _ hbooks

end Sys2Proof.Machine
end

section
/-! PROOFS. A frame completed before a cell is judged (R39, R40; log entry 5). -/

namespace Sys2Proof.Machine

/-! ### What the completion of a frame leaves due -/

/-- No frame is due, and the log is `g` or a record in it waits for the Translator. -/
def Completed (g : StrokeLog) (u : State) : Prop :=
  u.time.frameDue = false ∧ LogOk u.log ∧ (u.log = g ∨ u.log.translator.cursor ≠ u.log.head)

variable {g : StrokeLog} {u : State}

theorem Completed.congr {v : State} (h : Completed g u) (ht : v.time.frameDue = false) (hl : v.log = u.log) :
    Completed g v := by
  rw [Completed, hl]
  exact ⟨ht, h.2⟩

theorem Completed.setTime (h : Completed g u) {t : TimeFollower} (ht : t.frameDue = false) :
    Completed g (setTime t u) := h.congr ht rfl

theorem Completed.count (h : Completed g u) (c : Counter) (n : Nat) : Completed g (countEvents c n u) :=
  h.congr (by rw [countEvents_time]; exact h.1) (by simp)

theorem Completed.rejudge (h : Completed g u) : Completed g (rejudge u) := by
  unfold Machine.rejudge
  dsimp only
  split
  · exact h
  · exact h.congr h.1 (by simp)

theorem Completed.record (h : Completed g u) (b : RecordBody) : Completed g (appendRecord b u) := by
  refine ⟨?_, appendRecord_logOk b u h.2.1, .inr (appendRecord_translator_waits b h.2.1)⟩
  rw [(appendRecord_frame b u).2.1]
  exact h.1

theorem Completed.judgeCheck (h : Completed g u) (f : TimeFrame) : Completed g (judgeCheck f u) := by
  have hcounted : Completed g (if checkPasses u.time.lastFrames f then u else countOne .blockErrors u) :=
    ite_kept h (h.count _ _)
  exact ite_kept (ite_kept (hcounted.setTime rfl) (hcounted.setTime hcounted.1)) (hcounted.setTime hcounted.1)

theorem Completed.judgeBlock (h : Completed g u) (first : Bool) (f : TimeFrame) :
    Completed g (judgeBlock first f u) := by
  unfold Machine.judgeBlock searchBlock
  split
  · dsimp only
    split
    · exact (h.setTime (t := { u.time with
        state := .block, expected := 1, history := [], alternate := .inactive, blockLimit := none }) h.1).judgeCheck f
    · exact h.setTime h.1
  · dsimp only
    split
    · exact (h.setTime (t := { u.time with expected := (u.time.expected + 1) % 8 }) h.1).judgeCheck f
    · exact h.setTime h.1
  · exact h
  · exact h

theorem Completed.takeReference (h : Completed g u) (d : Nat) : Completed g (takeReference d u) :=
  (h.setTime (t := u.time.movedTo d) h.1).rejudge

theorem Completed.updateReference (h : Completed g u) (d : Nat) : Completed g (updateReference d u) := by
  have hheld : Completed g (holdStep d u) := h.setTime h.1
  unfold Machine.updateReference
  dsimp only
  split
  · exact h.takeReference d
  · split
    · exact hheld
    · split
      · exact ((h.record _).takeReference d).count _ _
      · exact hheld

theorem Completed.updateTake (h : Completed g u) (w : Nat) : Completed g (updateTake w u) := by
  unfold Machine.updateTake
  dsimp only
  split
  · have hrecorded := (h.setTime (t := { u.time with take := some w }) h.1).record
      (.take u.time.take w (stampNow (Machine.setTime { u.time with take := some w } u)))
    exact hrecorded.setTime hrecorded.1
  · exact h.setTime h.1

theorem Completed.judgeFrame (h : Completed g u) (first : Bool) (f : TimeFrame) :
    Completed g (judgeFrame first f u) := by
  have hjudged := (h.judgeBlock first f).rejudge
  have hkept := hjudged.setTime (t := (Machine.rejudge (Machine.judgeBlock first f u)).time.keeping f) hjudged.1
  unfold Machine.judgeFrame
  dsimp only
  split
  · exact hjudged
  · split
    · exact (hkept.updateReference _).updateTake _
    · exact hkept

theorem frameEvent_completed {s : State} (hok : LogOk s.log) (hdue : s.time.frameDue = true)
    (hs : s.time.state ≠ .search) : Completed s.log (frameEvent s) := by
  have htaken : Completed s.log (taken s) := ⟨rfl, hok, .inl rfl⟩
  have hsync (f : TimeFrame) : Completed s.log (judgeSync f (taken s)) := by
    unfold judgeSync
    split
    · exact htaken.setTime rfl
    · have hcounted := htaken.count .syncErrors (syncErrorCount (taken s).time.mode f)
      dsimp only
      split
      · exact hcounted.setTime rfl
      · exact hcounted.setTime hcounted.1
  rw [frameEvent_due hdue hs]
  unfold completeFrame
  dsimp only
  split
  · exact (hsync _).rejudge
  · exact (hsync _).judgeFrame _ _

/-- So the passage to DOZE is not due when it was not. -/
theorem Completed.dozeReady {s : State} (h : Completed s.log (frameEvent s)) (hd : dozeReady s = false) :
    Machine.dozeReady (frameEvent s) = false := by
  obtain ⟨_, _, hsame | hwaits⟩ := h
  · obtain ⟨hcapture, hdict, htrans, _, _, hpower, _⟩ := frameEvent_frame s
    rw [← hd]
    unfold Machine.dozeReady loadPaused
    rw [hsame, hcapture, hdict, htrans, hpower]
  · exact dozeReady_of_waiting hwaits

end Sys2Proof.Machine
end

section
/-! PROOFS. A decoded cell: the search, the lock, the alternate search and the frames (R40, R41, R44). -/

namespace Sys2Proof.Machine

/-! ### The search at a cell (R40, R44) -/

theorem endsInSync_iff (cells : List Bool) : endsInSync cells = true ↔
    cells.drop (cells.length - 12) = [true, true, false, true, true, true, true, false, true, false, false, true] :=
  beq_iff_eq

theorem searchCell_fresh (cells : List Bool) (counter : BitVec 6) (excluded : Option (BitVec 6)) :
    searchCell cells counter excluded none
      = .goOn (if endsInSync cells = true ∧ excluded ≠ some counter then some { position := counter, count := 1 }
          else none) := by
  have hcond : (endsInSync cells && excluded != some counter) = true ↔
      endsInSync cells = true ∧ excluded ≠ some counter := by simp
  unfold searchCell
  dsimp only
  by_cases h : endsInSync cells = true ∧ excluded ≠ some counter
  · rw [if_pos (hcond.mpr h), if_pos h]
  · rw [if_neg (mt hcond.mp h), if_neg h]

theorem searchCell_elsewhere {cells : List Bool} {counter : BitVec 6} {excluded : Option (BitVec 6)} {k : Candidate}
    (h : k.position ≠ counter) : searchCell cells counter excluded (some k) = .goOn (some k) := if_neg h

theorem searchCell_missed {cells : List Bool} {counter : BitVec 6} {excluded : Option (BitVec 6)} {k : Candidate}
    (h : k.position = counter) (hsync : ¬endsInSync cells = true) :
    searchCell cells counter excluded (some k) = .goOn none := (if_pos h).trans (if_neg hsync)

theorem searchCell_again {cells : List Bool} {counter : BitVec 6} {excluded : Option (BitVec 6)} {k : Candidate}
    (h : k.position = counter) (hsync : endsInSync cells = true) (hcount : k.count < 2) :
    searchCell cells counter excluded (some k) = .goOn (some { position := counter, count := k.count + 1 }) := by
  rw [← h]
  exact (if_pos rfl).trans ((if_pos hsync).trans (if_neg (by omega)))

theorem searchCell_third {cells : List Bool} {counter : BitVec 6} {excluded : Option (BitVec 6)} {k : Candidate}
    (h : k.position = counter) (hsync : endsInSync cells = true) (hcount : 2 ≤ k.count) :
    searchCell cells counter excluded (some k) = .found counter :=
  (if_pos h).trans ((if_pos hsync).trans (if_pos (by omega)))

/-! ### A cell judged, by the state (R40, R41, R44) -/

theorem judgeCell_search {u : State} (h : u.time.state = .search) {c : Option Candidate}
    (hc : searchCell u.time.cells u.time.cellCounter none u.time.candidate = .goOn c) :
    judgeCell u = setTime { u.time with candidate := c } u := by
  unfold judgeCell
  dsimp only
  split
  next => rw [hc]
  next hs _ => rw [h] at hs; cases hs
  next hs _ => exact absurd h hs

theorem judgeCell_locks {u : State} (h : u.time.state = .search) {p : BitVec 6}
    (hc : searchCell u.time.cells u.time.cellCounter none u.time.candidate = .found p) :
    judgeCell u = lockAt p u := by
  unfold judgeCell
  dsimp only
  split
  next => rw [hc]
  next hs _ => rw [h] at hs; cases hs
  next hs _ => exact absurd h hs

theorem judgeCell_locked {u : State} (hs : u.time.state ≠ .search)
    (ha : ∀ c, u.time.state = .frame → u.time.alternate ≠ .searching c) : judgeCell u = frameCell u := by
  unfold judgeCell
  dsimp only
  split
  next h => exact absurd h hs
  next c h h' => exact absurd h' (ha c h)
  next => rfl

theorem judgeCell_alternate {u : State} {c c' : Option Candidate} (hs : u.time.state = .frame)
    (ha : u.time.alternate = .searching c)
    (hc : searchCell u.time.cells u.time.cellCounter (some u.time.alignment) c = .goOn c') :
    judgeCell u = frameCell (setTime { u.time with alternate := .searching c' } u) := by
  unfold judgeCell
  dsimp only
  split
  next h => rw [hs] at h; cases h
  next _ _ h =>
    rw [ha] at h
    cases h
    rw [hc]
  next h => exact absurd ha (h c hs)

theorem judgeCell_moves {u : State} {c : Option Candidate} {p : BitVec 6} (hs : u.time.state = .frame)
    (ha : u.time.alternate = .searching c)
    (hc : searchCell u.time.cells u.time.cellCounter (some u.time.alignment) c = .found p) :
    judgeCell u = moveTo p u := by
  unfold judgeCell
  dsimp only
  split
  next h => rw [hs] at h; cases h
  next _ _ h =>
    rw [ha] at h
    cases h
    rw [hc]
  next h => exact absurd ha (h c hs)

/-- The Time Follower when a cell has been compared with the alignment of the lock (R38, R41). -/
def TimeFollower.marked (t : TimeFollower) : TimeFollower :=
  if t.cellCounter = t.alignment then { t with frameTick := t.tick }
  else if t.cellCounter = t.alignment + 52 then { t with frameDue := true }
  else t

theorem frameCell_eq (t : TimeFollower) (s : State) : frameCell (setTime t s) = setTime t.marked s := by
  unfold frameCell TimeFollower.marked
  rw [setTime_time]
  dsimp only
  by_cases h : t.cellCounter = t.alignment
  · rw [if_pos h, if_pos h]
    rfl
  · rw [if_neg h, if_neg h]
    by_cases h' : t.cellCounter = t.alignment + 52
    · rw [if_pos h', if_pos h']
      rfl
    · rw [if_neg h', if_neg h']

theorem lockMoved_iff (previous : Option (BitVec 6)) (p : BitVec 6) :
    lockMoved previous p = true ↔ ¬(previous = none ∨ previous = some p) := by
  cases previous <;> simp [lockMoved]

theorem moveTo_eq (p : BitVec 6) (t : TimeFollower) {s : State} (h : stampNow (setTime t s) = stampNow s) :
    moveTo p (setTime t s) = setTime { t with
      alignment := p, previousLock := some p, syncRun := 0, blockRun := none, step := none,
      alternate := .inactive, window := 1, lockFrame := true, frameDue := false, frameTick := t.tick }
      (countOne .alignChanges s) := by
  unfold moveTo
  rw [countOne_setTime _ h]
  rfl

/-- The Time Follower locked at a position (R40). -/
def TimeFollower.lockedAt (p : BitVec 6) (t : TimeFollower) : TimeFollower :=
  { t with
    state := .frame, candidate := none, alignment := p, previousLock := some p, window := 1, lockFrame := true,
    frameDue := false, frameTick := t.tick, blockLimit := some t.tick }

/-- The part with a lock elsewhere than the previous counted. -/
def moveCounted (p : BitVec 6) (s : State) : State :=
  if s.time.previousLock = none ∨ s.time.previousLock = some p then s else countOne .alignChanges s

theorem lockAt_eq (p : BitVec 6) {t : TimeFollower} {s : State} (h : stampNow (setTime t s) = stampNow s)
    (hprevious : t.previousLock = s.time.previousLock) :
    lockAt p (setTime t s) = rejudge (setTime (t.lockedAt p) (moveCounted p s)) := by
  unfold lockAt moveCounted
  dsimp only
  rw [setTime_time, hprevious]
  by_cases hm : s.time.previousLock = none ∨ s.time.previousLock = some p
  · rw [if_pos hm, if_neg (fun hl => (lockMoved_iff _ p).mp hl hm)]
    rfl
  · rw [if_neg hm, if_pos ((lockMoved_iff _ p).mpr hm), countOne_setTime _ h]
    rfl

/-! ### The attention output (R175) -/

/-- The part with the attention output at a level. -/
def withAttention (a : Bool) (s : State) : State := { s with ports := { s.ports with attention := a } }

theorem setTime_withAttention (t : TimeFollower) (a : Bool) (s : State) :
    setTime t (withAttention a s) = withAttention a (setTime t s) := rfl

theorem driveAttention_withAttention (a : Bool) (s : State) : driveAttention (withAttention a s) = driveAttention s :=
  rfl

theorem countOne_withAttention (c : Counter) (a : Bool) (s : State) :
    countOne c (withAttention a s) = withAttention a (countOne c s) := by
  unfold countOne countEvents
  rw [if_neg one_ne_zero, if_neg one_ne_zero]
  dsimp only
  rw [apply_ite (withAttention a)]
  rfl

theorem rejudge_withAttention (a : Bool) (s : State) : rejudge (withAttention a s) = withAttention a (rejudge s) := by
  unfold rejudge
  dsimp only
  rw [apply_ite (withAttention a)]
  rfl

theorem frameCell_withAttention (a : Bool) (s : State) :
    frameCell (withAttention a s) = withAttention a (frameCell s) :=
  frameCell_eq s.time (withAttention a s) |>.trans (congrArg (withAttention a) (frameCell_eq s.time s).symm)

theorem lockAt_withAttention (p : BitVec 6) (a : Bool) (s : State) :
    lockAt p (withAttention a s) = withAttention a (lockAt p s) := by
  have hcounted : moveCounted p (withAttention a s) = withAttention a (moveCounted p s) := by
    unfold moveCounted
    rw [countOne_withAttention, apply_ite (withAttention a)]
    rfl
  have hform (v : State) : lockAt p v = rejudge (setTime (v.time.lockedAt p) (moveCounted p v)) := by
    rw [← lockAt_eq p (t := v.time) (s := v) rfl rfl, setTime_self]
  rw [hform, hform, hcounted, setTime_withAttention, rejudge_withAttention]
  rfl

theorem moveTo_withAttention (p : BitVec 6) (a : Bool) (s : State) :
    moveTo p (withAttention a s) = withAttention a (moveTo p s) := by
  unfold moveTo
  rw [countOne_withAttention]
  rfl

/-- A cell is judged without a look at the attention output. -/
theorem judgeCell_withAttention (a : Bool) (s : State) :
    judgeCell (withAttention a s) = withAttention a (judgeCell s) := by
  by_cases hs : s.time.state = .search
  · cases hc : searchCell s.time.cells s.time.cellCounter none s.time.candidate with
    | goOn c =>
      rw [judgeCell_search (u := s) hs hc, judgeCell_search (u := withAttention a s) hs hc]
      rfl
    | found p => rw [judgeCell_locks hs hc, judgeCell_locks (u := withAttention a s) hs hc, lockAt_withAttention]
  by_cases ha : ∃ c, s.time.state = .frame ∧ s.time.alternate = .searching c
  · obtain ⟨c, hframe, ha⟩ := ha
    cases hc : searchCell s.time.cells s.time.cellCounter (some s.time.alignment) c with
    | goOn c' =>
      rw [judgeCell_alternate (u := s) hframe ha hc, judgeCell_alternate (u := withAttention a s) hframe ha hc,
        setTime_withAttention, frameCell_withAttention]
      rfl
    | found p =>
      rw [judgeCell_moves hframe ha hc, judgeCell_moves (u := withAttention a s) hframe ha hc, moveTo_withAttention]
  · have hnone (c : Option Candidate) (hframe : s.time.state = .frame) : s.time.alternate ≠ .searching c :=
      fun h => ha ⟨c, hframe, h⟩
    rw [judgeCell_locked (u := s) hs hnone, judgeCell_locked (u := withAttention a s) hs hnone,
      frameCell_withAttention]

/-! ### The decoded cell -/

theorem exec_cellDecoded (digit : Bool) (s : State) : exec (.cellDecoded digit) s
    = .next (eventEnd (judgeCell (setTime (pushCell digit (frameEvent s).time) (frameEvent s)))) := rfl

theorem judgeCell_ended {s u : State} (hr : Rested s) (hj : u.journal = s.journal) (hh : u.holds = s.holds)
    (hd : dozeReady u = false) : eventEnd (judgeCell u) = driveAttention (judgeCell u) := by
  obtain ⟨hcapture, hlog, hdict, htrans, hjournal, hholds, hpower, _⟩ := judgeCell_frame u
  refine eventEnd_rested hr (hjournal.trans hj) (hholds.trans hh) ?_
  rw [← hd]
  unfold dozeReady loadPaused
  rw [hcapture, hlog, hdict, htrans, hpower]

/-- The Time Follower after a cell (R36, R38). -/
def TimeFollower.celled (digit : Bool) (t : TimeFollower) : TimeFollower :=
  { t with
    cellCounter := t.cellCounter + 1, silence := some t.tick,
    cells := (t.cells ++ [digit]).drop ((t.cells ++ [digit]).length - 64) }

/-- A cell on a part at rest with no frame to complete. -/
theorem exec_cell_rested {digit : Bool} {s : State} (hr : Rested s) (hdue : s.time.frameDue = false) :
    exec (.cellDecoded digit) s = .next (driveAttention (judgeCell (setTime (s.time.celled digit) s))) := by
  rw [exec_cellDecoded, frameEvent_not_due hdue]
  exact congrArg Host.Outcome.next (judgeCell_ended hr rfl rfl hr.1)

/-- A cell that changes the Time Follower alone. -/
theorem exec_cell_time {digit : Bool} {s : State} {t : TimeFollower} (hr : Rested s) (hdue : s.time.frameDue = false)
    (h : judgeCell (setTime (s.time.celled digit) s) = setTime t s) :
    exec (.cellDecoded digit) s = .next { s with time := t } := by
  rw [exec_cell_rested hr hdue, h]
  exact congrArg Host.Outcome.next (driveAttention_rested hr rfl rfl rfl)

/-- A cell after a frame is judged as it is after the completion of that frame. -/
theorem exec_cell_completed {digit : Bool} {s t : State} (hr : Rested s) (hok : LogOk s.log)
    (hdue : s.time.frameDue = true) (hs : s.time.state ≠ .search) (ht : exec .frameCompletion s = .next t) :
    exec (.cellDecoded digit) s = exec (.cellDecoded digit) t := by
  have hcompleted := frameEvent_completed hok hdue hs
  have ht : t = eventEnd (frameEvent s) := by
    have hexec : exec .frameCompletion s = .next (eventEnd (frameEvent s)) := rfl
    rw [hexec] at ht
    cases ht
    rfl
  obtain ⟨_, _, _, hjournal, hholds, _⟩ := frameEvent_frame s
  have hawake := hcompleted.dozeReady hr.1
  obtain ⟨hnone, _⟩ := hcompleted
  rw [eventEnd_rested hr hjournal hholds hawake] at ht
  rw [exec_cellDecoded, exec_cellDecoded]
  generalize frameEvent s = u at *
  have hdriven : t = withAttention (attentionLevel u) u := ht
  have hsettled : frameEvent t = t := frameEvent_not_due (hdriven ▸ hnone)
  have hbefore := judgeCell_ended (u := setTime (pushCell digit u.time) u) hr hjournal hholds hawake
  have hafter := judgeCell_ended (u := setTime (pushCell digit u.time) (withAttention (attentionLevel u) u))
    hr hjournal hholds hawake
  rw [hsettled, hdriven]
  show Host.Outcome.next (eventEnd (judgeCell (setTime (pushCell digit u.time) u)))
    = .next (eventEnd (judgeCell (setTime (pushCell digit u.time) (withAttention (attentionLevel u) u))))
  rw [hbefore, hafter, setTime_withAttention, judgeCell_withAttention, driveAttention_withAttention]

/-- Settles O17. -/
theorem cellDecodedSearchesForTheLock : Obligations.CellDecodedSearchesForTheLock := by
  refine ⟨fun digit s hr hdue => ?_, fun _ _ _ hr hok hdue hs ht => exec_cell_completed hr hok hdue hs ht,
    fun digit s c hr hdue hs ha => ?_⟩
  · intro counter all cells found base went
    have hfound : endsInSync cells = true ↔ found := endsInSync_iff cells
    refine ⟨fun hs => ?_, fun hs hinactive => ?_⟩
    · have hgo (c : Option Candidate) (hc : searchCell cells counter none s.time.candidate = .goOn c) :
          went { base with candidate := c } :=
        exec_cell_time hr hdue (judgeCell_search (u := setTime (s.time.celled digit) s) hs hc)
      have hstays (hc : searchCell cells counter none s.time.candidate = .goOn s.time.candidate) : went base :=
        hgo s.time.candidate hc
      refine ⟨fun hnone => ?_, fun k hk => ?_⟩
      · rw [hnone] at hstays hgo
        have hfresh := searchCell_fresh cells counter none
        refine ⟨fun hno => hstays ?_, fun hsync => hgo _ ?_⟩
        · rw [hfresh, if_neg (fun h => hno (hfound.mp h.1))]
        · rw [hfresh, if_pos ⟨hfound.mpr hsync, by rintro ⟨⟩⟩]
      · rw [hk] at hstays hgo
        refine ⟨fun hp => hstays (searchCell_elsewhere hp),
          fun hp hno => hgo none (searchCell_missed hp (mt hfound.mp hno)), fun hp hsync hone => hgo _ ?_,
          fun hp hsync htwo => ?_⟩
        · rw [searchCell_again hp (hfound.mpr hsync) (by omega), hone]
        · intro u locked
          have hthird : searchCell cells counter none s.time.candidate = .found counter := by
            rw [hk]
            exact searchCell_third hp (hfound.mpr hsync) htwo.ge
          have hjudged := judgeCell_locks (u := setTime (s.time.celled digit) s) hs hthird
          have hlocked : (s.time.celled digit).lockedAt counter = locked := by
            rw [show locked = { locked with frameDue := s.time.frameDue } from rfl, hdue]
            rfl
          rw [lockAt_eq counter (t := s.time.celled digit) rfl rfl, hlocked] at hjudged
          have hexec := exec_cell_rested (digit := digit) hr hdue
          rw [hjudged] at hexec
          refine ⟨fun habsent hfree => ?_, fun hpresent hq => ?_⟩
          · rw [rejudge_setTime (judgedQuality_absent (t := locked) habsent), if_pos (show locked.quality = _ from hfree)]
              at hexec
            exact hexec
          · have hlock : judgedQuality locked = .unchecked := judgedQuality_locked hpresent (by rintro ⟨⟩)
            rw [rejudge_setTime hlock, if_neg (show locked.quality ≠ _ from hq)] at hexec
            exact hexec
    · have hmarked (t : TimeFollower) (h : (s.time.celled digit).marked = t) : went t := by
        refine exec_cell_time hr hdue ?_
        rw [judgeCell_locked (u := setTime (s.time.celled digit) s) hs (fun c _ h => ?_), frameCell_eq, h]
        exact Alternate.noConfusion (hinactive.symm.trans h)
      refine ⟨fun hc => hmarked _ (if_pos hc), fun hc => hmarked _ ((if_neg fun h => ?_).trans (if_pos hc)),
        fun hc hc' => hmarked _ ((if_neg hc).trans (if_neg hc'))⟩
      have heq : s.time.alignment = s.time.alignment + 52 := h.symm.trans hc
      bv_omega
  · intro counter all cells found base searching
    have hfound : endsInSync cells = true ↔ found := endsInSync_iff cells
    have hgo (c' : Option Candidate) (hc : searchCell cells counter (some s.time.alignment) c = .goOn c') :
        searching c' := by
      refine exec_cell_time hr hdue ?_
      rw [judgeCell_alternate (u := setTime (s.time.celled digit) s) hs ha hc, setTime_setTime, frameCell_eq]
      rfl
    refine ⟨fun hnone => ?_, fun k hk => ?_⟩
    · subst hnone
      have hfresh := searchCell_fresh cells counter (some s.time.alignment)
      refine ⟨fun hno => hgo _ ?_, fun hsync hp => hgo _ ?_⟩
      · rw [hfresh, if_neg]
        rintro ⟨hsync, hp⟩
        rcases hno with h | h
        · exact h (hfound.mp hsync)
        · exact hp (congrArg some h.symm)
      · rw [hfresh, if_pos ⟨hfound.mpr hsync, fun h => hp (Option.some.inj h).symm⟩]
    · subst hk
      refine ⟨fun hp => hgo _ (searchCell_elsewhere hp), fun hp hno => hgo _ (searchCell_missed hp (mt hfound.mp hno)),
        fun hp hsync hfew => hgo _ (searchCell_again hp (hfound.mpr hsync) hfew), fun hp hsync hmany => ?_⟩
      have hthird : searchCell cells counter (some s.time.alignment) (some k) = .found counter :=
        searchCell_third hp (hfound.mpr hsync) hmany
      rw [exec_cell_rested hr hdue, judgeCell_moves (u := setTime (s.time.celled digit) s) hs ha hthird,
        moveTo_eq counter (s.time.celled digit) rfl]
      rfl

end Sys2Proof.Machine
end
